-- ==== Sys2Proof/Word.lean ====
section
/-!
DEFINITION. The word types of the machine (10_state.md R21, 20_memory.md R50, R51) and the one
address arithmetic everything uses: 32-bit addresses that wrap modulo 2^32 (R50, D5).
-/

namespace Sys2Proof

/-- A longword: the contents of a general register, an address, the PSL (R21, R27, R50). -/
abbrev Word := BitVec 32

/-- The smallest addressable unit of memory (R47). -/
abbrev Byte := BitVec 8

/-- A general register number, the low nibble of a specifier byte (R21, R85). -/
abbrev Reg := Fin 16

/-- The argument pointer AP (R22, D2). -/
abbrev Reg.ap : Reg := 12
/-- The frame pointer FP (R22, D2). -/
abbrev Reg.fp : Reg := 13
/-- The stack pointer SP (R22, D2). -/
abbrev Reg.sp : Reg := 14
/-- The program counter PC (R22). -/
abbrev Reg.pc : Reg := 15

/-- The address `i` bytes above `a`, modulo 2^32 (R50, R54). -/
abbrev Word.plus (a : Word) (i : Nat) : Word := a + BitVec.ofNat 32 i

end Sys2Proof
end

