-- ==== Sys2Proof/Machine/Psl.lean ====
section
/-!
DEFINITION. The processor status longword as a 32-bit word with named fields (10_state.md R27). Its
must-be-zero bits are kept as they are, since REI, RET, CALLS and LDPCTX move the word whole.
-/

namespace Sys2Proof.Machine

/-- The four condition codes (R28). -/
structure Flags where
  n : Bool
  z : Bool
  v : Bool
  c : Bool
  deriving DecidableEq, Repr

/-- The word with its `len` bits from bit `lo` up replaced by `v` (00_scope.md R6). -/
def setField (lo len : Nat) (v : BitVec len) (w : Word) : Word :=
  (w &&& ~~~(((BitVec.allOnes len).setWidth 32) <<< lo)) ||| ((v.setWidth 32) <<< lo)

/-- The word with bit `i` replaced by `b`. -/
def setBit (i : Nat) (b : Bool) (w : Word) : Word := setField i 1 (BitVec.ofBool b) w

/-- C, bit 0. -/
def pslC (w : Word) : Bool := w.getLsbD 0
/-- V, bit 1. -/
def pslV (w : Word) : Bool := w.getLsbD 1
/-- Z, bit 2. -/
def pslZ (w : Word) : Bool := w.getLsbD 2
/-- N, bit 3. -/
def pslN (w : Word) : Bool := w.getLsbD 3
/-- T, trace enable, bit 4. -/
def pslT (w : Word) : Bool := w.getLsbD 4
/-- IV, integer overflow trap enable, bit 5 (R29). -/
def pslIV (w : Word) : Bool := w.getLsbD 5
/-- FU, floating underflow fault enable, bit 6. -/
def pslFU (w : Word) : Bool := w.getLsbD 6
/-- DV, decimal overflow trap enable, bit 7. -/
def pslDV (w : Word) : Bool := w.getLsbD 7
/-- IPL, bits 20:16 (R30). -/
def pslIPL (w : Word) : BitVec 5 := w.extractLsb' 16 5
/-- PRV, the previous mode, bits 23:22 (R31). -/
def pslPRV (w : Word) : BitVec 2 := w.extractLsb' 22 2
/-- CUR, the current mode, bits 25:24: 0 kernel to 3 user (R31). -/
def pslCUR (w : Word) : BitVec 2 := w.extractLsb' 24 2
/-- IS, executing on the interrupt stack, bit 26 (R32). -/
def pslIS (w : Word) : Bool := w.getLsbD 26
/-- FPD, first part done, bit 27. -/
def pslFPD (w : Word) : Bool := w.getLsbD 27
/-- TP, trace pending, bit 30. -/
def pslTP (w : Word) : Bool := w.getLsbD 30
/-- CM, compatibility mode, bit 31. -/
def pslCM (w : Word) : Bool := w.getLsbD 31

/-- The mask of must-be-zero bits (R27). -/
def pslMbz : Word := 0x3020FF00

/-- A PSL with a bit the model gives no meaning to: T, TP, CM or FPD (R29, D27). -/
def pslUnmodelled (w : Word) : Bool := pslT w || pslTP w || pslCM w || pslFPD w

/-- The condition codes of a PSL. -/
def pslFlags (w : Word) : Flags := { n := pslN w, z := pslZ w, v := pslV w, c := pslC w }

/-- The PSL with its condition codes, bits 3:0, replaced (R28). -/
def pslWithFlags (f : Flags) (w : Word) : Word :=
  setBit 3 f.n (setBit 2 f.z (setBit 1 f.v (setBit 0 f.c w)))

/-- The PSL with IPL replaced (R41). -/
def pslWithIPL (l : BitVec 5) (w : Word) : Word := setField 16 5 l w

/-- The PSL with IS replaced (R32). -/
def pslWithIS (b : Bool) (w : Word) : Word := setBit 26 b w

/-- The PSL after CALLS or CALLG with entry mask `m` (45_procedure_call.md R236, R237): condition
codes and FU cleared, IV from bit 14 and DV from bit 15 of the mask. -/
def pslAfterCall (m : BitVec 16) (w : Word) : Word :=
  setBit 7 (m.getLsbD 15) (setBit 6 false (setBit 5 (m.getLsbD 14)
    (pslWithFlags { n := false, z := false, v := false, c := false } w)))

/-- The PSL after RET with status longword `l`: bits 7:0 from it (R240). -/
def pslAfterReturn (l w : Word) : Word := setField 0 8 (l.extractLsb' 0 8) w

/-- The PSL that exception or interrupt entry sets up: kernel mode, everything else 0 but the IS,
PRV and IPL given (60_exceptions.md R314). -/
def pslForEntry (is : Bool) (prv : BitVec 2) (ipl : BitVec 5) : Word :=
  setBit 26 is (setField 22 2 prv (setField 16 5 ipl 0))

/-- The PSL after reset: IS, IPL 31, kernel mode (R33). -/
def pslReset : Word := 0x041F0000

end Sys2Proof.Machine
end

