-- ==== Sys2Proof/Machine/Flags.lean ====
section
/-!
DEFINITION. What the operations compute, result and condition codes together, once for every width
N: exact integers first, narrowed at the end (40_integer_arithmetic.md R130 to R134, 41_logical.md
R161, R162, 42_move.md R176, 43_compare_test.md R200 to R202, 48_shift_rotate.md R285 to R288).
-/

namespace Sys2Proof.Machine

/-- The result of an operation: the value written, the condition codes, and whether a divisor was
zero (R134). -/
structure Alu (n : Nat) where
  value : BitVec n
  flags : Flags
  divideByZero : Bool := false
  deriving DecidableEq, Repr

/-- Whether an exact integer is a signed number of `n` bits. -/
def fitsSigned (n : Nat) (x : Int) : Bool :=
  decide (-(2 ^ (n - 1) : Int) ≤ x) && decide (x < (2 ^ (n - 1) : Int))

/-- The addition law (R131). -/
def addLaw {n : Nat} (a b : BitVec n) : Alu n :=
  let r := BitVec.ofNat n (a.toNat + b.toNat)
  { value := r
    flags := { n := r.msb, z := r == 0, v := !fitsSigned n (a.toInt + b.toInt),
               c := decide (2 ^ n ≤ a.toNat + b.toNat) } }

/-- The subtraction law: `min` minus `sub`; C is the borrow (R132). -/
def subLaw {n : Nat} (min sub : BitVec n) : Alu n :=
  let r := BitVec.ofInt n (min.toInt - sub.toInt)
  { value := r
    flags := { n := r.msb, z := r == 0, v := !fitsSigned n (min.toInt - sub.toInt),
               c := decide (min.toNat < sub.toNat) } }

/-- The multiplication law: signed, the low N bits of the exact product (R133). -/
def mulLaw {n : Nat} (a b : BitVec n) : Alu n :=
  let r := BitVec.ofInt n (a.toInt * b.toInt)
  { value := r
    flags := { n := r.msb, z := r == 0, v := !fitsSigned n (a.toInt * b.toInt), c := false } }

/-- The division law: `divd` by `divr`, truncated toward zero; on a zero divisor or a quotient that
does not fit, the dividend (R134). -/
def divLaw {n : Nat} (divr divd : BitVec n) : Alu n :=
  let zero := divr == 0
  let ovf := !zero && !fitsSigned n (Int.tdiv divd.toInt divr.toInt)
  let r := if zero || ovf then divd else BitVec.ofInt n (Int.tdiv divd.toInt divr.toInt)
  { value := r
    flags := { n := r.msb, z := r == 0, v := zero || ovf, c := false }
    divideByZero := zero }

/-- N and Z of a value, V clear, C kept (R162, R176). -/
def moveFlags {n : Nat} (r : BitVec n) (c : Bool) : Flags :=
  { n := r.msb, z := r == 0, v := false, c := c }

/-- Bit set (R161). -/
def bisLaw {n : Nat} (mask d : BitVec n) : BitVec n := d ||| mask

/-- Bit clear (R161). -/
def bicLaw {n : Nat} (mask d : BitVec n) : BitVec n := d &&& ~~~mask

/-- Exclusive or (R161). -/
def xorLaw {n : Nat} (mask d : BitVec n) : BitVec n := d ^^^ mask

/-- The compare law: N is the exact signed comparison, C the unsigned one (R200). -/
def cmpFlags {n : Nat} (s1 s2 : BitVec n) : Flags :=
  { n := decide (s1.toInt < s2.toInt), z := s1 == s2, v := false,
    c := decide (s1.toNat < s2.toNat) }

/-- The test law (R201). -/
def tstFlags {n : Nat} (s : BitVec n) : Flags :=
  { n := s.msb, z := s == 0, v := false, c := false }

/-- The bit-test law (R202). -/
def bitFlags {n : Nat} (mask s : BitVec n) (c : Bool) : Flags := moveFlags (s &&& mask) c

/-- The arithmetic shift: a count of 0 or more multiplies by a power of 2, a negative one divides by
it, rounding down; V when a left shift loses information (R285, R286, R287). -/
def ashLaw {n : Nat} (cnt : BitVec 8) (x : BitVec n) : Alu n :=
  if 0 ≤ cnt.toInt then
    let exact := x.toInt * 2 ^ cnt.toInt.toNat
    let r := BitVec.ofInt n exact
    { value := r, flags := { n := r.msb, z := r == 0, v := exact != r.toInt, c := false } }
  else
    let r := BitVec.ofInt n (x.toInt / 2 ^ (-cnt.toInt).toNat)
    { value := r, flags := { n := r.msb, z := r == 0, v := false, c := false } }

/-- The rotate: left by the signed count modulo 32 (R285, R288). -/
def rotLaw (cnt : BitVec 8) (x : BitVec 32) : BitVec 32 :=
  x.rotateLeft (cnt.toInt % 32).toNat

/-- The flags of MOVC5: the two lengths compared as words (47_string.md R273). -/
def lengthFlags (sl dl : BitVec 16) : Flags := cmpFlags sl dl

end Sys2Proof.Machine
end

