-- ==== Sys2Proof/Machine/Bytes.lean ====
section
/-!
DEFINITION. Byte order, once for the instruction stream and for data: the byte at the lowest address
is the least significant (20_memory.md R52, R53, R54).
-/

namespace Sys2Proof

/-- The value of bytes in ascending address order: the sum of `b_i * 256^i` (R54). -/
def leValue : List Byte → Nat
  | [] => 0
  | b :: bs => b.toNat + 256 * leValue bs

/-- The low `k` bytes of `v` in ascending address order (R54). -/
def leBytes : Nat → Nat → List Byte
  | 0, _ => []
  | k + 1, v => BitVec.ofNat 8 v :: leBytes k (v / 256)

end Sys2Proof
end

