-- ==== Sys2Proof/Machine/Memory.lean ====
section
/-!
DEFINITION. Memory as plain data (10_state.md R47, 20_memory.md R50): the bytes that were loaded or
written, as (address, byte) pairs with strictly rising addresses below 2^32. An unlisted address has
no value of its own (R49, R54); what reading it draws is `State.byteAt` of Ops.lean (assumption 7).
-/

namespace Sys2Proof.Machine

/-- The listed bytes, addresses strictly rising. -/
abbrev Memory := List Host.Cell

/-- The byte listed at address `x`, if there is one. -/
def memGet : Memory → Nat → Option Byte
  | [], _ => none
  | c :: m, x => if x = c.1 then some c.2 else memGet m x

/-- The memory with byte `v` listed at address `x`. -/
def memSet : Memory → Nat → Byte → Memory
  | [], x, v => [(x, v)]
  | c :: m, x, v =>
    if x < c.1 then (x, v) :: c :: m
    else if x = c.1 then (x, v) :: m
    else c :: memSet m x v

/-- The memory with the bytes `vs` listed from address `a` upward, modulo 2^32. -/
def memLoad (m : Memory) (a : Word) : List Byte → Memory
  | [] => m
  | v :: vs => memLoad (memSet m a.toNat v) (a.plus 1) vs

/-- The canonical form: addresses strictly rising and below 2^32. -/
def memWf (m : Memory) : Bool :=
  decide (m.Pairwise fun c d => c.1 < d.1) && m.all fun c => decide (c.1 < 2 ^ 32)

/-- A set of addresses as a strictly rising list: `x` put in (10_state.md R48). -/
def addrInsert (x : Nat) : List Nat → List Nat
  | [] => [x]
  | y :: ys => if x < y then x :: y :: ys else if x = y then y :: ys else y :: addrInsert x ys

/-- The canonical form of a set of addresses. -/
def addrsWf (l : List Nat) : Bool :=
  decide (l.Pairwise (· < ·)) && l.all fun x => decide (x < 2 ^ 32)

end Sys2Proof.Machine
end

