-- ==== Sys2Proof/Config.lean ====
section
/-!
DEFINITION. The implementation parameters of 00_scope.md R5 as one record of plain data, and the
one free value of the spec. A state carries its `Config` (no step changes it), so a statement about
every state is a statement about every configuration (assumptions 1 and 3 to 6).
-/

namespace Sys2Proof

/-- The seventeen processor registers of the source's table (10_state.md R36). -/
inductive ProcReg where
  | ksp | esp | ssp | usp
  | p0br | p0lr | p1br | p1lr | sbr | slr
  | pcbb | scbb | ipl | astlvl | iccs | todr | mapen
  deriving DecidableEq, Repr

/-- What an instruction fetch does with a byte stored to since the last REI (20_memory.md R67, D20). -/
inductive SmcPolicy where
  /-- Fetching such a byte is refused: the spec's default. -/
  | refuse
  /-- Fetch reads current memory, like any read. -/
  | coherent
  deriving DecidableEq, Repr

/-- A range of byte addresses, both ends included. -/
structure Region where
  first : Nat
  last  : Nat
  deriving DecidableEq, Repr

/-- The implementation parameters (R5). `impl` is left out: no rule depends on it. -/
structure Config where
  /-- Where no memory exists: `mem_valid` is false exactly on these ranges (R47, R60, D29). -/
  absent : List Region
  /-- Whether a deliverable exception is taken through the system control block (R301, D12). -/
  deliver : Bool
  /-- The self-modifying-code policy (R67, D20). -/
  smc : SmcPolicy
  /-- The processor-register number map `prnum` (R36, D18). -/
  prnum : List (Word × ProcReg)
  deriving DecidableEq, Repr

/-- FREE VALUE. What a read of a byte of memory that was neither loaded nor written draws
(20_memory.md R54, 70_reset_and_hazards.md R352): an arbitrary value for each address, fixed at
launch. It has no body, so every claim holds for every such value (assumption 7). -/
opaque Config.unwrittenByte : Nat → Byte

end Sys2Proof
end

