-- ==== Sys2Proof/Machine/Prnum.lean ====
section
/-!
DEFINITION. The default processor-register number map: the source's table, read as hexadecimal
(10_state.md R36, 90_conflicts.md C6).
-/

namespace Sys2Proof.Machine

/-- The number and the register of each row of R36. -/
def prnumDefault : List (Word × ProcReg) :=
  [(0x00, .ksp), (0x01, .esp), (0x02, .ssp), (0x03, .usp),
   (0x08, .p0br), (0x09, .p0lr), (0x0A, .p1br), (0x0B, .p1lr), (0x0C, .sbr), (0x0D, .slr),
   (0x10, .pcbb), (0x11, .scbb), (0x12, .ipl), (0x18, .astlvl), (0x20, .iccs), (0x24, .todr),
   (0x38, .mapen)]

/-- The register whose number is `k` under the map, if any: the whole longword selects (R36,
46_privileged.md R258). -/
def prnumFind : List (Word × ProcReg) → Word → Option ProcReg
  | [], _ => none
  | p :: m, k => if k = p.1 then some p.2 else prnumFind m k

/-- The address execution starts at after reset (70_reset_and_hazards.md R351, assumption 6). -/
def resetPc : Word := 0x00000200

/-- The configuration of the machine after reset: the defaults of 00_scope.md R5 (exceptions end a run, D12;
`smc = .refuse`, D20; the source's `prnum`, D18), and memory everywhere (assumptions 1, 3 and 4). -/
def configDefault : Config :=
  { absent := [], deliver := false, smc := .refuse, prnum := prnumDefault }

end Sys2Proof.Machine
end

