-- ==== Sys2Proof/Machine/State.lean ====
section
/-!
DEFINITION. The architectural state (10_state.md R20) as plain data, the reasons a step can stop
(00_scope.md R10, 60_exceptions.md R302), and the state after reset (R49).
-/

namespace Sys2Proof.Machine

/-- The five stack pointers that are not live in R14; the live one's slot is stale (R35). -/
structure SpBank where
  k : Word
  e : Word
  s : Word
  u : Word
  i : Word
  deriving DecidableEq, Repr

/-- One answer of the interrupt oracle: a level and the longword index of its SCB vector, an offset
that is a multiple of 4 below 0x200 (60_exceptions.md R311). -/
structure Irq where
  level : BitVec 5
  index : BitVec 7
  deriving DecidableEq, Repr

/-- The machine. -/
structure State where
  /-- R0 to R15; R15 is the program counter (R21, R25). -/
  reg : Vector Word 16
  /-- The processor status longword (R27). -/
  psl : Word
  /-- The banked stack pointers (R35). -/
  spbank : SpBank
  /-- P0BR, processor register 08 (R38). -/
  p0br : Word
  /-- P0LR, 09 (R38). -/
  p0lr : Word
  /-- P1BR, 0A (R38). -/
  p1br : Word
  /-- P1LR, 0B (R38). -/
  p1lr : Word
  /-- SBR, 0C (R38). -/
  sbr : Word
  /-- SLR, 0D (R38). -/
  slr : Word
  /-- PCBB, 10 (R39). -/
  pcbb : Word
  /-- SCBB, 11 (R40). -/
  scbb : Word
  /-- ASTLVL, 18: three bits (R42). -/
  astlvl : BitVec 3
  /-- ICCS, 20: every access is refused, no rule changes it (R43, assumption 15). -/
  iccs : Word
  /-- TODR, 24: every access is refused, no rule changes it (R43, assumption 15). -/
  todr : Word
  /-- MAPEN, 38: one bit (R44). -/
  mapen : BitVec 1
  /-- Memory (R47). -/
  mem : Memory
  /-- Set by HALT (46_privileged.md R262). -/
  halted : Bool
  /-- The addresses stored to since the last REI, under `smc = .refuse` (R48). -/
  written : List Nat
  /-- The configuration: the model's own field, changed by no step (00_scope.md R5, assumption 1). -/
  cfg : Config
  /-- What the interrupt oracle will answer at the coming instruction boundaries, `none` when the
  list is used up: the model's own field (R311, assumption 5). -/
  irqs : List (Option Irq)
  deriving DecidableEq, Repr

/-- The two arithmetic traps (60_exceptions.md R306). -/
inductive ArithTrap where
  /-- Type 1. -/
  | integerOverflow
  /-- Type 2. -/
  | integerDivideByZero
  deriving DecidableEq, Repr

/-- Why the machine stops with an exception that is not entered (R301, R302). Each is safe: the
hardware goes on in a handler where the model stops. -/
inductive Fault where
  /-- Raised by any access to an address where no memory exists; never delivered (R303, D36). Safe. -/
  | machineCheck (addr : Word)
  /-- Raised by HALT, LDPCTX, SVPCTX, MTPR, MFPR outside kernel mode, when exceptions are not
  delivered (R304). Safe. -/
  | privilegedInstruction
  /-- Raised by the operand and image checks of CALLS, CALLG, RET, REI, LDPCTX, MTPR, when exceptions
  are not delivered (R307). Safe. -/
  | reservedOperand
  /-- Raised by operand-specifier evaluation, when exceptions are not delivered (R305). Safe. -/
  | reservedAddressingMode
  /-- Raised after the arithmetic and shift instructions, when exceptions are not delivered; it
  carries the state in which the instruction has completed (R301, R306, R310). Safe. -/
  | arithmeticTrap (type : ArithTrap) (completed : State)
  deriving DecidableEq, Repr

/-- Why the model gives a step no meaning (00_scope.md R10). Each is safe: the model stops where the
hardware goes on. -/
inductive Refusal where
  /-- Raised by exec's arm of an instruction that has no meaning yet. Safe. -/
  | notModelled (mnemonic : String)
  /-- Raised by step on an opcode byte that is not one of the 88 (R109, D11). Safe. -/
  | unlistedOpcode (op : Byte)
  /-- Raised by step if its window of 31 bytes held no whole instruction, which never happens. Safe. -/
  | truncatedInstruction
  /-- Raised by register mode naming R15, or R14 for a quadword (R106). Safe. -/
  | unpredictablePcRegister
  /-- Raised by register deferred mode on R15 (R106). Safe. -/
  | unpredictablePcDeferred
  /-- Raised by autodecrement mode on R15 (R106). Safe. -/
  | unpredictablePcAutodecrement
  /-- Raised by an immediate as a written or modified operand (R106). Safe. -/
  | unpredictableImmediateDestination
  /-- Raised by an indexed specifier whose base steps the index register or is an immediate (R106). Safe. -/
  | unpredictableIndex
  /-- Raised by fetching a byte stored to since the last REI (20_memory.md R67). Safe. -/
  | modifiedCodeWithoutRei
  /-- Raised by REI on a PSL image, and by step on a PSL, with T, TP, CM or FPD set (R29, D27). Safe. -/
  | unmodelledPslBit
  /-- Raised by REI returning to a mode at or above ASTLVL (R252, D17). Safe. -/
  | astDeliveryNotModelled
  /-- Raised by LDPCTX off the interrupt stack (R254, D24). Safe. -/
  | ldpctxOffInterruptStack
  /-- Raised by MTPR and MFPR on a number outside the table (R258, D26). Safe. -/
  | unknownProcessorRegister (k : Word)
  /-- Raised by MTPR and MFPR naming ICCS or TODR (R259, R261, D28). Safe. -/
  | clockNotModelled
  /-- Raised by MTPR setting MAPEN bit 0, and by step with MAPEN set (R62, R259, D6). Safe. -/
  | translationNotModelled
  /-- Raised by exception entry through a vector with code 2 or 3 (R314, D37). Safe. -/
  | unsupportedVectorCode
  /-- Raised by a machine check inside exception entry (R314, R317, D37). Safe. -/
  | exceptionDuringEntry
  /-- Raised by an interrupt above IPL when exceptions are not delivered (R311, R314). Safe. -/
  | interruptNotDelivered
  deriving DecidableEq, Repr

/-- The machine right after reset (R33, R49, R350). R0 to R14, the banked stack pointers and the
processor registers other than ASTLVL and MAPEN have no reset value in the spec: the model names
zero for them (assumption 9, unsafe). -/
def State.reset : State where
  reg := (Vector.replicate 16 0).set 15 resetPc
  psl := pslReset
  spbank := { k := 0, e := 0, s := 0, u := 0, i := 0 }
  p0br := 0
  p0lr := 0
  p1br := 0
  p1lr := 0
  sbr := 0
  slr := 0
  pcbb := 0
  scbb := 0
  astlvl := 4
  iccs := 0
  todr := 0
  mapen := 0
  mem := []
  halted := false
  written := []
  cfg := configDefault
  irqs := []

end Sys2Proof.Machine
end

