-- ==== Sys2Proof/Machine/Ops.lean ====
section
/-!
DEFINITION. The named operations over registers, memory, the instruction stream and the stack
(00_scope.md R8, 20_memory.md R54, 30_encoding.md R80), how a step ends (R10, 60_exceptions.md R301),
and the one entry sequence of exceptions and interrupts (R314).
-/

namespace Sys2Proof.Machine

/-! ## How an instruction ends before its next state -/

/-- The outcome of a step of this machine. -/
abbrev Outcome := Host.Outcome State Fault Refusal

/-- The exceptions of class fault and abort (60_exceptions.md R302). -/
inductive Exn where
  | machineCheck (addr : Word)
  | privilegedInstruction
  | reservedOperand
  | reservedAddressingMode
  deriving DecidableEq, Repr

/-- What ends an instruction (R8, R301, R309): a fault, a trap with the state in which the
instruction has completed, or a refusal. -/
inductive Stop where
  | fault (e : Exn)
  | trap (t : ArithTrap) (completed : State)
  | refuse (r : Refusal)
  deriving DecidableEq, Repr

/-! ## Registers -/

/-- R[n] (R8). -/
def State.r (s : State) (n : Reg) : Word := s.reg[n]

/-- R[n] <- v (R8). -/
def State.setR (s : State) (n : Reg) (v : Word) : State := { s with reg := s.reg.set n v }

/-- The program counter (10_state.md R25). -/
abbrev State.pc (s : State) : Word := s.r Reg.pc

/-- The stack pointer that is live (R35). -/
abbrev State.sp (s : State) : Word := s.r Reg.sp

/-- pc <- v (R8). -/
abbrev State.setPc (s : State) (v : Word) : State := s.setR Reg.pc v

/-- The PSL replaced. -/
def State.setPsl (s : State) (w : Word) : State := { s with psl := w }

/-- The condition codes replaced (R28). -/
def State.setFlags (s : State) (f : Flags) : State := s.setPsl (pslWithFlags f s.psl)

/-! ## Memory (20_memory.md) -/

/-- Whether memory exists at an address: `mem_valid` (R47, R60). -/
def Config.valid (c : Config) (a : Word) : Bool :=
  !c.absent.any fun g => decide (g.first ≤ a.toNat) && decide (a.toNat ≤ g.last)

/-- The byte at an address: the one listed, or the free value of a byte never loaded or written
(R54, assumption 7). -/
def State.byteAt (s : State) (a : Word) : Byte :=
  (memGet s.mem a.toNat).getD (Config.unwrittenByte a.toNat)

/-- The `k` bytes from an address upward, modulo 2^32. -/
def State.bytesAt (s : State) (a : Word) : Nat → List Byte
  | 0 => []
  | k + 1 => s.byteAt a :: s.bytesAt (a.plus 1) k

/-- Memory exists at each of the `k` addresses from `a`; else the machine check of the first where
it does not (R54, R303). -/
def checkValid (c : Config) (a : Word) : Nat → Except Stop Unit
  | 0 => .ok ()
  | k + 1 => if Config.valid c a then checkValid c (a.plus 1) k
      else .error (.fault (.machineCheck a))

/-- MemRead of a value of `bits` bits (R54). -/
def memRead (bits : Nat) (a : Word) (s : State) : Except Stop (BitVec bits) := do
  checkValid s.cfg a (bits / 8)
  .ok (BitVec.ofNat bits (leValue (s.bytesAt a (bits / 8))))

/-- One byte stored, and its address recorded under `smc = .refuse` (R54, R67). -/
def State.storeByte (s : State) (a : Word) (v : Byte) : State :=
  { s with
    mem := memSet s.mem a.toNat v
    written := if s.cfg.smc = .refuse then addrInsert a.toNat s.written else s.written }

/-- Bytes stored from an address upward, modulo 2^32. -/
def State.storeBytes (s : State) (a : Word) : List Byte → State
  | [] => s
  | v :: vs => (s.storeByte a v).storeBytes (a.plus 1) vs

/-- MemWrite of a value of `bits` bits: every address is checked before any byte is written (R54). -/
def memWrite (bits : Nat) (a : Word) (v : BitVec bits) (s : State) : Except Stop State := do
  checkValid s.cfg a (bits / 8)
  .ok (s.storeBytes a (leBytes (bits / 8) v.toNat))

/-! ## The instruction stream (30_encoding.md R80) -/

/-- None of the `k` addresses from `a` was stored to since the last REI (R67). -/
def checkUnmodified (s : State) (a : Word) : Nat → Except Stop Unit
  | 0 => .ok ()
  | k + 1 =>
    if s.cfg.smc = .refuse ∧ a.toNat ∈ s.written then .error (.refuse .modifiedCodeWithoutRei)
    else checkUnmodified s (a.plus 1) k

/-- Fetch of `k` bytes: the checks, and the program counter moved past them. What the bytes say is in
the decoded instruction (assumption 12). -/
def fetch (k : Nat) (s : State) : Except Stop State := do
  checkUnmodified s s.pc k
  checkValid s.cfg s.pc k
  .ok (s.setPc (s.pc.plus k))

/-! ## The stack (45_procedure_call.md R235) -/

/-- Push32 (R8). -/
def push32 (v : Word) (s : State) : Except Stop State :=
  memWrite 32 (s.sp - 4) v (s.setR Reg.sp (s.sp - 4))

/-- Pop32 (R8). -/
def pop32 (s : State) : Except Stop (Word × State) := do
  let v ← memRead 32 s.sp s
  .ok (v, s.setR Reg.sp (s.sp + 4))

/-! ## Stack pointers per mode (10_state.md R35) -/

/-- The five slots of the bank. -/
inductive Slot where
  | k | e | s | u | i
  deriving DecidableEq, Repr

/-- The slot of the stack pointer that a PSL makes live (R35). -/
def bankOf (psl : Word) : Slot :=
  if pslIS psl then .i
  else match (pslCUR psl).toNat with
    | 0 => .k
    | 1 => .e
    | 2 => .s
    | _ => .u

/-- SPbank[b]. -/
def SpBank.get (b : SpBank) : Slot → Word
  | .k => b.k | .e => b.e | .s => b.s | .u => b.u | .i => b.i

/-- SPbank[b] <- v. -/
def SpBank.put (b : SpBank) (v : Word) : Slot → SpBank
  | .k => { b with k := v }
  | .e => { b with e := v }
  | .s => { b with s := v }
  | .u => { b with u := v }
  | .i => { b with i := v }

/-- SPbank[b] of the state. -/
def State.banked (s : State) (b : Slot) : Word := s.spbank.get b

/-- SPbank[b] <- v. -/
def State.setBanked (s : State) (b : Slot) (v : Word) : State :=
  { s with spbank := s.spbank.put v b }

/-- The live stack pointer is stored into slot `old` and loaded from slot `new` (R35). -/
def State.switchStack (s : State) (old new : Slot) : State :=
  let t := s.setBanked old s.sp
  t.setR Reg.sp (t.banked new)

/-! ## Taking an exception or an interrupt (60_exceptions.md R301, R310, R314) -/

/-- What enters: an exception, or an interrupt of a level. -/
inductive Entry where
  | exception
  | interrupt (level : BitVec 5)
  deriving DecidableEq, Repr

/-- Longwords pushed, the last of the list first, so that the first one ends on top (R314). -/
def pushParams : List Word → State → Except Stop State
  | [], s => .ok s
  | p :: ps, s => do
    let s ← pushParams ps s
    push32 p s

/-- The entry sequence (R314): the vector at SCBB + `off` picks the stack and the handler; the old
PSL, the saved PC and the parameters are pushed. -/
def enter (kind : Entry) (off savedPc : Word) (params : List Word) (s : State) :
    Except Stop State := do
  let vec ← memRead 32 (s.scbb + off) s
  if vec.getLsbD 1 then
    .error (.refuse .unsupportedVectorCode)
  else
    let old := s.psl
    let onIs := pslIS old || vec.getLsbD 0
    let t := if pslIS old then s else s.switchStack (bankOf old) (if vec.getLsbD 0 then .i else .k)
    let psl := match kind with
      | .interrupt level => pslForEntry onIs 0 level
      | .exception => pslForEntry onIs (pslCUR old) (if vec.getLsbD 0 then 31 else pslIPL old)
    let t ← push32 old (t.setPsl psl)
    let t ← push32 savedPc t
    let t ← pushParams params t
    .ok (t.setPc (vec &&& 0xFFFFFFFC))

/-- The outcome of an entry: a machine check inside it is refused (R314, R317). -/
def takeEntry (kind : Entry) (off savedPc : Word) (params : List Word) (s : State) :
    Outcome :=
  match enter kind off savedPc params s with
  | .ok t => .next t
  | .error (.refuse r) => .refused r
  | .error (.fault _) => .refused .exceptionDuringEntry
  | .error (.trap _ _) => .refused .exceptionDuringEntry

/-- A fault or abort raised by the instruction that began in state `s`: everything it did is undone
and the saved PC is the opcode's (R301, R302, R310). -/
def raiseFault (e : Exn) (s : State) : Outcome :=
  match e with
  | .machineCheck a => .fault (.machineCheck a)
  | .privilegedInstruction =>
    if s.cfg.deliver then takeEntry .exception 0x10 s.pc [] s else .fault .privilegedInstruction
  | .reservedOperand =>
    if s.cfg.deliver then takeEntry .exception 0x18 s.pc [] s else .fault .reservedOperand
  | .reservedAddressingMode =>
    if s.cfg.deliver then takeEntry .exception 0x1C s.pc [] s else .fault .reservedAddressingMode

/-- The type code of an arithmetic trap (R306). -/
def trapCode : ArithTrap → Word
  | .integerOverflow => 1
  | .integerDivideByZero => 2

/-- A trap raised after the instruction has completed in state `t`: the saved PC is the next
instruction's and the type code is pushed (R306, R310). -/
def raiseTrap (k : ArithTrap) (t : State) : Outcome :=
  if t.cfg.deliver then takeEntry .exception 0x34 t.pc [trapCode k] t
  else .fault (.arithmeticTrap k t)

/-- The outcome of an instruction that began in state `s` (R10, R301). -/
def conclude (s : State) : Except Stop State → Outcome
  | .ok t => .next t
  | .error (.fault e) => raiseFault e s
  | .error (.trap k t) => raiseTrap k t
  | .error (.refuse r) => .refused r

/-- An instruction: its opcode byte is fetched, then `body` runs (R80, R82, 20_memory.md R69). -/
def runInstr (s : State) (body : State → Except Stop State) : Outcome :=
  conclude s (do
    let t ← fetch 1 s
    body t)

/-- KernelOnly() (46_privileged.md R250). -/
def kernelOnly (s : State) : Except Stop Unit :=
  if pslCUR s.psl = 0 then .ok () else .error (.fault .privilegedInstruction)

/-! ## Return from an exception (46_privileged.md R252, 60_exceptions.md R316) -/

/-- Whether REI's checks turn a PSL image down, from the PSL `old` (R252). -/
def reiRejects (old new : Word) : Bool :=
  decide (pslCUR new < pslCUR old)
  || (pslIS new && !pslIS old)
  || (pslIS new && pslCUR new != 0)
  || (pslIS new && pslIPL new == 0)
  || (decide (0 < pslIPL new) && pslCUR new != 0)
  || decide (pslPRV new < pslCUR new)
  || decide (pslIPL old < pslIPL new)
  || (new &&& pslMbz) != 0

/-- The return: PC and PSL popped and checked, the stack switched to that of the restored mode, and
the record of stored bytes emptied (R252, R67). -/
def returnFromException (s : State) : Except Stop State := do
  let (newPc, t) ← pop32 s
  let (newPsl, t) ← pop32 t
  if reiRejects s.psl newPsl then .error (.fault .reservedOperand)
  else if pslUnmodelled newPsl then .error (.refuse .unmodelledPslBit)
  else
    let t := t.switchStack (bankOf s.psl) (bankOf newPsl)
    let t := (t.setPsl newPsl).setPc newPc
    if !pslIS newPsl && decide (t.astlvl.toNat ≤ (pslCUR newPsl).toNat) then
      .error (.refuse .astDeliveryNotModelled)
    else .ok { t with written := [] }

end Sys2Proof.Machine
end

