-- ==== Sys2Proof/Syntax.lean ====
section
/-!
DEFINITION. The instructions as syntax: one constructor per row of spec/opcode_table.json
(30_encoding.md R114), with their operand fields decoded (R83, R85 to R99).
-/

namespace Sys2Proof

/-- The operand data types b, w, l, q (00_scope.md R9, 20_memory.md R51). -/
inductive Size where
  | b | w | l | q
  deriving DecidableEq, Repr

/-- The bytes of an operand of a size (R51). -/
@[reducible] def Size.bytes : Size → Nat
  | .b => 1 | .w => 2 | .l => 4 | .q => 8

/-- The bits of an operand of a size (R51). -/
@[reducible] def Size.bits : Size → Nat
  | .b => 8 | .w => 16 | .l => 32 | .q => 64

/-- The access types r, w, m, a of a general operand specifier (R9). -/
inductive Access where
  | read | write | modify | address
  deriving DecidableEq, Repr

/-- An operand specifier without an index (30_encoding.md R85 to R98): its specifier byte and the
displacement, constant or address after it. The forms that R105 faults or refuses are syntax too,
since what they do happens when the specifier is evaluated. -/
inductive Base where
  /-- `00` to `3F`: a 6-bit literal (R86). -/
  | literal (v : BitVec 6)
  /-- `4n` in the base position of an indexed specifier: reserved (R87), nothing after it is read. -/
  | nestedIndex (n : Reg)
  /-- `5n` (R88). -/
  | register (n : Reg)
  /-- `6n` (R89). -/
  | deferred (n : Reg)
  /-- `7n` (R90). -/
  | autodec (n : Reg)
  /-- `8n`, n not 15 (R91). -/
  | autoinc (n : Reg)
  /-- `8F` and the constant, of the operand's size (R95). -/
  | immediate (v : BitVec 64)
  /-- `9n`, n not 15 (R92). -/
  | autoincDeferred (n : Reg)
  /-- `9F` and a 4-byte address (R96). -/
  | absolute (a : Word)
  /-- `An bb` (R93; with n = 15 relative, R97). -/
  | byteDisp (n : Reg) (d : BitVec 8)
  /-- `Bn bb` (R94, R98). -/
  | byteDispDeferred (n : Reg) (d : BitVec 8)
  /-- `Cn ww` (R93, R97). -/
  | wordDisp (n : Reg) (d : BitVec 16)
  /-- `Dn ww` (R94, R98). -/
  | wordDispDeferred (n : Reg) (d : BitVec 16)
  /-- `En ll` (R93, R97). -/
  | longDisp (n : Reg) (d : BitVec 32)
  /-- `Fn ll` (R94, R98). -/
  | longDispDeferred (n : Reg) (d : BitVec 32)
  deriving DecidableEq, Repr

/-- A general operand specifier: a base alone, or `4x` and a base (R87). -/
inductive Spec where
  | direct (b : Base)
  | indexed (x : Reg) (b : Base)
  deriving DecidableEq, Repr

/-- The instructions, in the table's order. `bnequ`, `beqlu`, `bgequ` and `blssu` are the table's second
spellings of the words of `bneq`, `beql`, `bcc` and `bcs` (30_encoding.md R113, assumption 8). -/
inductive Instr where
  /-- HALT: opcode 00 (R262). -/
  | halt
  /-- REI: opcode 02 (R252). -/
  | rei
  /-- RET: opcode 04 (R240). -/
  | ret
  /-- RSB: opcode 05 (R244). -/
  | rsb
  /-- LDPCTX: opcode 06 (R254). -/
  | ldpctx
  /-- SVPCTX: opcode 07 (R256). -/
  | svpctx
  /-- BRB disp.bb: opcode 11 (R218). -/
  | brb (disp : BitVec 8)
  /-- BNEQ disp.bb: opcode 12 (R221). -/
  | bneq (disp : BitVec 8)
  /-- BNEQU disp.bb: opcode 12 (R221). -/
  | bnequ (disp : BitVec 8)
  /-- BEQL disp.bb: opcode 13 (R220). -/
  | beql (disp : BitVec 8)
  /-- BEQLU disp.bb: opcode 13 (R220). -/
  | beqlu (disp : BitVec 8)
  /-- BGTR disp.bb: opcode 14 (R224). -/
  | bgtr (disp : BitVec 8)
  /-- BLEQ disp.bb: opcode 15 (R223). -/
  | bleq (disp : BitVec 8)
  /-- JSB dst.ab: opcode 16 (R242). -/
  | jsb (dst : Spec)
  /-- BGEQ disp.bb: opcode 18 (R225). -/
  | bgeq (disp : BitVec 8)
  /-- BLSS disp.bb: opcode 19 (R222). -/
  | blss (disp : BitVec 8)
  /-- BVC disp.bb: opcode 1C (R226). -/
  | bvc (disp : BitVec 8)
  /-- BVS disp.bb: opcode 1D (R227). -/
  | bvs (disp : BitVec 8)
  /-- BCC disp.bb: opcode 1E (R228). -/
  | bcc (disp : BitVec 8)
  /-- BGEQU disp.bb: opcode 1E (R228). -/
  | bgequ (disp : BitVec 8)
  /-- BCS disp.bb: opcode 1F (R229). -/
  | bcs (disp : BitVec 8)
  /-- BLSSU disp.bb: opcode 1F (R229). -/
  | blssu (disp : BitVec 8)
  /-- MOVC3 len.rw, src.ab, dst.ab: opcode 28 (R272). -/
  | movc3 (len : Spec) (src : Spec) (dst : Spec)
  /-- CMPC3 len.rw, src1.ab, src2.ab: opcode 29 (R274). -/
  | cmpc3 (len : Spec) (src1 : Spec) (src2 : Spec)
  /-- MOVC5 srclen.rw, src.ab, fill.rb, dstlen.rw, dst.ab: opcode 2C (R273). -/
  | movc5 (srclen : Spec) (src : Spec) (fill : Spec) (dstlen : Spec) (dst : Spec)
  /-- BRW disp.bw: opcode 31 (R219). -/
  | brw (disp : BitVec 16)
  /-- LOCC char.rb, len.rw, addr.ab: opcode 3A (R275). -/
  | locc (ch : Spec) (len : Spec) (addr : Spec)
  /-- SKPC char.rb, len.rw, addr.ab: opcode 3B (R276). -/
  | skpc (ch : Spec) (len : Spec) (addr : Spec)
  /-- MOVAW src.aw, dst.wl: opcode 3E (R185). -/
  | movaw (src : Spec) (dst : Spec)
  /-- PUSHAW src.aw: opcode 3F (R188). -/
  | pushaw (src : Spec)
  /-- ASHL cnt.rb, src.rl, dst.wl: opcode 78 (R286). -/
  | ashl (cnt : Spec) (src : Spec) (dst : Spec)
  /-- ASHQ cnt.rb, src.rq, dst.wq: opcode 79 (R287). -/
  | ashq (cnt : Spec) (src : Spec) (dst : Spec)
  /-- CLRQ dst.wq: opcode 7C (R194). -/
  | clrq (dst : Spec)
  /-- MOVQ src.rq, dst.wq: opcode 7D (R183). -/
  | movq (src : Spec) (dst : Spec)
  /-- ADDB2 src.rb, dst.mb: opcode 80 (R136). -/
  | addb2 (src : Spec) (dst : Spec)
  /-- ADDB3 src1.rb, src2.rb, dst.wb: opcode 81 (R139). -/
  | addb3 (src1 : Spec) (src2 : Spec) (dst : Spec)
  /-- SUBB2 src.rb, dst.mb: opcode 82 (R142). -/
  | subb2 (src : Spec) (dst : Spec)
  /-- MULB2 src.rb, dst.mb: opcode 84 (R146). -/
  | mulb2 (src : Spec) (dst : Spec)
  /-- DIVB2 src.rb, dst.mb: opcode 86 (R150). -/
  | divb2 (src : Spec) (dst : Spec)
  /-- BISB2 mask.rb, dst.mb: opcode 88 (R163). -/
  | bisb2 (mask : Spec) (dst : Spec)
  /-- BICB2 mask.rb, dst.mb: opcode 8A (R166). -/
  | bicb2 (mask : Spec) (dst : Spec)
  /-- XORB2 mask.rb, dst.mb: opcode 8C (R169). -/
  | xorb2 (mask : Spec) (dst : Spec)
  /-- MOVB src.rb, dst.wb: opcode 90 (R180). -/
  | movb (src : Spec) (dst : Spec)
  /-- CMPB src1.rb, src2.rb: opcode 91 (R203). -/
  | cmpb (src1 : Spec) (src2 : Spec)
  /-- BITB mask.rb, src.rb: opcode 93 (R209). -/
  | bitb (mask : Spec) (src : Spec)
  /-- CLRB dst.wb: opcode 94 (R191). -/
  | clrb (dst : Spec)
  /-- TSTB src.rb: opcode 95 (R206). -/
  | tstb (src : Spec)
  /-- INCB dst.mb: opcode 96 (R154). -/
  | incb (dst : Spec)
  /-- DECB dst.mb: opcode 97 (R157). -/
  | decb (dst : Spec)
  /-- ROTL cnt.rb, src.rl, dst.wl: opcode 9C (R288). -/
  | rotl (cnt : Spec) (src : Spec) (dst : Spec)
  /-- MOVAB src.ab, dst.wl: opcode 9E (R184). -/
  | movab (src : Spec) (dst : Spec)
  /-- PUSHAB src.ab: opcode 9F (R187). -/
  | pushab (src : Spec)
  /-- ADDW2 src.rw, dst.mw: opcode A0 (R137). -/
  | addw2 (src : Spec) (dst : Spec)
  /-- ADDW3 src1.rw, src2.rw, dst.ww: opcode A1 (R140). -/
  | addw3 (src1 : Spec) (src2 : Spec) (dst : Spec)
  /-- SUBW2 src.rw, dst.mw: opcode A2 (R143). -/
  | subw2 (src : Spec) (dst : Spec)
  /-- MULW2 src.rw, dst.mw: opcode A4 (R147). -/
  | mulw2 (src : Spec) (dst : Spec)
  /-- DIVW2 src.rw, dst.mw: opcode A6 (R151). -/
  | divw2 (src : Spec) (dst : Spec)
  /-- BISW2 mask.rw, dst.mw: opcode A8 (R164). -/
  | bisw2 (mask : Spec) (dst : Spec)
  /-- BICW2 mask.rw, dst.mw: opcode AA (R167). -/
  | bicw2 (mask : Spec) (dst : Spec)
  /-- XORW2 mask.rw, dst.mw: opcode AC (R170). -/
  | xorw2 (mask : Spec) (dst : Spec)
  /-- MOVW src.rw, dst.ww: opcode B0 (R181). -/
  | movw (src : Spec) (dst : Spec)
  /-- CMPW src1.rw, src2.rw: opcode B1 (R204). -/
  | cmpw (src1 : Spec) (src2 : Spec)
  /-- BITW mask.rw, src.rw: opcode B3 (R210). -/
  | bitw (mask : Spec) (src : Spec)
  /-- CLRW dst.ww: opcode B4 (R192). -/
  | clrw (dst : Spec)
  /-- TSTW src.rw: opcode B5 (R207). -/
  | tstw (src : Spec)
  /-- INCW dst.mw: opcode B6 (R155). -/
  | incw (dst : Spec)
  /-- DECW dst.mw: opcode B7 (R158). -/
  | decw (dst : Spec)
  /-- ADDL2 src.rl, dst.ml: opcode C0 (R138). -/
  | addl2 (src : Spec) (dst : Spec)
  /-- ADDL3 src1.rl, src2.rl, dst.wl: opcode C1 (R141). -/
  | addl3 (src1 : Spec) (src2 : Spec) (dst : Spec)
  /-- SUBL2 src.rl, dst.ml: opcode C2 (R144). -/
  | subl2 (src : Spec) (dst : Spec)
  /-- SUBL3 src1.rl, src2.rl, dst.wl: opcode C3 (R145). -/
  | subl3 (src1 : Spec) (src2 : Spec) (dst : Spec)
  /-- MULL2 src.rl, dst.ml: opcode C4 (R148). -/
  | mull2 (src : Spec) (dst : Spec)
  /-- MULL3 src1.rl, src2.rl, dst.wl: opcode C5 (R149). -/
  | mull3 (src1 : Spec) (src2 : Spec) (dst : Spec)
  /-- DIVL2 src.rl, dst.ml: opcode C6 (R152). -/
  | divl2 (src : Spec) (dst : Spec)
  /-- DIVL3 src1.rl, src2.rl, dst.wl: opcode C7 (R153). -/
  | divl3 (src1 : Spec) (src2 : Spec) (dst : Spec)
  /-- BISL2 mask.rl, dst.ml: opcode C8 (R165). -/
  | bisl2 (mask : Spec) (dst : Spec)
  /-- BICL2 mask.rl, dst.ml: opcode CA (R168). -/
  | bicl2 (mask : Spec) (dst : Spec)
  /-- XORL2 mask.rl, dst.ml: opcode CC (R171). -/
  | xorl2 (mask : Spec) (dst : Spec)
  /-- MOVL src.rl, dst.wl: opcode D0 (R182). -/
  | movl (src : Spec) (dst : Spec)
  /-- CMPL src1.rl, src2.rl: opcode D1 (R205). -/
  | cmpl (src1 : Spec) (src2 : Spec)
  /-- BITL mask.rl, src.rl: opcode D3 (R211). -/
  | bitl (mask : Spec) (src : Spec)
  /-- CLRL dst.wl: opcode D4 (R193). -/
  | clrl (dst : Spec)
  /-- TSTL src.rl: opcode D5 (R208). -/
  | tstl (src : Spec)
  /-- INCL dst.ml: opcode D6 (R156). -/
  | incl (dst : Spec)
  /-- DECL dst.ml: opcode D7 (R159). -/
  | decl (dst : Spec)
  /-- MTPR src.rl, procreg.rl: opcode DA (R258). -/
  | mtpr (src : Spec) (procreg : Spec)
  /-- MFPR procreg.rl, dst.wl: opcode DB (R260). -/
  | mfpr (procreg : Spec) (dst : Spec)
  /-- PUSHL src.rl: opcode DD (R190). -/
  | pushl (src : Spec)
  /-- MOVAL src.al, dst.wl: opcode DE (R186). -/
  | moval (src : Spec) (dst : Spec)
  /-- PUSHAL src.al: opcode DF (R189). -/
  | pushal (src : Spec)
  /-- CALLG arglist.ab, dst.ab: opcode FA (R238). -/
  | callg (arglist : Spec) (dst : Spec)
  /-- CALLS numarg.rl, dst.ab: opcode FB (R236). -/
  | calls (numarg : Spec) (dst : Spec)
  deriving DecidableEq, Repr

end Sys2Proof
end

