-- ==== Sys2Proof/Machine/Operands.lean ====
section
/-!
DEFINITION. Operand specifiers (30_encoding.md R84 to R106): what each form yields for each access
type, in the order R100 gives its fetches, register steps, pointer reads, faults and refusals.
-/

namespace Sys2Proof.Machine

/-- What an operand specifier yields (R84): a constant, a register (for a quadword the pair n+1, n),
or memory at an address. -/
inductive Operand where
  | lit (v : BitVec 64)
  | reg (n : Reg)
  | mem (addr : Word)
  deriving DecidableEq, Repr

/-- The part of a register that an operand of size `z` reads (10_state.md R23). -/
def State.readReg (z : Size) (n : Reg) (s : State) : BitVec z.bits :=
  match z with
  | .b => (s.r n).setWidth 8
  | .w => (s.r n).setWidth 16
  | .l => s.r n
  | .q => s.r (n + 1) ++ s.r n

/-- A register after a write of the low `k` bits: the bits above are kept (R23). -/
def mergeLow (k : Nat) (v : BitVec k) (old : Word) : Word := setField 0 k v old

/-- A register written by an operand of size `z` (R23, R84). -/
def State.writeReg (z : Size) (n : Reg) (v : BitVec z.bits) (s : State) : State :=
  match z with
  | .b => s.setR n (mergeLow 8 v (s.r n))
  | .w => s.setR n (mergeLow 16 v (s.r n))
  | .l => s.setR n v
  | .q => (s.setR n (v.setWidth 32)).setR (n + 1) (v.extractLsb' 32 32)

/-- ReadOp (R84). -/
def readOp (z : Size) (o : Operand) (s : State) : Except Stop (BitVec z.bits) :=
  match o with
  | .lit v => .ok (v.setWidth z.bits)
  | .reg n => .ok (s.readReg z n)
  | .mem a => memRead z.bits a s

/-- WriteOp (R84); a constant is faulted by R105 before it could be written. -/
def writeOp (z : Size) (o : Operand) (v : BitVec z.bits) (s : State) : Except Stop State :=
  match o with
  | .lit _ => .error (.fault .reservedAddressingMode)
  | .reg n => .ok (s.writeReg z n v)
  | .mem a => memWrite z.bits a v s

/-- Whether evaluating the base steps register `x` or is the immediate mode: as the base of an index
by `x` it is then unpredictable (R87, R106). -/
def Base.clashes (x : Reg) : Base → Bool
  | .autodec n => n == x
  | .autoinc n => n == x
  | .autoincDeferred n => n == x
  | .immediate _ => true
  | .literal _ | .nestedIndex _ | .register _ | .deferred _ | .absolute _ | .byteDisp _ _
  | .byteDispDeferred _ _ | .wordDisp _ _ | .wordDispDeferred _ _ | .longDisp _ _
  | .longDispDeferred _ _ => false

/-- A displacement operand: the displacement field of `k` bytes is fetched, then R[n] is read (R93,
R97). -/
def evalDisp (k : Nat) (n : Reg) (d : Word) (s : State) : Except Stop (Operand × State) := do
  let s ← fetch k s
  .ok (.mem (s.r n + d), s)

/-- A displacement deferred operand: the address is the longword at the displaced address (R94, R98). -/
def evalDispDeferred (k : Nat) (n : Reg) (d : Word) (s : State) :
    Except Stop (Operand × State) := do
  let s ← fetch k s
  let p ← memRead 32 (s.r n + d) s
  .ok (.mem p, s)

/-- EvalSpec after its specifier byte has been fetched (R100); `inner` when the specifier is the base
of an indexed one. -/
def evalMode (a : Access) (z : Size) (inner : Bool) (b : Base) (s : State) :
    Except Stop (Operand × State) :=
  match b with
  | .literal v =>
    if inner || a != .read then .error (.fault .reservedAddressingMode)
    else .ok (.lit (v.setWidth 64), s)
  | .nestedIndex _ => .error (.fault .reservedAddressingMode)
  | .register n =>
    if inner || a == .address then .error (.fault .reservedAddressingMode)
    else if n == Reg.pc || (z == .q && n == Reg.sp) then .error (.refuse .unpredictablePcRegister)
    else .ok (.reg n, s)
  | .deferred n =>
    if n == Reg.pc then .error (.refuse .unpredictablePcDeferred)
    else .ok (.mem (s.r n), s)
  | .autodec n =>
    if n == Reg.pc then .error (.refuse .unpredictablePcAutodecrement)
    else
      let p := s.r n - BitVec.ofNat 32 z.bytes
      .ok (.mem p, s.setR n p)
  | .autoinc n => .ok (.mem (s.r n), s.setR n ((s.r n).plus z.bytes))
  | .immediate v =>
    if a == .write || a == .modify then .error (.refuse .unpredictableImmediateDestination)
    else if inner || a == .address then .ok (.mem s.pc, s.setPc (s.pc.plus z.bytes))
    else do
      let s ← fetch z.bytes s
      .ok (.lit v, s)
  | .autoincDeferred n => do
    let p ← memRead 32 (s.r n) s
    .ok (.mem p, s.setR n ((s.r n).plus 4))
  | .absolute p => do
    let s ← fetch 4 s
    .ok (.mem p, s)
  | .byteDisp n d => evalDisp 1 n (d.signExtend 32) s
  | .byteDispDeferred n d => evalDispDeferred 1 n (d.signExtend 32) s
  | .wordDisp n d => evalDisp 2 n (d.signExtend 32) s
  | .wordDispDeferred n d => evalDispDeferred 2 n (d.signExtend 32) s
  | .longDisp n d => evalDisp 4 n d s
  | .longDispDeferred n d => evalDispDeferred 4 n d s

/-- EvalSpec (R100): the specifier byte is fetched and the mode evaluated; an index is taken before
its base is evaluated and scaled by the operand's size (R87). -/
def evalSpec (a : Access) (z : Size) (sp : Spec) (s : State) : Except Stop (Operand × State) :=
  match sp with
  | .direct b => do
    let s ← fetch 1 s
    evalMode a z false b s
  | .indexed x b => do
    let s ← fetch 1 s
    if x == Reg.pc then .error (.fault .reservedAddressingMode)
    else
      let idx := s.r x * BitVec.ofNat 32 z.bytes
      let s ← fetch 1 s
      let (o, s) ← evalMode a z true b s
      if Base.clashes x b then .error (.refuse .unpredictableIndex)
      else match o with
        | .mem base => .ok (.mem (base + idx), s)
        | .lit _ => .error (.fault .reservedAddressingMode)
        | .reg _ => .error (.fault .reservedAddressingMode)

/-- An operand of access type r: evaluated and read before the next specifier (R84, R104). -/
def evalRead (z : Size) (sp : Spec) (s : State) : Except Stop (BitVec z.bits × State) := do
  let (o, s) ← evalSpec .read z sp s
  let v ← readOp z o s
  .ok (v, s)

/-- An operand of access type m: evaluated once and read; where it is written later is kept (R84). -/
def evalModify (z : Size) (sp : Spec) (s : State) :
    Except Stop (BitVec z.bits × Operand × State) := do
  let (o, s) ← evalSpec .modify z sp s
  let v ← readOp z o s
  .ok (v, o, s)

/-- An operand of access type w (R84). -/
def evalWrite (z : Size) (sp : Spec) (s : State) : Except Stop (Operand × State) :=
  evalSpec .write z sp s

/-- An operand of access type a: its address, no access to it (R84). -/
def evalAddress (z : Size) (sp : Spec) (s : State) : Except Stop (Word × State) := do
  let (o, s) ← evalSpec .address z sp s
  match o with
  | .mem a => .ok (a, s)
  | .lit _ => .error (.fault .reservedAddressingMode)
  | .reg _ => .error (.fault .reservedAddressingMode)

/-- A branch displacement of `k` bytes: fetched, no specifier byte (R83, R99). -/
def fetchDisp (k : Nat) (s : State) : Except Stop State := fetch k s

end Sys2Proof.Machine
end

