-- ==== Sys2Proof/Machine/Arith.lean ====
section
/-!
DEFINITION. The integer arithmetic instructions (40_integer_arithmetic.md R135 to R159): one
definition per instruction over the two-, three- and one-operand forms, which evaluate the operands
left to right, write the result, then the condition codes, then trap (R135, 20_memory.md R69).
-/

namespace Sys2Proof.Machine

/-- The end of an instruction that can trap (R135): the condition codes are written; a zero divisor
traps always, an overflow when PSL.IV is set. -/
def completeArith {n : Nat} (r : Alu n) (s : State) : Except Stop State :=
  if r.divideByZero then .error (.trap .integerDivideByZero (s.setFlags r.flags))
  else if r.flags.v && pslIV s.psl then .error (.trap .integerOverflow (s.setFlags r.flags))
  else .ok (s.setFlags r.flags)

/-- The 2-operand form: `src` is read, `dst` read and then written with `law src dst` (R130). -/
def arith2 (z : Size) (law : BitVec z.bits → BitVec z.bits → Alu z.bits) (src dst : Spec)
    (s : State) : Except Stop State := do
  let (a, s) ← evalRead z src s
  let (b, o, s) ← evalModify z dst s
  let s ← writeOp z o (law a b).value s
  completeArith (law a b) s

/-- The 3-operand form: two sources are read, `dst` is written with `law src1 src2` (R130). -/
def arith3 (z : Size) (law : BitVec z.bits → BitVec z.bits → Alu z.bits) (src1 src2 dst : Spec)
    (s : State) : Except Stop State := do
  let (a, s) ← evalRead z src1 s
  let (b, s) ← evalRead z src2 s
  let (o, s) ← evalWrite z dst s
  let s ← writeOp z o (law a b).value s
  completeArith (law a b) s

/-- The 1-operand form: `dst` is read and written with `law dst` (R154 to R159). -/
def arith1 (z : Size) (law : BitVec z.bits → Alu z.bits) (dst : Spec) (s : State) :
    Except Stop State := do
  let (b, o, s) ← evalModify z dst s
  let s ← writeOp z o (law b).value s
  completeArith (law b) s

/-- ADDB2: dst <- dst + src (R136). -/
def execAddb2 (src dst : Spec) (s : State) : Outcome :=
  runInstr s (arith2 .b (fun a b => addLaw b a) src dst)

/-- ADDW2: dst <- dst + src (R137). -/
def execAddw2 (src dst : Spec) (s : State) : Outcome :=
  runInstr s (arith2 .w (fun a b => addLaw b a) src dst)

/-- ADDL2: dst <- dst + src (R138). -/
def execAddl2 (src dst : Spec) (s : State) : Outcome :=
  runInstr s (arith2 .l (fun a b => addLaw b a) src dst)

/-- ADDB3: dst <- src1 + src2 (R139). -/
def execAddb3 (src1 src2 dst : Spec) (s : State) : Outcome :=
  runInstr s (arith3 .b addLaw src1 src2 dst)

/-- ADDW3: dst <- src1 + src2 (R140). -/
def execAddw3 (src1 src2 dst : Spec) (s : State) : Outcome :=
  runInstr s (arith3 .w addLaw src1 src2 dst)

/-- ADDL3: dst <- src1 + src2 (R141). -/
def execAddl3 (src1 src2 dst : Spec) (s : State) : Outcome :=
  runInstr s (arith3 .l addLaw src1 src2 dst)

/-- SUBB2: dst <- dst - src (R142). -/
def execSubb2 (src dst : Spec) (s : State) : Outcome :=
  runInstr s (arith2 .b (fun a b => subLaw b a) src dst)

/-- SUBW2: dst <- dst - src (R143). -/
def execSubw2 (src dst : Spec) (s : State) : Outcome :=
  runInstr s (arith2 .w (fun a b => subLaw b a) src dst)

/-- SUBL2: dst <- dst - src (R144). -/
def execSubl2 (src dst : Spec) (s : State) : Outcome :=
  runInstr s (arith2 .l (fun a b => subLaw b a) src dst)

/-- SUBL3: dst <- src2 - src1 (R145). -/
def execSubl3 (src1 src2 dst : Spec) (s : State) : Outcome :=
  runInstr s (arith3 .l (fun a b => subLaw b a) src1 src2 dst)

/-- MULB2: dst <- dst * src (R146). -/
def execMulb2 (src dst : Spec) (s : State) : Outcome :=
  runInstr s (arith2 .b (fun a b => mulLaw b a) src dst)

/-- MULW2: dst <- dst * src (R147). -/
def execMulw2 (src dst : Spec) (s : State) : Outcome :=
  runInstr s (arith2 .w (fun a b => mulLaw b a) src dst)

/-- MULL2: dst <- dst * src (R148). -/
def execMull2 (src dst : Spec) (s : State) : Outcome :=
  runInstr s (arith2 .l (fun a b => mulLaw b a) src dst)

/-- MULL3: dst <- src1 * src2 (R149). -/
def execMull3 (src1 src2 dst : Spec) (s : State) : Outcome :=
  runInstr s (arith3 .l mulLaw src1 src2 dst)

/-- DIVB2: dst <- dst / src (R150). -/
def execDivb2 (src dst : Spec) (s : State) : Outcome :=
  runInstr s (arith2 .b (fun a b => divLaw a b) src dst)

/-- DIVW2: dst <- dst / src (R151). -/
def execDivw2 (src dst : Spec) (s : State) : Outcome :=
  runInstr s (arith2 .w (fun a b => divLaw a b) src dst)

/-- DIVL2: dst <- dst / src (R152). -/
def execDivl2 (src dst : Spec) (s : State) : Outcome :=
  runInstr s (arith2 .l (fun a b => divLaw a b) src dst)

/-- DIVL3: dst <- src2 / src1 (R153). -/
def execDivl3 (src1 src2 dst : Spec) (s : State) : Outcome :=
  runInstr s (arith3 .l divLaw src1 src2 dst)

/-- INCB: dst <- dst + 1 (R154). -/
def execIncb (dst : Spec) (s : State) : Outcome :=
  runInstr s (arith1 .b (fun b => addLaw b 1) dst)

/-- INCW: dst <- dst + 1 (R155). -/
def execIncw (dst : Spec) (s : State) : Outcome :=
  runInstr s (arith1 .w (fun b => addLaw b 1) dst)

/-- INCL: dst <- dst + 1 (R156). -/
def execIncl (dst : Spec) (s : State) : Outcome :=
  runInstr s (arith1 .l (fun b => addLaw b 1) dst)

/-- DECB: dst <- dst - 1 (R157). -/
def execDecb (dst : Spec) (s : State) : Outcome :=
  runInstr s (arith1 .b (fun b => subLaw b 1) dst)

/-- DECW: dst <- dst - 1 (R158). -/
def execDecw (dst : Spec) (s : State) : Outcome :=
  runInstr s (arith1 .w (fun b => subLaw b 1) dst)

/-- DECL: dst <- dst - 1 (R159). -/
def execDecl (dst : Spec) (s : State) : Outcome :=
  runInstr s (arith1 .l (fun b => subLaw b 1) dst)

end Sys2Proof.Machine
end

