-- ==== Sys2Proof/Machine/Branch.lean ====
section
/-!
DEFINITION. The branch instructions (44_branch.md R215 to R229). A branch writes nothing but the
program counter (R217).
-/

namespace Sys2Proof.Machine

/-- A branch with a displacement field of `k` bytes: the field is always fetched; when `taken`, the
sign-extended displacement is added to the address after it (R215, R216). -/
def branch (k : Nat) (d : Word) (taken : Bool) (s : State) : Except Stop State := do
  let s ← fetchDisp k s
  .ok (if taken then s.setPc (s.pc + d) else s)

/-- A conditional branch: the condition is read from the PSL (R216). -/
def branchIf (cond : Word → Bool) (disp : BitVec 8) (s : State) : Except Stop State :=
  branch 1 (disp.signExtend 32) (cond s.psl) s

/-- BRB (R218). -/
def execBrb (disp : BitVec 8) (s : State) : Outcome :=
  runInstr s (branch 1 (disp.signExtend 32) true)

/-- BRW (R219). -/
def execBrw (disp : BitVec 16) (s : State) : Outcome :=
  runInstr s (branch 2 (disp.signExtend 32) true)

/-- BEQL: Z = 1 (R220). -/
def execBeql (disp : BitVec 8) (s : State) : Outcome :=
  runInstr s (branchIf (fun w => pslZ w) disp)

/-- BEQLU: the second spelling of BEQL, Z = 1 (R220, R113). -/
def execBeqlu (disp : BitVec 8) (s : State) : Outcome :=
  runInstr s (branchIf (fun w => pslZ w) disp)

/-- BNEQ: Z = 0 (R221). -/
def execBneq (disp : BitVec 8) (s : State) : Outcome :=
  runInstr s (branchIf (fun w => !pslZ w) disp)

/-- BNEQU: the second spelling of BNEQ, Z = 0 (R221, R113). -/
def execBnequ (disp : BitVec 8) (s : State) : Outcome :=
  runInstr s (branchIf (fun w => !pslZ w) disp)

/-- BLSS: N = 1 (R222). -/
def execBlss (disp : BitVec 8) (s : State) : Outcome :=
  runInstr s (branchIf (fun w => pslN w) disp)

/-- BLEQ: (N OR Z) = 1 (R223). -/
def execBleq (disp : BitVec 8) (s : State) : Outcome :=
  runInstr s (branchIf (fun w => pslN w || pslZ w) disp)

/-- BGTR: (N OR Z) = 0 (R224). -/
def execBgtr (disp : BitVec 8) (s : State) : Outcome :=
  runInstr s (branchIf (fun w => !(pslN w || pslZ w)) disp)

/-- BGEQ: N = 0 (R225). -/
def execBgeq (disp : BitVec 8) (s : State) : Outcome :=
  runInstr s (branchIf (fun w => !pslN w) disp)

/-- BVC: V = 0 (R226). -/
def execBvc (disp : BitVec 8) (s : State) : Outcome :=
  runInstr s (branchIf (fun w => !pslV w) disp)

/-- BVS: V = 1 (R227). -/
def execBvs (disp : BitVec 8) (s : State) : Outcome :=
  runInstr s (branchIf (fun w => pslV w) disp)

/-- BCC: C = 0 (R228). -/
def execBcc (disp : BitVec 8) (s : State) : Outcome :=
  runInstr s (branchIf (fun w => !pslC w) disp)

/-- BGEQU: the second spelling of BCC, C = 0 (R228, R113). -/
def execBgequ (disp : BitVec 8) (s : State) : Outcome :=
  runInstr s (branchIf (fun w => !pslC w) disp)

/-- BCS: C = 1 (R229). -/
def execBcs (disp : BitVec 8) (s : State) : Outcome :=
  runInstr s (branchIf (fun w => pslC w) disp)

/-- BLSSU: the second spelling of BCS, C = 1 (R229, R113). -/
def execBlssu (disp : BitVec 8) (s : State) : Outcome :=
  runInstr s (branchIf (fun w => pslC w) disp)

end Sys2Proof.Machine
end

