-- ==== Sys2Proof/Machine/Call.lean ====
section
/-!
DEFINITION. The procedure call and subroutine instructions (45_procedure_call.md R235 to R244).
-/

namespace Sys2Proof.Machine

/-- R0 to R11, the registers an entry mask can name (R237). -/
def maskRegs : List Reg := [0, 1, 2, 3, 4, 5, 6, 7, 8, 9, 10, 11]

/-- The registers named by an entry mask, in ascending order (R237, R239). -/
def maskedRegs (mask : BitVec 12) : List Reg := maskRegs.filter fun i => mask.getLsbD i.val

/-- Registers pushed, the last of the list first, so that the first one ends lowest (R236, R239). -/
def pushRegs : List Reg → State → Except Stop State
  | [], s => .ok s
  | n :: ns, s => do
    let s ← pushRegs ns s
    push32 (s.r n) s

/-- Registers popped in the order of the list (R240). -/
def popRegs : List Reg → State → Except Stop State
  | [], s => .ok s
  | n :: ns, s => do
    let (v, s) ← pop32 s
    popRegs ns (s.setR n v)

/-- The entry mask at a procedure's entry point: its must-be-zero bits are checked before anything is
written (R236, R237). -/
def entryMask (a : Word) (s : State) : Except Stop (BitVec 16) := do
  let mask ← memRead 16 a s
  if mask.extractLsb' 12 2 != 0 then .error (.fault .reservedOperand) else .ok mask

/-- The status longword of a call frame: SPA, S, the entry mask's bits 11:0 and PSL bits 15:5 (R239). -/
def frameStatus (spa : BitVec 2) (calls : Bool) (mask : BitVec 16) (psl : Word) : Word :=
  spa ++ BitVec.ofBool calls ++ (0 : BitVec 1) ++ mask.extractLsb' 0 12 ++ psl.extractLsb' 5 11
    ++ (0 : BitVec 5)

/-- The call frame built and entered, shared by CALLS and CALLG (R236, R238, R239): SP is aligned, the
masked registers, PC, FP, AP, the status longword and a zero are pushed, FP, AP, the PSL and the
program counter take the procedure's values. `ap` is the new AP, `a` the entry point. -/
def callFrame (calls : Bool) (mask : BitVec 16) (ap a : Word) (s : State) : Except Stop State := do
  let w := frameStatus (s.sp.extractLsb' 0 2) calls mask s.psl
  let s := s.setR Reg.sp (s.sp &&& 0xFFFFFFFC)
  let s ← pushRegs (maskedRegs (mask.extractLsb' 0 12)) s
  let s ← push32 s.pc s
  let s ← push32 (s.r Reg.fp) s
  let s ← push32 (s.r Reg.ap) s
  let s ← push32 w s
  let s ← push32 0 s
  let s := (s.setR Reg.fp s.sp).setR Reg.ap ap
  .ok ((s.setPsl (pslAfterCall mask s.psl)).setPc (a + 2))

/-- CALLS: the argument count is pushed and AP points at it (R236). -/
def execCalls (numarg dst : Spec) (s : State) : Outcome :=
  runInstr s (fun s => do
    let (n, s) ← evalRead .l numarg s
    let (a, s) ← evalAddress .b dst s
    let mask ← entryMask a s
    let s ← push32 n s
    callFrame true mask s.sp a s)

/-- CALLG: AP is the address of the argument list, which is not read (R238, R241). -/
def execCallg (arglist dst : Spec) (s : State) : Outcome :=
  runInstr s (fun s => do
    let (al, s) ← evalAddress .b arglist s
    let (a, s) ← evalAddress .b dst s
    let mask ← entryMask a s
    callFrame false mask al a s)

/-- RET: the frame at FP is undone (R240). -/
def execRet (s : State) : Outcome :=
  runInstr s (fun s => do
    let s := s.setR Reg.sp (s.r Reg.fp + 4)
    let (w, s) ← pop32 s
    if w.extractLsb' 8 8 != 0 then .error (.fault .reservedOperand)
    else
      let (ap, s) ← pop32 s
      let s := s.setR Reg.ap ap
      let (fp, s) ← pop32 s
      let s := s.setR Reg.fp fp
      let (newPc, s) ← pop32 s
      let s ← popRegs (maskedRegs (w.extractLsb' 16 12)) s
      let s := s.setR Reg.sp (s.sp + (w.extractLsb' 30 2).setWidth 32)
      let s := s.setPsl (pslAfterReturn w s.psl)
      if w.getLsbD 29 then
        let (n, s) ← pop32 s
        let s := s.setR Reg.sp (s.sp + 4 * (n.extractLsb' 0 8).setWidth 32)
        .ok (s.setPc newPc)
      else .ok (s.setPc newPc))

/-- JSB: the target is evaluated, then the address of the next instruction pushed (R242). -/
def execJsb (dst : Spec) (s : State) : Outcome :=
  runInstr s (fun s => do
    let (a, s) ← evalAddress .b dst s
    let s ← push32 s.pc s
    .ok (s.setPc a))

/-- RSB (R244). -/
def execRsb (s : State) : Outcome :=
  runInstr s (fun s => do
    let (a, s) ← pop32 s
    .ok (s.setPc a))

end Sys2Proof.Machine
end

