-- ==== Sys2Proof/Machine/Compare.lean ====
section
/-!
DEFINITION. The compare, test and bit-test instructions: they write the condition codes and nothing
else (43_compare_test.md R200 to R211).
-/

namespace Sys2Proof.Machine

/-- Compare: the first operand against the second (R200). -/
def compare (z : Size) (src1 src2 : Spec) (s : State) : Except Stop State := do
  let (a, s) ← evalRead z src1 s
  let (b, s) ← evalRead z src2 s
  .ok (s.setFlags (cmpFlags a b))

/-- Test: the operand against zero (R201). -/
def test (z : Size) (src : Spec) (s : State) : Except Stop State := do
  let (a, s) ← evalRead z src s
  .ok (s.setFlags (tstFlags a))

/-- Bit test: the AND of mask and source, discarded (R202). -/
def bitTest (z : Size) (mask src : Spec) (s : State) : Except Stop State := do
  let (m, s) ← evalRead z mask s
  let (a, s) ← evalRead z src s
  .ok (s.setFlags (bitFlags m a (pslC s.psl)))

/-- CMPB (R203). -/
def execCmpb (src1 src2 : Spec) (s : State) : Outcome :=
  runInstr s (compare .b src1 src2)

/-- CMPW (R204). -/
def execCmpw (src1 src2 : Spec) (s : State) : Outcome :=
  runInstr s (compare .w src1 src2)

/-- CMPL (R205). -/
def execCmpl (src1 src2 : Spec) (s : State) : Outcome :=
  runInstr s (compare .l src1 src2)

/-- TSTB (R206). -/
def execTstb (src : Spec) (s : State) : Outcome :=
  runInstr s (test .b src)

/-- TSTW (R207). -/
def execTstw (src : Spec) (s : State) : Outcome :=
  runInstr s (test .w src)

/-- TSTL (R208). -/
def execTstl (src : Spec) (s : State) : Outcome :=
  runInstr s (test .l src)

/-- BITB (R209). -/
def execBitb (mask src : Spec) (s : State) : Outcome :=
  runInstr s (bitTest .b mask src)

/-- BITW (R210). -/
def execBitw (mask src : Spec) (s : State) : Outcome :=
  runInstr s (bitTest .w mask src)

/-- BITL (R211). -/
def execBitl (mask src : Spec) (s : State) : Outcome :=
  runInstr s (bitTest .l mask src)

end Sys2Proof.Machine
end

