-- ==== Sys2Proof/Machine/Logical.lean ====
section
/-!
DEFINITION. The logical instructions (41_logical.md R160 to R171).
-/

namespace Sys2Proof.Machine

/-- The shared law: `mask` is read, `dst` read and written with `op mask dst`; N and Z from the
result, V cleared, C kept (R160, R162). -/
def logical2 (z : Size) (op : BitVec z.bits → BitVec z.bits → BitVec z.bits) (mask dst : Spec)
    (s : State) : Except Stop State := do
  let (m, s) ← evalRead z mask s
  let (d, o, s) ← evalModify z dst s
  let s ← writeOp z o (op m d) s
  .ok (s.setFlags (moveFlags (op m d) (pslC s.psl)))

/-- BISB2: dst <- dst OR mask (R163). -/
def execBisb2 (mask dst : Spec) (s : State) : Outcome :=
  runInstr s (logical2 .b bisLaw mask dst)

/-- BISW2: dst <- dst OR mask (R164). -/
def execBisw2 (mask dst : Spec) (s : State) : Outcome :=
  runInstr s (logical2 .w bisLaw mask dst)

/-- BISL2: dst <- dst OR mask (R165). -/
def execBisl2 (mask dst : Spec) (s : State) : Outcome :=
  runInstr s (logical2 .l bisLaw mask dst)

/-- BICB2: dst <- dst AND NOT mask (R166). -/
def execBicb2 (mask dst : Spec) (s : State) : Outcome :=
  runInstr s (logical2 .b bicLaw mask dst)

/-- BICW2: dst <- dst AND NOT mask (R167). -/
def execBicw2 (mask dst : Spec) (s : State) : Outcome :=
  runInstr s (logical2 .w bicLaw mask dst)

/-- BICL2: dst <- dst AND NOT mask (R168). -/
def execBicl2 (mask dst : Spec) (s : State) : Outcome :=
  runInstr s (logical2 .l bicLaw mask dst)

/-- XORB2: dst <- dst XOR mask (R169). -/
def execXorb2 (mask dst : Spec) (s : State) : Outcome :=
  runInstr s (logical2 .b xorLaw mask dst)

/-- XORW2: dst <- dst XOR mask (R170). -/
def execXorw2 (mask dst : Spec) (s : State) : Outcome :=
  runInstr s (logical2 .w xorLaw mask dst)

/-- XORL2: dst <- dst XOR mask (R171). -/
def execXorl2 (mask dst : Spec) (s : State) : Outcome :=
  runInstr s (logical2 .l xorLaw mask dst)

end Sys2Proof.Machine
end

