-- ==== Sys2Proof/Machine/Move.lean ====
section
/-!
DEFINITION. The move, move-address, push and clear instructions (42_move.md R175 to R194).
-/

namespace Sys2Proof.Machine

/-- A move: `src` is read and written to `dst`; N and Z from the value, V cleared, C kept (R175,
R176). -/
def move (z : Size) (src dst : Spec) (s : State) : Except Stop State := do
  let (v, s) ← evalRead z src s
  let (o, s) ← evalWrite z dst s
  let s ← writeOp z o v s
  .ok (s.setFlags (moveFlags v (pslC s.psl)))

/-- A move of the address of a `z` operand to a longword (R177). -/
def moveAddress (z : Size) (src dst : Spec) (s : State) : Except Stop State := do
  let (v, s) ← evalAddress z src s
  let (o, s) ← evalWrite .l dst s
  let s ← writeOp .l o v s
  .ok (s.setFlags (moveFlags v (pslC s.psl)))

/-- A longword pushed, with the flags of a move (R176, R178). -/
def pushValue (v : Word) (s : State) : Except Stop State := do
  let s ← push32 v s
  .ok (s.setFlags (moveFlags v (pslC s.psl)))

/-- The address of a `z` operand pushed (R177, R178). -/
def pushAddress (z : Size) (src : Spec) (s : State) : Except Stop State := do
  let (v, s) ← evalAddress z src s
  pushValue v s

/-- A clear: `dst` is written with 0 and not read; N clear, Z set, V clear, C kept (R176). -/
def clear (z : Size) (dst : Spec) (s : State) : Except Stop State := do
  let (o, s) ← evalWrite z dst s
  let s ← writeOp z o 0 s
  .ok (s.setFlags { n := false, z := true, v := false, c := pslC s.psl })

/-- MOVB (R180). -/
def execMovb (src dst : Spec) (s : State) : Outcome :=
  runInstr s (move .b src dst)

/-- MOVW (R181). -/
def execMovw (src dst : Spec) (s : State) : Outcome :=
  runInstr s (move .w src dst)

/-- MOVL (R182). -/
def execMovl (src dst : Spec) (s : State) : Outcome :=
  runInstr s (move .l src dst)

/-- MOVQ (R183). -/
def execMovq (src dst : Spec) (s : State) : Outcome :=
  runInstr s (move .q src dst)

/-- MOVAB (R184). -/
def execMovab (src dst : Spec) (s : State) : Outcome :=
  runInstr s (moveAddress .b src dst)

/-- MOVAW (R185). -/
def execMovaw (src dst : Spec) (s : State) : Outcome :=
  runInstr s (moveAddress .w src dst)

/-- MOVAL (R186). -/
def execMoval (src dst : Spec) (s : State) : Outcome :=
  runInstr s (moveAddress .l src dst)

/-- PUSHAB (R187). -/
def execPushab (src : Spec) (s : State) : Outcome :=
  runInstr s (pushAddress .b src)

/-- PUSHAW (R188). -/
def execPushaw (src : Spec) (s : State) : Outcome :=
  runInstr s (pushAddress .w src)

/-- PUSHAL (R189). -/
def execPushal (src : Spec) (s : State) : Outcome :=
  runInstr s (pushAddress .l src)

/-- PUSHL: the value is read with the old SP, then pushed (R190). -/
def execPushl (src : Spec) (s : State) : Outcome :=
  runInstr s (fun s => do
    let (v, s) ← evalRead .l src s
    pushValue v s)

/-- CLRB (R191). -/
def execClrb (dst : Spec) (s : State) : Outcome :=
  runInstr s (clear .b dst)

/-- CLRW (R192). -/
def execClrw (dst : Spec) (s : State) : Outcome :=
  runInstr s (clear .w dst)

/-- CLRL (R193). -/
def execClrl (dst : Spec) (s : State) : Outcome :=
  runInstr s (clear .l dst)

/-- CLRQ (R194). -/
def execClrq (dst : Spec) (s : State) : Outcome :=
  runInstr s (clear .q dst)

end Sys2Proof.Machine
end

