-- ==== Sys2Proof/Machine/Privileged.lean ====
section
/-!
DEFINITION. The privileged and system instructions (46_privileged.md R250 to R262).
-/

namespace Sys2Proof.Machine

/-- REI, in any mode (R250, R252). -/
def execRei (s : State) : Outcome := runInstr s returnFromException

/-- The longword at an offset of the process control block (R253). -/
def pcbRead (off : Word) (s : State) : Except Stop Word := memRead 32 (s.pcbb + off) s

/-- The longword at an offset of the process control block written (R253). -/
def pcbWrite (off v : Word) (s : State) : Except Stop State := memWrite 32 (s.pcbb + off) v s

/-- LDPCTX's checks on the memory-management longwords of the block turn it down (R254). -/
def pcbRejects (t80 t84 t88 t92 : Word) : Bool :=
  (t80.extractLsb' 30 2 != 2 || t80.extractLsb' 0 2 != 0)
  || ((t84 &&& 0xF8C00000) != 0 || decide (0x200000 < (t84.extractLsb' 0 22).toNat))
  || decide (4 < (t84.extractLsb' 24 3).toNat)
  || ((t88 + 0x00800000).extractLsb' 30 2 != 2 || t88.extractLsb' 0 2 != 0)
  || ((t92 &&& 0x7FC00000) != 0 || decide (0x200000 < (t92.extractLsb' 0 22).toNat))

/-- The registers with the offsets of the process control block that hold them: R0 to R11, AP, FP
(R253). -/
def pcbRegs : List (Reg × Word) :=
  [(0, 16), (1, 20), (2, 24), (3, 28), (4, 32), (5, 36), (6, 40), (7, 44), (8, 48), (9, 52),
   (10, 56), (11, 60), (12, 64), (13, 68)]

/-- Registers loaded from the block, in the order of the list (R254). -/
def pcbLoadRegs : List (Reg × Word) → State → Except Stop State
  | [], s => .ok s
  | e :: es, s => do
    let v ← pcbRead e.2 s
    pcbLoadRegs es (s.setR e.1 v)

/-- Registers stored to the block, in the order of the list (R256). -/
def pcbStoreRegs : List (Reg × Word) → State → Except Stop State
  | [], s => .ok s
  | e :: es, s => do
    let s ← pcbWrite e.2 (s.r e.1) s
    pcbStoreRegs es s

/-- LDPCTX: the block is checked, the context loaded, the interrupt stack left for the kernel stack,
and the PSL and PC images pushed there for a following REI (R253, R254). -/
def execLdpctx (s : State) : Outcome :=
  runInstr s (fun s => do
    kernelOnly s
    if !pslIS s.psl then .error (.refuse .ldpctxOffInterruptStack)
    else
      let t80 ← pcbRead 80 s
      let t84 ← pcbRead 84 s
      let t88 ← pcbRead 88 s
      let t92 ← pcbRead 92 s
      if pcbRejects t80 t84 t88 t92 then .error (.fault .reservedOperand)
      else
        let ksp ← pcbRead 0 s
        let esp ← pcbRead 4 s
        let ssp ← pcbRead 8 s
        let usp ← pcbRead 12 s
        let s := (((s.setBanked .k ksp).setBanked .e esp).setBanked .s ssp).setBanked .u usp
        let s ← pcbLoadRegs pcbRegs s
        let s := { s with
          p0br := t80
          p0lr := (t84.extractLsb' 0 22).setWidth 32
          astlvl := t84.extractLsb' 24 3
          p1br := t88
          p1lr := (t92.extractLsb' 0 22).setWidth 32 }
        let s := (s.switchStack .i .k).setPsl (pslWithIS false s.psl)
        let psl ← pcbRead 76 s
        let s ← push32 psl s
        let pc ← pcbRead 72 s
        push32 pc s)

/-- SVPCTX's move to the interrupt stack: from the kernel stack IPL becomes at least 1 (R256). -/
def toInterruptStack (s : State) : State :=
  if pslIS s.psl then s
  else
    let psl := if pslIPL s.psl = 0 then pslWithIPL 1 s.psl else s.psl
    (s.switchStack .k .i).setPsl (pslWithIS true psl)

/-- SVPCTX: the PC and PSL images are popped, the interrupt stack taken, and the context stored
(R253, R256). -/
def execSvpctx (s : State) : Outcome :=
  runInstr s (fun s => do
    kernelOnly s
    let (savPc, s) ← pop32 s
    let (savPsl, s) ← pop32 s
    let s := toInterruptStack s
    let s ← pcbWrite 0 (s.banked .k) s
    let s ← pcbWrite 4 (s.banked .e) s
    let s ← pcbWrite 8 (s.banked .s) s
    let s ← pcbWrite 12 (s.banked .u) s
    let s ← pcbStoreRegs pcbRegs s
    let s ← pcbWrite 72 savPc s
    pcbWrite 76 savPsl s)

/-- MTPR's effect on one register of the table (R37 to R44, R259). -/
def writeProcReg (p : ProcReg) (v : Word) (s : State) : Except Stop State :=
  match p with
  | .ksp => .ok (if pslIS s.psl then s.setBanked .k v else s.setR Reg.sp v)
  | .esp => .ok (s.setBanked .e v)
  | .ssp => .ok (s.setBanked .s v)
  | .usp => .ok (s.setBanked .u v)
  | .p0br => .ok { s with p0br := v &&& 0xFFFFFFFC }
  | .p0lr => .ok { s with p0lr := v &&& 0x003FFFFF }
  | .p1br => .ok { s with p1br := v &&& 0xFFFFFFFC }
  | .p1lr => .ok { s with p1lr := v &&& 0x003FFFFF }
  | .sbr => .ok { s with sbr := v &&& 0xFFFFFFFC }
  | .slr => .ok { s with slr := v &&& 0x003FFFFF }
  | .pcbb => .ok { s with pcbb := v &&& 0xFFFFFFFC }
  | .scbb => .ok { s with scbb := v &&& 0xFFFFFE00 }
  | .ipl => .ok (s.setPsl (pslWithIPL (v.extractLsb' 0 5) s.psl))
  | .astlvl => if 4 < v.toNat then .error (.fault .reservedOperand)
      else .ok { s with astlvl := v.setWidth 3 }
  | .iccs => .error (.refuse .clockNotModelled)
  | .todr => .error (.refuse .clockNotModelled)
  | .mapen => if v.getLsbD 0 then .error (.refuse .translationNotModelled)
      else .ok { s with mapen := 0 }

/-- The value MFPR returns for one register of the table (R37 to R44, R261). -/
def readProcReg (p : ProcReg) (s : State) : Except Stop Word :=
  match p with
  | .ksp => .ok (if pslIS s.psl then s.banked .k else s.sp)
  | .esp => .ok (s.banked .e)
  | .ssp => .ok (s.banked .s)
  | .usp => .ok (s.banked .u)
  | .p0br => .ok s.p0br
  | .p0lr => .ok s.p0lr
  | .p1br => .ok s.p1br
  | .p1lr => .ok s.p1lr
  | .sbr => .ok s.sbr
  | .slr => .ok s.slr
  | .pcbb => .ok s.pcbb
  | .scbb => .ok s.scbb
  | .ipl => .ok ((pslIPL s.psl).setWidth 32)
  | .astlvl => .ok (s.astlvl.setWidth 32)
  | .iccs => .error (.refuse .clockNotModelled)
  | .todr => .error (.refuse .clockNotModelled)
  | .mapen => .ok (s.mapen.setWidth 32)

/-- MTPR: the whole longword `procreg` selects the register (R258). -/
def execMtpr (src procreg : Spec) (s : State) : Outcome :=
  runInstr s (fun s => do
    kernelOnly s
    let (v, s) ← evalRead .l src s
    let (k, s) ← evalRead .l procreg s
    match prnumFind s.cfg.prnum k with
    | none => .error (.refuse (.unknownProcessorRegister k))
    | some p => do
      let s ← writeProcReg p v s
      .ok (s.setFlags (moveFlags v (pslC s.psl))))

/-- MFPR: the destination specifier is evaluated before the number is looked up (R260). -/
def execMfpr (procreg dst : Spec) (s : State) : Outcome :=
  runInstr s (fun s => do
    kernelOnly s
    let (k, s) ← evalRead .l procreg s
    let (o, s) ← evalWrite .l dst s
    match prnumFind s.cfg.prnum k with
    | none => .error (.refuse (.unknownProcessorRegister k))
    | some p => do
      let v ← readProcReg p s
      let s ← writeOp .l o v s
      .ok (s.setFlags (moveFlags v (pslC s.psl))))

/-- HALT, in kernel mode: the program counter past the opcode and the processor halted (R262). -/
def execHalt (s : State) : Outcome :=
  runInstr s (fun s => do
    kernelOnly s
    .ok { s with halted := true })

end Sys2Proof.Machine
end

