-- ==== Sys2Proof/Machine/Shift.lean ====
section
/-!
DEFINITION. The shift and rotate instructions (48_shift_rotate.md R285 to R288).
-/

namespace Sys2Proof.Machine

/-- An arithmetic shift: the count is a byte, source and destination of size `z`; the overflow trap
follows R135 (R285). -/
def shift (z : Size) (cnt src dst : Spec) (s : State) : Except Stop State := do
  let (c, s) ← evalRead .b cnt s
  let (x, s) ← evalRead z src s
  let (o, s) ← evalWrite z dst s
  let s ← writeOp z o (ashLaw c x).value s
  completeArith (ashLaw c x) s

/-- ASHL (R286). -/
def execAshl (cnt src dst : Spec) (s : State) : Outcome :=
  runInstr s (shift .l cnt src dst)

/-- ASHQ (R287). -/
def execAshq (cnt src dst : Spec) (s : State) : Outcome :=
  runInstr s (shift .q cnt src dst)

/-- ROTL: N and Z from the result, V cleared, C kept (R288). -/
def execRotl (cnt src dst : Spec) (s : State) : Outcome :=
  runInstr s (fun s => do
    let (c, s) ← evalRead .b cnt s
    let (x, s) ← evalRead .l src s
    let (o, s) ← evalWrite .l dst s
    let s ← writeOp .l o (rotLaw c x) s
    .ok (s.setFlags (moveFlags (rotLaw c x) (pslC s.psl))))

end Sys2Proof.Machine
end

