-- ==== Sys2Proof/Machine/StringOps.lean ====
section
/-!
DEFINITION. The string and block instructions (47_string.md R270 to R277), each in one step (R277).
-/

namespace Sys2Proof.Machine

/-- The bytes of a string, read in ascending address order (R270, R272). -/
def readString (a : Word) : Nat → State → Except Stop (List Byte)
  | 0, _ => .ok []
  | k + 1, s => do
    let b ← memRead 8 a s
    let bs ← readString (a.plus 1) k s
    .ok (b :: bs)

/-- Bytes written one by one in ascending address order (R272, R277). -/
def writeString (a : Word) : List Byte → State → Except Stop State
  | [], s => .ok s
  | b :: bs, s => do
    let s ← memWrite 8 a b s
    writeString (a.plus 1) bs s

/-- The result registers R0 to R5 of a move (R271, R272, R273). -/
def State.setMoveRegs (r0 r1 r3 : Word) (s : State) : State :=
  (((((s.setR 0 r0).setR 1 r1).setR 2 0).setR 3 r3).setR 4 0).setR 5 0

/-- MOVC3: every source byte is read before any is written (R272). -/
def execMovc3 (len src dst : Spec) (s : State) : Outcome :=
  runInstr s (fun s => do
    let (n, s) ← evalRead .w len s
    let (a, s) ← evalAddress .b src s
    let (d, s) ← evalAddress .b dst s
    let buf ← readString a n.toNat s
    let s ← writeString d buf s
    let s := s.setMoveRegs 0 (a.plus n.toNat) (d.plus n.toNat)
    .ok (s.setFlags { n := false, z := true, v := false, c := false }))

/-- MOVC5: the shorter of the two lengths is moved, the rest of the destination filled (R273). -/
def execMovc5 (srclen src fill dstlen dst : Spec) (s : State) : Outcome :=
  runInstr s (fun s => do
    let (sl, s) ← evalRead .w srclen s
    let (a, s) ← evalAddress .b src s
    let (f, s) ← evalRead .b fill s
    let (dl, s) ← evalRead .w dstlen s
    let (d, s) ← evalAddress .b dst s
    let m := min sl.toNat dl.toNat
    let buf ← readString a m s
    let s ← writeString d buf s
    let s ← writeString (d.plus m) (List.replicate (dl.toNat - m) f) s
    let s := s.setMoveRegs (BitVec.ofNat 32 (sl.toNat - m)) (a.plus m) (d.plus dl.toNat)
    .ok (s.setFlags (lengthFlags sl dl)))

/-- Where a comparison of two strings ends: the bytes left, the two addresses and the condition codes
of the last pair compared (R274). -/
structure CompareEnd where
  left : Nat
  p : Word
  q : Word
  flags : Flags
  deriving DecidableEq, Repr

/-- The loop of CMPC3 with `k` bytes left, `fl` the condition codes so far (R274). -/
def compareStrings (p q : Word) (fl : Flags) : Nat → State → Except Stop CompareEnd
  | 0, _ => .ok { left := 0, p := p, q := q, flags := fl }
  | k + 1, s => do
    let a ← memRead 8 p s
    let b ← memRead 8 q s
    if a != b then .ok { left := k + 1, p := p, q := q, flags := cmpFlags a b }
    else compareStrings (p.plus 1) (q.plus 1) (cmpFlags a b) k s

/-- CMPC3: R0 to R3 and the flags of the last pair of bytes (R274). -/
def execCmpc3 (len src1 src2 : Spec) (s : State) : Outcome :=
  runInstr s (fun s => do
    let (n, s) ← evalRead .w len s
    let (p, s) ← evalAddress .b src1 s
    let (q, s) ← evalAddress .b src2 s
    let e ← compareStrings p q { n := false, z := true, v := false, c := false } n.toNat s
    let s := (((s.setR 0 (BitVec.ofNat 32 e.left)).setR 1 e.p).setR 2 (BitVec.ofNat 32 e.left)).setR 3 e.q
    .ok (s.setFlags e.flags))

/-- The loop of LOCC and SKPC with `k` bytes left: on while the byte at `p` satisfies `skip`; what is
left and where (R275, R276). -/
def scanString (skip : Byte → Bool) (p : Word) : Nat → State → Except Stop (Nat × Word)
  | 0, _ => .ok (0, p)
  | k + 1, s => do
    let b ← memRead 8 p s
    if skip b then scanString skip (p.plus 1) k s else .ok (k + 1, p)

/-- A scan: R0 and R1 and the condition codes (R275, R276). -/
def scan (skip : Byte → Byte → Bool) (ch len addr : Spec) (s : State) : Except Stop State := do
  let (c, s) ← evalRead .b ch s
  let (n, s) ← evalRead .w len s
  let (p, s) ← evalAddress .b addr s
  let (k, p) ← scanString (skip c) p n.toNat s
  let s := (s.setR 0 (BitVec.ofNat 32 k)).setR 1 p
  .ok (s.setFlags { n := false, z := k == 0, v := false, c := false })

/-- LOCC: on while the byte differs from `ch` (R275). -/
def execLocc (ch len addr : Spec) (s : State) : Outcome :=
  runInstr s (scan (fun c b => b != c) ch len addr)

/-- SKPC: on while the byte equals `ch` (R276). -/
def execSkpc (ch len addr : Spec) (s : State) : Outcome :=
  runInstr s (scan (fun c b => b == c) ch len addr)

end Sys2Proof.Machine
end

