-- ==== Sys2Proof/Machine/Dispatch.lean ====
section
/-!
DEFINITION. One arm per instruction (30_encoding.md R114): each calls the meaning of its rule.
-/

namespace Sys2Proof.Machine

def exec (i : Instr) (s : State) : Host.Outcome State Fault Refusal :=
  match i with
  | .halt => Sys2Proof.Machine.execHalt s
  | .rei => Sys2Proof.Machine.execRei s
  | .ret => Sys2Proof.Machine.execRet s
  | .rsb => Sys2Proof.Machine.execRsb s
  | .ldpctx => Sys2Proof.Machine.execLdpctx s
  | .svpctx => Sys2Proof.Machine.execSvpctx s
  | .brb disp => Sys2Proof.Machine.execBrb disp s
  | .bneq disp => Sys2Proof.Machine.execBneq disp s
  | .bnequ disp => Sys2Proof.Machine.execBnequ disp s
  | .beql disp => Sys2Proof.Machine.execBeql disp s
  | .beqlu disp => Sys2Proof.Machine.execBeqlu disp s
  | .bgtr disp => Sys2Proof.Machine.execBgtr disp s
  | .bleq disp => Sys2Proof.Machine.execBleq disp s
  | .jsb dst => Sys2Proof.Machine.execJsb dst s
  | .bgeq disp => Sys2Proof.Machine.execBgeq disp s
  | .blss disp => Sys2Proof.Machine.execBlss disp s
  | .bvc disp => Sys2Proof.Machine.execBvc disp s
  | .bvs disp => Sys2Proof.Machine.execBvs disp s
  | .bcc disp => Sys2Proof.Machine.execBcc disp s
  | .bgequ disp => Sys2Proof.Machine.execBgequ disp s
  | .bcs disp => Sys2Proof.Machine.execBcs disp s
  | .blssu disp => Sys2Proof.Machine.execBlssu disp s
  | .movc3 len src dst => Sys2Proof.Machine.execMovc3 len src dst s
  | .cmpc3 len src1 src2 => Sys2Proof.Machine.execCmpc3 len src1 src2 s
  | .movc5 srclen src fill dstlen dst => Sys2Proof.Machine.execMovc5 srclen src fill dstlen dst s
  | .brw disp => Sys2Proof.Machine.execBrw disp s
  | .locc ch len addr => Sys2Proof.Machine.execLocc ch len addr s
  | .skpc ch len addr => Sys2Proof.Machine.execSkpc ch len addr s
  | .movaw src dst => Sys2Proof.Machine.execMovaw src dst s
  | .pushaw src => Sys2Proof.Machine.execPushaw src s
  | .ashl cnt src dst => Sys2Proof.Machine.execAshl cnt src dst s
  | .ashq cnt src dst => Sys2Proof.Machine.execAshq cnt src dst s
  | .clrq dst => Sys2Proof.Machine.execClrq dst s
  | .movq src dst => Sys2Proof.Machine.execMovq src dst s
  | .addb2 src dst => Sys2Proof.Machine.execAddb2 src dst s
  | .addb3 src1 src2 dst => Sys2Proof.Machine.execAddb3 src1 src2 dst s
  | .subb2 src dst => Sys2Proof.Machine.execSubb2 src dst s
  | .mulb2 src dst => Sys2Proof.Machine.execMulb2 src dst s
  | .divb2 src dst => Sys2Proof.Machine.execDivb2 src dst s
  | .bisb2 mask dst => Sys2Proof.Machine.execBisb2 mask dst s
  | .bicb2 mask dst => Sys2Proof.Machine.execBicb2 mask dst s
  | .xorb2 mask dst => Sys2Proof.Machine.execXorb2 mask dst s
  | .movb src dst => Sys2Proof.Machine.execMovb src dst s
  | .cmpb src1 src2 => Sys2Proof.Machine.execCmpb src1 src2 s
  | .bitb mask src => Sys2Proof.Machine.execBitb mask src s
  | .clrb dst => Sys2Proof.Machine.execClrb dst s
  | .tstb src => Sys2Proof.Machine.execTstb src s
  | .incb dst => Sys2Proof.Machine.execIncb dst s
  | .decb dst => Sys2Proof.Machine.execDecb dst s
  | .rotl cnt src dst => Sys2Proof.Machine.execRotl cnt src dst s
  | .movab src dst => Sys2Proof.Machine.execMovab src dst s
  | .pushab src => Sys2Proof.Machine.execPushab src s
  | .addw2 src dst => Sys2Proof.Machine.execAddw2 src dst s
  | .addw3 src1 src2 dst => Sys2Proof.Machine.execAddw3 src1 src2 dst s
  | .subw2 src dst => Sys2Proof.Machine.execSubw2 src dst s
  | .mulw2 src dst => Sys2Proof.Machine.execMulw2 src dst s
  | .divw2 src dst => Sys2Proof.Machine.execDivw2 src dst s
  | .bisw2 mask dst => Sys2Proof.Machine.execBisw2 mask dst s
  | .bicw2 mask dst => Sys2Proof.Machine.execBicw2 mask dst s
  | .xorw2 mask dst => Sys2Proof.Machine.execXorw2 mask dst s
  | .movw src dst => Sys2Proof.Machine.execMovw src dst s
  | .cmpw src1 src2 => Sys2Proof.Machine.execCmpw src1 src2 s
  | .bitw mask src => Sys2Proof.Machine.execBitw mask src s
  | .clrw dst => Sys2Proof.Machine.execClrw dst s
  | .tstw src => Sys2Proof.Machine.execTstw src s
  | .incw dst => Sys2Proof.Machine.execIncw dst s
  | .decw dst => Sys2Proof.Machine.execDecw dst s
  | .addl2 src dst => Sys2Proof.Machine.execAddl2 src dst s
  | .addl3 src1 src2 dst => Sys2Proof.Machine.execAddl3 src1 src2 dst s
  | .subl2 src dst => Sys2Proof.Machine.execSubl2 src dst s
  | .subl3 src1 src2 dst => Sys2Proof.Machine.execSubl3 src1 src2 dst s
  | .mull2 src dst => Sys2Proof.Machine.execMull2 src dst s
  | .mull3 src1 src2 dst => Sys2Proof.Machine.execMull3 src1 src2 dst s
  | .divl2 src dst => Sys2Proof.Machine.execDivl2 src dst s
  | .divl3 src1 src2 dst => Sys2Proof.Machine.execDivl3 src1 src2 dst s
  | .bisl2 mask dst => Sys2Proof.Machine.execBisl2 mask dst s
  | .bicl2 mask dst => Sys2Proof.Machine.execBicl2 mask dst s
  | .xorl2 mask dst => Sys2Proof.Machine.execXorl2 mask dst s
  | .movl src dst => Sys2Proof.Machine.execMovl src dst s
  | .cmpl src1 src2 => Sys2Proof.Machine.execCmpl src1 src2 s
  | .bitl mask src => Sys2Proof.Machine.execBitl mask src s
  | .clrl dst => Sys2Proof.Machine.execClrl dst s
  | .tstl src => Sys2Proof.Machine.execTstl src s
  | .incl dst => Sys2Proof.Machine.execIncl dst s
  | .decl dst => Sys2Proof.Machine.execDecl dst s
  | .mtpr src procreg => Sys2Proof.Machine.execMtpr src procreg s
  | .mfpr procreg dst => Sys2Proof.Machine.execMfpr procreg dst s
  | .pushl src => Sys2Proof.Machine.execPushl src s
  | .moval src dst => Sys2Proof.Machine.execMoval src dst s
  | .pushal src => Sys2Proof.Machine.execPushal src s
  | .callg arglist dst => Sys2Proof.Machine.execCallg arglist dst s
  | .calls numarg dst => Sys2Proof.Machine.execCalls numarg dst s

end Sys2Proof.Machine
end

