-- ==== Sys2Proof/WellFormed.lean ====
section
/-!
DEFINITION. Which terms of the syntax stand for bytes: an immediate constant fits its operand's
size (30_encoding.md R95), the autoincrement forms name no R15 (with R15 they are the immediate and
the absolute form, R91, R92), and a nested index stands only as the base of an indexed specifier
(R87). Forms that R105 faults or refuses are well formed: they have an encoding.
-/

namespace Sys2Proof

/-- The base has an encoding for an operand of size `z`. -/
def Base.wf (z : Size) : Base → Bool
  | .immediate v => v.toNat < 2 ^ z.bits
  | .autoinc n => n ≠ Reg.pc
  | .autoincDeferred n => n ≠ Reg.pc
  | .literal _ | .nestedIndex _ | .register _ | .deferred _ | .autodec _ | .absolute _
  | .byteDisp _ _ | .byteDispDeferred _ _ | .wordDisp _ _ | .wordDispDeferred _ _
  | .longDisp _ _ | .longDispDeferred _ _ => true

/-- Whether the base is a nested index, which is no specifier of its own (R87). -/
def Base.isNestedIndex : Base → Bool
  | .nestedIndex _ => true
  | .literal _ | .register _ | .deferred _ | .autodec _ | .autoinc _ | .immediate _
  | .autoincDeferred _ | .absolute _ | .byteDisp _ _ | .byteDispDeferred _ _ | .wordDisp _ _
  | .wordDispDeferred _ _ | .longDisp _ _ | .longDispDeferred _ _ => false

/-- The specifier has an encoding for an operand of size `z`. -/
def Spec.wf (z : Size) : Spec → Bool
  | .direct b => b.wf z && !b.isNestedIndex
  | .indexed _ b => b.wf z

/-- Every operand specifier of the instruction has an encoding, at the size the opcode table gives
the operand (R82, R114). -/
def Instr.wf : Instr → Bool
  | .halt => true
  | .rei => true
  | .ret => true
  | .rsb => true
  | .ldpctx => true
  | .svpctx => true
  | .brb _ => true
  | .bneq _ => true
  | .bnequ _ => true
  | .beql _ => true
  | .beqlu _ => true
  | .bgtr _ => true
  | .bleq _ => true
  | .jsb dst => dst.wf .b
  | .bgeq _ => true
  | .blss _ => true
  | .bvc _ => true
  | .bvs _ => true
  | .bcc _ => true
  | .bgequ _ => true
  | .bcs _ => true
  | .blssu _ => true
  | .movc3 len src dst => len.wf .w && src.wf .b && dst.wf .b
  | .cmpc3 len src1 src2 => len.wf .w && src1.wf .b && src2.wf .b
  | .movc5 srclen src fill dstlen dst => srclen.wf .w && src.wf .b && fill.wf .b && dstlen.wf .w && dst.wf .b
  | .brw _ => true
  | .locc ch len addr => ch.wf .b && len.wf .w && addr.wf .b
  | .skpc ch len addr => ch.wf .b && len.wf .w && addr.wf .b
  | .movaw src dst => src.wf .w && dst.wf .l
  | .pushaw src => src.wf .w
  | .ashl cnt src dst => cnt.wf .b && src.wf .l && dst.wf .l
  | .ashq cnt src dst => cnt.wf .b && src.wf .q && dst.wf .q
  | .clrq dst => dst.wf .q
  | .movq src dst => src.wf .q && dst.wf .q
  | .addb2 src dst => src.wf .b && dst.wf .b
  | .addb3 src1 src2 dst => src1.wf .b && src2.wf .b && dst.wf .b
  | .subb2 src dst => src.wf .b && dst.wf .b
  | .mulb2 src dst => src.wf .b && dst.wf .b
  | .divb2 src dst => src.wf .b && dst.wf .b
  | .bisb2 mask dst => mask.wf .b && dst.wf .b
  | .bicb2 mask dst => mask.wf .b && dst.wf .b
  | .xorb2 mask dst => mask.wf .b && dst.wf .b
  | .movb src dst => src.wf .b && dst.wf .b
  | .cmpb src1 src2 => src1.wf .b && src2.wf .b
  | .bitb mask src => mask.wf .b && src.wf .b
  | .clrb dst => dst.wf .b
  | .tstb src => src.wf .b
  | .incb dst => dst.wf .b
  | .decb dst => dst.wf .b
  | .rotl cnt src dst => cnt.wf .b && src.wf .l && dst.wf .l
  | .movab src dst => src.wf .b && dst.wf .l
  | .pushab src => src.wf .b
  | .addw2 src dst => src.wf .w && dst.wf .w
  | .addw3 src1 src2 dst => src1.wf .w && src2.wf .w && dst.wf .w
  | .subw2 src dst => src.wf .w && dst.wf .w
  | .mulw2 src dst => src.wf .w && dst.wf .w
  | .divw2 src dst => src.wf .w && dst.wf .w
  | .bisw2 mask dst => mask.wf .w && dst.wf .w
  | .bicw2 mask dst => mask.wf .w && dst.wf .w
  | .xorw2 mask dst => mask.wf .w && dst.wf .w
  | .movw src dst => src.wf .w && dst.wf .w
  | .cmpw src1 src2 => src1.wf .w && src2.wf .w
  | .bitw mask src => mask.wf .w && src.wf .w
  | .clrw dst => dst.wf .w
  | .tstw src => src.wf .w
  | .incw dst => dst.wf .w
  | .decw dst => dst.wf .w
  | .addl2 src dst => src.wf .l && dst.wf .l
  | .addl3 src1 src2 dst => src1.wf .l && src2.wf .l && dst.wf .l
  | .subl2 src dst => src.wf .l && dst.wf .l
  | .subl3 src1 src2 dst => src1.wf .l && src2.wf .l && dst.wf .l
  | .mull2 src dst => src.wf .l && dst.wf .l
  | .mull3 src1 src2 dst => src1.wf .l && src2.wf .l && dst.wf .l
  | .divl2 src dst => src.wf .l && dst.wf .l
  | .divl3 src1 src2 dst => src1.wf .l && src2.wf .l && dst.wf .l
  | .bisl2 mask dst => mask.wf .l && dst.wf .l
  | .bicl2 mask dst => mask.wf .l && dst.wf .l
  | .xorl2 mask dst => mask.wf .l && dst.wf .l
  | .movl src dst => src.wf .l && dst.wf .l
  | .cmpl src1 src2 => src1.wf .l && src2.wf .l
  | .bitl mask src => mask.wf .l && src.wf .l
  | .clrl dst => dst.wf .l
  | .tstl src => src.wf .l
  | .incl dst => dst.wf .l
  | .decl dst => dst.wf .l
  | .mtpr src procreg => src.wf .l && procreg.wf .l
  | .mfpr procreg dst => procreg.wf .l && dst.wf .l
  | .pushl src => src.wf .l
  | .moval src dst => src.wf .l && dst.wf .l
  | .pushal src => src.wf .l
  | .callg arglist dst => arglist.wf .b && dst.wf .b
  | .calls numarg dst => numarg.wf .l && dst.wf .b

end Sys2Proof
end

