-- ==== Sys2Proof/Decode.lean ====
section
/-!
DEFINITION. The decoder, total on any bytes (30_encoding.md R80 to R99, R107, R109, R114), and the
encoder written from the same tables. The decoder reads one opcode byte (R81) and then the operand
fields in the table's order (R82); an opcode byte that is not listed is rejected by name (R109).
-/

namespace Sys2Proof

/-- Why a list of bytes is no instruction. -/
inductive DecodeError where
  /-- The opcode byte is not one of the 88 of R114 (R109). -/
  | unlistedOpcode (op : Byte)
  /-- The list ends before the instruction does. -/
  | truncated
  deriving DecidableEq, Repr

/-- A little-endian field of `k` bytes at the front of the stream (R52). -/
def takeField : Nat → List Byte → Except DecodeError (Nat × List Byte)
  | 0, bs => .ok (0, bs)
  | _ + 1, [] => .error .truncated
  | k + 1, b :: bs => (takeField k bs).map fun p => (b.toNat + 256 * p.1, p.2)

/-- The register number: the low nibble of a specifier byte (R85). -/
def lowNibble (b : Byte) : Reg := Fin.ofNat 16 b.toNat

/-- The addressing mode: the high nibble of a specifier byte (R85). -/
def highNibble (b : Byte) : Nat := b.toNat / 16

/-- The base whose specifier byte is `b`, for an operand of size `z` (R86 to R98). -/
def decodeBaseAfter (z : Size) (b : Byte) (bs : List Byte) : Except DecodeError (Base × List Byte) :=
  match highNibble b with
  | 4 => .ok (.nestedIndex (lowNibble b), bs)
  | 5 => .ok (.register (lowNibble b), bs)
  | 6 => .ok (.deferred (lowNibble b), bs)
  | 7 => .ok (.autodec (lowNibble b), bs)
  | 8 => if lowNibble b = Reg.pc
      then (takeField z.bytes bs).map fun p => (.immediate (BitVec.ofNat 64 p.1), p.2)
      else .ok (.autoinc (lowNibble b), bs)
  | 9 => if lowNibble b = Reg.pc
      then (takeField 4 bs).map fun p => (.absolute (BitVec.ofNat 32 p.1), p.2)
      else .ok (.autoincDeferred (lowNibble b), bs)
  | 10 => (takeField 1 bs).map fun p => (.byteDisp (lowNibble b) (BitVec.ofNat 8 p.1), p.2)
  | 11 => (takeField 1 bs).map fun p => (.byteDispDeferred (lowNibble b) (BitVec.ofNat 8 p.1), p.2)
  | 12 => (takeField 2 bs).map fun p => (.wordDisp (lowNibble b) (BitVec.ofNat 16 p.1), p.2)
  | 13 => (takeField 2 bs).map fun p => (.wordDispDeferred (lowNibble b) (BitVec.ofNat 16 p.1), p.2)
  | 14 => (takeField 4 bs).map fun p => (.longDisp (lowNibble b) (BitVec.ofNat 32 p.1), p.2)
  | 15 => (takeField 4 bs).map fun p => (.longDispDeferred (lowNibble b) (BitVec.ofNat 32 p.1), p.2)
  | _ => .ok (.literal (b.setWidth 6), bs)

/-- The base at the front of the stream. -/
def decodeBase (z : Size) : List Byte → Except DecodeError (Base × List Byte)
  | [] => .error .truncated
  | b :: bs => decodeBaseAfter z b bs

/-- The operand specifier at the front of the stream: `4x` and a base, or a base alone (R85, R87). -/
def decodeSpec (z : Size) : List Byte → Except DecodeError (Spec × List Byte)
  | [] => .error .truncated
  | b :: bs =>
    if highNibble b = 4
    then (decodeBase z bs).map fun p => (.indexed (lowNibble b) p.1, p.2)
    else (decodeBaseAfter z b bs).map fun p => (.direct p.1, p.2)

/-- A branch displacement of one byte, with no specifier byte (R83, R99). -/
def decodeDisp8 (mk : BitVec 8 → Instr) (bs : List Byte) : Except DecodeError (Instr × List Byte) :=
  (takeField 1 bs).map fun p => (mk (BitVec.ofNat 8 p.1), p.2)

/-- A branch displacement of two bytes (R83, R99). -/
def decodeDisp16 (mk : BitVec 16 → Instr) (bs : List Byte) : Except DecodeError (Instr × List Byte) :=
  (takeField 2 bs).map fun p => (mk (BitVec.ofNat 16 p.1), p.2)

/-- One general specifier, of the given size (R82). -/
def decodeOne (z : Size) (mk : Spec → Instr) (bs : List Byte) :
    Except DecodeError (Instr × List Byte) := do
  let (a, bs) ← decodeSpec z bs
  .ok (mk a, bs)

/-- Two general specifiers, in order (R82). -/
def decodeTwo (y z : Size) (mk : Spec → Spec → Instr) (bs : List Byte) :
    Except DecodeError (Instr × List Byte) := do
  let (a, bs) ← decodeSpec y bs
  let (b, bs) ← decodeSpec z bs
  .ok (mk a b, bs)

/-- Three general specifiers, in order (R82). -/
def decodeThree (x y z : Size) (mk : Spec → Spec → Spec → Instr) (bs : List Byte) :
    Except DecodeError (Instr × List Byte) := do
  let (a, bs) ← decodeSpec x bs
  let (b, bs) ← decodeSpec y bs
  let (c, bs) ← decodeSpec z bs
  .ok (mk a b c, bs)

/-- The five general specifiers of MOVC5 (R82, R273). -/
def decodeFive (t1 t2 t3 t4 t5 : Size) (mk : Spec → Spec → Spec → Spec → Spec → Instr) (bs : List Byte) :
    Except DecodeError (Instr × List Byte) := do
  let (a, bs) ← decodeSpec t1 bs
  let (b, bs) ← decodeSpec t2 bs
  let (c, bs) ← decodeSpec t3 bs
  let (d, bs) ← decodeSpec t4 bs
  let (e, bs) ← decodeSpec t5 bs
  .ok (mk a b c d e, bs)

/-- The operand fields that the opcode byte `op` announces, and the instruction they make: one row
per opcode of R114. -/
def decodeFields (op : Byte) (bs : List Byte) : Except DecodeError (Instr × List Byte) :=
  match op.toNat with
  | 0x00 => .ok (.halt, bs)
  | 0x02 => .ok (.rei, bs)
  | 0x04 => .ok (.ret, bs)
  | 0x05 => .ok (.rsb, bs)
  | 0x06 => .ok (.ldpctx, bs)
  | 0x07 => .ok (.svpctx, bs)
  | 0x11 => decodeDisp8 .brb bs
  | 0x12 => decodeDisp8 .bneq bs
  | 0x13 => decodeDisp8 .beql bs
  | 0x14 => decodeDisp8 .bgtr bs
  | 0x15 => decodeDisp8 .bleq bs
  | 0x16 => decodeOne .b .jsb bs
  | 0x18 => decodeDisp8 .bgeq bs
  | 0x19 => decodeDisp8 .blss bs
  | 0x1C => decodeDisp8 .bvc bs
  | 0x1D => decodeDisp8 .bvs bs
  | 0x1E => decodeDisp8 .bcc bs
  | 0x1F => decodeDisp8 .bcs bs
  | 0x28 => decodeThree .w .b .b .movc3 bs
  | 0x29 => decodeThree .w .b .b .cmpc3 bs
  | 0x2C => decodeFive .w .b .b .w .b .movc5 bs
  | 0x31 => decodeDisp16 .brw bs
  | 0x3A => decodeThree .b .w .b .locc bs
  | 0x3B => decodeThree .b .w .b .skpc bs
  | 0x3E => decodeTwo .w .l .movaw bs
  | 0x3F => decodeOne .w .pushaw bs
  | 0x78 => decodeThree .b .l .l .ashl bs
  | 0x79 => decodeThree .b .q .q .ashq bs
  | 0x7C => decodeOne .q .clrq bs
  | 0x7D => decodeTwo .q .q .movq bs
  | 0x80 => decodeTwo .b .b .addb2 bs
  | 0x81 => decodeThree .b .b .b .addb3 bs
  | 0x82 => decodeTwo .b .b .subb2 bs
  | 0x84 => decodeTwo .b .b .mulb2 bs
  | 0x86 => decodeTwo .b .b .divb2 bs
  | 0x88 => decodeTwo .b .b .bisb2 bs
  | 0x8A => decodeTwo .b .b .bicb2 bs
  | 0x8C => decodeTwo .b .b .xorb2 bs
  | 0x90 => decodeTwo .b .b .movb bs
  | 0x91 => decodeTwo .b .b .cmpb bs
  | 0x93 => decodeTwo .b .b .bitb bs
  | 0x94 => decodeOne .b .clrb bs
  | 0x95 => decodeOne .b .tstb bs
  | 0x96 => decodeOne .b .incb bs
  | 0x97 => decodeOne .b .decb bs
  | 0x9C => decodeThree .b .l .l .rotl bs
  | 0x9E => decodeTwo .b .l .movab bs
  | 0x9F => decodeOne .b .pushab bs
  | 0xA0 => decodeTwo .w .w .addw2 bs
  | 0xA1 => decodeThree .w .w .w .addw3 bs
  | 0xA2 => decodeTwo .w .w .subw2 bs
  | 0xA4 => decodeTwo .w .w .mulw2 bs
  | 0xA6 => decodeTwo .w .w .divw2 bs
  | 0xA8 => decodeTwo .w .w .bisw2 bs
  | 0xAA => decodeTwo .w .w .bicw2 bs
  | 0xAC => decodeTwo .w .w .xorw2 bs
  | 0xB0 => decodeTwo .w .w .movw bs
  | 0xB1 => decodeTwo .w .w .cmpw bs
  | 0xB3 => decodeTwo .w .w .bitw bs
  | 0xB4 => decodeOne .w .clrw bs
  | 0xB5 => decodeOne .w .tstw bs
  | 0xB6 => decodeOne .w .incw bs
  | 0xB7 => decodeOne .w .decw bs
  | 0xC0 => decodeTwo .l .l .addl2 bs
  | 0xC1 => decodeThree .l .l .l .addl3 bs
  | 0xC2 => decodeTwo .l .l .subl2 bs
  | 0xC3 => decodeThree .l .l .l .subl3 bs
  | 0xC4 => decodeTwo .l .l .mull2 bs
  | 0xC5 => decodeThree .l .l .l .mull3 bs
  | 0xC6 => decodeTwo .l .l .divl2 bs
  | 0xC7 => decodeThree .l .l .l .divl3 bs
  | 0xC8 => decodeTwo .l .l .bisl2 bs
  | 0xCA => decodeTwo .l .l .bicl2 bs
  | 0xCC => decodeTwo .l .l .xorl2 bs
  | 0xD0 => decodeTwo .l .l .movl bs
  | 0xD1 => decodeTwo .l .l .cmpl bs
  | 0xD3 => decodeTwo .l .l .bitl bs
  | 0xD4 => decodeOne .l .clrl bs
  | 0xD5 => decodeOne .l .tstl bs
  | 0xD6 => decodeOne .l .incl bs
  | 0xD7 => decodeOne .l .decl bs
  | 0xDA => decodeTwo .l .l .mtpr bs
  | 0xDB => decodeTwo .l .l .mfpr bs
  | 0xDD => decodeOne .l .pushl bs
  | 0xDE => decodeTwo .l .l .moval bs
  | 0xDF => decodeOne .l .pushal bs
  | 0xFA => decodeTwo .b .b .callg bs
  | 0xFB => decodeTwo .l .b .calls bs
  | _ => .error (.unlistedOpcode op)

/-- The instruction at the front of the stream, and the bytes after it (R80 to R82). -/
def decode : List Byte → Except DecodeError (Instr × List Byte)
  | [] => .error .truncated
  | op :: bs => decodeFields op bs

/-- A specifier byte: the mode in the high nibble, the register in the low one (R85). -/
def specByte (mode : Nat) (n : Reg) : Byte := BitVec.ofNat 8 (16 * mode + n.val)

/-- The bytes of a base for an operand of size `z` (R85 to R98). -/
def Base.encode (z : Size) : Base → List Byte
  | .literal v => [v.setWidth 8]
  | .nestedIndex n => [specByte 4 n]
  | .register n => [specByte 5 n]
  | .deferred n => [specByte 6 n]
  | .autodec n => [specByte 7 n]
  | .autoinc n => [specByte 8 n]
  | .immediate v => specByte 8 Reg.pc :: leBytes z.bytes v.toNat
  | .autoincDeferred n => [specByte 9 n]
  | .absolute a => specByte 9 Reg.pc :: leBytes 4 a.toNat
  | .byteDisp n d => specByte 10 n :: leBytes 1 d.toNat
  | .byteDispDeferred n d => specByte 11 n :: leBytes 1 d.toNat
  | .wordDisp n d => specByte 12 n :: leBytes 2 d.toNat
  | .wordDispDeferred n d => specByte 13 n :: leBytes 2 d.toNat
  | .longDisp n d => specByte 14 n :: leBytes 4 d.toNat
  | .longDispDeferred n d => specByte 15 n :: leBytes 4 d.toNat

/-- The bytes of a specifier for an operand of size `z` (R85, R87). -/
def Spec.encode (z : Size) : Spec → List Byte
  | .direct b => b.encode z
  | .indexed x b => specByte 4 x :: b.encode z

/-- The opcode byte (R114). -/
def Instr.opcode : Instr → Byte
  | .halt => 0x00
  | .rei => 0x02
  | .ret => 0x04
  | .rsb => 0x05
  | .ldpctx => 0x06
  | .svpctx => 0x07
  | .brb _ => 0x11
  | .bneq _ => 0x12
  | .bnequ _ => 0x12
  | .beql _ => 0x13
  | .beqlu _ => 0x13
  | .bgtr _ => 0x14
  | .bleq _ => 0x15
  | .jsb _ => 0x16
  | .bgeq _ => 0x18
  | .blss _ => 0x19
  | .bvc _ => 0x1C
  | .bvs _ => 0x1D
  | .bcc _ => 0x1E
  | .bgequ _ => 0x1E
  | .bcs _ => 0x1F
  | .blssu _ => 0x1F
  | .movc3 _ _ _ => 0x28
  | .cmpc3 _ _ _ => 0x29
  | .movc5 _ _ _ _ _ => 0x2C
  | .brw _ => 0x31
  | .locc _ _ _ => 0x3A
  | .skpc _ _ _ => 0x3B
  | .movaw _ _ => 0x3E
  | .pushaw _ => 0x3F
  | .ashl _ _ _ => 0x78
  | .ashq _ _ _ => 0x79
  | .clrq _ => 0x7C
  | .movq _ _ => 0x7D
  | .addb2 _ _ => 0x80
  | .addb3 _ _ _ => 0x81
  | .subb2 _ _ => 0x82
  | .mulb2 _ _ => 0x84
  | .divb2 _ _ => 0x86
  | .bisb2 _ _ => 0x88
  | .bicb2 _ _ => 0x8A
  | .xorb2 _ _ => 0x8C
  | .movb _ _ => 0x90
  | .cmpb _ _ => 0x91
  | .bitb _ _ => 0x93
  | .clrb _ => 0x94
  | .tstb _ => 0x95
  | .incb _ => 0x96
  | .decb _ => 0x97
  | .rotl _ _ _ => 0x9C
  | .movab _ _ => 0x9E
  | .pushab _ => 0x9F
  | .addw2 _ _ => 0xA0
  | .addw3 _ _ _ => 0xA1
  | .subw2 _ _ => 0xA2
  | .mulw2 _ _ => 0xA4
  | .divw2 _ _ => 0xA6
  | .bisw2 _ _ => 0xA8
  | .bicw2 _ _ => 0xAA
  | .xorw2 _ _ => 0xAC
  | .movw _ _ => 0xB0
  | .cmpw _ _ => 0xB1
  | .bitw _ _ => 0xB3
  | .clrw _ => 0xB4
  | .tstw _ => 0xB5
  | .incw _ => 0xB6
  | .decw _ => 0xB7
  | .addl2 _ _ => 0xC0
  | .addl3 _ _ _ => 0xC1
  | .subl2 _ _ => 0xC2
  | .subl3 _ _ _ => 0xC3
  | .mull2 _ _ => 0xC4
  | .mull3 _ _ _ => 0xC5
  | .divl2 _ _ => 0xC6
  | .divl3 _ _ _ => 0xC7
  | .bisl2 _ _ => 0xC8
  | .bicl2 _ _ => 0xCA
  | .xorl2 _ _ => 0xCC
  | .movl _ _ => 0xD0
  | .cmpl _ _ => 0xD1
  | .bitl _ _ => 0xD3
  | .clrl _ => 0xD4
  | .tstl _ => 0xD5
  | .incl _ => 0xD6
  | .decl _ => 0xD7
  | .mtpr _ _ => 0xDA
  | .mfpr _ _ => 0xDB
  | .pushl _ => 0xDD
  | .moval _ _ => 0xDE
  | .pushal _ => 0xDF
  | .callg _ _ => 0xFA
  | .calls _ _ => 0xFB

/-- The bytes of the operand fields, in the table's order (R82, R114). -/
def Instr.fields : Instr → List Byte
  | .halt => []
  | .rei => []
  | .ret => []
  | .rsb => []
  | .ldpctx => []
  | .svpctx => []
  | .brb disp => leBytes 1 disp.toNat
  | .bneq disp => leBytes 1 disp.toNat
  | .bnequ disp => leBytes 1 disp.toNat
  | .beql disp => leBytes 1 disp.toNat
  | .beqlu disp => leBytes 1 disp.toNat
  | .bgtr disp => leBytes 1 disp.toNat
  | .bleq disp => leBytes 1 disp.toNat
  | .jsb dst => dst.encode .b
  | .bgeq disp => leBytes 1 disp.toNat
  | .blss disp => leBytes 1 disp.toNat
  | .bvc disp => leBytes 1 disp.toNat
  | .bvs disp => leBytes 1 disp.toNat
  | .bcc disp => leBytes 1 disp.toNat
  | .bgequ disp => leBytes 1 disp.toNat
  | .bcs disp => leBytes 1 disp.toNat
  | .blssu disp => leBytes 1 disp.toNat
  | .movc3 len src dst => len.encode .w ++ src.encode .b ++ dst.encode .b
  | .cmpc3 len src1 src2 => len.encode .w ++ src1.encode .b ++ src2.encode .b
  | .movc5 srclen src fill dstlen dst => srclen.encode .w ++ src.encode .b ++ fill.encode .b ++ dstlen.encode .w ++ dst.encode .b
  | .brw disp => leBytes 2 disp.toNat
  | .locc ch len addr => ch.encode .b ++ len.encode .w ++ addr.encode .b
  | .skpc ch len addr => ch.encode .b ++ len.encode .w ++ addr.encode .b
  | .movaw src dst => src.encode .w ++ dst.encode .l
  | .pushaw src => src.encode .w
  | .ashl cnt src dst => cnt.encode .b ++ src.encode .l ++ dst.encode .l
  | .ashq cnt src dst => cnt.encode .b ++ src.encode .q ++ dst.encode .q
  | .clrq dst => dst.encode .q
  | .movq src dst => src.encode .q ++ dst.encode .q
  | .addb2 src dst => src.encode .b ++ dst.encode .b
  | .addb3 src1 src2 dst => src1.encode .b ++ src2.encode .b ++ dst.encode .b
  | .subb2 src dst => src.encode .b ++ dst.encode .b
  | .mulb2 src dst => src.encode .b ++ dst.encode .b
  | .divb2 src dst => src.encode .b ++ dst.encode .b
  | .bisb2 mask dst => mask.encode .b ++ dst.encode .b
  | .bicb2 mask dst => mask.encode .b ++ dst.encode .b
  | .xorb2 mask dst => mask.encode .b ++ dst.encode .b
  | .movb src dst => src.encode .b ++ dst.encode .b
  | .cmpb src1 src2 => src1.encode .b ++ src2.encode .b
  | .bitb mask src => mask.encode .b ++ src.encode .b
  | .clrb dst => dst.encode .b
  | .tstb src => src.encode .b
  | .incb dst => dst.encode .b
  | .decb dst => dst.encode .b
  | .rotl cnt src dst => cnt.encode .b ++ src.encode .l ++ dst.encode .l
  | .movab src dst => src.encode .b ++ dst.encode .l
  | .pushab src => src.encode .b
  | .addw2 src dst => src.encode .w ++ dst.encode .w
  | .addw3 src1 src2 dst => src1.encode .w ++ src2.encode .w ++ dst.encode .w
  | .subw2 src dst => src.encode .w ++ dst.encode .w
  | .mulw2 src dst => src.encode .w ++ dst.encode .w
  | .divw2 src dst => src.encode .w ++ dst.encode .w
  | .bisw2 mask dst => mask.encode .w ++ dst.encode .w
  | .bicw2 mask dst => mask.encode .w ++ dst.encode .w
  | .xorw2 mask dst => mask.encode .w ++ dst.encode .w
  | .movw src dst => src.encode .w ++ dst.encode .w
  | .cmpw src1 src2 => src1.encode .w ++ src2.encode .w
  | .bitw mask src => mask.encode .w ++ src.encode .w
  | .clrw dst => dst.encode .w
  | .tstw src => src.encode .w
  | .incw dst => dst.encode .w
  | .decw dst => dst.encode .w
  | .addl2 src dst => src.encode .l ++ dst.encode .l
  | .addl3 src1 src2 dst => src1.encode .l ++ src2.encode .l ++ dst.encode .l
  | .subl2 src dst => src.encode .l ++ dst.encode .l
  | .subl3 src1 src2 dst => src1.encode .l ++ src2.encode .l ++ dst.encode .l
  | .mull2 src dst => src.encode .l ++ dst.encode .l
  | .mull3 src1 src2 dst => src1.encode .l ++ src2.encode .l ++ dst.encode .l
  | .divl2 src dst => src.encode .l ++ dst.encode .l
  | .divl3 src1 src2 dst => src1.encode .l ++ src2.encode .l ++ dst.encode .l
  | .bisl2 mask dst => mask.encode .l ++ dst.encode .l
  | .bicl2 mask dst => mask.encode .l ++ dst.encode .l
  | .xorl2 mask dst => mask.encode .l ++ dst.encode .l
  | .movl src dst => src.encode .l ++ dst.encode .l
  | .cmpl src1 src2 => src1.encode .l ++ src2.encode .l
  | .bitl mask src => mask.encode .l ++ src.encode .l
  | .clrl dst => dst.encode .l
  | .tstl src => src.encode .l
  | .incl dst => dst.encode .l
  | .decl dst => dst.encode .l
  | .mtpr src procreg => src.encode .l ++ procreg.encode .l
  | .mfpr procreg dst => procreg.encode .l ++ dst.encode .l
  | .pushl src => src.encode .l
  | .moval src dst => src.encode .l ++ dst.encode .l
  | .pushal src => src.encode .l
  | .callg arglist dst => arglist.encode .b ++ dst.encode .b
  | .calls numarg dst => numarg.encode .l ++ dst.encode .b

/-- The bytes of an instruction (R80, R82). -/
def encode (i : Instr) : List Byte := i.opcode :: i.fields

/-- The spelling the decoder answers: the second mnemonics of R113 are their first ones. -/
def Instr.canonical : Instr → Instr
  | .halt => .halt
  | .rei => .rei
  | .ret => .ret
  | .rsb => .rsb
  | .ldpctx => .ldpctx
  | .svpctx => .svpctx
  | .brb disp => .brb disp
  | .bneq disp => .bneq disp
  | .bnequ disp => .bneq disp
  | .beql disp => .beql disp
  | .beqlu disp => .beql disp
  | .bgtr disp => .bgtr disp
  | .bleq disp => .bleq disp
  | .jsb dst => .jsb dst
  | .bgeq disp => .bgeq disp
  | .blss disp => .blss disp
  | .bvc disp => .bvc disp
  | .bvs disp => .bvs disp
  | .bcc disp => .bcc disp
  | .bgequ disp => .bcc disp
  | .bcs disp => .bcs disp
  | .blssu disp => .bcs disp
  | .movc3 len src dst => .movc3 len src dst
  | .cmpc3 len src1 src2 => .cmpc3 len src1 src2
  | .movc5 srclen src fill dstlen dst => .movc5 srclen src fill dstlen dst
  | .brw disp => .brw disp
  | .locc ch len addr => .locc ch len addr
  | .skpc ch len addr => .skpc ch len addr
  | .movaw src dst => .movaw src dst
  | .pushaw src => .pushaw src
  | .ashl cnt src dst => .ashl cnt src dst
  | .ashq cnt src dst => .ashq cnt src dst
  | .clrq dst => .clrq dst
  | .movq src dst => .movq src dst
  | .addb2 src dst => .addb2 src dst
  | .addb3 src1 src2 dst => .addb3 src1 src2 dst
  | .subb2 src dst => .subb2 src dst
  | .mulb2 src dst => .mulb2 src dst
  | .divb2 src dst => .divb2 src dst
  | .bisb2 mask dst => .bisb2 mask dst
  | .bicb2 mask dst => .bicb2 mask dst
  | .xorb2 mask dst => .xorb2 mask dst
  | .movb src dst => .movb src dst
  | .cmpb src1 src2 => .cmpb src1 src2
  | .bitb mask src => .bitb mask src
  | .clrb dst => .clrb dst
  | .tstb src => .tstb src
  | .incb dst => .incb dst
  | .decb dst => .decb dst
  | .rotl cnt src dst => .rotl cnt src dst
  | .movab src dst => .movab src dst
  | .pushab src => .pushab src
  | .addw2 src dst => .addw2 src dst
  | .addw3 src1 src2 dst => .addw3 src1 src2 dst
  | .subw2 src dst => .subw2 src dst
  | .mulw2 src dst => .mulw2 src dst
  | .divw2 src dst => .divw2 src dst
  | .bisw2 mask dst => .bisw2 mask dst
  | .bicw2 mask dst => .bicw2 mask dst
  | .xorw2 mask dst => .xorw2 mask dst
  | .movw src dst => .movw src dst
  | .cmpw src1 src2 => .cmpw src1 src2
  | .bitw mask src => .bitw mask src
  | .clrw dst => .clrw dst
  | .tstw src => .tstw src
  | .incw dst => .incw dst
  | .decw dst => .decw dst
  | .addl2 src dst => .addl2 src dst
  | .addl3 src1 src2 dst => .addl3 src1 src2 dst
  | .subl2 src dst => .subl2 src dst
  | .subl3 src1 src2 dst => .subl3 src1 src2 dst
  | .mull2 src dst => .mull2 src dst
  | .mull3 src1 src2 dst => .mull3 src1 src2 dst
  | .divl2 src dst => .divl2 src dst
  | .divl3 src1 src2 dst => .divl3 src1 src2 dst
  | .bisl2 mask dst => .bisl2 mask dst
  | .bicl2 mask dst => .bicl2 mask dst
  | .xorl2 mask dst => .xorl2 mask dst
  | .movl src dst => .movl src dst
  | .cmpl src1 src2 => .cmpl src1 src2
  | .bitl mask src => .bitl mask src
  | .clrl dst => .clrl dst
  | .tstl src => .tstl src
  | .incl dst => .incl dst
  | .decl dst => .decl dst
  | .mtpr src procreg => .mtpr src procreg
  | .mfpr procreg dst => .mfpr procreg dst
  | .pushl src => .pushl src
  | .moval src dst => .moval src dst
  | .pushal src => .pushal src
  | .callg arglist dst => .callg arglist dst
  | .calls numarg dst => .calls numarg dst

/-- The most bytes an instruction has: MOVC5 with five indexed long displacements (R107). -/
def maxLength : Nat := 31

/-- The `maxLength` bytes whose first `nbits` bits are those of `w` and the rest zero. -/
def tableBytes (nbits w : Nat) : List Byte := leBytes maxLength (w % 2 ^ nbits)

/-- What the decoder reads from an instruction whose bits are `w` (bit 0 the least significant bit
of the first byte) and zero above `nbits`. -/
def decodeTableWord (nbits w : Nat) : Option Instr :=
  match decode (tableBytes nbits w) with
  | .ok (i, _) => some i
  | .error _ => none

end Sys2Proof
end

