-- ==== Sys2Proof/Machine/Fetch.lean ====
section
/-!
DEFINITION. What a step does around an instruction: the states in which none is fetched, the bytes
the decoder sees, an opcode byte it rejects, and the instruction boundary at which the interrupt
oracle is asked (10_state.md R29, 30_encoding.md R82, R109, 60_exceptions.md R311, R312).
-/

namespace Sys2Proof.Machine

/-- The states in which no instruction is fetched: a halted processor stays as it is (R262, R327,
assumption 10); translation on and the PSL bits without a meaning are refused (R29, R62). -/
def beforeFetch (s : State) : Option Outcome :=
  if s.halted then some (.next s)
  else if s.mapen = 1 then some (.refused .translationNotModelled)
  else if pslUnmodelled s.psl then some (.refused .unmodelledPslBit)
  else none

/-- The bytes from the program counter upward, as many as the longest instruction has (R80, R107). -/
def instrWindow (s : State) : List Byte := s.bytesAt s.pc maxLength

/-- The reason of a refusal to decode (R109). -/
def decodeRefusal : DecodeError → Refusal
  | .unlistedOpcode op => .unlistedOpcode op
  | .truncated => .truncatedInstruction

/-- The outcome at an opcode that decodes to no instruction: the opcode byte is fetched, then refused
(R82, R109). -/
def rejectOpcode (e : DecodeError) (s : State) : Outcome :=
  conclude s (do
    let _ ← fetch 1 s
    .error (.refuse (decodeRefusal e)))

/-- The instruction boundary after a next state: the interrupt oracle's answer is taken off the list;
an interrupt whose level is above IPL is entered (R312, R314). A halted processor takes none (R327). -/
def offerInterrupt (s : State) : Outcome :=
  if s.halted then .next s
  else match s.irqs with
    | [] => .next s
    | none :: rest => .next { s with irqs := rest }
    | some q :: rest =>
      let t := { s with irqs := rest }
      if q.level ≤ pslIPL t.psl then .next t
      else if t.cfg.deliver then
        takeEntry (.interrupt q.level) (q.index.setWidth 32 * 4) t.pc [] t
      else .refused .interruptNotDelivered

/-- The outcome of an instruction, carried over its boundary (R312). -/
def atBoundary : Outcome → Outcome
  | .next s => offerInterrupt s
  | .fault f => .fault f
  | .refused r => .refused r

/-- The addresses of `k` bytes from `a` upward, modulo 2^32. -/
def addrRange (a : Word) : Nat → List Nat
  | 0 => []
  | k + 1 => a.toNat :: addrRange (a.plus 1) k

/-- The state with bytes placed at the program counter by a load from outside the machine: they are
not in the record of stored bytes (R67, 70_reset_and_hazards.md R359), and the processor runs. -/
def loadAtPc (bs : List Byte) (s : State) : State :=
  { s with
    mem := memLoad s.mem s.pc bs
    written := s.written.filter fun x => decide (x ∉ addrRange s.pc bs.length)
    halted := false }

end Sys2Proof.Machine
end

