-- ==== Sys2Proof/Machine/Step.lean ====
section
/-!
DEFINITION. One step of the machine (00_scope.md R10): the instruction at the program counter is
decoded and executed, and the instruction boundary passed.
-/

namespace Sys2Proof.Machine

/-- One step. -/
def step (s : State) : Host.Outcome State Fault Refusal :=
  match beforeFetch s with
  | some o => o
  | none =>
    match decode (instrWindow s) with
    | .ok p => atBoundary (exec p.1 s)
    | .error e => rejectOpcode e s

/-- The state with the instruction whose first `nbits` bits are `w`, and zero above, stored where the
next step fetches (assumption 11). -/
def State.withFetchWord (s : State) (nbits w : Nat) : State := loadAtPc (tableBytes nbits w) s

end Sys2Proof.Machine
end

