-- ==== Sys2Proof/Safety.lean ====
section
/-!
DEFINITION. What claims about runs are said in: outcomes, runs, and the invariants of the machine
that its rules promise (10_state.md R34, R38 to R44; 00_scope.md R10; 70_reset_and_hazards.md R358).
-/

namespace Sys2Proof.Machine

/-- The next state of an outcome, if it is one. -/
def nextOf : Outcome → Option State
  | .next s => some s
  | .fault _ => none
  | .refused _ => none

/-- `n` steps, while they answer a next state. -/
def runSteps : Nat → State → Option State
  | 0, s => some s
  | n + 1, s =>
    match step s with
    | .next t => runSteps n t
    | .fault _ => none
    | .refused _ => none

/-- A run of `n` steps has met no fault and no refusal. -/
def safeFor (n : Nat) (s : State) : Bool := (runSteps n s).isSome

/-- A PSL as the instructions in scope leave it (R34): no must-be-zero bit, the interrupt stack and a
non-zero IPL only in kernel mode, the previous mode no more privileged than the current one. -/
def pslLegal (w : Word) : Bool :=
  (w &&& pslMbz) == 0
  && (!pslIS w || pslCUR w == 0)
  && (pslIPL w == 0 || pslCUR w == 0)
  && decide (pslCUR w ≤ pslPRV w)

/-- The processor registers hold what their fields allow (R38 to R40, R42, R44). -/
def procRegsLegal (s : State) : Bool :=
  s.p0br.extractLsb' 0 2 == 0 && s.p1br.extractLsb' 0 2 == 0 && s.sbr.extractLsb' 0 2 == 0
  && s.p0lr.extractLsb' 22 10 == 0 && s.p1lr.extractLsb' 22 10 == 0 && s.slr.extractLsb' 22 10 == 0
  && s.pcbb.extractLsb' 0 2 == 0 && s.scbb.extractLsb' 0 9 == 0
  && decide (s.astlvl.toNat ≤ 4) && s.mapen == 0

/-- The plain data of the state is in its canonical form. -/
def dataWf (s : State) : Bool := memWf s.mem && addrsWf s.written

/-! ## What an access or a fetch needs -/

/-- Memory exists at each of the `k` addresses from `a` upward (20_memory.md R47, R54). -/
@[reducible] def canAccess (k : Nat) (a : Word) (s : State) : Prop :=
  ∀ i < k, Config.valid s.cfg (a.plus i) = true

/-- The next `k` bytes of the instruction stream can be fetched (30_encoding.md R80): memory exists
there and, under `smc = .refuse`, none was stored to since the last REI. -/
@[reducible] def canFetch (k : Nat) (s : State) : Prop :=
  canAccess k s.pc s ∧ ∀ i < k, s.cfg.smc = .refuse → (s.pc.plus i).toNat ∉ s.written

/-- The states in which the next step fetches an instruction: not halted, translation off, none of T,
TP, CM, FPD set (10_state.md R29, 46_privileged.md R262). -/
@[reducible] def running (s : State) : Prop :=
  s.halted = false ∧ s.mapen = 0 ∧ pslT s.psl = false ∧ pslTP s.psl = false ∧
    pslCM s.psl = false ∧ pslFPD s.psl = false

/-- The longword at an address, as its four bytes read (R54). -/
def State.long (s : State) (a : Word) : Word := BitVec.ofNat 32 (leValue (s.bytesAt a 4))

/-- The word at an address, as its two bytes read (R54). -/
def State.word (s : State) (a : Word) : BitVec 16 := BitVec.ofNat 16 (leValue (s.bytesAt a 2))

/-! ## Operands -/

/-- The registers a register operand of size `z` names (10_state.md R23). -/
def Operand.regs (z : Size) : Operand → List Reg
  | .reg n => if z = .q then [n, n + 1] else [n]
  | .lit _ | .mem _ => []

/-- The addresses of the bytes of a memory operand of size `z` (20_memory.md R54). -/
def Operand.addrs (z : Size) : Operand → List Word
  | .mem a => (List.range z.bytes).map a.plus
  | .lit _ | .reg _ => []

/-- A destination of size `z` can be written: it is a register, or memory exists at its bytes. -/
@[reducible] def Operand.writable (z : Size) (o : Operand) (s : State) : Prop :=
  ∀ x ∈ o.addrs z, Config.valid s.cfg x = true

/-- The register that evaluating a base steps (30_encoding.md R90, R91, R92). -/
def Base.steps : Base → List Reg
  | .autodec n => [n]
  | .autoinc n => [n]
  | .autoincDeferred n => [n]
  | .literal _ | .nestedIndex _ | .register _ | .deferred _ | .immediate _ | .absolute _
  | .byteDisp _ _ | .byteDispDeferred _ _ | .wordDisp _ _ | .wordDispDeferred _ _
  | .longDisp _ _ | .longDispDeferred _ _ => []

/-- The register that evaluating a specifier steps. -/
def Spec.steps : Spec → List Reg
  | .direct b => Base.steps b
  | .indexed _ b => Base.steps b

/-- The registers that evaluating specifiers steps. -/
def stepped (sps : List Spec) : List Reg := sps.flatMap Spec.steps

/-- The specifier is in a case that the table of R105 marks as a reserved addressing mode. -/
def reservedMode (a : Access) : Spec → Prop
  | .direct (.literal _) => a ≠ .read
  | .direct (.register _) => a = .address
  | .direct (.nestedIndex _) => True
  | .indexed x b => x = Reg.pc ∨
      (∃ v, b = .literal v) ∨ (∃ n, b = .register n) ∨ (∃ n, b = .nestedIndex n)
  | .direct _ => False

/-- A general operand of an instruction: its specifier, with the access type and the size that the table
gives it (R82, R84). -/
structure OperandSpec where
  access : Access
  size : Size
  spec : Spec
  deriving DecidableEq, Repr

/-- An operand that is read. -/
def OperandSpec.r (z : Size) (sp : Spec) : OperandSpec := { access := .read, size := z, spec := sp }

/-- An operand that is written. -/
def OperandSpec.w (z : Size) (sp : Spec) : OperandSpec := { access := .write, size := z, spec := sp }

/-- An operand that is modified. -/
def OperandSpec.m (z : Size) (sp : Spec) : OperandSpec := { access := .modify, size := z, spec := sp }

/-- An operand whose address is taken. -/
def OperandSpec.a (z : Size) (sp : Spec) : OperandSpec := { access := .address, size := z, spec := sp }

/-- The general operands of an instruction in the order in which they are evaluated (R82, R104, R114). A
branch displacement is none. -/
def operandsOf : Instr → List OperandSpec
  | .halt => []
  | .rei => []
  | .ret => []
  | .rsb => []
  | .ldpctx => []
  | .svpctx => []
  | .brb _ => []
  | .bneq _ => []
  | .bnequ _ => []
  | .beql _ => []
  | .beqlu _ => []
  | .bgtr _ => []
  | .bleq _ => []
  | .jsb dst => [.a .b dst]
  | .bgeq _ => []
  | .blss _ => []
  | .bvc _ => []
  | .bvs _ => []
  | .bcc _ => []
  | .bgequ _ => []
  | .bcs _ => []
  | .blssu _ => []
  | .movc3 len src dst => [.r .w len, .a .b src, .a .b dst]
  | .cmpc3 len src1 src2 => [.r .w len, .a .b src1, .a .b src2]
  | .movc5 srclen src fill dstlen dst => [.r .w srclen, .a .b src, .r .b fill, .r .w dstlen, .a .b dst]
  | .brw _ => []
  | .locc ch len addr => [.r .b ch, .r .w len, .a .b addr]
  | .skpc ch len addr => [.r .b ch, .r .w len, .a .b addr]
  | .movaw src dst => [.a .w src, .w .l dst]
  | .pushaw src => [.a .w src]
  | .ashl cnt src dst => [.r .b cnt, .r .l src, .w .l dst]
  | .ashq cnt src dst => [.r .b cnt, .r .q src, .w .q dst]
  | .clrq dst => [.w .q dst]
  | .movq src dst => [.r .q src, .w .q dst]
  | .addb2 src dst => [.r .b src, .m .b dst]
  | .addb3 src1 src2 dst => [.r .b src1, .r .b src2, .w .b dst]
  | .subb2 src dst => [.r .b src, .m .b dst]
  | .mulb2 src dst => [.r .b src, .m .b dst]
  | .divb2 src dst => [.r .b src, .m .b dst]
  | .bisb2 mask dst => [.r .b mask, .m .b dst]
  | .bicb2 mask dst => [.r .b mask, .m .b dst]
  | .xorb2 mask dst => [.r .b mask, .m .b dst]
  | .movb src dst => [.r .b src, .w .b dst]
  | .cmpb src1 src2 => [.r .b src1, .r .b src2]
  | .bitb mask src => [.r .b mask, .r .b src]
  | .clrb dst => [.w .b dst]
  | .tstb src => [.r .b src]
  | .incb dst => [.m .b dst]
  | .decb dst => [.m .b dst]
  | .rotl cnt src dst => [.r .b cnt, .r .l src, .w .l dst]
  | .movab src dst => [.a .b src, .w .l dst]
  | .pushab src => [.a .b src]
  | .addw2 src dst => [.r .w src, .m .w dst]
  | .addw3 src1 src2 dst => [.r .w src1, .r .w src2, .w .w dst]
  | .subw2 src dst => [.r .w src, .m .w dst]
  | .mulw2 src dst => [.r .w src, .m .w dst]
  | .divw2 src dst => [.r .w src, .m .w dst]
  | .bisw2 mask dst => [.r .w mask, .m .w dst]
  | .bicw2 mask dst => [.r .w mask, .m .w dst]
  | .xorw2 mask dst => [.r .w mask, .m .w dst]
  | .movw src dst => [.r .w src, .w .w dst]
  | .cmpw src1 src2 => [.r .w src1, .r .w src2]
  | .bitw mask src => [.r .w mask, .r .w src]
  | .clrw dst => [.w .w dst]
  | .tstw src => [.r .w src]
  | .incw dst => [.m .w dst]
  | .decw dst => [.m .w dst]
  | .addl2 src dst => [.r .l src, .m .l dst]
  | .addl3 src1 src2 dst => [.r .l src1, .r .l src2, .w .l dst]
  | .subl2 src dst => [.r .l src, .m .l dst]
  | .subl3 src1 src2 dst => [.r .l src1, .r .l src2, .w .l dst]
  | .mull2 src dst => [.r .l src, .m .l dst]
  | .mull3 src1 src2 dst => [.r .l src1, .r .l src2, .w .l dst]
  | .divl2 src dst => [.r .l src, .m .l dst]
  | .divl3 src1 src2 dst => [.r .l src1, .r .l src2, .w .l dst]
  | .bisl2 mask dst => [.r .l mask, .m .l dst]
  | .bicl2 mask dst => [.r .l mask, .m .l dst]
  | .xorl2 mask dst => [.r .l mask, .m .l dst]
  | .movl src dst => [.r .l src, .w .l dst]
  | .cmpl src1 src2 => [.r .l src1, .r .l src2]
  | .bitl mask src => [.r .l mask, .r .l src]
  | .clrl dst => [.w .l dst]
  | .tstl src => [.r .l src]
  | .incl dst => [.m .l dst]
  | .decl dst => [.m .l dst]
  | .mtpr src procreg => [.r .l src, .r .l procreg]
  | .mfpr procreg dst => [.r .l procreg, .w .l dst]
  | .pushl src => [.r .l src]
  | .moval src dst => [.a .l src, .w .l dst]
  | .pushal src => [.a .l src]
  | .callg arglist dst => [.a .b arglist, .a .b dst]
  | .calls numarg dst => [.r .l numarg, .a .b dst]

/-- A general operand evaluated as its access type says (R84, R104): the state then reached. -/
def OperandSpec.eval (p : OperandSpec) (s : State) : Except Stop State :=
  match p.access with
  | .read => (evalRead p.size p.spec s).map Prod.snd
  | .modify => (evalModify p.size p.spec s).map fun r => r.2.2
  | .write => (evalWrite p.size p.spec s).map Prod.snd
  | .address => (evalAddress p.size p.spec s).map Prod.snd

/-- General operands evaluated left to right. -/
def evalOperands : List OperandSpec → State → Except Stop State
  | [], s => .ok s
  | p :: ps, s => do
    let s ← p.eval s
    evalOperands ps s

/-- The opcode and the general operands `ps` evaluated: the state in which the next operand is. -/
def operandsBefore (ps : List OperandSpec) (s : State) : Except Stop State := do
  let s ← fetch 1 s
  evalOperands ps s

/-- The opcodes of HALT, LDPCTX, SVPCTX, MTPR and MFPR (46_privileged.md R250). -/
def kernelOpcodes : List Byte := [0x00, 0x06, 0x07, 0xDA, 0xDB]

/-- The mode lets the instruction go on to its operands (R250, R304). -/
@[reducible] def modeAllows (i : Instr) (s : State) : Prop :=
  i.opcode ∈ kernelOpcodes → pslCUR s.psl = 0

/-- The opcode and one specifier of access type r: its value, and the state then reached (R82, R104). -/
def operandsR (z : Size) (src : Spec) (s : State) : Except Stop (BitVec z.bits × State) := do
  let s ← fetch 1 s
  evalRead z src s

/-- The opcode and one specifier of access type m. -/
def operandsM (z : Size) (dst : Spec) (s : State) :
    Except Stop (BitVec z.bits × Operand × State) := do
  let s ← fetch 1 s
  evalModify z dst s

/-- The opcode and one specifier of access type w. -/
def operandsW (z : Size) (dst : Spec) (s : State) : Except Stop (Operand × State) := do
  let s ← fetch 1 s
  evalWrite z dst s

/-- The opcode and one specifier of access type a. -/
def operandsA (z : Size) (src : Spec) (s : State) : Except Stop (Word × State) := do
  let s ← fetch 1 s
  evalAddress z src s

/-- The opcode and two specifiers, r and m. -/
def operandsRM (z : Size) (src dst : Spec) (s : State) :
    Except Stop (BitVec z.bits × BitVec z.bits × Operand × State) := do
  let (a, s) ← operandsR z src s
  let (b, o, s) ← evalModify z dst s
  .ok (a, b, o, s)

/-- The opcode and two specifiers of access type r. -/
def operandsRR (y z : Size) (src1 src2 : Spec) (s : State) :
    Except Stop (BitVec y.bits × BitVec z.bits × State) := do
  let (a, s) ← operandsR y src1 s
  let (b, s) ← evalRead z src2 s
  .ok (a, b, s)

/-- The opcode and two specifiers, r and w. -/
def operandsRW (z : Size) (src dst : Spec) (s : State) :
    Except Stop (BitVec z.bits × Operand × State) := do
  let (a, s) ← operandsR z src s
  let (o, s) ← evalWrite z dst s
  .ok (a, o, s)

/-- The opcode and two specifiers, an address of size `z` and a longword of access type w. -/
def operandsAW (z : Size) (src dst : Spec) (s : State) : Except Stop (Word × Operand × State) := do
  let (a, s) ← operandsA z src s
  let (o, s) ← evalWrite .l dst s
  .ok (a, o, s)

/-- The opcode and three specifiers, r, r and w. -/
def operandsRRW (y z : Size) (src1 src2 dst : Spec) (s : State) :
    Except Stop (BitVec y.bits × BitVec z.bits × Operand × State) := do
  let (a, b, s) ← operandsRR y z src1 src2 s
  let (o, s) ← evalWrite z dst s
  .ok (a, b, o, s)

/-- The opcode and two specifiers, a longword of access type r and an address (CALLS). -/
def operandsRA (src dst : Spec) (s : State) : Except Stop (Word × Word × State) := do
  let (a, s) ← operandsR .l src s
  let (d, s) ← evalAddress .b dst s
  .ok (a, d, s)

/-- The opcode and two addresses (CALLG). -/
def operandsAA (src dst : Spec) (s : State) : Except Stop (Word × Word × State) := do
  let (a, s) ← operandsA .b src s
  let (d, s) ← evalAddress .b dst s
  .ok (a, d, s)

/-- The opcode, a word length and two addresses (MOVC3, CMPC3). -/
def operandsRAA (len src dst : Spec) (s : State) :
    Except Stop (BitVec 16 × Word × Word × State) := do
  let (n, s) ← operandsR .w len s
  let (a, s) ← evalAddress .b src s
  let (d, s) ← evalAddress .b dst s
  .ok (n, a, d, s)

/-- The opcode, a character, a word length and an address (LOCC, SKPC). -/
def operandsRRA (ch len addr : Spec) (s : State) :
    Except Stop (Byte × BitVec 16 × Word × State) := do
  let (c, n, s) ← operandsRR .b .w ch len s
  let (p, s) ← evalAddress .b addr s
  .ok (c, n, p, s)

/-- The opcode and the five specifiers of MOVC5. -/
def operandsMovc5 (srclen src fill dstlen dst : Spec) (s : State) :
    Except Stop (BitVec 16 × Word × Byte × BitVec 16 × Word × State) := do
  let (sl, s) ← operandsR .w srclen s
  let (a, s) ← evalAddress .b src s
  let (f, s) ← evalRead .b fill s
  let (dl, s) ← evalRead .w dstlen s
  let (d, s) ← evalAddress .b dst s
  .ok (sl, a, f, dl, d, s)

/-! ## What an instruction has done, and what it has left alone -/

/-- The bits of the PSL above the condition codes are kept (10_state.md R28). -/
@[reducible] def pslKept (s t : State) : Prop := t.psl &&& 0xFFFFFFF0 = s.psl &&& 0xFFFFFFF0

/-- Between `s` and `t` the bytes at the addresses `stored` were stored to, and no others: under
`smc = .refuse` the record has gained exactly those addresses (20_memory.md R48, R54, R67); where nothing
was stored, or under `smc = .coherent`, it is the same. -/
structure Recorded (s t : State) (stored : List Word) : Prop where
  mem : ∀ x : Nat,
    x ∈ t.written ↔ x ∈ s.written ∨ (s.cfg.smc = .refuse ∧ ∃ a ∈ stored, x = a.toNat)
  kept : stored = [] ∨ s.cfg.smc = .coherent → t.written = s.written

/-- The instruction that began in `s` and had evaluated its specifiers `sps` in `u` has ended in `t`
with `v` written to the destination `o` and the condition codes `f`, and has changed nothing else. -/
structure Wrote (s u t : State) (sps : List Spec) (z : Size) (o : Operand) (v : BitVec z.bits)
    (f : Flags) : Prop where
  /-- The destination reads back as the value. -/
  value : readOp z o t = .ok v
  /-- The bits of a destination register above the operand's size are kept (R23). -/
  upper : ∀ n ∈ o.regs z, t.r n >>> z.bits = u.r n >>> z.bits
  /-- The other registers, the program counter among them, are as the specifiers left them. -/
  evaluated : ∀ n, n ∉ o.regs z → t.r n = u.r n
  /-- Of those, only the registers the specifiers step and the program counter have changed. -/
  regs : ∀ n, n ≠ Reg.pc → n ∉ stepped sps → n ∉ o.regs z → t.r n = s.r n
  /-- Every byte of memory outside the destination is kept. -/
  bytes : ∀ x, x ∉ o.addrs z → t.byteAt x = s.byteAt x
  recorded : Recorded s t (o.addrs z)
  flags : pslFlags t.psl = f
  psl : pslKept s t
  /-- Every other field is kept. -/
  rest : t = { s with reg := t.reg, psl := t.psl, mem := t.mem, written := t.written }

/-- The same for an instruction that writes the condition codes and nothing else. -/
structure OnlyFlags (s u t : State) (sps : List Spec) (f : Flags) : Prop where
  evaluated : ∀ n, t.r n = u.r n
  regs : ∀ n, n ≠ Reg.pc → n ∉ stepped sps → t.r n = s.r n
  flags : pslFlags t.psl = f
  psl : pslKept s t
  /-- Memory, the record of stored bytes and every other field are kept. -/
  rest : t = { s with reg := t.reg, psl := t.psl }

/-- The same for an instruction that pushes the longword `v` (42_move.md R178). -/
structure Pushed (s u t : State) (sps : List Spec) (v : Word) : Prop where
  sp : t.sp = u.sp - 4
  value : t.long (u.sp - 4) = v
  /-- The other registers, the program counter among them, are as the specifiers left them. -/
  evaluated : ∀ n, n ≠ Reg.sp → t.r n = u.r n
  regs : ∀ n, n ≠ Reg.sp → n ≠ Reg.pc → n ∉ stepped sps → t.r n = s.r n
  bytes : ∀ x, x ∉ (Operand.mem (u.sp - 4)).addrs .l → t.byteAt x = s.byteAt x
  recorded : Recorded s t ((Operand.mem (u.sp - 4)).addrs .l)
  rest : t = { s with reg := t.reg, psl := t.psl, mem := t.mem, written := t.written }

/-! ## The shapes of a completion statement -/

/-- An instruction with one modified operand completes: `value` of it written, `flags` of it and of
the old C set. It does not trap: where V is set, IV is clear (40_integer_arithmetic.md R135). -/
def CompletesM (mk : Spec → Instr) (z : Size) (value : BitVec z.bits → BitVec z.bits)
    (flags : BitVec z.bits → Bool → Flags) : Prop :=
  ∀ (dst : Spec) (s u : State) (b : BitVec z.bits) (o : Operand),
    operandsM z dst s = .ok (b, o, u) →
    ((flags b (pslC s.psl)).v = true → pslIV s.psl = false) →
    ∃ t, exec (mk dst) s = .next t ∧
      Wrote s u t [dst] z o (value b) (flags b (pslC s.psl))

/-- An instruction with a source and a modified destination completes. -/
def CompletesRM (mk : Spec → Spec → Instr) (z : Size)
    (value : BitVec z.bits → BitVec z.bits → BitVec z.bits)
    (flags : BitVec z.bits → BitVec z.bits → Bool → Flags) : Prop :=
  ∀ (src dst : Spec) (s u : State) (a b : BitVec z.bits) (o : Operand),
    operandsRM z src dst s = .ok (a, b, o, u) →
    ((flags a b (pslC s.psl)).v = true → pslIV s.psl = false) →
    ∃ t, exec (mk src dst) s = .next t ∧
      Wrote s u t [src, dst] z o (value a b) (flags a b (pslC s.psl))

/-- An instruction with two sources, of sizes `y` and `z`, and a written destination completes. -/
def CompletesRRW (mk : Spec → Spec → Spec → Instr) (y z : Size)
    (value : BitVec y.bits → BitVec z.bits → BitVec z.bits)
    (flags : BitVec y.bits → BitVec z.bits → Bool → Flags) : Prop :=
  ∀ (src1 src2 dst : Spec) (s u : State) (a : BitVec y.bits) (b : BitVec z.bits) (o : Operand),
    operandsRRW y z src1 src2 dst s = .ok (a, b, o, u) → o.writable z s →
    ((flags a b (pslC s.psl)).v = true → pslIV s.psl = false) →
    ∃ t, exec (mk src1 src2 dst) s = .next t ∧
      Wrote s u t [src1, src2, dst] z o (value a b) (flags a b (pslC s.psl))

/-- An instruction with a source and a written destination completes. -/
def CompletesRW (mk : Spec → Spec → Instr) (z : Size) (flags : BitVec z.bits → Bool → Flags) :
    Prop :=
  ∀ (src dst : Spec) (s u : State) (a : BitVec z.bits) (o : Operand),
    operandsRW z src dst s = .ok (a, o, u) → o.writable z s →
    ∃ t, exec (mk src dst) s = .next t ∧ Wrote s u t [src, dst] z o a (flags a (pslC s.psl))

/-- An instruction with the address of a `z` operand and a longword destination completes. -/
def CompletesAW (mk : Spec → Spec → Instr) (z : Size) (flags : Word → Bool → Flags) : Prop :=
  ∀ (src dst : Spec) (s u : State) (a : Word) (o : Operand),
    operandsAW z src dst s = .ok (a, o, u) → o.writable .l s →
    ∃ t, exec (mk src dst) s = .next t ∧ Wrote s u t [src, dst] .l o a (flags a (pslC s.psl))

/-- An instruction with a written destination alone completes. -/
def CompletesW (mk : Spec → Instr) (z : Size) (value : BitVec z.bits) (flags : Bool → Flags) : Prop :=
  ∀ (dst : Spec) (s u : State) (o : Operand),
    operandsW z dst s = .ok (o, u) → o.writable z s →
    ∃ t, exec (mk dst) s = .next t ∧ Wrote s u t [dst] z o value (flags (pslC s.psl))

/-- An instruction that reads one operand and writes the condition codes completes. -/
def CompletesR (mk : Spec → Instr) (z : Size) (flags : BitVec z.bits → Bool → Flags) : Prop :=
  ∀ (src : Spec) (s u : State) (a : BitVec z.bits),
    operandsR z src s = .ok (a, u) →
    ∃ t, exec (mk src) s = .next t ∧ OnlyFlags s u t [src] (flags a (pslC s.psl))

/-- An instruction that reads two operands and writes the condition codes completes. -/
def CompletesRR (mk : Spec → Spec → Instr) (z : Size)
    (flags : BitVec z.bits → BitVec z.bits → Bool → Flags) : Prop :=
  ∀ (src1 src2 : Spec) (s u : State) (a b : BitVec z.bits),
    operandsRR z z src1 src2 s = .ok (a, b, u) →
    ∃ t, exec (mk src1 src2) s = .next t ∧
      OnlyFlags s u t [src1, src2] (flags a b (pslC s.psl))

/-- A conditional branch completes: both of its bytes are fetched, and the displacement is added to the
address after them when the condition holds; nothing but the program counter is written (44_branch.md
R216, R217). -/
def CompletesBranch (mk : BitVec 8 → Instr) (cond : State → Prop) : Prop :=
  ∀ (disp : BitVec 8) (s : State), canFetch 2 s →
    (cond s → exec (mk disp) s = .next (s.setPc (s.pc + 2 + disp.signExtend 32))) ∧
    (¬ cond s → exec (mk disp) s = .next (s.setPc (s.pc + 2)))

/-! ## The condition codes, in the spec's own formulas -/

/-- N and Z of the result, V clear, C as it was (R162, R176, R202, R288). -/
def keepsCarry {n : Nat} (r : BitVec n) (c : Bool) : Flags :=
  { n := r.msb, z := decide (r = 0), v := false, c := c }

/-- The condition codes of `Add_N(a, b)` (R131). -/
def addCodes {n : Nat} (a b : BitVec n) : Flags :=
  { n := (a + b).msb, z := decide (a + b = 0),
    v := decide (a.msb = b.msb) && decide ((a + b).msb ≠ a.msb),
    c := decide (2 ^ n ≤ a.toNat + b.toNat) }

/-- The condition codes of `Sub_N(min, sub)` (R132). -/
def subCodes {n : Nat} (min sub : BitVec n) : Flags :=
  { n := (min - sub).msb, z := decide (min - sub = 0),
    v := decide (min.msb ≠ sub.msb) && decide ((min - sub).msb ≠ min.msb),
    c := decide (min.toNat < sub.toNat) }

/-- The condition codes of `Mul_N(a, b)` (R133). -/
def mulCodes {n : Nat} (a b : BitVec n) : Flags :=
  { n := (a * b).msb, z := decide (a * b = 0),
    v := decide (a.toInt * b.toInt < -2 ^ (n - 1)) || decide (2 ^ (n - 1) - 1 < a.toInt * b.toInt),
    c := false }

/-- The result of `Div_N(divr, divd)`: the quotient truncated toward zero, or the dividend where there
is none or it does not fit (R134). -/
def divResult {n : Nat} (divr divd : BitVec n) : BitVec n :=
  if divr = 0 ∨ (divd = BitVec.intMin n ∧ divr = BitVec.allOnes n) then divd else divd.sdiv divr

/-- The condition codes of `Div_N(divr, divd)` (R134). -/
def divCodes {n : Nat} (divr divd : BitVec n) : Flags :=
  { n := (divResult divr divd).msb, z := decide (divResult divr divd = 0),
    v := decide (divr = 0) || (decide (divd = BitVec.intMin n) && decide (divr = BitVec.allOnes n)),
    c := false }

/-- The condition codes of `Cmp_N(s1, s2)` (R200). -/
def compareCodes {n : Nat} (s1 s2 : BitVec n) : Flags :=
  { n := s1.slt s2, z := decide (s1 = s2), v := false, c := s1.ult s2 }

/-- The result of an arithmetic shift of `x` by the signed count `c` (R286, R287). -/
def shiftResult {n : Nat} (c : BitVec 8) (x : BitVec n) : BitVec n :=
  if 0 ≤ c.toInt then x <<< c.toInt.toNat else x.sshiftRight (-c.toInt).toNat

/-- The condition codes of an arithmetic shift: V when a left shift loses information (R286, R287). -/
def shiftCodes {n : Nat} (c : BitVec 8) (x : BitVec n) : Flags :=
  { n := (shiftResult c x).msb, z := decide (shiftResult c x = 0),
    v := decide (0 ≤ c.toInt) &&
      decide (x.toInt * 2 ^ c.toInt.toNat ≠ (shiftResult c x).toInt),
    c := false }

/-- The result of a rotate of `x` by the signed count `c` modulo 32 (R288). -/
def rotateResult (c : BitVec 8) (x : BitVec 32) : BitVec 32 :=
  let j := (c.toInt % 32).toNat
  if j = 0 then x else (x <<< j) ||| (x >>> (32 - j))

/-! ## The shapes of a trap statement -/

/-- An instruction with one modified operand traps: `value` of it and `codes` have been written, the program
counter is the next instruction's, and then the trap `k` is raised (40_integer_arithmetic.md R135,
60_exceptions.md R306, R310). -/
def TrapsM (mk : Spec → Instr) (z : Size) (value : BitVec z.bits → BitVec z.bits)
    (codes : BitVec z.bits → Flags) (k : ArithTrap) (cond : BitVec z.bits → State → Prop) : Prop :=
  ∀ (dst : Spec) (s u : State) (b : BitVec z.bits) (o : Operand),
    operandsM z dst s = .ok (b, o, u) → cond b s →
    ∃ t, exec (mk dst) s = raiseTrap k t ∧ Wrote s u t [dst] z o (value b) (codes b)

/-- The same for an instruction with a source and a modified destination. -/
def TrapsRM (mk : Spec → Spec → Instr) (z : Size)
    (value : BitVec z.bits → BitVec z.bits → BitVec z.bits)
    (codes : BitVec z.bits → BitVec z.bits → Flags) (k : ArithTrap)
    (cond : BitVec z.bits → BitVec z.bits → State → Prop) : Prop :=
  ∀ (src dst : Spec) (s u : State) (a b : BitVec z.bits) (o : Operand),
    operandsRM z src dst s = .ok (a, b, o, u) → cond a b s →
    ∃ t, exec (mk src dst) s = raiseTrap k t ∧ Wrote s u t [src, dst] z o (value a b) (codes a b)

/-- The same for an instruction with two sources, of sizes `y` and `z`, and a written destination. -/
def TrapsRRW (mk : Spec → Spec → Spec → Instr) (y z : Size)
    (value : BitVec y.bits → BitVec z.bits → BitVec z.bits)
    (codes : BitVec y.bits → BitVec z.bits → Flags) (k : ArithTrap)
    (cond : BitVec y.bits → BitVec z.bits → State → Prop) : Prop :=
  ∀ (src1 src2 dst : Spec) (s u : State) (a : BitVec y.bits) (b : BitVec z.bits) (o : Operand),
    operandsRRW y z src1 src2 dst s = .ok (a, b, o, u) → o.writable z s → cond a b s →
    ∃ t, exec (mk src1 src2 dst) s = raiseTrap k t ∧
      Wrote s u t [src1, src2, dst] z o (value a b) (codes a b)

/-- An integer overflow with the trap enabled (R135). -/
@[reducible] def overflowEnabled (f : Flags) (s : State) : Prop := f.v = true ∧ pslIV s.psl = true

/-- An instruction with one modified operand traps where it overflows and the trap is enabled. -/
def OverflowsM (mk : Spec → Instr) (z : Size) (value : BitVec z.bits → BitVec z.bits)
    (codes : BitVec z.bits → Flags) : Prop :=
  TrapsM mk z value codes .integerOverflow fun b s => overflowEnabled (codes b) s

/-- The same for an instruction with a source and a modified destination. -/
def OverflowsRM (mk : Spec → Spec → Instr) (z : Size)
    (value : BitVec z.bits → BitVec z.bits → BitVec z.bits)
    (codes : BitVec z.bits → BitVec z.bits → Flags) : Prop :=
  TrapsRM mk z value codes .integerOverflow fun a b s => overflowEnabled (codes a b) s

/-- The same for an instruction with two sources and a written destination. -/
def OverflowsRRW (mk : Spec → Spec → Spec → Instr) (y z : Size)
    (value : BitVec y.bits → BitVec z.bits → BitVec z.bits)
    (codes : BitVec y.bits → BitVec z.bits → Flags) : Prop :=
  TrapsRRW mk y z value codes .integerOverflow fun a b s => overflowEnabled (codes a b) s

/-- A two-operand division traps: by zero whatever IV holds, on overflow where IV is set (R134, R135). -/
def DivisionTrapsRM (mk : Spec → Spec → Instr) (z : Size) : Prop :=
  TrapsRM mk z divResult divCodes .integerDivideByZero (fun a _ _ => a = 0) ∧
  TrapsRM mk z divResult divCodes .integerOverflow
    (fun a b s => a ≠ 0 ∧ overflowEnabled (divCodes a b) s)

/-- The same for a three-operand division. -/
def DivisionTrapsRRW (mk : Spec → Spec → Spec → Instr) (z : Size) : Prop :=
  TrapsRRW mk z z divResult divCodes .integerDivideByZero (fun a _ _ => a = 0) ∧
  TrapsRRW mk z z divResult divCodes .integerOverflow
    (fun a b s => a ≠ 0 ∧ overflowEnabled (divCodes a b) s)

/-! ## Frames, entries and returns -/

/-- The size of a call frame with entry mask `mask` (45_procedure_call.md R239). -/
def frameSize (mask : BitVec 16) : Nat := 20 + 4 * (maskedRegs (mask.extractLsb' 0 12)).length

/-- Where a call with entry mask `mask` puts its frame when SP holds `top` before the alignment (R239). -/
def frameBase (top : Word) (mask : BitVec 16) : Word :=
  (top &&& 0xFFFFFFFC) - BitVec.ofNat 32 (frameSize mask)

/-- The call that began in `s` and had evaluated its specifiers `sps` in `u` has ended in `t`: the frame
of R239 below `top`, the procedure's registers and PSL, and nothing else changed but the bytes
`count` (the argument count that CALLS pushes). `sBit` is the frame's S bit. -/
structure Called (s u t : State) (sps : List Spec) (sBit : Word) (mask : BitVec 16)
    (top ap entry : Word) (count : List Word) : Prop where
  fp : t.r Reg.fp = frameBase top mask
  sp : t.sp = frameBase top mask
  ap : t.r Reg.ap = ap
  pc : t.pc = entry + 2
  handler : t.long (frameBase top mask) = 0
  status : t.long (frameBase top mask + 4) =
    ((top &&& 3) <<< 30) ||| (sBit <<< 29) ||| ((mask &&& 0xFFF).setWidth 32 <<< 16) |||
      (u.psl &&& 0x0000FFE0)
  savedAp : t.long (frameBase top mask + 8) = u.r Reg.ap
  savedFp : t.long (frameBase top mask + 12) = u.r Reg.fp
  savedPc : t.long (frameBase top mask + 16) = u.pc
  /-- The registers the mask names, the lowest-numbered at the lowest address. -/
  saved : ∀ (j : Nat) (n : Reg), (maskedRegs (mask.extractLsb' 0 12))[j]? = some n →
    t.long (frameBase top mask + 20 + BitVec.ofNat 32 (4 * j)) = u.r n
  evaluated : ∀ n : Reg, n < Reg.ap → t.r n = u.r n
  regs : ∀ n : Reg, n < Reg.ap → n ∉ stepped sps → t.r n = s.r n
  flags : pslFlags t.psl = { n := false, z := false, v := false, c := false }
  enables : pslIV t.psl = mask.getLsbD 14 ∧ pslFU t.psl = false ∧ pslDV t.psl = mask.getLsbD 15
  psl : t.psl &&& 0xFFFFFF10 = s.psl &&& 0xFFFFFF10
  bytes : ∀ x, x ∉ (List.range (frameSize mask)).map (frameBase top mask).plus → x ∉ count →
    t.byteAt x = s.byteAt x
  recorded : Recorded s t ((List.range (frameSize mask)).map (frameBase top mask).plus ++ count)
  rest : t = { s with reg := t.reg, psl := t.psl, mem := t.mem, written := t.written }

/-- The bytes of the frame at FP that RET reads: from the status longword up, with the argument count
when the S bit is set (R239, R240). -/
def returnSize (w : Word) : Nat :=
  16 + 4 * (maskedRegs (w.extractLsb' 16 12)).length

/-- Where SP is after RET has popped the registers of the frame at `fp` and undone the alignment. -/
def returnTop (fp w : Word) : Word :=
  fp + 4 + BitVec.ofNat 32 (returnSize w) + w >>> 30

/-- RET from `s` has ended in `t` (R240). -/
structure Returned (s t : State) (w : Word) : Prop where
  ap : t.r Reg.ap = s.long (s.r Reg.fp + 8)
  fp : t.r Reg.fp = s.long (s.r Reg.fp + 12)
  pc : t.pc = s.long (s.r Reg.fp + 16)
  restored : ∀ (j : Nat) (n : Reg), (maskedRegs (w.extractLsb' 16 12))[j]? = some n →
    t.r n = s.long (s.r Reg.fp + 20 + BitVec.ofNat 32 (4 * j))
  regs : ∀ n : Reg, n < Reg.ap → n ∉ maskedRegs (w.extractLsb' 16 12) → t.r n = s.r n
  sp : t.sp = if w.getLsbD 29 then
      returnTop (s.r Reg.fp) w + 4 + 4 * (s.long (returnTop (s.r Reg.fp) w) &&& 0xFF)
    else returnTop (s.r Reg.fp) w
  psl : t.psl = (s.psl &&& 0xFFFFFF00) ||| (w &&& 0xFF)
  /-- Memory, the record of stored bytes and every other field are kept. -/
  rest : t = { s with reg := t.reg, psl := t.psl }

/-- The stack pointer an entry starts from: the live one on the interrupt stack, else the one its
vector picks, after the live one has been saved (60_exceptions.md R314). -/
def entryTop (vec : Word) (s : State) : Word :=
  if pslIS s.psl then s.sp
  else (s.spbank.put s.sp (bankOf s.psl)).get (if vec.getLsbD 0 then .i else .k)

/-- The bytes an entry pushes: the old PSL, the saved PC and the parameters. -/
def entrySize (params : List Word) : Nat := 8 + 4 * params.length

/-- Where SP is after the entry. -/
def entryBase (vec : Word) (params : List Word) (s : State) : Word :=
  entryTop vec s - BitVec.ofNat 32 (entrySize params)

/-- The entry through the vector `vec` from `s` has ended in `t` (R314). `prv` and `ipl` are what it puts
into PRV and IPL. -/
structure Entered (s t : State) (vec savedPc : Word) (params : List Word) (prv : BitVec 2)
    (ipl : BitVec 5) : Prop where
  pc : t.pc = vec &&& 0xFFFFFFFC
  sp : t.sp = entryBase vec params s
  param : ∀ p, params = [p] → t.long t.sp = p
  savedPc : t.long (t.sp + BitVec.ofNat 32 (4 * params.length)) = savedPc
  savedPsl : t.long (t.sp + BitVec.ofNat 32 (4 * params.length) + 4) = s.psl
  is : pslIS t.psl = (pslIS s.psl || vec.getLsbD 0)
  cur : pslCUR t.psl = 0
  prv : pslPRV t.psl = prv
  ipl : pslIPL t.psl = ipl
  /-- Every other bit of the PSL is 0. -/
  psl : t.psl &&& 0xF820FFFF = 0
  bank : t.spbank = if pslIS s.psl then s.spbank else s.spbank.put s.sp (bankOf s.psl)
  regs : ∀ n, n ≠ Reg.sp → n ≠ Reg.pc → t.r n = s.r n
  bytes : ∀ x, x ∉ (List.range (entrySize params)).map (entryBase vec params s).plus →
    t.byteAt x = s.byteAt x
  recorded : Recorded s t ((List.range (entrySize params)).map (entryBase vec params s).plus)
  rest : t = { s with
    reg := t.reg, psl := t.psl, spbank := t.spbank, mem := t.mem, written := t.written }

/-- REI's conditions on a PSL image `new` popped in a state whose PSL is `old` (46_privileged.md R252). -/
@[reducible] def reiAccepts (old new : Word) : Prop :=
  (pslCUR old).toNat ≤ (pslCUR new).toNat ∧
  (pslIS new = true → pslIS old = true ∧ pslCUR new = 0 ∧ pslIPL new ≠ 0) ∧
  (pslIPL new ≠ 0 → pslCUR new = 0) ∧
  (pslCUR new).toNat ≤ (pslPRV new).toNat ∧
  (pslIPL new).toNat ≤ (pslIPL old).toNat ∧
  new &&& 0x3020FF00 = 0

/-- A PSL image that REI can give a meaning to: T, TP, CM and FPD clear, and no pending AST for the mode
it returns to (R252, R29). -/
@[reducible] def reiModelled (new : Word) (s : State) : Prop :=
  pslT new = false ∧ pslTP new = false ∧ pslCM new = false ∧ pslFPD new = false ∧
    (pslIS new = false → (pslCUR new).toNat < s.astlvl.toNat)

/-- REI from `s` with the PSL image `new` and the PC image `pc` has ended in `t` (R252). -/
structure ReturnedFromException (s t : State) (new pc : Word) : Prop where
  psl : t.psl = new
  pc : t.pc = pc
  /-- The stack pointer, 8 higher, is saved; the one of the restored mode is loaded. -/
  bank : t.spbank = s.spbank.put (s.sp + 8) (bankOf s.psl)
  sp : t.sp = t.spbank.get (bankOf new)
  written : t.written = []
  regs : ∀ n, n ≠ Reg.sp → n ≠ Reg.pc → t.r n = s.r n
  /-- Memory and every other field are kept. -/
  rest : t = { s with reg := t.reg, psl := t.psl, spbank := t.spbank, written := [] }

/-! ## The process control block -/

/-- LDPCTX's checks on the longwords at offsets 80, 84, 88 and 92 of the block (R254). -/
@[reducible] def pcbAccepts (t80 t84 t88 t92 : Word) : Prop :=
  t80 >>> 30 = 2 ∧ t80 &&& 3 = 0 ∧
  t84 &&& 0xF8C00000 = 0 ∧ (t84 &&& 0x3FFFFF).toNat ≤ 0x200000 ∧
  ((t84 >>> 24) &&& 7).toNat ≤ 4 ∧
  (t88 + 0x00800000) >>> 30 = 2 ∧ t88 &&& 3 = 0 ∧
  t92 &&& 0x7FC00000 = 0 ∧ (t92 &&& 0x3FFFFF).toNat ≤ 0x200000

/-- LDPCTX from `s` has ended in `t` (R253, R254); `p` is PCBB. -/
structure ContextLoaded (s t : State) (p : Word) : Prop where
  bank : t.spbank = { k := s.long p, e := s.long (p + 4), s := s.long (p + 8),
                      u := s.long (p + 12), i := s.sp }
  low : ∀ i : Reg, i < Reg.ap → t.r i = s.long (p + 16 + BitVec.ofNat 32 (4 * i.val))
  ap : t.r Reg.ap = s.long (p + 64)
  fp : t.r Reg.fp = s.long (p + 68)
  pc : t.pc = s.pc + 1
  p0br : t.p0br = s.long (p + 80)
  p0lr : t.p0lr = s.long (p + 84) &&& 0x3FFFFF
  astlvl : t.astlvl = ((s.long (p + 84) >>> 24) &&& 7).setWidth 3
  p1br : t.p1br = s.long (p + 88)
  p1lr : t.p1lr = s.long (p + 92) &&& 0x3FFFFF
  psl : t.psl = s.psl &&& 0xFBFFFFFF
  sp : t.sp = s.long p - 8
  pslImage : t.long (s.long p - 4) = s.long (p + 76)
  /-- The PC image is read after the PSL image has been pushed. -/
  pcImage : t.long (s.long p - 8) =
    (s.storeBytes (s.long p - 4) (leBytes 4 (s.long (p + 76)).toNat)).long (p + 72)
  bytes : ∀ x, x ∉ (List.range 8).map (s.long p - 8).plus → t.byteAt x = s.byteAt x
  recorded : Recorded s t ((List.range 8).map (s.long p - 8).plus)
  rest : t = { s with
    reg := t.reg, psl := t.psl, spbank := t.spbank, p0br := t.p0br, p0lr := t.p0lr,
    p1br := t.p1br, p1lr := t.p1lr, astlvl := t.astlvl, mem := t.mem, written := t.written }

/-- SVPCTX from `s` has ended in `t` (R253, R256); `p` is PCBB. -/
structure ContextSaved (s t : State) (p : Word) : Prop where
  pc : t.pc = s.pc + 1
  regs : ∀ n : Reg, n < Reg.sp → t.r n = s.r n
  sp : t.sp = if pslIS s.psl then s.sp + 8 else s.spbank.i
  bank : t.spbank = if pslIS s.psl then s.spbank else { s.spbank with k := s.sp + 8 }
  psl : t.psl = if pslIS s.psl then s.psl
    else if pslIPL s.psl = 0 then s.psl ||| 0x04010000 else s.psl ||| 0x04000000
  ksp : t.long p = t.spbank.k
  esp : t.long (p + 4) = s.spbank.e
  ssp : t.long (p + 8) = s.spbank.s
  usp : t.long (p + 12) = s.spbank.u
  low : ∀ i : Reg, i < Reg.sp → t.long (p + 16 + BitVec.ofNat 32 (4 * i.val)) = s.r i
  pcImage : t.long (p + 72) = s.long s.sp
  pslImage : t.long (p + 76) = s.long (s.sp + 4)
  bytes : ∀ x, x ∉ (List.range 80).map p.plus → t.byteAt x = s.byteAt x
  recorded : Recorded s t ((List.range 80).map p.plus)
  rest : t = { s with
    reg := t.reg, psl := t.psl, spbank := t.spbank, mem := t.mem, written := t.written }

/-! ## Processor registers and strings -/

/-- MTPR to the register `p` completes: from the state `u` in which both operands have been read, the
effect `f` of the value, then the condition codes of a move (46_privileged.md R258). -/
def CompletesMtpr (p : ProcReg) (ok : Word → Prop) (f : State → Word → State) : Prop :=
  ∀ (src procreg : Spec) (s u : State) (v k : Word),
    pslCUR s.psl = 0 → operandsRR .l .l src procreg s = .ok (v, k, u) →
    prnumFind s.cfg.prnum k = some p → ok v →
    ∃ t, exec (.mtpr src procreg) s = .next t ∧
      pslFlags t.psl = keepsCarry v (pslC s.psl) ∧
      t.psl &&& 0xFFFFFFF0 = (f u v).psl &&& 0xFFFFFFF0 ∧ t = { f u v with psl := t.psl }

/-- MFPR from the register `p` completes: `f` of the state in which both operands have been evaluated is
written to the destination (R260). -/
def CompletesMfpr (p : ProcReg) (f : State → Word) : Prop :=
  ∀ (procreg dst : Spec) (s u : State) (k : Word) (o : Operand),
    pslCUR s.psl = 0 → operandsRW .l procreg dst s = .ok (k, o, u) → o.writable .l s →
    prnumFind s.cfg.prnum k = some p →
    ∃ t, exec (.mfpr procreg dst) s = .next t ∧
      Wrote s u t [procreg, dst] .l o (f u) (keepsCarry (f u) (pslC s.psl))

/-- A move of characters that began in `s` and had evaluated its specifiers `sps` in `u` has ended in `t`:
`out` stands in memory from `d` upward, R0 to R5 hold their results (47_string.md R271). -/
structure MovedCharacters (s u t : State) (sps : List Spec) (d : Word) (out : List Byte)
    (r0 r1 : Word) (f : Flags) : Prop where
  moved : t.bytesAt d out.length = out
  r0 : t.r 0 = r0
  r1 : t.r 1 = r1
  r2 : t.r 2 = 0
  r3 : t.r 3 = d.plus out.length
  r4 : t.r 4 = 0
  r5 : t.r 5 = 0
  evaluated : ∀ n : Reg, 5 < n → t.r n = u.r n
  regs : ∀ n : Reg, 5 < n → n ≠ Reg.pc → n ∉ stepped sps → t.r n = s.r n
  bytes : ∀ x, x ∉ (List.range out.length).map d.plus → t.byteAt x = s.byteAt x
  recorded : Recorded s t ((List.range out.length).map d.plus)
  flags : pslFlags t.psl = f
  psl : pslKept s t
  rest : t = { s with reg := t.reg, psl := t.psl, mem := t.mem, written := t.written }

/-- A search that began in `s` and had evaluated its specifiers `sps` in `u` has ended in `t`: it has
written the result registers `out` and the condition codes, and nothing else (R271). -/
structure Searched (s u t : State) (sps : List Spec) (out : List (Reg × Word)) (f : Flags) : Prop where
  results : ∀ e ∈ out, t.r e.1 = e.2
  evaluated : ∀ n, n ∉ out.map Prod.fst → t.r n = u.r n
  regs : ∀ n, n ∉ out.map Prod.fst → n ≠ Reg.pc → n ∉ stepped sps → t.r n = s.r n
  flags : pslFlags t.psl = f
  psl : pslKept s t
  rest : t = { s with reg := t.reg, psl := t.psl }

/-- LOCC or SKPC completes: it stops at the first byte `j` of the string that meets `stop`, or at its
end; only the bytes up to there need to exist (R275, R276). -/
def CompletesScan (mk : Spec → Spec → Spec → Instr) (stop : Byte → Byte → Prop) : Prop :=
  ∀ (ch len addr : Spec) (s u : State) (c : Byte) (n : BitVec 16) (p : Word) (j : Nat),
    operandsRRA ch len addr s = .ok (c, n, p, u) → j ≤ n.toNat →
    (∀ i < j, ¬ stop c (s.byteAt (p.plus i))) →
    (j < n.toNat → stop c (s.byteAt (p.plus j))) →
    canAccess (min n.toNat (j + 1)) p s →
    ∃ t, exec (mk ch len addr) s = .next t ∧
      Searched s u t [ch, len, addr]
        [(0, BitVec.ofNat 32 (n.toNat - j)), (1, p.plus j)]
        { n := false, z := decide (j = n.toNat), v := false, c := false }

end Sys2Proof.Machine
end

