-- ==== Sys2Proof/Certificates/Slice0/Obligations.lean ====
section
/-!
DEFINITION. The statements about the machine. Each docstring names the rules of the spec that its
statement follows; the vocabulary is that of Safety.lean.
-/

open Sys2Proof Sys2Proof.Machine

/-! ## Encoding -/

/-- Decoding the bytes of a well-formed instruction gives it back, in the decoder's spelling, with every
operand at every value its encoding admits (R80 to R99, R113, R114). -/
def Obligations.EncodeThenDecode : Prop :=
  ∀ (i : Instr) (rest : List Byte), i.wf = true → decode (encode i ++ rest) = .ok (i.canonical, rest)

/-- Whatever decodes is the encoding of the instruction it decodes to: no byte is dropped or ignored
(R82, R107, R108). -/
def Obligations.DecodeThenEncode : Prop :=
  ∀ (bs rest : List Byte) (i : Instr), decode bs = .ok (i, rest) →
    i.wf = true ∧ i.canonical = i ∧ encode i ++ rest = bs

/-- Thirty-one bytes always hold the instruction whose opcode they begin with (R107). -/
def Obligations.LongestInstructionFits : Prop :=
  ∀ bs : List Byte, bs.length = maxLength → decode bs ≠ .error .truncated

/-- The source's four worked encodings decode to the instructions it says (R82, R218, R236). -/
def Obligations.WorkedEncodingsDecode : Prop :=
  decode [0xD0, 0x8F, 0x2A, 0x00, 0x00, 0x00, 0x51]
      = .ok (.movl (.direct (.immediate 42)) (.direct (.register 1)), []) ∧
  decode [0xC1, 0x51, 0x52, 0x53]
      = .ok (.addl3 (.direct (.register 1)) (.direct (.register 2)) (.direct (.register 3)), []) ∧
  decode [0x11, 0xF6] = .ok (.brb (-10), []) ∧
  decode [0xFB, 0x00, 0x9F, 0x00, 0x10, 0x00, 0x00]
      = .ok (.calls (.direct (.literal 0)) (.direct (.absolute 0x1000)), [])

/-! ## The step -/

/-- A step at bytes that decode to an instruction is that instruction's meaning, carried over the
instruction boundary; with no interrupt offered the boundary changes nothing (R10, R82, R312). -/
def Obligations.StepRunsDecodedInstruction : Prop :=
  ∀ (s : State) (i : Instr) (rest : List Byte), running s →
    decode (instrWindow s) = .ok (i, rest) →
    step s = atBoundary (exec i s) ∧
    (∀ t, exec i s = .next t → t.irqs = [] → step s = .next t) ∧
    (∀ f, exec i s = .fault f → step s = .fault f) ∧
    (∀ r, exec i s = .refused r → step s = .refused r)

/-- Where the bytes of a well-formed instruction stand at the program counter, the step runs it, in the
decoder's spelling (R80, R82). -/
def Obligations.PlacedInstructionRuns : Prop :=
  ∀ (s : State) (i : Instr), running s → i.wf = true →
    s.bytesAt s.pc (encode i).length = encode i → step s = atBoundary (exec i.canonical s)

/-- An opcode byte that is not one of the 88 is refused with its value, neither skipped nor an exception
(R109). -/
def Obligations.UnlistedOpcodeIsRefused : Prop :=
  ∀ s : State, running s → canFetch 1 s → (∀ i : Instr, i.opcode ≠ s.byteAt s.pc) →
    step s = .refused (.unlistedOpcode (s.byteAt s.pc))

/-- What a step does where no instruction starts. A halted processor stays as it is (the model's reading of
R262 and R327, log entry 10); a state with translation on or with T, TP, CM or FPD set is refused (R29, R62);
so is a byte stored to since the last REI (R67, R80), and a byte where no memory exists is a machine check
(R54, R303). -/
def Obligations.StepsThatStartNoInstruction : Prop :=
  ∀ s : State,
    (s.halted = true → step s = .next s) ∧
    (s.halted = false → s.mapen = 1 → step s = .refused .translationNotModelled) ∧
    (s.halted = false → s.mapen = 0 →
      (pslT s.psl = true ∨ pslTP s.psl = true ∨ pslCM s.psl = true ∨ pslFPD s.psl = true) →
      step s = .refused .unmodelledPslBit) ∧
    (running s → s.cfg.smc = .refuse → s.pc.toNat ∈ s.written →
      step s = .refused .modifiedCodeWithoutRei) ∧
    (running s → s.cfg.smc = .coherent ∨ s.pc.toNat ∉ s.written → Config.valid s.cfg s.pc = false →
      step s = .fault (.machineCheck s.pc))

/-- At an instruction boundary the oracle's answer is taken off the list; at or below IPL it is passed
over, above IPL it is entered, with the new IPL its level (R30, R312, R314). -/
def Obligations.InterruptsAreMaskedByLevel : Prop :=
  ∀ (s t : State) (i : Instr) (rest : List Byte) (q : Irq) (more : List (Option Irq)),
    running s → decode (instrWindow s) = .ok (i, rest) → exec i s = .next t →
    t.halted = false → t.irqs = some q :: more →
    (q.level.toNat ≤ (pslIPL t.psl).toNat → step s = .next { t with irqs := more }) ∧
    ((pslIPL t.psl).toNat < q.level.toNat → t.cfg.deliver = true →
      step s = takeEntry (.interrupt q.level) (q.index.setWidth 32 <<< 2) t.pc []
        { t with irqs := more })

/-! ## Memory -/

/-- A store changes the bytes at its addresses and the record of stored addresses, nothing else; its bytes
lie in ascending order from the least significant, and the value reads back (R53, R54, R64). -/
def Obligations.StoreThenLoad : Prop :=
  ∀ (z : Size) (a : Word) (v : BitVec z.bits) (s t : State),
    memWrite z.bits a v s = .ok t →
    memRead z.bits a t = .ok v ∧
    (∀ i < z.bytes, t.byteAt (a.plus i) = v.extractLsb' (8 * i) 8) ∧
    (∀ x, x ∉ (Operand.mem a).addrs z → t.byteAt x = s.byteAt x) ∧
    (∀ x : Word, x.toNat ∈ t.written ↔
      x.toNat ∈ s.written ∨ (s.cfg.smc = .refuse ∧ x ∈ (Operand.mem a).addrs z)) ∧
    t = { s with mem := t.mem, written := t.written }

/-- An access succeeds when memory exists at each of its bytes; otherwise it is a machine check that
records the first address where none does, and nothing is written. A machine check ends the run whatever
the configuration (R54, R60, R303). -/
def Obligations.AbsentMemoryIsAMachineCheck : Prop :=
  ∀ (z : Size) (a : Word) (v : BitVec z.bits) (s : State),
    (canAccess z.bytes a s → (∃ w, memRead z.bits a s = .ok w) ∧ ∃ t, memWrite z.bits a v s = .ok t) ∧
    (∀ i < z.bytes, canAccess i a s → Config.valid s.cfg (a.plus i) = false →
      memRead z.bits a s = .error (.fault (.machineCheck (a.plus i))) ∧
      memWrite z.bits a v s = .error (.fault (.machineCheck (a.plus i)))) ∧
    (∀ x, raiseFault (.machineCheck x) s = .fault (.machineCheck x))

/-- Two memories in canonical form that list the same byte at every address are the same data. -/
def Obligations.EqualListingsAreEqualMemories : Prop :=
  ∀ m m' : Memory, memWf m = true → memWf m' = true → (∀ x, memGet m x = memGet m' x) → m = m'

/-! ## Operand specifiers -/

/-- A specifier whose bytes can be fetched raises a reserved addressing mode fault in exactly the cases
of R105 (R86, R87, R88, R305). An instruction whose first operand in such a case is reached faults, and the
state is the one before the instruction: what earlier operands stepped is put back (R305, R310). -/
def Obligations.ReservedModesFault : Prop :=
  (∀ (a : Access) (z : Size) (sp : Spec) (s : State), sp.wf z = true →
    canFetch (sp.encode z).length s →
    (evalSpec a z sp s = .error (.fault .reservedAddressingMode) ↔ reservedMode a sp)) ∧
  (∀ (i : Instr) (before after : List OperandSpec) (p : OperandSpec) (s u : State),
    operandsOf i = before ++ p :: after → modeAllows i s → operandsBefore before s = .ok u →
    p.spec.wf p.size = true → canFetch (p.spec.encode p.size).length u →
    reservedMode p.access p.spec →
    exec i s = raiseFault .reservedAddressingMode s)

/-- The uses of the PC and SP that R106 lists are refused, each under its own name, and so is an instruction
with such an operand, once the operands before it have been evaluated. -/
def Obligations.UnpredictableFormsAreRefused : Prop :=
  (∀ (a : Access) (z : Size) (s : State), canFetch 11 s →
    (a ≠ .address → evalSpec a z (.direct (.register Reg.pc)) s
      = .error (.refuse .unpredictablePcRegister)) ∧
    (a ≠ .address → evalSpec a .q (.direct (.register Reg.sp)) s
      = .error (.refuse .unpredictablePcRegister)) ∧
    evalSpec a z (.direct (.deferred Reg.pc)) s = .error (.refuse .unpredictablePcDeferred) ∧
    evalSpec a z (.direct (.autodec Reg.pc)) s = .error (.refuse .unpredictablePcAutodecrement) ∧
    (∀ v, a = .write ∨ a = .modify → evalSpec a z (.direct (.immediate v)) s
      = .error (.refuse .unpredictableImmediateDestination)) ∧
    (∀ x v, x ≠ Reg.pc → a = .read ∨ a = .address → evalSpec a z (.indexed x (.immediate v)) s
      = .error (.refuse .unpredictableIndex)) ∧
    (∀ x, x ≠ Reg.pc → evalSpec a z (.indexed x (.autodec x)) s
      = .error (.refuse .unpredictableIndex)) ∧
    (∀ x, x ≠ Reg.pc → evalSpec a z (.indexed x (.autoinc x)) s
      = .error (.refuse .unpredictableIndex)) ∧
    (∀ x, x ≠ Reg.pc → canAccess 4 (s.r x) s → evalSpec a z (.indexed x (.autoincDeferred x)) s
      = .error (.refuse .unpredictableIndex))) ∧
  (∀ (i : Instr) (before after : List OperandSpec) (p : OperandSpec) (s u : State) (r : Refusal),
    operandsOf i = before ++ p :: after → modeAllows i s → operandsBefore before s = .ok u →
    evalSpec p.access p.size p.spec u = .error (.refuse r) → exec i s = .refused r)

/-- The forms that step no register: literal, register, register deferred, immediate and absolute (R86,
R88, R89, R95, R96). The program counter moves past the specifier. -/
def Obligations.SimpleOperandForms : Prop :=
  ∀ (a : Access) (z : Size) (s : State), canFetch 9 s →
    (∀ v, evalSpec .read z (.direct (.literal v)) s
      = .ok (.lit (v.setWidth 64), s.setPc (s.pc + 1))) ∧
    (∀ n, a ≠ .address → n ≠ Reg.pc → (z = .q → n ≠ Reg.sp) →
      evalSpec a z (.direct (.register n)) s = .ok (.reg n, s.setPc (s.pc + 1))) ∧
    (∀ n, n ≠ Reg.pc →
      evalSpec a z (.direct (.deferred n)) s = .ok (.mem (s.r n), s.setPc (s.pc + 1))) ∧
    (∀ v, evalSpec .read z (.direct (.immediate v)) s
      = .ok (.lit v, s.setPc (s.pc.plus (1 + z.bytes)))) ∧
    (∀ v, evalSpec .address z (.direct (.immediate v)) s
      = .ok (.mem (s.pc + 1), s.setPc (s.pc.plus (1 + z.bytes)))) ∧
    (∀ p, evalSpec a z (.direct (.absolute p)) s = .ok (.mem p, s.setPc (s.pc + 5)))

/-- The forms that step their register: by the operand's size for autodecrement (before use) and
autoincrement (after), by 4 for autoincrement deferred (R90, R91, R92). -/
def Obligations.SteppingOperandForms : Prop :=
  ∀ (a : Access) (z : Size) (n : Reg) (s : State), canFetch 1 s → n ≠ Reg.pc →
    evalSpec a z (.direct (.autodec n)) s
      = .ok (.mem (s.r n - BitVec.ofNat 32 z.bytes),
          (s.setPc (s.pc + 1)).setR n (s.r n - BitVec.ofNat 32 z.bytes)) ∧
    evalSpec a z (.direct (.autoinc n)) s
      = .ok (.mem (s.r n), (s.setPc (s.pc + 1)).setR n (s.r n + BitVec.ofNat 32 z.bytes)) ∧
    (canAccess 4 (s.r n) s → evalSpec a z (.direct (.autoincDeferred n)) s
      = .ok (.mem (s.long (s.r n)), (s.setPc (s.pc + 1)).setR n (s.r n + 4)))

/-- The displacement forms: the sign-extended displacement is added to the register, which for R15 is
the address after the displacement; the deferred ones read the operand's address there (R93, R94, R97,
R98). -/
def Obligations.DisplacementForms : Prop :=
  ∀ (a : Access) (z : Size) (n : Reg) (s : State),
    let at_ := fun (k : Nat) (d : Word) => (if n = Reg.pc then s.pc.plus (1 + k) else s.r n) + d
    (∀ d, canFetch 2 s → evalSpec a z (.direct (.byteDisp n d)) s
      = .ok (.mem (at_ 1 (d.signExtend 32)), s.setPc (s.pc + 2))) ∧
    (∀ d, canFetch 3 s → evalSpec a z (.direct (.wordDisp n d)) s
      = .ok (.mem (at_ 2 (d.signExtend 32)), s.setPc (s.pc + 3))) ∧
    (∀ d, canFetch 5 s → evalSpec a z (.direct (.longDisp n d)) s
      = .ok (.mem (at_ 4 d), s.setPc (s.pc + 5))) ∧
    (∀ d, canFetch 2 s → canAccess 4 (at_ 1 (d.signExtend 32)) s →
      evalSpec a z (.direct (.byteDispDeferred n d)) s
        = .ok (.mem (s.long (at_ 1 (d.signExtend 32))), s.setPc (s.pc + 2))) ∧
    (∀ d, canFetch 3 s → canAccess 4 (at_ 2 (d.signExtend 32)) s →
      evalSpec a z (.direct (.wordDispDeferred n d)) s
        = .ok (.mem (s.long (at_ 2 (d.signExtend 32))), s.setPc (s.pc + 3))) ∧
    (∀ d, canFetch 5 s → canAccess 4 (at_ 4 d) s →
      evalSpec a z (.direct (.longDispDeferred n d)) s
        = .ok (.mem (s.long (at_ 4 d)), s.setPc (s.pc + 5)))

/-- An indexed operand lies at the address its base has after the index byte, plus the index register
as it was before, times the operand's size (R87). -/
def Obligations.IndexedForm : Prop :=
  ∀ (a : Access) (z : Size) (x : Reg) (b : Base) (s u : State) (base : Word),
    canFetch 1 s → x ≠ Reg.pc → x ∉ Base.steps b → (∀ v, b ≠ .immediate v) →
    evalSpec a z (.direct b) (s.setPc (s.pc + 1)) = .ok (.mem base, u) →
    evalSpec a z (.indexed x b) s = .ok (.mem (base + s.r x * BitVec.ofNat 32 z.bytes), u)

/-- Evaluating a specifier moves the program counter past exactly its bytes and steps at most the
register of its autoincrement or autodecrement form; the PSL, memory and all else are kept (R25, R57,
R100, R107). -/
def Obligations.SpecifierFrame : Prop :=
  ∀ (a : Access) (z : Size) (sp : Spec) (s u : State) (o : Operand),
    sp.wf z = true → evalSpec a z sp s = .ok (o, u) →
    u.pc = s.pc.plus (sp.encode z).length ∧
    (∀ n, n ≠ Reg.pc → n ∉ Spec.steps sp → u.r n = s.r n) ∧ u = { s with reg := u.reg }

/-- A register operand reads the low part of its register, a quadword the pair; a write replaces that
part and keeps the rest (R23). -/
def Obligations.RegisterOperandParts : Prop :=
  ∀ (n : Reg) (s : State),
    (s.readReg .b n = (s.r n).extractLsb' 0 8 ∧ s.readReg .w n = (s.r n).extractLsb' 0 16 ∧
      s.readReg .l n = s.r n ∧ s.readReg .q n = s.r (n + 1) ++ s.r n) ∧
    (∀ v, ((s.writeReg .b n v).r n).extractLsb' 0 8 = v ∧
      ((s.writeReg .b n v).r n).extractLsb' 8 24 = (s.r n).extractLsb' 8 24) ∧
    (∀ v, ((s.writeReg .w n v).r n).extractLsb' 0 16 = v ∧
      ((s.writeReg .w n v).r n).extractLsb' 16 16 = (s.r n).extractLsb' 16 16) ∧
    (∀ v, (s.writeReg .l n v).r n = v) ∧
    (∀ v : BitVec 64, (s.writeReg .q n v).r n = v.extractLsb' 0 32 ∧
      (s.writeReg .q n v).r (n + 1) = v.extractLsb' 32 32) ∧
    (∀ (z : Size) (v : BitVec z.bits) (k : Reg), k ≠ n → (z = .q → k ≠ n + 1) →
      (s.writeReg z n v).r k = s.r k) ∧
    (∀ (a : Access) (z : Size), a ≠ .address → canFetch 1 s →
      evalSpec a z (.direct (.register 15)) s = .error (.refuse .unpredictablePcRegister) ∧
      evalSpec a .q (.direct (.register 14)) s = .error (.refuse .unpredictablePcRegister))

/-! ## Integer arithmetic -/

/-- ADDB2 to ADDL3 and INCB to INCL complete with the addition law's result and condition codes (R131). -/
def Obligations.AdditionLaw : Prop :=
  CompletesRM .addb2 .b (fun a b => b + a) (fun a b _ => addCodes b a) ∧
  CompletesRM .addw2 .w (fun a b => b + a) (fun a b _ => addCodes b a) ∧
  CompletesRM .addl2 .l (fun a b => b + a) (fun a b _ => addCodes b a) ∧
  CompletesRRW .addb3 .b .b (fun a b => a + b) (fun a b _ => addCodes a b) ∧
  CompletesRRW .addw3 .w .w (fun a b => a + b) (fun a b _ => addCodes a b) ∧
  CompletesRRW .addl3 .l .l (fun a b => a + b) (fun a b _ => addCodes a b) ∧
  CompletesM .incb .b (fun b => b + 1) (fun b _ => addCodes b 1) ∧
  CompletesM .incw .w (fun b => b + 1) (fun b _ => addCodes b 1) ∧
  CompletesM .incl .l (fun b => b + 1) (fun b _ => addCodes b 1)

/-- SUBB2 to SUBL3 and DECB to DECL complete with the subtraction law's result and condition codes: the
first operand is taken away (R132). -/
def Obligations.SubtractionLaw : Prop :=
  CompletesRM .subb2 .b (fun a b => b - a) (fun a b _ => subCodes b a) ∧
  CompletesRM .subw2 .w (fun a b => b - a) (fun a b _ => subCodes b a) ∧
  CompletesRM .subl2 .l (fun a b => b - a) (fun a b _ => subCodes b a) ∧
  CompletesRRW .subl3 .l .l (fun a b => b - a) (fun a b _ => subCodes b a) ∧
  CompletesM .decb .b (fun b => b - 1) (fun b _ => subCodes b 1) ∧
  CompletesM .decw .w (fun b => b - 1) (fun b _ => subCodes b 1) ∧
  CompletesM .decl .l (fun b => b - 1) (fun b _ => subCodes b 1)

/-- MULB2 to MULL3 complete with the multiplication law's result and condition codes (R133). -/
def Obligations.MultiplicationLaw : Prop :=
  CompletesRM .mulb2 .b (fun a b => b * a) (fun a b _ => mulCodes b a) ∧
  CompletesRM .mulw2 .w (fun a b => b * a) (fun a b _ => mulCodes b a) ∧
  CompletesRM .mull2 .l (fun a b => b * a) (fun a b _ => mulCodes b a) ∧
  CompletesRRW .mull3 .l .l (fun a b => a * b) (fun a b _ => mulCodes a b)

/-- DIVB2 to DIVL3 with a divisor other than zero complete with the division law's result and condition
codes: the first operand is the divisor (R134, R135). -/
def Obligations.DivisionLaw : Prop :=
  (∀ (z : Size) (mk : Spec → Spec → Instr),
    (z = .b ∧ mk = .divb2) ∨ (z = .w ∧ mk = .divw2) ∨ (z = .l ∧ mk = .divl2) →
    ∀ (src dst : Spec) (s u : State) (a b : BitVec z.bits) (o : Operand),
      operandsRM z src dst s = .ok (a, b, o, u) → a ≠ 0 →
      ((divCodes a b).v = true → pslIV s.psl = false) →
      ∃ t, exec (mk src dst) s = .next t ∧
        Wrote s u t [src, dst] z o (divResult a b) (divCodes a b)) ∧
  (∀ (src1 src2 dst : Spec) (s u : State) (a b : Word) (o : Operand),
    operandsRRW .l .l src1 src2 dst s = .ok (a, b, o, u) → o.writable .l s → a ≠ 0 →
    ((divCodes a b).v = true → pslIV s.psl = false) →
    ∃ t, exec (.divl3 src1 src2 dst) s = .next t ∧
      Wrote s u t [src1, src2, dst] .l o (divResult a b) (divCodes a b))

/-- Every instruction that can trap does so after its result: a zero divisor traps whatever IV holds (DIVB2,
DIVW2, DIVL2, DIVL3), and an overflow traps when IV is set (those, ADDx, SUBx, MULx, INCx, DECx, ASHL and
ASHQ). The result and the condition codes have been written, and the program counter is the next
instruction's (R134, R135, R286, R287, R302, R306, R310). -/
def Obligations.ArithmeticTrapsAfterTheResult : Prop :=
  (DivisionTrapsRM .divb2 .b ∧ DivisionTrapsRM .divw2 .w ∧ DivisionTrapsRM .divl2 .l ∧
    DivisionTrapsRRW .divl3 .l) ∧
  (OverflowsRM .addb2 .b (fun a b => b + a) (fun a b => addCodes b a) ∧
    OverflowsRM .addw2 .w (fun a b => b + a) (fun a b => addCodes b a) ∧
    OverflowsRM .addl2 .l (fun a b => b + a) (fun a b => addCodes b a) ∧
    OverflowsRRW .addb3 .b .b (fun a b => a + b) addCodes ∧
    OverflowsRRW .addw3 .w .w (fun a b => a + b) addCodes ∧
    OverflowsRRW .addl3 .l .l (fun a b => a + b) addCodes ∧
    OverflowsM .incb .b (fun b => b + 1) (fun b => addCodes b 1) ∧
    OverflowsM .incw .w (fun b => b + 1) (fun b => addCodes b 1) ∧
    OverflowsM .incl .l (fun b => b + 1) (fun b => addCodes b 1)) ∧
  (OverflowsRM .subb2 .b (fun a b => b - a) (fun a b => subCodes b a) ∧
    OverflowsRM .subw2 .w (fun a b => b - a) (fun a b => subCodes b a) ∧
    OverflowsRM .subl2 .l (fun a b => b - a) (fun a b => subCodes b a) ∧
    OverflowsRRW .subl3 .l .l (fun a b => b - a) (fun a b => subCodes b a) ∧
    OverflowsM .decb .b (fun b => b - 1) (fun b => subCodes b 1) ∧
    OverflowsM .decw .w (fun b => b - 1) (fun b => subCodes b 1) ∧
    OverflowsM .decl .l (fun b => b - 1) (fun b => subCodes b 1)) ∧
  (OverflowsRM .mulb2 .b (fun a b => b * a) (fun a b => mulCodes b a) ∧
    OverflowsRM .mulw2 .w (fun a b => b * a) (fun a b => mulCodes b a) ∧
    OverflowsRM .mull2 .l (fun a b => b * a) (fun a b => mulCodes b a) ∧
    OverflowsRRW .mull3 .l .l (fun a b => a * b) mulCodes) ∧
  (OverflowsRRW .ashl .b .l shiftResult shiftCodes ∧
    OverflowsRRW .ashq .b .q shiftResult shiftCodes)

/-! ## Logical, move, compare -/

/-- BISB2 to XORL2 complete: the mask's bits set, cleared or flipped; N and Z from the result, V clear, C
kept (R161, R162). -/
def Obligations.LogicalInstructions : Prop :=
  CompletesRM .bisb2 .b (fun m d => d ||| m) (fun m d => keepsCarry (d ||| m)) ∧
  CompletesRM .bisw2 .w (fun m d => d ||| m) (fun m d => keepsCarry (d ||| m)) ∧
  CompletesRM .bisl2 .l (fun m d => d ||| m) (fun m d => keepsCarry (d ||| m)) ∧
  CompletesRM .bicb2 .b (fun m d => d &&& ~~~m) (fun m d => keepsCarry (d &&& ~~~m)) ∧
  CompletesRM .bicw2 .w (fun m d => d &&& ~~~m) (fun m d => keepsCarry (d &&& ~~~m)) ∧
  CompletesRM .bicl2 .l (fun m d => d &&& ~~~m) (fun m d => keepsCarry (d &&& ~~~m)) ∧
  CompletesRM .xorb2 .b (fun m d => d ^^^ m) (fun m d => keepsCarry (d ^^^ m)) ∧
  CompletesRM .xorw2 .w (fun m d => d ^^^ m) (fun m d => keepsCarry (d ^^^ m)) ∧
  CompletesRM .xorl2 .l (fun m d => d ^^^ m) (fun m d => keepsCarry (d ^^^ m))

/-- MOVB to MOVQ, CLRB to CLRQ and MOVAB to MOVAL complete: the source, 0, or the source operand's address
(whose memory is neither read nor written) is in the destination; N and Z from it, V clear, C kept (R175,
R176, R177). -/
def Obligations.MoveAndClearInstructions : Prop :=
  CompletesRW .movb .b keepsCarry ∧ CompletesRW .movw .w keepsCarry ∧
  CompletesRW .movl .l keepsCarry ∧ CompletesRW .movq .q keepsCarry ∧
  CompletesW .clrb .b 0 (fun c => { n := false, z := true, v := false, c := c }) ∧
  CompletesW .clrw .w 0 (fun c => { n := false, z := true, v := false, c := c }) ∧
  CompletesW .clrl .l 0 (fun c => { n := false, z := true, v := false, c := c }) ∧
  CompletesW .clrq .q 0 (fun c => { n := false, z := true, v := false, c := c }) ∧
  CompletesAW .movab .b keepsCarry ∧ CompletesAW .movaw .w keepsCarry ∧
  CompletesAW .moval .l keepsCarry

/-- PUSHL, PUSHAB, PUSHAW and PUSHAL complete: the value or address is on the stack, 4 below where SP
stood after the operand was evaluated, and the program counter is past the instruction (R176, R177, R178). -/
def Obligations.PushInstructions : Prop :=
  (∀ (src : Spec) (s u : State) (v : Word), operandsR .l src s = .ok (v, u) →
    canAccess 4 (u.sp - 4) s →
    ∃ t, exec (.pushl src) s = .next t ∧ Pushed s u t [src] v ∧
      pslFlags t.psl = keepsCarry v (pslC s.psl) ∧ pslKept s t) ∧
  (∀ (z : Size) (mk : Spec → Instr),
    (z = .b ∧ mk = .pushab) ∨ (z = .w ∧ mk = .pushaw) ∨ (z = .l ∧ mk = .pushal) →
    ∀ (src : Spec) (s u : State) (a : Word), operandsA z src s = .ok (a, u) →
      canAccess 4 (u.sp - 4) s →
      ∃ t, exec (mk src) s = .next t ∧ Pushed s u t [src] a ∧
        pslFlags t.psl = keepsCarry a (pslC s.psl) ∧ pslKept s t)

/-- CMPB, CMPW and CMPL complete with the compare law's condition codes, BITB, BITW and BITL with those of
the AND of mask and source, C kept; no operand is written (R200, R202). -/
def Obligations.CompareAndBitTestLaws : Prop :=
  CompletesRR .cmpb .b (fun a b _ => compareCodes a b) ∧
  CompletesRR .cmpw .w (fun a b _ => compareCodes a b) ∧
  CompletesRR .cmpl .l (fun a b _ => compareCodes a b) ∧
  CompletesRR .bitb .b (fun m a => keepsCarry (a &&& m)) ∧
  CompletesRR .bitw .w (fun m a => keepsCarry (a &&& m)) ∧
  CompletesRR .bitl .l (fun m a => keepsCarry (a &&& m))

/-- TSTB, TSTW and TSTL complete with the test law's condition codes: C is cleared (R201). -/
def Obligations.TestLaw : Prop :=
  CompletesR .tstb .b (fun a _ => { n := a.msb, z := decide (a = 0), v := false, c := false }) ∧
  CompletesR .tstw .w (fun a _ => { n := a.msb, z := decide (a = 0), v := false, c := false }) ∧
  CompletesR .tstl .l (fun a _ => { n := a.msb, z := decide (a = 0), v := false, c := false })

/-! ## Branches -/

/-- Every branch completes and writes nothing but the program counter: BRB and BRW are always taken, a
conditional branch under its condition of the table; the second spellings have the condition of the first
(R215, R216, R217). -/
def Obligations.BranchInstructions : Prop :=
  (∀ (disp : BitVec 8) (s : State), canFetch 2 s →
    exec (.brb disp) s = .next (s.setPc (s.pc + 2 + disp.signExtend 32))) ∧
  (∀ (disp : BitVec 16) (s : State), canFetch 3 s →
    exec (.brw disp) s = .next (s.setPc (s.pc + 3 + disp.signExtend 32))) ∧
  CompletesBranch .beql (fun s => pslZ s.psl = true) ∧
  CompletesBranch .beqlu (fun s => pslZ s.psl = true) ∧
  CompletesBranch .bneq (fun s => pslZ s.psl = false) ∧
  CompletesBranch .bnequ (fun s => pslZ s.psl = false) ∧
  CompletesBranch .blss (fun s => pslN s.psl = true) ∧
  CompletesBranch .bleq (fun s => pslN s.psl = true ∨ pslZ s.psl = true) ∧
  CompletesBranch .bgtr (fun s => pslN s.psl = false ∧ pslZ s.psl = false) ∧
  CompletesBranch .bgeq (fun s => pslN s.psl = false) ∧
  CompletesBranch .bvc (fun s => pslV s.psl = false) ∧
  CompletesBranch .bvs (fun s => pslV s.psl = true) ∧
  CompletesBranch .bcc (fun s => pslC s.psl = false) ∧
  CompletesBranch .bgequ (fun s => pslC s.psl = false) ∧
  CompletesBranch .bcs (fun s => pslC s.psl = true) ∧
  CompletesBranch .blssu (fun s => pslC s.psl = true)

/-! ## Calls and returns -/

/-- CALLS and CALLG complete: the call frame is built and the procedure entered two bytes past its entry
mask. CALLS pushes the argument count first and AP points at it; for CALLG, AP is the argument list's
address (R236, R237, R238, R239). -/
def Obligations.CallsBuildTheFrame : Prop :=
  (∀ (numarg dst : Spec) (s u : State) (n a : Word),
    operandsRA numarg dst s = .ok (n, a, u) → canAccess 2 a s →
    (u.word a).extractLsb' 12 2 = 0 → canAccess 4 (u.sp - 4) s →
    canAccess (frameSize (u.word a)) (frameBase (u.sp - 4) (u.word a)) s →
    ∃ t, exec (.calls numarg dst) s = .next t ∧ t.long (u.sp - 4) = n ∧
      Called s u t [numarg, dst] 1 (u.word a) (u.sp - 4) (u.sp - 4) a
        ((List.range 4).map (u.sp - 4).plus)) ∧
  (∀ (arglist dst : Spec) (s u : State) (al a : Word),
    operandsAA arglist dst s = .ok (al, a, u) → canAccess 2 a s →
    (u.word a).extractLsb' 12 2 = 0 →
    canAccess (frameSize (u.word a)) (frameBase u.sp (u.word a)) s →
    ∃ t, exec (.callg arglist dst) s = .next t ∧
      Called s u t [arglist, dst] 0 (u.word a) u.sp al a [])

/-- RET completes: the frame at FP is undone (R240). -/
def Obligations.RetUndoesTheFrame : Prop :=
  ∀ (s : State) (w : Word), canFetch 1 s → w = s.long (s.r Reg.fp + 4) →
    w.extractLsb' 8 8 = 0 → canAccess (returnSize w) (s.r Reg.fp + 4) s →
    (w.getLsbD 29 = true → canAccess 4 (returnTop (s.r Reg.fp) w) s) →
    ∃ t, exec .ret s = .next t ∧ Returned s t w

/-- Where exceptions are not delivered, a CALLS followed at once by RET gives the caller back its registers
R0 to R11, AP, FP, its SP with the arguments removed, the next instruction's address and its PSL, but for the
condition codes, which are clear (R236, R239, R240, R241). -/
def Obligations.RetUndoesCalls : Prop :=
  ∀ (numarg dst : Spec) (s u t : State) (n a : Word),
    operandsRA numarg dst s = .ok (n, a, u) → s.psl &&& 0x0000FF10 = 0 →
    exec (.calls numarg dst) s = .next t → s.cfg.deliver = false → canFetch 1 t →
    ∃ v, exec .ret t = .next v ∧
      (∀ r : Reg, r < Reg.sp → v.r r = u.r r) ∧ v.sp = u.sp + 4 * (n &&& 0xFF) ∧ v.pc = u.pc ∧
      v.psl = s.psl &&& 0xFFFFFFF0 ∧
      v = { t with reg := v.reg, psl := v.psl }

/-- JSB completes: the next instruction's address is pushed and the target entered; RSB completes: the
longword on top of the stack is the new program counter (R242, R243, R244). -/
def Obligations.SubroutineLinkage : Prop :=
  (∀ (dst : Spec) (s u : State) (a : Word), operandsA .b dst s = .ok (a, u) →
    canAccess 4 (u.sp - 4) s →
    ∃ t, exec (.jsb dst) s = .next t ∧ t.pc = a ∧ Pushed s (u.setPc t.pc) t [dst] u.pc ∧
      t.psl = s.psl) ∧
  (∀ s : State, canFetch 1 s → canAccess 4 s.sp s →
    exec .rsb s = .next ((s.setR Reg.sp (s.sp + 4)).setPc (s.long s.sp)))

/-! ## Privileged instructions -/

/-- HALT, LDPCTX, SVPCTX, MTPR and MFPR outside kernel mode raise the privileged-instruction fault before
any operand is evaluated; nothing has changed (R250, R304). -/
def Obligations.PrivilegedOutsideKernelFaults : Prop :=
  ∀ s : State, canFetch 1 s → pslCUR s.psl ≠ 0 →
    exec .halt s = raiseFault .privilegedInstruction s ∧
    exec .ldpctx s = raiseFault .privilegedInstruction s ∧
    exec .svpctx s = raiseFault .privilegedInstruction s ∧
    (∀ src procreg, exec (.mtpr src procreg) s = raiseFault .privilegedInstruction s) ∧
    (∀ procreg dst, exec (.mfpr procreg dst) s = raiseFault .privilegedInstruction s)

/-- HALT completes in kernel mode: the program counter is past the opcode, the processor is halted, and
everything else is kept (R262). -/
def Obligations.HaltStopsTheProcessor : Prop :=
  ∀ s : State, canFetch 1 s → pslCUR s.psl = 0 →
    exec .halt s = .next { s.setPc (s.pc + 1) with halted := true }

/-- REI completes, in any mode, where the PSL image passes its checks: the image is the PSL, the stack
is that of the mode returned to (R250, R252, R316). -/
def Obligations.ReiReturns : Prop :=
  ∀ s : State, canFetch 1 s → canAccess 8 s.sp s →
    reiAccepts s.psl (s.long (s.sp + 4)) → reiModelled (s.long (s.sp + 4)) s →
    ∃ t, exec .rei s = .next t ∧ ReturnedFromException s t (s.long (s.sp + 4)) (s.long s.sp)

/-- REI with a PSL image that fails a check raises the reserved operand fault, the pops undone; one that
passes but has no meaning in the model is refused (R252, R307, R310). -/
def Obligations.ReiChecksTheImage : Prop :=
  ∀ s : State, canFetch 1 s → canAccess 8 s.sp s →
    (¬ reiAccepts s.psl (s.long (s.sp + 4)) → exec .rei s = raiseFault .reservedOperand s) ∧
    (reiAccepts s.psl (s.long (s.sp + 4)) → ¬ reiModelled (s.long (s.sp + 4)) s →
      exec .rei s = .refused .unmodelledPslBit ∨ exec .rei s = .refused .astDeliveryNotModelled)

/-- LDPCTX completes in kernel mode on the interrupt stack where the block passes its checks (R253,
R254). -/
def Obligations.LdpctxLoadsTheContext : Prop :=
  ∀ s : State, canFetch 1 s → pslCUR s.psl = 0 → pslIS s.psl = true → canAccess 96 s.pcbb s →
    pcbAccepts (s.long (s.pcbb + 80)) (s.long (s.pcbb + 84)) (s.long (s.pcbb + 88))
      (s.long (s.pcbb + 92)) →
    canAccess 8 (s.long s.pcbb - 8) s →
    ∃ t, exec .ldpctx s = .next t ∧ ContextLoaded s t s.pcbb

/-- The other images that a rule forbids raise the reserved operand fault, with the state put back: an entry
mask with bit 12 or 13 set (CALLS, CALLG), a frame whose saved PSW byte is not zero (RET), a process
control block that fails a check (LDPCTX); LDPCTX off the interrupt stack is refused (R236, R237, R240,
R254, R307). -/
def Obligations.ReservedImagesFault : Prop :=
  (∀ (numarg dst : Spec) (s u : State) (n a : Word),
    operandsRA numarg dst s = .ok (n, a, u) → canAccess 2 a s →
    (u.word a).extractLsb' 12 2 ≠ 0 →
    exec (.calls numarg dst) s = raiseFault .reservedOperand s) ∧
  (∀ (arglist dst : Spec) (s u : State) (al a : Word),
    operandsAA arglist dst s = .ok (al, a, u) → canAccess 2 a s →
    (u.word a).extractLsb' 12 2 ≠ 0 →
    exec (.callg arglist dst) s = raiseFault .reservedOperand s) ∧
  (∀ s : State, canFetch 1 s → canAccess 4 (s.r Reg.fp + 4) s →
    (s.long (s.r Reg.fp + 4)).extractLsb' 8 8 ≠ 0 →
    exec .ret s = raiseFault .reservedOperand s) ∧
  (∀ s : State, canFetch 1 s → pslCUR s.psl = 0 →
    (pslIS s.psl = true → canAccess 16 (s.pcbb + 80) s →
      ¬ pcbAccepts (s.long (s.pcbb + 80)) (s.long (s.pcbb + 84)) (s.long (s.pcbb + 88))
        (s.long (s.pcbb + 92)) →
      exec .ldpctx s = raiseFault .reservedOperand s) ∧
    (pslIS s.psl = false → exec .ldpctx s = .refused .ldpctxOffInterruptStack))

/-- SVPCTX completes in kernel mode: the context, with the PC and PSL images popped from the stack, is in
the block, and the processor is on the interrupt stack (R253, R256). -/
def Obligations.SvpctxSavesTheContext : Prop :=
  ∀ s : State, canFetch 1 s → pslCUR s.psl = 0 → canAccess 8 s.sp s → canAccess 80 s.pcbb s →
    ∃ t, exec .svpctx s = .next t ∧ ContextSaved s t s.pcbb

/-- MTPR completes in kernel mode with the effect its table gives each register; a value above 4 for
ASTLVL is a reserved operand fault (R258, R259). -/
def Obligations.MtprWritesTheRegister : Prop :=
  CompletesMtpr .ksp (fun _ => True)
    (fun u v => if pslIS u.psl then { u with spbank.k := v } else u.setR Reg.sp v) ∧
  CompletesMtpr .esp (fun _ => True) (fun u v => { u with spbank.e := v }) ∧
  CompletesMtpr .ssp (fun _ => True) (fun u v => { u with spbank.s := v }) ∧
  CompletesMtpr .usp (fun _ => True) (fun u v => { u with spbank.u := v }) ∧
  CompletesMtpr .p0br (fun _ => True) (fun u v => { u with p0br := v &&& 0xFFFFFFFC }) ∧
  CompletesMtpr .p0lr (fun _ => True) (fun u v => { u with p0lr := v &&& 0x003FFFFF }) ∧
  CompletesMtpr .p1br (fun _ => True) (fun u v => { u with p1br := v &&& 0xFFFFFFFC }) ∧
  CompletesMtpr .p1lr (fun _ => True) (fun u v => { u with p1lr := v &&& 0x003FFFFF }) ∧
  CompletesMtpr .sbr (fun _ => True) (fun u v => { u with sbr := v &&& 0xFFFFFFFC }) ∧
  CompletesMtpr .slr (fun _ => True) (fun u v => { u with slr := v &&& 0x003FFFFF }) ∧
  CompletesMtpr .pcbb (fun _ => True) (fun u v => { u with pcbb := v &&& 0xFFFFFFFC }) ∧
  CompletesMtpr .scbb (fun _ => True) (fun u v => { u with scbb := v &&& 0xFFFFFE00 }) ∧
  CompletesMtpr .ipl (fun _ => True)
    (fun u v => { u with psl := (u.psl &&& 0xFFE0FFFF) ||| ((v &&& 0x1F) <<< 16) }) ∧
  CompletesMtpr .astlvl (fun v => v.toNat ≤ 4) (fun u v => { u with astlvl := v.extractLsb' 0 3 }) ∧
  CompletesMtpr .mapen (fun v => v.getLsbD 0 = false) (fun u _ => { u with mapen := 0 }) ∧
  (∀ (src procreg : Spec) (s u : State) (v k : Word), pslCUR s.psl = 0 →
    operandsRR .l .l src procreg s = .ok (v, k, u) → prnumFind s.cfg.prnum k = some .astlvl →
    4 < v.toNat → exec (.mtpr src procreg) s = raiseFault .reservedOperand s)

/-- MFPR completes in kernel mode with the value its table gives each register in the destination (R260,
R261). -/
def Obligations.MfprReadsTheRegister : Prop :=
  CompletesMfpr .ksp (fun u => if pslIS u.psl then u.spbank.k else u.sp) ∧
  CompletesMfpr .esp (fun u => u.spbank.e) ∧
  CompletesMfpr .ssp (fun u => u.spbank.s) ∧
  CompletesMfpr .usp (fun u => u.spbank.u) ∧
  CompletesMfpr .p0br (fun u => u.p0br) ∧
  CompletesMfpr .p0lr (fun u => u.p0lr) ∧
  CompletesMfpr .p1br (fun u => u.p1br) ∧
  CompletesMfpr .p1lr (fun u => u.p1lr) ∧
  CompletesMfpr .sbr (fun u => u.sbr) ∧
  CompletesMfpr .slr (fun u => u.slr) ∧
  CompletesMfpr .pcbb (fun u => u.pcbb) ∧
  CompletesMfpr .scbb (fun u => u.scbb) ∧
  CompletesMfpr .ipl (fun u => (u.psl >>> 16) &&& 0x1F) ∧
  CompletesMfpr .astlvl (fun u => u.astlvl.setWidth 32) ∧
  CompletesMfpr .mapen (fun u => u.mapen.setWidth 32)

/-- A number outside the table, and ICCS and TODR, are refused by MTPR and MFPR, each by its own name;
so is setting MAPEN bit 0 (R258, R259, R260, R261). -/
def Obligations.UnmodelledProcessorRegistersAreRefused : Prop :=
  (∀ (src procreg : Spec) (s u : State) (v k : Word), pslCUR s.psl = 0 →
    operandsRR .l .l src procreg s = .ok (v, k, u) →
    (prnumFind s.cfg.prnum k = none →
      exec (.mtpr src procreg) s = .refused (.unknownProcessorRegister k)) ∧
    (prnumFind s.cfg.prnum k = some .iccs ∨ prnumFind s.cfg.prnum k = some .todr →
      exec (.mtpr src procreg) s = .refused .clockNotModelled) ∧
    (prnumFind s.cfg.prnum k = some .mapen → v.getLsbD 0 = true →
      exec (.mtpr src procreg) s = .refused .translationNotModelled)) ∧
  (∀ (procreg dst : Spec) (s u : State) (k : Word) (o : Operand), pslCUR s.psl = 0 →
    operandsRW .l procreg dst s = .ok (k, o, u) →
    (prnumFind s.cfg.prnum k = none →
      exec (.mfpr procreg dst) s = .refused (.unknownProcessorRegister k)) ∧
    (prnumFind s.cfg.prnum k = some .iccs ∨ prnumFind s.cfg.prnum k = some .todr →
      exec (.mfpr procreg dst) s = .refused .clockNotModelled))

/-! ## Strings -/

/-- MOVC3 completes: the destination is an exact copy of the source as it was before, overlapping or not
(R271, R272). -/
def Obligations.Movc3CopiesTheString : Prop :=
  ∀ (len src dst : Spec) (s u : State) (n : BitVec 16) (a d : Word),
    operandsRAA len src dst s = .ok (n, a, d, u) →
    canAccess n.toNat a s → canAccess n.toNat d s →
    ∃ t, exec (.movc3 len src dst) s = .next t ∧
      MovedCharacters s u t [len, src, dst] d (s.bytesAt a n.toNat) 0 (a.plus n.toNat)
        { n := false, z := true, v := false, c := false }

/-- MOVC5 completes: the shorter length is copied and the rest of the destination filled; the condition
codes compare the lengths (R271, R273). -/
def Obligations.Movc5CopiesAndFills : Prop :=
  ∀ (srclen src fill dstlen dst : Spec) (s u : State) (sl dl : BitVec 16) (a d : Word) (f : Byte),
    operandsMovc5 srclen src fill dstlen dst s = .ok (sl, a, f, dl, d, u) →
    canAccess (min sl.toNat dl.toNat) a s → canAccess dl.toNat d s →
    ∃ t, exec (.movc5 srclen src fill dstlen dst) s = .next t ∧
      MovedCharacters s u t [srclen, src, fill, dstlen, dst] d
        (s.bytesAt a (min sl.toNat dl.toNat) ++ List.replicate (dl.toNat - min sl.toNat dl.toNat) f)
        (BitVec.ofNat 32 (sl.toNat - min sl.toNat dl.toNat)) (a.plus (min sl.toNat dl.toNat))
        (compareCodes sl dl)

/-- CMPC3 completes: it stops at the first pair of bytes `j` that differ, or at the end; only the bytes up
to there need to exist (R271, R274). -/
def Obligations.Cmpc3FindsTheDifference : Prop :=
  ∀ (len src1 src2 : Spec) (s u : State) (n : BitVec 16) (p q : Word) (j : Nat),
    operandsRAA len src1 src2 s = .ok (n, p, q, u) → j ≤ n.toNat →
    (∀ i < j, s.byteAt (p.plus i) = s.byteAt (q.plus i)) →
    (j < n.toNat → s.byteAt (p.plus j) ≠ s.byteAt (q.plus j)) →
    canAccess (min n.toNat (j + 1)) p s → canAccess (min n.toNat (j + 1)) q s →
    ∃ t, exec (.cmpc3 len src1 src2) s = .next t ∧
      Searched s u t [len, src1, src2]
        [(0, BitVec.ofNat 32 (n.toNat - j)), (1, p.plus j), (2, BitVec.ofNat 32 (n.toNat - j)),
          (3, q.plus j)]
        (if j = n.toNat then { n := false, z := true, v := false, c := false }
          else compareCodes (s.byteAt (p.plus j)) (s.byteAt (q.plus j)))

/-- LOCC completes at the first byte equal to the character, SKPC at the first that differs (R271, R275,
R276). -/
def Obligations.ScansFindTheCharacter : Prop :=
  CompletesScan .locc (fun c b => b = c) ∧ CompletesScan .skpc (fun c b => b ≠ c)

/-! ## Shifts -/

/-- ASHL and ASHQ complete: left by a positive count, right and sign-filled by a negative one, V when a
left shift loses information. ROTL completes: no bit is lost, N and Z from the result, V clear, C kept
(R285, R286, R287, R288). -/
def Obligations.ShiftAndRotateInstructions : Prop :=
  CompletesRRW .ashl .b .l shiftResult (fun c x _ => shiftCodes c x) ∧
  CompletesRRW .ashq .b .q shiftResult (fun c x _ => shiftCodes c x) ∧
  CompletesRRW .rotl .b .l rotateResult (fun c x => keepsCarry (rotateResult c x))

/-! ## Exceptions -/

/-- Where exceptions are delivered, each fault enters through its own vector with the opcode's address
and no parameter, each trap through 0x34 with the next instruction's address and its type; where they
are not, the outcome is the fault (R301, R302, R306, R310). -/
def Obligations.ExceptionsEnterThroughTheirVectors : Prop :=
  ∀ s : State,
    (s.cfg.deliver = true →
      raiseFault .privilegedInstruction s = takeEntry .exception 0x10 s.pc [] s ∧
      raiseFault .reservedOperand s = takeEntry .exception 0x18 s.pc [] s ∧
      raiseFault .reservedAddressingMode s = takeEntry .exception 0x1C s.pc [] s ∧
      raiseTrap .integerOverflow s = takeEntry .exception 0x34 s.pc [1] s ∧
      raiseTrap .integerDivideByZero s = takeEntry .exception 0x34 s.pc [2] s) ∧
    (s.cfg.deliver = false →
      raiseFault .privilegedInstruction s = .fault .privilegedInstruction ∧
      raiseFault .reservedOperand s = .fault .reservedOperand ∧
      raiseFault .reservedAddressingMode s = .fault .reservedAddressingMode ∧
      raiseTrap .integerOverflow s = .fault (.arithmeticTrap .integerOverflow s) ∧
      raiseTrap .integerDivideByZero s = .fault (.arithmeticTrap .integerDivideByZero s))

/-- What taking an exception saves and where it goes: the old PSL, the saved PC and the parameter on the
kernel or interrupt stack, the live stack pointer in its bank, a fresh kernel-mode PSL, the handler's
address in the program counter; for an interrupt, its level in IPL (R314, R315, R35). An entry that meets absent
memory, at its vector or where it pushes, is refused, and so is a vector of code 2 or 3 (R314, R317). -/
def Obligations.EntrySavesAndSwitches : Prop :=
  (∀ (off savedPc : Word) (params : List Word) (s : State),
    params.length ≤ 1 → canAccess 4 (s.scbb + off) s →
    (s.long (s.scbb + off)).getLsbD 1 = false →
    canAccess (entrySize params) (entryBase (s.long (s.scbb + off)) params s) s →
    (∃ t, takeEntry .exception off savedPc params s = .next t ∧
      Entered s t (s.long (s.scbb + off)) savedPc params (pslCUR s.psl)
        (if (s.long (s.scbb + off)).getLsbD 0 then 31 else pslIPL s.psl)) ∧
    (∀ level, ∃ t, takeEntry (.interrupt level) off savedPc params s = .next t ∧
      Entered s t (s.long (s.scbb + off)) savedPc params 0 level)) ∧
  (∀ (kind : Entry) (off savedPc : Word) (params : List Word) (s : State), params.length ≤ 1 →
    (¬ canAccess 4 (s.scbb + off) s →
      takeEntry kind off savedPc params s = .refused .exceptionDuringEntry) ∧
    (canAccess 4 (s.scbb + off) s → (s.long (s.scbb + off)).getLsbD 1 = true →
      takeEntry kind off savedPc params s = .refused .unsupportedVectorCode) ∧
    (canAccess 4 (s.scbb + off) s → (s.long (s.scbb + off)).getLsbD 1 = false →
      ¬ canAccess (entrySize params) (entryBase (s.long (s.scbb + off)) params s) s →
      takeEntry kind off savedPc params s = .refused .exceptionDuringEntry))

/-- A handler that does nothing but REI undoes the entry of an exception without parameters: the PC, the
PSL, the stack pointer and every register are back (R252, R314, R316). -/
def Obligations.ReiUndoesEntry : Prop :=
  ∀ (off savedPc : Word) (s t : State),
    takeEntry .exception off savedPc [] s = .next t → canFetch 1 t →
    pslLegal s.psl = true → (pslIS s.psl = true → pslIPL s.psl ≠ 0) → reiModelled s.psl s →
    ∃ v, exec .rei t = .next v ∧ v.pc = savedPc ∧ v.psl = s.psl ∧
      (∀ n, n ≠ Reg.pc → v.r n = s.r n) ∧ v.written = [] ∧
      (∀ x, v.byteAt x = t.byteAt x)

/-! ## Reset and invariants -/

/-- The PSL after reset: kernel mode on the interrupt stack at IPL 31, every condition code and enable 0
(R33). -/
def Obligations.ResetPsl : Prop :=
  State.reset.psl = 0x041F0000 ∧ pslIS State.reset.psl = true ∧ pslIPL State.reset.psl = 31 ∧
  pslCUR State.reset.psl = 0 ∧ pslPRV State.reset.psl = 0 ∧
  pslFlags State.reset.psl = { n := false, z := false, v := false, c := false } ∧
  pslT State.reset.psl = false ∧ pslIV State.reset.psl = false ∧ pslFU State.reset.psl = false ∧
  pslDV State.reset.psl = false

/-- What else the spec fixes at reset: translation off, no AST pending, not halted, nothing stored (R49,
R350). The rest is the model's choice: that memory lists no byte (log entries 7 and 11) and that the registers
the spec leaves unspecified are zero (log entry 9), so that the invariants below hold. -/
def Obligations.ResetMeetsTheInvariants : Prop :=
  State.reset.mapen = 0 ∧ State.reset.astlvl = 4 ∧ State.reset.halted = false ∧
  State.reset.written = [] ∧ State.reset.mem = [] ∧ running State.reset ∧
  pslLegal State.reset.psl = true ∧ dataWf State.reset = true ∧ procRegsLegal State.reset = true

/-- No step makes the PSL inconsistent: its must-be-zero bits, the interrupt stack and IPL outside kernel
mode, and the previous mode stay legal (R34). -/
def Obligations.StepKeepsPslLegal : Prop :=
  ∀ s t : State, pslLegal s.psl = true → step s = .next t → pslLegal t.psl = true

/-- Every step keeps memory and the record of stored addresses in canonical form (R47, R48). -/
def Obligations.StepKeepsDataCanonical : Prop :=
  ∀ s t : State, dataWf s = true → step s = .next t → dataWf t = true

/-- Every step keeps the processor registers within their fields: alignment, lengths, ASTLVL at most 4,
translation off (R38, R39, R40, R42, R44). -/
def Obligations.StepKeepsProcessorRegistersLegal : Prop :=
  ∀ s t : State, procRegsLegal s = true → step s = .next t → procRegsLegal t = true

/-- Where exceptions are not delivered no step raises privilege or leaves the configuration: the mode
after it is the mode before or a less privileged one (R31, R321). -/
def Obligations.NoInstructionRaisesPrivilege : Prop :=
  ∀ s t : State, s.cfg.deliver = false → step s = .next t →
    (pslCUR s.psl).toNat ≤ (pslCUR t.psl).toNat ∧ t.cfg = s.cfg

/-- Where exceptions are not delivered, a step outside kernel mode that is no REI changes no processor
register, no stack pointer of a more privileged mode and no bit of the PSL above the trap enables (R250, R320,
R322). -/
def Obligations.UserStepsKeepSystemState : Prop :=
  ∀ (s t : State) (i : Instr) (rest : List Byte), running s →
    decode (instrWindow s) = .ok (i, rest) → i ≠ .rei → s.cfg.deliver = false →
    pslCUR s.psl ≠ 0 → step s = .next t →
    t.psl &&& 0xFFFFFF00 = s.psl &&& 0xFFFFFF00 ∧
    ∃ more, t = { s with
      reg := t.reg, psl := t.psl, mem := t.mem, written := t.written, irqs := more }
end

