-- ==== Sys2Proof/Laws/State.lean ====
section
/-!
SUPPORT. What each update of the state leaves in each field, true by unfolding once: proofs cite
these and never unfold an update again.
-/

namespace Sys2Proof.Machine

@[simp] theorem r_setR (s : State) (m n : Reg) (v : Word) :
    (s.setR m v).r n = if m = n then v else s.r n := by
  simp [State.r, State.setR, Vector.getElem_set, Fin.ext_iff]

theorem r_setR_same (s : State) (n : Reg) (v : Word) : (s.setR n v).r n = v := by simp

theorem r_setR_other (s : State) {m n : Reg} (v : Word) (h : m ≠ n) : (s.setR m v).r n = s.r n := by
  simp [h]

@[simp] theorem psl_setR (s : State) (n : Reg) (v : Word) : (s.setR n v).psl = s.psl := rfl
@[simp] theorem spbank_setR (s : State) (n : Reg) (v : Word) : (s.setR n v).spbank = s.spbank := rfl
@[simp] theorem p0br_setR (s : State) (n : Reg) (v : Word) : (s.setR n v).p0br = s.p0br := rfl
@[simp] theorem p0lr_setR (s : State) (n : Reg) (v : Word) : (s.setR n v).p0lr = s.p0lr := rfl
@[simp] theorem p1br_setR (s : State) (n : Reg) (v : Word) : (s.setR n v).p1br = s.p1br := rfl
@[simp] theorem p1lr_setR (s : State) (n : Reg) (v : Word) : (s.setR n v).p1lr = s.p1lr := rfl
@[simp] theorem sbr_setR (s : State) (n : Reg) (v : Word) : (s.setR n v).sbr = s.sbr := rfl
@[simp] theorem slr_setR (s : State) (n : Reg) (v : Word) : (s.setR n v).slr = s.slr := rfl
@[simp] theorem pcbb_setR (s : State) (n : Reg) (v : Word) : (s.setR n v).pcbb = s.pcbb := rfl
@[simp] theorem scbb_setR (s : State) (n : Reg) (v : Word) : (s.setR n v).scbb = s.scbb := rfl
@[simp] theorem astlvl_setR (s : State) (n : Reg) (v : Word) : (s.setR n v).astlvl = s.astlvl := rfl
@[simp] theorem iccs_setR (s : State) (n : Reg) (v : Word) : (s.setR n v).iccs = s.iccs := rfl
@[simp] theorem todr_setR (s : State) (n : Reg) (v : Word) : (s.setR n v).todr = s.todr := rfl
@[simp] theorem mapen_setR (s : State) (n : Reg) (v : Word) : (s.setR n v).mapen = s.mapen := rfl
@[simp] theorem mem_setR (s : State) (n : Reg) (v : Word) : (s.setR n v).mem = s.mem := rfl
@[simp] theorem halted_setR (s : State) (n : Reg) (v : Word) : (s.setR n v).halted = s.halted := rfl
@[simp] theorem written_setR (s : State) (n : Reg) (v : Word) : (s.setR n v).written = s.written := rfl
@[simp] theorem cfg_setR (s : State) (n : Reg) (v : Word) : (s.setR n v).cfg = s.cfg := rfl
@[simp] theorem irqs_setR (s : State) (n : Reg) (v : Word) : (s.setR n v).irqs = s.irqs := rfl

@[simp] theorem reg_setPsl (s : State) (w : Word) : (s.setPsl w).reg = s.reg := rfl
@[simp] theorem spbank_setPsl (s : State) (w : Word) : (s.setPsl w).spbank = s.spbank := rfl
@[simp] theorem p0br_setPsl (s : State) (w : Word) : (s.setPsl w).p0br = s.p0br := rfl
@[simp] theorem p0lr_setPsl (s : State) (w : Word) : (s.setPsl w).p0lr = s.p0lr := rfl
@[simp] theorem p1br_setPsl (s : State) (w : Word) : (s.setPsl w).p1br = s.p1br := rfl
@[simp] theorem p1lr_setPsl (s : State) (w : Word) : (s.setPsl w).p1lr = s.p1lr := rfl
@[simp] theorem sbr_setPsl (s : State) (w : Word) : (s.setPsl w).sbr = s.sbr := rfl
@[simp] theorem slr_setPsl (s : State) (w : Word) : (s.setPsl w).slr = s.slr := rfl
@[simp] theorem pcbb_setPsl (s : State) (w : Word) : (s.setPsl w).pcbb = s.pcbb := rfl
@[simp] theorem scbb_setPsl (s : State) (w : Word) : (s.setPsl w).scbb = s.scbb := rfl
@[simp] theorem astlvl_setPsl (s : State) (w : Word) : (s.setPsl w).astlvl = s.astlvl := rfl
@[simp] theorem iccs_setPsl (s : State) (w : Word) : (s.setPsl w).iccs = s.iccs := rfl
@[simp] theorem todr_setPsl (s : State) (w : Word) : (s.setPsl w).todr = s.todr := rfl
@[simp] theorem mapen_setPsl (s : State) (w : Word) : (s.setPsl w).mapen = s.mapen := rfl
@[simp] theorem mem_setPsl (s : State) (w : Word) : (s.setPsl w).mem = s.mem := rfl
@[simp] theorem halted_setPsl (s : State) (w : Word) : (s.setPsl w).halted = s.halted := rfl
@[simp] theorem written_setPsl (s : State) (w : Word) : (s.setPsl w).written = s.written := rfl
@[simp] theorem cfg_setPsl (s : State) (w : Word) : (s.setPsl w).cfg = s.cfg := rfl
@[simp] theorem irqs_setPsl (s : State) (w : Word) : (s.setPsl w).irqs = s.irqs := rfl

@[simp] theorem psl_setPsl (s : State) (w : Word) : (s.setPsl w).psl = w := rfl

@[simp] theorem reg_setFlags (s : State) (f : Flags) : (s.setFlags f).reg = s.reg := rfl
@[simp] theorem spbank_setFlags (s : State) (f : Flags) : (s.setFlags f).spbank = s.spbank := rfl
@[simp] theorem p0br_setFlags (s : State) (f : Flags) : (s.setFlags f).p0br = s.p0br := rfl
@[simp] theorem p0lr_setFlags (s : State) (f : Flags) : (s.setFlags f).p0lr = s.p0lr := rfl
@[simp] theorem p1br_setFlags (s : State) (f : Flags) : (s.setFlags f).p1br = s.p1br := rfl
@[simp] theorem p1lr_setFlags (s : State) (f : Flags) : (s.setFlags f).p1lr = s.p1lr := rfl
@[simp] theorem sbr_setFlags (s : State) (f : Flags) : (s.setFlags f).sbr = s.sbr := rfl
@[simp] theorem slr_setFlags (s : State) (f : Flags) : (s.setFlags f).slr = s.slr := rfl
@[simp] theorem pcbb_setFlags (s : State) (f : Flags) : (s.setFlags f).pcbb = s.pcbb := rfl
@[simp] theorem scbb_setFlags (s : State) (f : Flags) : (s.setFlags f).scbb = s.scbb := rfl
@[simp] theorem astlvl_setFlags (s : State) (f : Flags) : (s.setFlags f).astlvl = s.astlvl := rfl
@[simp] theorem iccs_setFlags (s : State) (f : Flags) : (s.setFlags f).iccs = s.iccs := rfl
@[simp] theorem todr_setFlags (s : State) (f : Flags) : (s.setFlags f).todr = s.todr := rfl
@[simp] theorem mapen_setFlags (s : State) (f : Flags) : (s.setFlags f).mapen = s.mapen := rfl
@[simp] theorem mem_setFlags (s : State) (f : Flags) : (s.setFlags f).mem = s.mem := rfl
@[simp] theorem halted_setFlags (s : State) (f : Flags) : (s.setFlags f).halted = s.halted := rfl
@[simp] theorem written_setFlags (s : State) (f : Flags) : (s.setFlags f).written = s.written := rfl
@[simp] theorem cfg_setFlags (s : State) (f : Flags) : (s.setFlags f).cfg = s.cfg := rfl
@[simp] theorem irqs_setFlags (s : State) (f : Flags) : (s.setFlags f).irqs = s.irqs := rfl

@[simp] theorem psl_setFlags (s : State) (f : Flags) : (s.setFlags f).psl = pslWithFlags f s.psl := rfl

@[simp] theorem reg_setBanked (s : State) (b : Slot) (v : Word) : (s.setBanked b v).reg = s.reg := rfl
@[simp] theorem psl_setBanked (s : State) (b : Slot) (v : Word) : (s.setBanked b v).psl = s.psl := rfl
@[simp] theorem p0br_setBanked (s : State) (b : Slot) (v : Word) : (s.setBanked b v).p0br = s.p0br := rfl
@[simp] theorem p0lr_setBanked (s : State) (b : Slot) (v : Word) : (s.setBanked b v).p0lr = s.p0lr := rfl
@[simp] theorem p1br_setBanked (s : State) (b : Slot) (v : Word) : (s.setBanked b v).p1br = s.p1br := rfl
@[simp] theorem p1lr_setBanked (s : State) (b : Slot) (v : Word) : (s.setBanked b v).p1lr = s.p1lr := rfl
@[simp] theorem sbr_setBanked (s : State) (b : Slot) (v : Word) : (s.setBanked b v).sbr = s.sbr := rfl
@[simp] theorem slr_setBanked (s : State) (b : Slot) (v : Word) : (s.setBanked b v).slr = s.slr := rfl
@[simp] theorem pcbb_setBanked (s : State) (b : Slot) (v : Word) : (s.setBanked b v).pcbb = s.pcbb := rfl
@[simp] theorem scbb_setBanked (s : State) (b : Slot) (v : Word) : (s.setBanked b v).scbb = s.scbb := rfl
@[simp] theorem astlvl_setBanked (s : State) (b : Slot) (v : Word) : (s.setBanked b v).astlvl = s.astlvl := rfl
@[simp] theorem iccs_setBanked (s : State) (b : Slot) (v : Word) : (s.setBanked b v).iccs = s.iccs := rfl
@[simp] theorem todr_setBanked (s : State) (b : Slot) (v : Word) : (s.setBanked b v).todr = s.todr := rfl
@[simp] theorem mapen_setBanked (s : State) (b : Slot) (v : Word) : (s.setBanked b v).mapen = s.mapen := rfl
@[simp] theorem mem_setBanked (s : State) (b : Slot) (v : Word) : (s.setBanked b v).mem = s.mem := rfl
@[simp] theorem halted_setBanked (s : State) (b : Slot) (v : Word) : (s.setBanked b v).halted = s.halted := rfl
@[simp] theorem written_setBanked (s : State) (b : Slot) (v : Word) : (s.setBanked b v).written = s.written := rfl
@[simp] theorem cfg_setBanked (s : State) (b : Slot) (v : Word) : (s.setBanked b v).cfg = s.cfg := rfl
@[simp] theorem irqs_setBanked (s : State) (b : Slot) (v : Word) : (s.setBanked b v).irqs = s.irqs := rfl

@[simp] theorem reg_storeByte (s : State) (a : Word) (v : Byte) : (s.storeByte a v).reg = s.reg := rfl
@[simp] theorem psl_storeByte (s : State) (a : Word) (v : Byte) : (s.storeByte a v).psl = s.psl := rfl
@[simp] theorem spbank_storeByte (s : State) (a : Word) (v : Byte) : (s.storeByte a v).spbank = s.spbank := rfl
@[simp] theorem p0br_storeByte (s : State) (a : Word) (v : Byte) : (s.storeByte a v).p0br = s.p0br := rfl
@[simp] theorem p0lr_storeByte (s : State) (a : Word) (v : Byte) : (s.storeByte a v).p0lr = s.p0lr := rfl
@[simp] theorem p1br_storeByte (s : State) (a : Word) (v : Byte) : (s.storeByte a v).p1br = s.p1br := rfl
@[simp] theorem p1lr_storeByte (s : State) (a : Word) (v : Byte) : (s.storeByte a v).p1lr = s.p1lr := rfl
@[simp] theorem sbr_storeByte (s : State) (a : Word) (v : Byte) : (s.storeByte a v).sbr = s.sbr := rfl
@[simp] theorem slr_storeByte (s : State) (a : Word) (v : Byte) : (s.storeByte a v).slr = s.slr := rfl
@[simp] theorem pcbb_storeByte (s : State) (a : Word) (v : Byte) : (s.storeByte a v).pcbb = s.pcbb := rfl
@[simp] theorem scbb_storeByte (s : State) (a : Word) (v : Byte) : (s.storeByte a v).scbb = s.scbb := rfl
@[simp] theorem astlvl_storeByte (s : State) (a : Word) (v : Byte) : (s.storeByte a v).astlvl = s.astlvl := rfl
@[simp] theorem iccs_storeByte (s : State) (a : Word) (v : Byte) : (s.storeByte a v).iccs = s.iccs := rfl
@[simp] theorem todr_storeByte (s : State) (a : Word) (v : Byte) : (s.storeByte a v).todr = s.todr := rfl
@[simp] theorem mapen_storeByte (s : State) (a : Word) (v : Byte) : (s.storeByte a v).mapen = s.mapen := rfl
@[simp] theorem halted_storeByte (s : State) (a : Word) (v : Byte) : (s.storeByte a v).halted = s.halted := rfl
@[simp] theorem cfg_storeByte (s : State) (a : Word) (v : Byte) : (s.storeByte a v).cfg = s.cfg := rfl
@[simp] theorem irqs_storeByte (s : State) (a : Word) (v : Byte) : (s.storeByte a v).irqs = s.irqs := rfl

@[simp] theorem mem_storeByte (s : State) (a : Word) (v : Byte) :
    (s.storeByte a v).mem = memSet s.mem a.toNat v := rfl

@[simp] theorem r_setPsl (s : State) (w : Word) (n : Reg) : (s.setPsl w).r n = s.r n := rfl
@[simp] theorem r_setFlags (s : State) (f : Flags) (n : Reg) : (s.setFlags f).r n = s.r n := rfl
@[simp] theorem r_setBanked (s : State) (b : Slot) (v : Word) (n : Reg) : (s.setBanked b v).r n = s.r n := rfl
@[simp] theorem r_storeByte (s : State) (a : Word) (v : Byte) (n : Reg) : (s.storeByte a v).r n = s.r n := rfl

@[simp] theorem byteAt_setR (s : State) (n : Reg) (v : Word) (x : Word) : (s.setR n v).byteAt x = s.byteAt x := rfl
@[simp] theorem byteAt_setPsl (s : State) (w : Word) (x : Word) : (s.setPsl w).byteAt x = s.byteAt x := rfl
@[simp] theorem byteAt_setFlags (s : State) (f : Flags) (x : Word) : (s.setFlags f).byteAt x = s.byteAt x := rfl
@[simp] theorem byteAt_setBanked (s : State) (b : Slot) (v : Word) (x : Word) : (s.setBanked b v).byteAt x = s.byteAt x := rfl

/-- Two updates of one register: the later one stays. -/
@[simp] theorem setR_setR_same (s : State) (n : Reg) (v w : Word) :
    (s.setR n v).setR n w = s.setR n w := by
  simp [State.setR]

/-- Two states with the same sixteen registers have the same register file. -/
theorem reg_ext {s t : State} (h : ∀ n, s.r n = t.r n) : s.reg = t.reg := by
  apply Vector.ext
  intro i hi
  exact h ⟨i, hi⟩

/-- Writing what a register holds changes nothing. -/
@[simp] theorem setR_r (s : State) (n : Reg) : s.setR n (s.r n) = s := by
  have h : (s.setR n (s.r n)).reg = s.reg := reg_ext fun m => by
    by_cases e : n = m <;> simp [e]
  cases s
  simp only [State.setR] at h ⊢
  simp [h]

/-- The bank slot written. -/
@[simp] theorem banked_setBanked_same (s : State) (b : Slot) (v : Word) :
    (s.setBanked b v).banked b = v := by cases b <;> rfl

/-- The other bank slots are kept. -/
theorem banked_setBanked_other (s : State) {b c : Slot} (v : Word) (h : b ≠ c) :
    (s.setBanked b v).banked c = s.banked c := by
  cases b <;> cases c <;> first | rfl | exact absurd rfl h

@[simp] theorem banked_setR (s : State) (n : Reg) (v : Word) (b : Slot) :
    (s.setR n v).banked b = s.banked b := rfl

@[simp] theorem banked_setPsl (s : State) (w : Word) (b : Slot) :
    (s.setPsl w).banked b = s.banked b := rfl

@[simp] theorem banked_setFlags (s : State) (f : Flags) (b : Slot) :
    (s.setFlags f).banked b = s.banked b := rfl

end Sys2Proof.Machine
end

