-- ==== Sys2Proof/Laws/Memory.lean ====
section
/-!
SUPPORT. The memory's laws: what a listed byte reads as after a write, that every operation keeps the
canonical form, and the same for the set of stored addresses.
-/

namespace Sys2Proof.Machine

/-- Reading after a write: the byte written at its address, the old byte elsewhere. -/
theorem memGet_memSet (m : Memory) (x y : Nat) (v : Byte) :
    memGet (memSet m x v) y = if y = x then some v else memGet m y := by
  induction m with
  | nil => simp [memSet, memGet]
  | cons c m ih =>
    simp only [memSet]
    split
    · simp [memGet]
    · split
      · rename_i _ h
        by_cases hy : y = c.1 <;> simp [memGet, hy, h]
      · rename_i _ h
        by_cases hy : y = c.1
        · simp [memGet, hy, Ne.symm h]
        · simp [memGet, hy, ih]

/-- The addresses of a memory after a write. -/
theorem mem_memSet {m : Memory} {x : Nat} {v : Byte} {c : Host.Cell} (h : c ∈ memSet m x v) :
    c = (x, v) ∨ c ∈ m := by
  induction m with
  | nil => simpa [memSet] using h
  | cons d m ih =>
    simp only [memSet] at h
    split at h
    · simpa using h
    · split at h
      · rcases List.mem_cons.1 h with h | h
        · exact .inl h
        · exact .inr (List.mem_cons_of_mem _ h)
      · rcases List.mem_cons.1 h with h | h
        · exact .inr (h ▸ List.mem_cons_self)
        · rcases ih h with h | h
          · exact .inl h
          · exact .inr (List.mem_cons_of_mem _ h)

/-- The canonical form as a proposition. -/
theorem memWf_iff (m : Memory) :
    memWf m = true ↔ m.Pairwise (fun c d => c.1 < d.1) ∧ ∀ c ∈ m, c.1 < 2 ^ 32 := by
  simp [memWf]

/-- A write at an address below 2^32 keeps the canonical form. -/
theorem memSet_wf {m : Memory} (h : memWf m = true) {x : Nat} (hx : x < 2 ^ 32) (v : Byte) :
    memWf (memSet m x v) = true := by
  rw [memWf_iff] at h ⊢
  obtain ⟨hp, hb⟩ := h
  refine ⟨?_, fun c hc => ?_⟩
  · clear hb
    induction m with
    | nil => simp [memSet]
    | cons d m ih =>
      rw [List.pairwise_cons] at hp
      simp only [memSet]
      split
      · rename_i hlt
        refine List.pairwise_cons.2 ⟨fun e he => ?_, List.pairwise_cons.2 hp⟩
        rcases List.mem_cons.1 he with rfl | he
        · exact hlt
        · exact Nat.lt_trans hlt (hp.1 e he)
      · split
        · rename_i _ heq
          exact List.pairwise_cons.2 ⟨fun e he => heq ▸ hp.1 e he, hp.2⟩
        · rename_i hlt heq
          refine List.pairwise_cons.2 ⟨fun e he => ?_, ih hp.2⟩
          rcases mem_memSet he with rfl | he
          · exact Nat.lt_of_le_of_ne (Nat.le_of_not_lt hlt) (Ne.symm heq)
          · exact hp.1 e he
  · rcases mem_memSet hc with rfl | hc
    · exact hx
    · exact hb c hc

/-- The memory after reset is in canonical form. -/
theorem reset_memWf : memWf State.reset.mem = true := by decide

/-- Loading bytes keeps the canonical form. -/
theorem memLoad_wf {m : Memory} (h : memWf m = true) (a : Word) (vs : List Byte) :
    memWf (memLoad m a vs) = true := by
  induction vs generalizing m a with
  | nil => exact h
  | cons v vs ih => exact ih (memSet_wf h a.isLt v) _

/-- What a set of addresses holds after an insertion. -/
theorem mem_addrInsert {x y : Nat} {l : List Nat} : y ∈ addrInsert x l ↔ y = x ∨ y ∈ l := by
  induction l with
  | nil => simp [addrInsert]
  | cons z l ih =>
    simp only [addrInsert]
    split
    · simp
    · split
      · rename_i _ h
        subst h
        simp
      · simp only [List.mem_cons, ih]
        tauto

/-- The canonical form of a set of addresses as a proposition. -/
theorem addrsWf_iff (l : List Nat) :
    addrsWf l = true ↔ l.Pairwise (· < ·) ∧ ∀ x ∈ l, x < 2 ^ 32 := by
  simp [addrsWf]

/-- An insertion of an address below 2^32 keeps the canonical form. -/
theorem addrInsert_wf {l : List Nat} (h : addrsWf l = true) {x : Nat} (hx : x < 2 ^ 32) :
    addrsWf (addrInsert x l) = true := by
  rw [addrsWf_iff] at h ⊢
  obtain ⟨hp, hb⟩ := h
  refine ⟨?_, fun y hy => ?_⟩
  · clear hb
    induction l with
    | nil => simp [addrInsert]
    | cons z l ih =>
      rw [List.pairwise_cons] at hp
      simp only [addrInsert]
      split
      · rename_i hlt
        refine List.pairwise_cons.2 ⟨fun y hy => ?_, List.pairwise_cons.2 hp⟩
        rcases List.mem_cons.1 hy with rfl | hy
        · exact hlt
        · exact Nat.lt_trans hlt (hp.1 y hy)
      · split
        · exact List.pairwise_cons.2 hp
        · rename_i hlt heq
          refine List.pairwise_cons.2 ⟨fun y hy => ?_, ih hp.2⟩
          rcases mem_addrInsert.1 hy with rfl | hy
          · exact Nat.lt_of_le_of_ne (Nat.le_of_not_lt hlt) (Ne.symm heq)
          · exact hp.1 y hy
  · rcases mem_addrInsert.1 hy with rfl | hy
    · exact hx
    · exact hb y hy

/-- Reading a byte after one is stored. -/
@[simp] theorem byteAt_storeByte (s : State) (a x : Word) (v : Byte) :
    (s.storeByte a v).byteAt x = if x = a then v else s.byteAt x := by
  simp only [State.byteAt, mem_storeByte, memGet_memSet, BitVec.toNat_inj]
  split <;> simp

/-- Storing bytes changes memory and the record of stored addresses, nothing else. -/
theorem storeBytes_rest (s : State) (a : Word) (vs : List Byte) :
    s.storeBytes a vs
      = { s with mem := (s.storeBytes a vs).mem, written := (s.storeBytes a vs).written } := by
  induction vs generalizing s a with
  | nil => rfl
  | cons v vs ih =>
    simp only [State.storeBytes]
    rw [ih]
    rfl

@[simp] theorem r_storeBytes (s : State) (a : Word) (vs : List Byte) (n : Reg) :
    (s.storeBytes a vs).r n = s.r n := by rw [storeBytes_rest]; rfl
@[simp] theorem psl_storeBytes (s : State) (a : Word) (vs : List Byte) :
    (s.storeBytes a vs).psl = s.psl := by rw [storeBytes_rest]
@[simp] theorem cfg_storeBytes (s : State) (a : Word) (vs : List Byte) :
    (s.storeBytes a vs).cfg = s.cfg := by rw [storeBytes_rest]

/-- A byte that no stored address is reads as before. -/
theorem byteAt_storeBytes_other (s : State) (a : Word) (vs : List Byte) (x : Word)
    (h : ∀ i < vs.length, x ≠ a.plus i) : (s.storeBytes a vs).byteAt x = s.byteAt x := by
  induction vs generalizing s a with
  | nil => rfl
  | cons v vs ih =>
    simp only [State.storeBytes]
    rw [ih]
    · rw [byteAt_storeByte, if_neg]
      simpa [Word.plus] using h 0 (by simp)
    · intro i hi
      have := h (i + 1) (by simpa using hi)
      simpa [Word.plus, BitVec.ofNat_add, BitVec.add_assoc, BitVec.add_comm 1#32] using this

/-- The memory and the record stay canonical when bytes are stored. -/
theorem storeBytes_wf (s : State) (a : Word) (vs : List Byte) (hm : memWf s.mem = true)
    (hw : addrsWf s.written = true) :
    memWf (s.storeBytes a vs).mem = true ∧ addrsWf (s.storeBytes a vs).written = true := by
  induction vs generalizing s a with
  | nil => exact ⟨hm, hw⟩
  | cons v vs ih =>
    refine ih _ _ (memSet_wf hm a.isLt v) ?_
    simp only [State.storeByte]
    split
    · exact addrInsert_wf hw a.isLt
    · exact hw

end Sys2Proof.Machine
end

