-- ==== Sys2Proof/Laws/Psl.lean ====
section
/-!
SUPPORT. What each named update of the PSL leaves in each of its fields (10_state.md R27).
-/

namespace Sys2Proof.Machine

/-- One bit of a word with a field replaced. -/
theorem getLsbD_setField (lo len : Nat) (v : BitVec len) (w : Word) (i : Nat) :
    (setField lo len v w).getLsbD i
      = if lo ≤ i ∧ i < lo + len then (decide (i < 32) && v.getLsbD (i - lo)) else w.getLsbD i := by
  by_cases h32 : i < 32
  · by_cases h1 : lo ≤ i
    · by_cases h2 : i < lo + len
      · have h3 : i - lo < len := by omega
        have h4 : i - lo < 32 := by omega
        simp [setField, h32, h1, h2, h3, Nat.not_lt.2 h1]
      · have h3 : ¬ i - lo < len := by omega
        have h4 : i - lo < 32 := by omega
        simp [setField, h32, h1, h2, h3, BitVec.getLsbD_of_ge v (i - lo) (by omega)]
    · simp [setField, h32, h1, Nat.lt_of_not_le h1]
  · have := BitVec.getLsbD_of_ge w i (by omega)
    have h5 := BitVec.getLsbD_of_ge (setField lo len v w) i (by omega)
    simp [this, h5, h32]

/-- One bit of a word with one bit replaced. -/
theorem getLsbD_setBit (j : Nat) (b : Bool) (w : Word) (i : Nat) :
    (setBit j b w).getLsbD i = if i = j then (decide (i < 32) && b) else w.getLsbD i := by
  rw [setBit, getLsbD_setField]
  by_cases h : i = j
  · subst h; simp
  · rw [if_neg (by omega), if_neg h]

/-- Two words are equal when their 32 bits are. -/
theorem word_ext {v w : Word} (h : ∀ i < 32, v.getLsbD i = w.getLsbD i) : v = w :=
  BitVec.eq_of_getLsbD_eq h

/-- One bit of a PSL with its condition codes replaced. -/
theorem getLsbD_pslWithFlags (f : Flags) (w : Word) (i : Nat) :
    (pslWithFlags f w).getLsbD i
      = if i = 3 then f.n else if i = 2 then f.z else if i = 1 then f.v
        else if i = 0 then f.c else w.getLsbD i := by
  simp only [pslWithFlags, getLsbD_setBit]
  repeat' split
  all_goals simp_all

@[simp] theorem pslC_withFlags (f : Flags) (w : Word) : pslC (pslWithFlags f w) = f.c := by
  rw [pslC, getLsbD_pslWithFlags]; rfl
@[simp] theorem pslV_withFlags (f : Flags) (w : Word) : pslV (pslWithFlags f w) = f.v := by
  rw [pslV, getLsbD_pslWithFlags]; rfl
@[simp] theorem pslZ_withFlags (f : Flags) (w : Word) : pslZ (pslWithFlags f w) = f.z := by
  rw [pslZ, getLsbD_pslWithFlags]; rfl
@[simp] theorem pslN_withFlags (f : Flags) (w : Word) : pslN (pslWithFlags f w) = f.n := by
  rw [pslN, getLsbD_pslWithFlags]; rfl
@[simp] theorem pslT_withFlags (f : Flags) (w : Word) : pslT (pslWithFlags f w) = pslT w := by
  rw [pslT, getLsbD_pslWithFlags]; rfl
@[simp] theorem pslIV_withFlags (f : Flags) (w : Word) : pslIV (pslWithFlags f w) = pslIV w := by
  rw [pslIV, getLsbD_pslWithFlags]; rfl
@[simp] theorem pslIS_withFlags (f : Flags) (w : Word) : pslIS (pslWithFlags f w) = pslIS w := by
  rw [pslIS, getLsbD_pslWithFlags]; rfl
@[simp] theorem pslFPD_withFlags (f : Flags) (w : Word) : pslFPD (pslWithFlags f w) = pslFPD w := by
  rw [pslFPD, getLsbD_pslWithFlags]; rfl
@[simp] theorem pslTP_withFlags (f : Flags) (w : Word) : pslTP (pslWithFlags f w) = pslTP w := by
  rw [pslTP, getLsbD_pslWithFlags]; rfl
@[simp] theorem pslCM_withFlags (f : Flags) (w : Word) : pslCM (pslWithFlags f w) = pslCM w := by
  rw [pslCM, getLsbD_pslWithFlags]; rfl

/-- A field above the condition codes is kept when they are replaced. -/
theorem extract_withFlags (f : Flags) (w : Word) (lo len : Nat) (h : 4 ≤ lo) :
    (pslWithFlags f w).extractLsb' lo len = w.extractLsb' lo len := by
  apply BitVec.eq_of_getLsbD_eq
  intro i hi
  simp only [BitVec.getLsbD_extractLsb', getLsbD_pslWithFlags]
  rw [if_neg (by omega), if_neg (by omega), if_neg (by omega), if_neg (by omega)]

@[simp] theorem pslIPL_withFlags (f : Flags) (w : Word) : pslIPL (pslWithFlags f w) = pslIPL w :=
  extract_withFlags f w 16 5 (by omega)
@[simp] theorem pslPRV_withFlags (f : Flags) (w : Word) : pslPRV (pslWithFlags f w) = pslPRV w :=
  extract_withFlags f w 22 2 (by omega)
@[simp] theorem pslCUR_withFlags (f : Flags) (w : Word) : pslCUR (pslWithFlags f w) = pslCUR w :=
  extract_withFlags f w 24 2 (by omega)

/-- The condition codes of a PSL that has just got them. -/
@[simp] theorem pslFlags_withFlags (f : Flags) (w : Word) : pslFlags (pslWithFlags f w) = f := by
  simp [pslFlags]

/-- The bits above the condition codes are kept when they are replaced. -/
theorem withFlags_and_mask (f : Flags) (w : Word) :
    pslWithFlags f w &&& 0xFFFFFFF0 = w &&& 0xFFFFFFF0 := by
  apply word_ext
  intro i hi
  simp only [BitVec.getLsbD_and, getLsbD_pslWithFlags]
  interval_cases i <;> simp

/-- Giving a PSL the condition codes it has changes nothing. -/
@[simp] theorem withFlags_pslFlags (w : Word) : pslWithFlags (pslFlags w) w = w := by
  apply word_ext
  intro i hi
  simp only [getLsbD_pslWithFlags, pslFlags, pslN, pslZ, pslV, pslC]
  repeat' split
  all_goals simp_all

end Sys2Proof.Machine
end

