-- ==== Sys2Proof/Laws/Ops.lean ====
section
/-!
SUPPORT. For each shared operation, once, everything it can do: what it answers and when. Proofs about
instructions cite these and do not unfold the operations.
-/

namespace Sys2Proof.Machine

/-! ## Sequencing -/

/-- A sequence answers a value when both of its parts do. -/
theorem bind_ok_iff {ε α β : Type} {x : Except ε α} {f : α → Except ε β} {r : β} :
    (x >>= f) = .ok r ↔ ∃ a, x = .ok a ∧ f a = .ok r := by
  cases x <;> simp [bind, Except.bind]

/-- A sequence stops when its first part does, or its second part after it. -/
theorem bind_error_iff {ε α β : Type} {x : Except ε α} {f : α → Except ε β} {e : ε} :
    (x >>= f) = .error e ↔ x = .error e ∨ ∃ a, x = .ok a ∧ f a = .error e := by
  cases x <;> simp [bind, Except.bind]

/-- A sequence whose first part answers goes on with it. -/
theorem bind_of_ok {ε α β : Type} {x : Except ε α} {a : α} (h : x = .ok a) (f : α → Except ε β) :
    (x >>= f) = f a := by rw [h]; rfl

/-- A sequence whose first part stops, stops. -/
theorem bind_of_error {ε α β : Type} {x : Except ε α} {e : ε} (h : x = .error e)
    (f : α → Except ε β) : (x >>= f) = .error e := by rw [h]; rfl

/-! ## Addresses -/

/-- Two steps upward are one. -/
theorem plus_plus (a : Word) (i j : Nat) : (a.plus i).plus j = a.plus (i + j) := by
  simp [Word.plus, BitVec.ofNat_add, BitVec.add_assoc]

@[simp] theorem plus_zero (a : Word) : a.plus 0 = a := by simp [Word.plus]

/-- Below 2^32 bytes no two offsets give the same address. -/
theorem plus_inj (a : Word) {i j : Nat} (hi : i < 2 ^ 32) (hj : j < 2 ^ 32)
    (h : a.plus i = a.plus j) : i = j := by
  have h2 : BitVec.ofNat 32 i = BitVec.ofNat 32 j := by simpa [Word.plus] using h
  have h3 := congrArg BitVec.toNat h2
  rwa [BitVec.toNat_ofNat, BitVec.toNat_ofNat, Nat.mod_eq_of_lt hi, Nat.mod_eq_of_lt hj] at h3

/-! ## Bytes -/

@[simp] theorem length_leBytes (k v : Nat) : (leBytes k v).length = k := by
  induction k generalizing v with
  | zero => rfl
  | succ k ih => simp [leBytes, ih]

@[simp] theorem length_bytesAt (s : State) (a : Word) (k : Nat) : (s.bytesAt a k).length = k := by
  induction k generalizing a with
  | zero => rfl
  | succ k ih => simp [State.bytesAt, ih]

/-- The value of the low `k` bytes of a number. -/
theorem leValue_leBytes (k v : Nat) : leValue (leBytes k v) = v % 256 ^ k := by
  induction k generalizing v with
  | zero => simp [leBytes, leValue, Nat.mod_one]
  | succ k ih =>
    simp only [leBytes, leValue, ih, BitVec.toNat_ofNat]
    rw [show 256 ^ (k + 1) = 256 * 256 ^ k by ring, Nat.mod_mul]

/-- A list of bytes is below the power of 256 of its length. -/
theorem leValue_lt (bs : List Byte) : leValue bs < 256 ^ bs.length := by
  induction bs with
  | nil => simp [leValue]
  | cons b bs ih =>
    simp only [leValue, List.length_cons]
    have := b.isLt
    rw [show 256 ^ (bs.length + 1) = 256 * 256 ^ bs.length by ring]
    omega

/-- The bytes of the value of a list of bytes are the list. -/
theorem leBytes_leValue (bs : List Byte) : leBytes bs.length (leValue bs) = bs := by
  induction bs with
  | nil => rfl
  | cons b bs ih =>
    have := b.isLt
    simp only [List.length_cons, leBytes, leValue]
    rw [show (b.toNat + 256 * leValue bs) / 256 = leValue bs by omega, ih]
    congr 1
    apply BitVec.eq_of_toNat_eq
    rw [BitVec.toNat_ofNat]
    omega

/-- The `i`-th byte of a number. -/
theorem getElem?_leBytes (k v i : Nat) (h : i < k) :
    (leBytes k v)[i]? = some (BitVec.ofNat 8 (v / 256 ^ i)) := by
  induction k generalizing v i with
  | zero => omega
  | succ k ih =>
    cases i with
    | zero => simp [leBytes]
    | succ i =>
      simp only [leBytes, List.getElem?_cons_succ]
      rw [ih (v / 256) i (by omega), Nat.div_div_eq_div_mul, show 256 * 256 ^ i = 256 ^ (i + 1) by ring]

/-- The `i`-th of a run of bytes. -/
theorem getElem?_bytesAt (s : State) (a : Word) (k i : Nat) (h : i < k) :
    (s.bytesAt a k)[i]? = some (s.byteAt (a.plus i)) := by
  induction k generalizing a i with
  | zero => omega
  | succ k ih =>
    cases i with
    | zero => simp [State.bytesAt]
    | succ i =>
      simp only [State.bytesAt, List.getElem?_cons_succ]
      rw [ih _ i (by omega), plus_plus, Nat.add_comm 1 i]

/-- Two runs of bytes are equal when they read the same. -/
theorem bytesAt_congr {s t : State} {a b : Word} {k : Nat}
    (h : ∀ i < k, s.byteAt (a.plus i) = t.byteAt (b.plus i)) : s.bytesAt a k = t.bytesAt b k := by
  induction k generalizing a b with
  | zero => rfl
  | succ k ih =>
    simp only [State.bytesAt]
    rw [ih (a := a.plus 1) (b := b.plus 1) fun i hi => by
      rw [plus_plus, plus_plus, Nat.add_comm 1 i]; exact h (i + 1) (by omega)]
    have := h 0 (by omega)
    simp only [plus_zero] at this
    rw [this]

/-- A run of bytes cut in two. -/
theorem bytesAt_append (s : State) (a : Word) (j k : Nat) :
    s.bytesAt a (j + k) = s.bytesAt a j ++ s.bytesAt (a.plus j) k := by
  induction j generalizing a with
  | zero => simp [State.bytesAt]
  | succ j ih =>
    rw [show j + 1 + k = (j + k) + 1 by omega]
    simp only [State.bytesAt, List.cons_append]
    rw [ih, plus_plus, Nat.add_comm 1 j]

/-- Bytes stored read back. -/
theorem bytesAt_storeBytes (s : State) (a : Word) (vs : List Byte) (h : vs.length ≤ 2 ^ 32) :
    (s.storeBytes a vs).bytesAt a vs.length = vs := by
  induction vs generalizing s a with
  | nil => rfl
  | cons v vs ih =>
    simp only [List.length_cons] at h
    simp only [List.length_cons, State.bytesAt, State.storeBytes]
    rw [ih _ _ (by omega), byteAt_storeBytes_other]
    · simp
    · intro i hi he
      rw [plus_plus] at he
      have := plus_inj a (i := 0) (j := 1 + i) (by omega) (by omega) (by simpa using he)
      omega

/-- The `i`-th byte stored reads back. -/
theorem byteAt_storeBytes (s : State) (a : Word) (vs : List Byte) (h : vs.length ≤ 2 ^ 32) {i : Nat}
    (hi : i < vs.length) : (s.storeBytes a vs).byteAt (a.plus i) = vs[i] := by
  have h1 := getElem?_bytesAt (s.storeBytes a vs) a vs.length i hi
  rw [bytesAt_storeBytes s a vs h, List.getElem?_eq_getElem hi] at h1
  simpa using h1.symm

/-- The addresses recorded after bytes are stored. -/
theorem mem_written_storeBytes (s : State) (a : Word) (vs : List Byte) (x : Nat) :
    x ∈ (s.storeBytes a vs).written ↔
      x ∈ s.written ∨ (s.cfg.smc = .refuse ∧ ∃ i < vs.length, x = (a.plus i).toNat) := by
  induction vs generalizing s a with
  | nil => simp [State.storeBytes]
  | cons v vs ih =>
    have hw : x ∈ (s.storeByte a v).written ↔
        x ∈ s.written ∨ (s.cfg.smc = .refuse ∧ x = a.toNat) := by
      simp only [State.storeByte]
      split
      · rename_i h; rw [mem_addrInsert]; simp [h, or_comm]
      · rename_i h; simp [h]
    simp only [State.storeBytes, List.length_cons]
    rw [ih, hw]
    simp only [cfg_storeByte, plus_plus]
    constructor
    · rintro ((h | ⟨h, rfl⟩) | ⟨h, i, hi, rfl⟩)
      · exact .inl h
      · exact .inr ⟨h, 0, by omega, by simp⟩
      · exact .inr ⟨h, 1 + i, by omega, rfl⟩
    · rintro (h | ⟨h, i, hi, rfl⟩)
      · exact .inl (.inl h)
      · cases i with
        | zero => exact .inl (.inr ⟨h, by simp⟩)
        | succ i => exact .inr ⟨h, i, by omega, by rw [Nat.add_comm]⟩

/-! ## The record of stored bytes -/

/-- Where the record is the same, nothing was stored. -/
theorem recorded_nil {s t : State} (h : t.written = s.written) : Recorded s t [] :=
  ⟨fun x => by simp [h], fun _ => h⟩

/-- Bytes stored are recorded at their addresses. -/
theorem recorded_storeBytes (s : State) (a : Word) (vs : List Byte) :
    Recorded s (s.storeBytes a vs) ((List.range vs.length).map a.plus) := by
  constructor
  · intro x
    rw [mem_written_storeBytes]
    simp [and_comm, eq_comm]
  · rintro (h | h)
    · simp only [List.map_eq_nil_iff, List.range_eq_nil, List.length_eq_zero_iff] at h
      subst h
      rfl
    · induction vs generalizing s a with
      | nil => rfl
      | cons v vs ih =>
        rw [State.storeBytes, ih _ _ (by simpa using h)]
        simp [State.storeByte, h]

/-- Two runs of stores make one. -/
theorem Recorded.trans {s u t : State} {as bs : List Word} (h : Recorded s u as)
    (hc : u.cfg = s.cfg) (h2 : Recorded u t bs) : Recorded s t (as ++ bs) := by
  constructor
  · intro x
    rw [h2.mem, h.mem, hc]
    constructor
    · rintro ((h | ⟨h, a, ha, rfl⟩) | ⟨h, a, ha, rfl⟩)
      · exact .inl h
      · exact .inr ⟨h, a, List.mem_append_left _ ha, rfl⟩
      · exact .inr ⟨h, a, List.mem_append_right _ ha, rfl⟩
    · rintro (h | ⟨h, a, ha, rfl⟩)
      · exact .inl (.inl h)
      · rcases List.mem_append.1 ha with ha | ha
        · exact .inl (.inr ⟨h, a, ha, rfl⟩)
        · exact .inr ⟨h, a, ha, rfl⟩
  · intro h3
    rw [List.append_eq_nil_iff] at h3
    rw [h2.kept (h3.imp And.right (hc ▸ ·)), h.kept (h3.imp And.left id)]

/-- Only which addresses are in the list matters. -/
theorem Recorded.congr {s t : State} {as bs : List Word} (h : Recorded s t as)
    (he : ∀ a, a ∈ bs ↔ a ∈ as) : Recorded s t bs := by
  constructor
  · intro x
    rw [h.mem]
    simp only [he]
  · intro h2
    refine h.kept (h2.imp_left fun hn => List.eq_nil_iff_forall_not_mem.2 fun a ha => ?_)
    rw [← he, hn] at ha
    simp at ha

/-- The record depends on the start through its record and its configuration alone. -/
theorem Recorded.of_eq {s s' t : State} {as : List Word} (h : Recorded s t as)
    (hw : s'.written = s.written) (hc : s'.cfg = s.cfg) : Recorded s' t as :=
  ⟨fun x => by rw [h.mem, hw, hc], fun h2 => by rw [hw]; exact h.kept (hc ▸ h2)⟩

/-! ## Access to memory -/

/-- The validity check passes exactly when memory exists at every address. -/
theorem checkValid_ok_iff {c : Config} {a : Word} {k : Nat} :
    checkValid c a k = .ok () ↔ ∀ i < k, Config.valid c (a.plus i) = true := by
  induction k generalizing a with
  | zero => simp [checkValid]
  | succ k ih =>
    simp only [checkValid]
    split
    · rename_i h
      rw [ih]
      constructor
      · rintro h2 (_ | i) hi
        · simpa using h
        · simpa [plus_plus, Nat.add_comm 1 i] using h2 i (by omega)
      · intro h2 i hi
        simpa [plus_plus, Nat.add_comm 1 i] using h2 (i + 1) (by omega)
    · rename_i h
      simp only [reduceCtorEq, false_iff]
      intro h2
      exact h (by simpa using h2 0 (by omega))

/-- The validity check fails at the first address where no memory exists. -/
theorem checkValid_error {c : Config} {a : Word} {k i : Nat} (hi : i < k)
    (hv : ∀ j < i, Config.valid c (a.plus j) = true) (hn : Config.valid c (a.plus i) = false) :
    checkValid c a k = .error (.fault (.machineCheck (a.plus i))) := by
  induction k generalizing a i with
  | zero => omega
  | succ k ih =>
    simp only [checkValid]
    cases i with
    | zero => simp only [plus_zero] at hn ⊢; simp [hn]
    | succ i =>
      have h0 : Config.valid c a = true := by simpa using hv 0 (by omega)
      rw [if_pos h0, ih (a := a.plus 1) (i := i) (by omega)]
      · rw [plus_plus, Nat.add_comm]
      · intro j hj
        rw [plus_plus, Nat.add_comm]
        exact hv (j + 1) (by omega)
      · rw [plus_plus, Nat.add_comm]; exact hn

/-- A validity check that fails is a machine check. -/
theorem checkValid_stop {c : Config} {a : Word} {k : Nat} {e : Stop}
    (h : checkValid c a k = .error e) : ∃ x, e = .fault (.machineCheck x) := by
  induction k generalizing a with
  | zero => simp [checkValid] at h
  | succ k ih =>
    simp only [checkValid] at h
    split at h
    · exact ih h
    · exact ⟨a, by simpa using h.symm⟩

/-- A read answers the little-endian value of bytes that all exist. -/
theorem memRead_ok_iff {bits : Nat} {a : Word} {s : State} {v : BitVec bits} :
    memRead bits a s = .ok v ↔
      canAccess (bits / 8) a s ∧ v = BitVec.ofNat bits (leValue (s.bytesAt a (bits / 8))) := by
  rw [memRead, bind_ok_iff]
  constructor
  · rintro ⟨_, h, h2⟩
    exact ⟨checkValid_ok_iff.1 h, by simpa using h2.symm⟩
  · rintro ⟨h, rfl⟩
    exact ⟨(), checkValid_ok_iff.2 h, rfl⟩

/-- A read that stops is a machine check. -/
theorem memRead_stop {bits : Nat} {a : Word} {s : State} {e : Stop}
    (h : memRead bits a s = .error e) : ∃ x, e = .fault (.machineCheck x) := by
  rw [memRead, bind_error_iff] at h
  rcases h with h | ⟨_, _, h⟩
  · exact checkValid_stop h
  · cases h

/-- A longword read. -/
theorem memRead_long {a : Word} {s : State} (h : canAccess 4 a s) :
    memRead 32 a s = .ok (s.long a) := memRead_ok_iff.2 ⟨h, rfl⟩

/-- A word read. -/
theorem memRead_word {a : Word} {s : State} (h : canAccess 2 a s) :
    memRead 16 a s = .ok (s.word a) := memRead_ok_iff.2 ⟨h, rfl⟩

/-- A byte read. -/
theorem memRead_byte {a : Word} {s : State} (h : Config.valid s.cfg a = true) :
    memRead 8 a s = .ok (s.byteAt a) := by
  refine memRead_ok_iff.2 ⟨fun i hi => ?_, ?_⟩
  · have : i = 0 := by omega
    subst this
    simpa using h
  · simp [State.bytesAt, leValue]

/-- A write stores the bytes of the value when all of its addresses exist. -/
theorem memWrite_ok_iff {bits : Nat} {a : Word} {s t : State} {v : BitVec bits} :
    memWrite bits a v s = .ok t ↔
      canAccess (bits / 8) a s ∧ t = s.storeBytes a (leBytes (bits / 8) v.toNat) := by
  rw [memWrite, bind_ok_iff]
  constructor
  · rintro ⟨_, h, h2⟩
    exact ⟨checkValid_ok_iff.1 h, by simpa using h2.symm⟩
  · rintro ⟨h, rfl⟩
    exact ⟨(), checkValid_ok_iff.2 h, rfl⟩

/-- A write that stops is a machine check. -/
theorem memWrite_stop {bits : Nat} {a : Word} {s : State} {v : BitVec bits} {e : Stop}
    (h : memWrite bits a v s = .error e) : ∃ x, e = .fault (.machineCheck x) := by
  rw [memWrite, bind_error_iff] at h
  rcases h with h | ⟨_, _, h⟩
  · exact checkValid_stop h
  · cases h

/-- A longword reads the same where its bytes do. -/
theorem long_congr {s t : State} {a : Word} (h : ∀ i < 4, s.byteAt (a.plus i) = t.byteAt (a.plus i)) :
    s.long a = t.long a := by
  simp only [State.long, bytesAt_congr h]

/-- A longword stored reads back. -/
theorem long_storeBytes (s : State) (a v : Word) :
    (s.storeBytes a (leBytes 4 v.toNat)).long a = v := by
  have h := bytesAt_storeBytes s a (leBytes 4 v.toNat) (by simp)
  rw [length_leBytes] at h
  rw [State.long, h, leValue_leBytes]
  apply BitVec.eq_of_toNat_eq
  rw [BitVec.toNat_ofNat]
  omega

/-! ## What an update of the registers or the PSL leaves to be read -/

@[simp] theorem bytesAt_setR (s : State) (n : Reg) (v a : Word) (k : Nat) :
    (s.setR n v).bytesAt a k = s.bytesAt a k := bytesAt_congr fun _ _ => rfl
@[simp] theorem bytesAt_setPsl (s : State) (w a : Word) (k : Nat) :
    (s.setPsl w).bytesAt a k = s.bytesAt a k := bytesAt_congr fun _ _ => rfl
@[simp] theorem bytesAt_setFlags (s : State) (f : Flags) (a : Word) (k : Nat) :
    (s.setFlags f).bytesAt a k = s.bytesAt a k := bytesAt_congr fun _ _ => rfl
@[simp] theorem bytesAt_setBanked (s : State) (b : Slot) (v a : Word) (k : Nat) :
    (s.setBanked b v).bytesAt a k = s.bytesAt a k := bytesAt_congr fun _ _ => rfl

@[simp] theorem long_setR (s : State) (n : Reg) (v a : Word) : (s.setR n v).long a = s.long a := by
  simp [State.long]
@[simp] theorem long_setPsl (s : State) (w a : Word) : (s.setPsl w).long a = s.long a := by
  simp [State.long]
@[simp] theorem long_setFlags (s : State) (f : Flags) (a : Word) :
    (s.setFlags f).long a = s.long a := by simp [State.long]
@[simp] theorem long_setBanked (s : State) (b : Slot) (v a : Word) :
    (s.setBanked b v).long a = s.long a := by simp [State.long]

/-- Whether memory exists depends on the configuration alone. -/
theorem canAccess_congr {s t : State} (h : t.cfg = s.cfg) (k : Nat) (a : Word) :
    canAccess k a t ↔ canAccess k a s := by simp only [canAccess, h]

/-! ## The instruction stream -/

/-- The record of stored bytes lets a fetch through. -/
theorem checkUnmodified_ok_iff {s : State} {a : Word} {k : Nat} :
    checkUnmodified s a k = .ok () ↔
      ∀ i < k, s.cfg.smc = .refuse → (a.plus i).toNat ∉ s.written := by
  induction k generalizing a with
  | zero => simp [checkUnmodified]
  | succ k ih =>
    simp only [checkUnmodified]
    split
    · rename_i h
      simp only [reduceCtorEq, false_iff]
      intro h2
      exact h2 0 (by omega) h.1 (by simpa using h.2)
    · rename_i h
      rw [ih]
      constructor
      · rintro h2 (_ | i) hi hs
        · exact fun hm => h ⟨hs, by simpa using hm⟩
        · simpa [plus_plus, Nat.add_comm 1 i] using h2 i (by omega) hs
      · intro h2 i hi hs
        simpa [plus_plus, Nat.add_comm 1 i] using h2 (i + 1) (by omega) hs

/-- A fetch moves the program counter past bytes that can be fetched, and does nothing else. -/
theorem fetch_ok_iff {k : Nat} {s t : State} :
    fetch k s = .ok t ↔ canFetch k s ∧ t = s.setPc (s.pc.plus k) := by
  rw [fetch, bind_ok_iff]
  constructor
  · rintro ⟨_, h, h2⟩
    obtain ⟨_, h3, h4⟩ := bind_ok_iff.1 h2
    exact ⟨⟨checkValid_ok_iff.1 h3, checkUnmodified_ok_iff.1 h⟩, by simpa using h4.symm⟩
  · rintro ⟨⟨h1, h2⟩, rfl⟩
    exact ⟨(), checkUnmodified_ok_iff.2 h2, bind_ok_iff.2 ⟨(), checkValid_ok_iff.2 h1, rfl⟩⟩

/-- A fetch that can be made. -/
theorem fetch_ok {k : Nat} {s : State} (h : canFetch k s) :
    fetch k s = .ok (s.setPc (s.pc.plus k)) := fetch_ok_iff.2 ⟨h, rfl⟩

/-- A fetch that cannot be made stops with a machine check or the refusal of R67. -/
theorem fetch_stop {k : Nat} {s : State} {e : Stop} (h : fetch k s = .error e) :
    (∃ x, e = .fault (.machineCheck x)) ∨ e = .refuse .modifiedCodeWithoutRei := by
  rw [fetch, bind_error_iff] at h
  rcases h with h | ⟨_, _, h⟩
  · refine .inr ?_
    generalize s.pc = a at h
    induction k generalizing a with
    | zero => simp [checkUnmodified] at h
    | succ k ih =>
      simp only [checkUnmodified] at h
      split at h
      · simpa using h.symm
      · exact ih _ h
  · rw [bind_error_iff] at h
    rcases h with h | ⟨_, _, h⟩
    · exact .inl (checkValid_stop h)
    · cases h

/-- Fewer bytes can be fetched when more can. -/
theorem canFetch_mono {j k : Nat} {s : State} (h : canFetch k s) (hj : j ≤ k) : canFetch j s :=
  ⟨fun i hi => h.1 i (by omega), fun i hi => h.2 i (by omega)⟩

/-- After some of the bytes are fetched the others still can be. -/
theorem canFetch_setPc {j k : Nat} {s : State} (h : canFetch (j + k) s) :
    canFetch k (s.setPc (s.pc.plus j)) := by
  constructor
  · intro i hi
    have := h.1 (j + i) (by omega)
    simpa [State.pc, plus_plus] using this
  · intro i hi hs
    have := h.2 (j + i) (by omega) hs
    simpa [State.pc, plus_plus] using this

/-! ## The stack -/

/-- A push moves SP down by 4 and stores the longword there. -/
theorem push32_ok_iff {v : Word} {s t : State} :
    push32 v s = .ok t ↔
      canAccess 4 (s.sp - 4) s ∧
        t = (s.setR Reg.sp (s.sp - 4)).storeBytes (s.sp - 4) (leBytes 4 v.toNat) := by
  rw [push32, memWrite_ok_iff]
  exact Iff.rfl

/-- A pop answers the longword SP points at and moves SP up by 4. -/
theorem pop32_ok_iff {s t : State} {v : Word} :
    pop32 s = .ok (v, t) ↔
      canAccess 4 s.sp s ∧ v = s.long s.sp ∧ t = s.setR Reg.sp (s.sp + 4) := by
  rw [pop32, bind_ok_iff]
  constructor
  · rintro ⟨a, h, h2⟩
    obtain ⟨h3, rfl⟩ := memRead_ok_iff.1 h
    simp only [Except.ok.injEq, Prod.mk.injEq] at h2
    exact ⟨h3, h2.1.symm, h2.2.symm⟩
  · rintro ⟨h, rfl, rfl⟩
    exact ⟨_, memRead_long h, rfl⟩

/-- A push that stops is a machine check. -/
theorem push32_stop {v : Word} {s : State} {e : Stop} (h : push32 v s = .error e) :
    ∃ x, e = .fault (.machineCheck x) := memWrite_stop h

/-- A pop that stops is a machine check. -/
theorem pop32_stop {s : State} {e : Stop} (h : pop32 s = .error e) :
    ∃ x, e = .fault (.machineCheck x) := by
  rw [pop32, bind_error_iff] at h
  rcases h with h | ⟨_, _, h⟩
  · exact memRead_stop h
  · cases h

/-! ## The end of an instruction -/

/-- An instruction that begins where it can be fetched runs its body after the opcode byte. -/
theorem runInstr_of_fetch {s : State} (h : canFetch 1 s) (body : State → Except Stop State) :
    runInstr s body = conclude s (body (s.setPc (s.pc + 1))) := by
  rw [runInstr, bind_of_ok (fetch_ok h)]
  rfl

/-- An instruction whose body answers a state ends in it. -/
theorem runInstr_next {s t : State} {body : State → Except Stop State}
    (h : (fetch 1 s >>= body) = .ok t) : runInstr s body = .next t := by
  rw [runInstr]
  exact congrArg (conclude s) h

/-- How an instruction comes to a next state: it completes, it faults or traps and the exception is
entered. -/
theorem conclude_next {s t : State} {x : Except Stop State} (h : conclude s x = .next t) :
    x = .ok t ∨
      (s.cfg.deliver = true ∧ ∃ e off, x = .error (.fault e) ∧
        takeEntry .exception off s.pc [] s = .next t) ∨
      (∃ k u, x = .error (.trap k u) ∧ u.cfg.deliver = true ∧
        takeEntry .exception 0x34 u.pc [trapCode k] u = .next t) := by
  rcases x with (e | ⟨k, u⟩ | r) | u
  · refine .inr (.inl ?_)
    simp only [conclude] at h
    cases e <;> simp only [raiseFault] at h
    · cases h
    all_goals
      split at h
      · rename_i hd
        exact ⟨hd, _, _, rfl, h⟩
      · cases h
  · refine .inr (.inr ⟨k, u, rfl, ?_⟩)
    simp only [conclude, raiseTrap] at h
    split at h
    · rename_i hd
      exact ⟨hd, h⟩
    · cases h
  · cases h
  · simp only [conclude, Host.Outcome.next.injEq] at h
    exact .inl (by rw [h])

/-- An entry that answers a next state is one that `enter` completes. -/
theorem takeEntry_next_iff {kind : Entry} {off savedPc : Word} {params : List Word} {s t : State} :
    takeEntry kind off savedPc params s = .next t ↔ enter kind off savedPc params s = .ok t := by
  rw [takeEntry]
  rcases enter kind off savedPc params s with (e | ⟨k, u⟩ | r) | u <;> simp

end Sys2Proof.Machine
end

