-- ==== Sys2Proof/Laws/Operands.lean ====
section
/-!
SUPPORT. What evaluating operand specifiers can do, once for every access type: it writes registers
only, of those the ones it steps and the program counter, and what it yields can be written where the
access type says so. And what writing an operand does.
-/

namespace Sys2Proof.Machine

/-! ## Evaluation writes registers only -/

/-- From `s` to `u` only registers have changed: the program counter and those of `rs`. -/
structure Evaluated (s u : State) (rs : List Reg) : Prop where
  rest : u = { s with reg := u.reg }
  regs : ∀ n, n ≠ Reg.pc → n ∉ rs → u.r n = s.r n

theorem Evaluated.refl (s : State) (rs : List Reg) : Evaluated s s rs := ⟨rfl, fun _ _ _ => rfl⟩

theorem Evaluated.trans {s u v : State} {rs qs : List Reg} (h : Evaluated s u rs)
    (h2 : Evaluated u v qs) : Evaluated s v (rs ++ qs) where
  rest := by rw [h2.rest, h.rest]
  regs n hn hm := by
    rw [List.mem_append, not_or] at hm
    rw [h2.regs n hn hm.2, h.regs n hn hm.1]

theorem Evaluated.mono {s u : State} {rs qs : List Reg} (h : Evaluated s u rs)
    (hs : ∀ n ∈ rs, n ∈ qs) : Evaluated s u qs where
  rest := h.rest
  regs n hn hm := h.regs n hn fun hr => hm (hs n hr)

theorem Evaluated.psl {s u : State} {rs : List Reg} (h : Evaluated s u rs) : u.psl = s.psl := by
  rw [h.rest]
theorem Evaluated.cfg {s u : State} {rs : List Reg} (h : Evaluated s u rs) : u.cfg = s.cfg := by
  rw [h.rest]
theorem Evaluated.byteAt {s u : State} {rs : List Reg} (h : Evaluated s u rs) (x : Word) :
    u.byteAt x = s.byteAt x := by rw [h.rest]; rfl
theorem Evaluated.written {s u : State} {rs : List Reg} (h : Evaluated s u rs) :
    u.written = s.written := by rw [h.rest]
theorem Evaluated.spbank {s u : State} {rs : List Reg} (h : Evaluated s u rs) :
    u.spbank = s.spbank := by rw [h.rest]
theorem Evaluated.long {s u : State} {rs : List Reg} (h : Evaluated s u rs) (x : Word) :
    u.long x = s.long x := long_congr fun _ _ => h.byteAt _
theorem Evaluated.bytesAt {s u : State} {rs : List Reg} (h : Evaluated s u rs) (x : Word) (k : Nat) :
    u.bytesAt x k = s.bytesAt x k := bytesAt_congr fun _ _ => h.byteAt _
theorem Evaluated.canAccess_iff {s u : State} {rs : List Reg} (h : Evaluated s u rs) (x : Word)
    (k : Nat) : canAccess k x u ↔ canAccess k x s := by
  simp only [canAccess, h.cfg]

/-- The program counter alone. -/
theorem evaluated_setPc (s : State) (v : Word) (rs : List Reg) : Evaluated s (s.setPc v) rs where
  rest := rfl
  regs _ hn _ := r_setR_other s v (Ne.symm hn)

/-- One register. -/
theorem evaluated_setR (s : State) (n : Reg) (v : Word) : Evaluated s (s.setR n v) [n] where
  rest := rfl
  regs m _ hm := r_setR_other s v fun h => hm (by simp [h])

/-- A fetch. -/
theorem evaluated_fetch {k : Nat} {s t : State} (h : fetch k s = .ok t) : Evaluated s t [] := by
  obtain ⟨_, rfl⟩ := fetch_ok_iff.1 h
  exact evaluated_setPc s _ _

/-! ## Specifiers -/

/-- What a yielded operand can be: a constant only for access type r; a register only outside an index
and not for access type a, never R15 nor, for a quadword, R14 (R105, R106). -/
def Operand.allowed (a : Access) (z : Size) (inner : Bool) : Operand → Prop
  | .lit _ => a = .read
  | .reg n => inner = false ∧ a ≠ .address ∧ n ≠ Reg.pc ∧ (z = .q → n ≠ Reg.sp)
  | .mem _ => True

theorem evalDisp_ok {k : Nat} {n : Reg} {d : Word} {s u : State} {o : Operand}
    (h : evalDisp k n d s = .ok (o, u)) :
    canFetch k s ∧ u = s.setPc (s.pc.plus k) ∧ o = .mem (u.r n + d) := by
  obtain ⟨t, h1, h2⟩ := bind_ok_iff.1 h
  obtain ⟨h3, rfl⟩ := fetch_ok_iff.1 h1
  simp only [Except.ok.injEq, Prod.mk.injEq] at h2
  exact ⟨h3, h2.2.symm, by rw [← h2.2, h2.1]⟩

theorem evalDispDeferred_ok {k : Nat} {n : Reg} {d : Word} {s u : State} {o : Operand}
    (h : evalDispDeferred k n d s = .ok (o, u)) :
    canFetch k s ∧ u = s.setPc (s.pc.plus k) ∧ canAccess 4 (u.r n + d) u ∧
      o = .mem (u.long (u.r n + d)) := by
  obtain ⟨t, h1, h2⟩ := bind_ok_iff.1 h
  obtain ⟨h3, rfl⟩ := fetch_ok_iff.1 h1
  obtain ⟨p, h4, h5⟩ := bind_ok_iff.1 h2
  obtain ⟨h6, rfl⟩ := memRead_ok_iff.1 h4
  simp only [Except.ok.injEq, Prod.mk.injEq] at h5
  obtain ⟨rfl, rfl⟩ := h5
  exact ⟨h3, rfl, h6, rfl⟩

/-- A mode evaluated writes only the register it steps and the program counter. -/
theorem evalMode_ok {a : Access} {z : Size} {inner : Bool} {b : Base} {s u : State} {o : Operand}
    (h : evalMode a z inner b s = .ok (o, u)) :
    Evaluated s u (Base.steps b) ∧ o.allowed a z inner := by
  cases b <;> simp only [evalMode] at h
  case literal v =>
    split at h
    · cases h
    · rename_i hc
      simp only [Except.ok.injEq, Prod.mk.injEq] at h
      obtain ⟨rfl, rfl⟩ := h
      refine ⟨Evaluated.refl _ _, ?_⟩
      simp only [Bool.or_eq_true, bne_iff_ne, ne_eq, not_or, Decidable.not_not] at hc
      exact hc.2
  case nestedIndex n => cases h
  case register n =>
    split at h
    · cases h
    · rename_i hc
      split at h
      · cases h
      · rename_i hd
        simp only [Except.ok.injEq, Prod.mk.injEq] at h
        obtain ⟨rfl, rfl⟩ := h
        simp only [Bool.or_eq_true, beq_iff_eq, not_or, Bool.and_eq_true, not_and] at hc hd
        exact ⟨Evaluated.refl _ _, by simpa using hc.1, hc.2, hd.1, hd.2⟩
  case deferred n =>
    split at h
    · cases h
    · simp only [Except.ok.injEq, Prod.mk.injEq] at h
      obtain ⟨rfl, rfl⟩ := h
      exact ⟨Evaluated.refl _ _, trivial⟩
  case autodec n =>
    split at h
    · cases h
    · simp only [Except.ok.injEq, Prod.mk.injEq] at h
      obtain ⟨rfl, rfl⟩ := h
      exact ⟨evaluated_setR _ _ _, trivial⟩
  case autoinc n =>
    simp only [Except.ok.injEq, Prod.mk.injEq] at h
    obtain ⟨rfl, rfl⟩ := h
    exact ⟨evaluated_setR _ _ _, trivial⟩
  case immediate v =>
    split at h
    · cases h
    · rename_i hc
      split at h
      · simp only [Except.ok.injEq, Prod.mk.injEq] at h
        obtain ⟨rfl, rfl⟩ := h
        exact ⟨evaluated_setPc _ _ _, trivial⟩
      · rename_i hd
        obtain ⟨t, h1, h2⟩ := bind_ok_iff.1 h
        simp only [Except.ok.injEq, Prod.mk.injEq] at h2
        obtain ⟨rfl, rfl⟩ := h2
        refine ⟨evaluated_fetch h1, ?_⟩
        cases a <;> simp_all [Operand.allowed]
  case autoincDeferred n =>
    obtain ⟨p, h1, h2⟩ := bind_ok_iff.1 h
    simp only [Except.ok.injEq, Prod.mk.injEq] at h2
    obtain ⟨rfl, rfl⟩ := h2
    exact ⟨evaluated_setR _ _ _, trivial⟩
  case absolute p =>
    obtain ⟨t, h1, h2⟩ := bind_ok_iff.1 h
    simp only [Except.ok.injEq, Prod.mk.injEq] at h2
    obtain ⟨rfl, rfl⟩ := h2
    exact ⟨evaluated_fetch h1, trivial⟩
  case byteDisp n d =>
    obtain ⟨_, rfl, rfl⟩ := evalDisp_ok h; exact ⟨evaluated_setPc _ _ _, trivial⟩
  case wordDisp n d =>
    obtain ⟨_, rfl, rfl⟩ := evalDisp_ok h; exact ⟨evaluated_setPc _ _ _, trivial⟩
  case longDisp n d =>
    obtain ⟨_, rfl, rfl⟩ := evalDisp_ok h; exact ⟨evaluated_setPc _ _ _, trivial⟩
  case byteDispDeferred n d =>
    obtain ⟨_, rfl, _, rfl⟩ := evalDispDeferred_ok h; exact ⟨evaluated_setPc _ _ _, trivial⟩
  case wordDispDeferred n d =>
    obtain ⟨_, rfl, _, rfl⟩ := evalDispDeferred_ok h; exact ⟨evaluated_setPc _ _ _, trivial⟩
  case longDispDeferred n d =>
    obtain ⟨_, rfl, _, rfl⟩ := evalDispDeferred_ok h; exact ⟨evaluated_setPc _ _ _, trivial⟩

/-- A specifier evaluated writes only the register it steps and the program counter. -/
theorem evalSpec_ok {a : Access} {z : Size} {sp : Spec} {s u : State} {o : Operand}
    (h : evalSpec a z sp s = .ok (o, u)) :
    Evaluated s u (Spec.steps sp) ∧ o.allowed a z false := by
  cases sp with
  | direct b =>
    obtain ⟨t, h1, h2⟩ := bind_ok_iff.1 h
    obtain ⟨h3, h4⟩ := evalMode_ok h2
    exact ⟨(evaluated_fetch h1).trans h3, h4⟩
  | indexed x b =>
    obtain ⟨t, h1, h2⟩ := bind_ok_iff.1 h
    split at h2
    · cases h2
    · obtain ⟨t', h3, h4⟩ := bind_ok_iff.1 h2
      obtain ⟨⟨o', u'⟩, h5, h6⟩ := bind_ok_iff.1 h4
      obtain ⟨h7, _⟩ := evalMode_ok h5
      dsimp only at h6
      split at h6
      · cases h6
      · split at h6
        · simp only [Except.ok.injEq, Prod.mk.injEq] at h6
          obtain ⟨rfl, rfl⟩ := h6
          exact ⟨((evaluated_fetch h1).trans (evaluated_fetch h3)).trans h7, trivial⟩
        · cases h6
        · cases h6

/-- An operand of access type r evaluated and read. -/
theorem evalRead_ok {z : Size} {sp : Spec} {s u : State} {v : BitVec z.bits}
    (h : evalRead z sp s = .ok (v, u)) : Evaluated s u (Spec.steps sp) := by
  obtain ⟨⟨o, t⟩, h1, h2⟩ := bind_ok_iff.1 h
  obtain ⟨w, _, h3⟩ := bind_ok_iff.1 h2
  simp only [Except.ok.injEq, Prod.mk.injEq] at h3
  obtain ⟨rfl, rfl⟩ := h3
  exact (evalSpec_ok h1).1

/-- An operand of access type m evaluated and read: it can be written. -/
theorem evalModify_ok {z : Size} {sp : Spec} {s u : State} {v : BitVec z.bits} {o : Operand}
    (h : evalModify z sp s = .ok (v, o, u)) :
    Evaluated s u (Spec.steps sp) ∧ o.allowed .modify z false ∧ readOp z o u = .ok v := by
  obtain ⟨⟨o, t⟩, h1, h2⟩ := bind_ok_iff.1 h
  obtain ⟨w, h3, h4⟩ := bind_ok_iff.1 h2
  simp only [Except.ok.injEq, Prod.mk.injEq] at h4
  obtain ⟨rfl, rfl, rfl⟩ := h4
  exact ⟨(evalSpec_ok h1).1, (evalSpec_ok h1).2, h3⟩

/-- An operand of access type w evaluated. -/
theorem evalWrite_ok {z : Size} {sp : Spec} {s u : State} {o : Operand}
    (h : evalWrite z sp s = .ok (o, u)) :
    Evaluated s u (Spec.steps sp) ∧ o.allowed .write z false := evalSpec_ok h

/-- An operand of access type a evaluated. -/
theorem evalAddress_ok {z : Size} {sp : Spec} {s u : State} {a : Word}
    (h : evalAddress z sp s = .ok (a, u)) : Evaluated s u (Spec.steps sp) := by
  obtain ⟨⟨o, t⟩, h1, h2⟩ := bind_ok_iff.1 h
  cases o with
  | mem x =>
    simp only [Except.ok.injEq, Prod.mk.injEq] at h2
    obtain ⟨rfl, rfl⟩ := h2
    exact (evalSpec_ok h1).1
  | lit _ => cases h2
  | reg _ => cases h2

/-! ## Writing an operand -/

/-- The part of a register written reads back. -/
theorem readReg_writeReg (z : Size) (n : Reg) (v : BitVec z.bits) (s : State) :
    (s.writeReg z n v).readReg z n = v := by
  cases z
  case b =>
    apply BitVec.eq_of_getLsbD_eq
    intro i hi
    have h8 : i < 8 := hi
    have h32 : i < 32 := by omega
    simp only [State.writeReg, State.readReg, mergeLow, r_setR, if_true, BitVec.getLsbD_setWidth,
      getLsbD_setField, Nat.zero_le, Nat.zero_add, Nat.sub_zero, h8, h32, decide_true, true_and,
      Bool.true_and]
  case w =>
    apply BitVec.eq_of_getLsbD_eq
    intro i hi
    have h16 : i < 16 := hi
    have h32 : i < 32 := by omega
    simp only [State.writeReg, State.readReg, mergeLow, r_setR, if_true, BitVec.getLsbD_setWidth,
      getLsbD_setField, Nat.zero_le, Nat.zero_add, Nat.sub_zero, h16, h32, decide_true, true_and,
      Bool.true_and]
  case l => simp [State.writeReg, State.readReg]
  case q =>
    have hne : n + 1 ≠ n := by simp
    simp only [State.writeReg, State.readReg, r_setR, if_neg hne, if_true]
    apply BitVec.eq_of_getLsbD_eq
    intro i hi
    have h64 : i < 64 := hi
    rw [BitVec.getLsbD_append]
    by_cases h : i < 32
    · simp [h]
    · have h2 : i - 32 < 32 := by omega
      have h3 : 32 + (i - 32) = i := by omega
      simp [h, h2, h3]

/-- The bits of a register above the operand's size are kept. -/
theorem writeReg_upper (z : Size) (n m : Reg) (v : BitVec z.bits) (s : State)
    (h : m ∈ (Operand.reg n).regs z) : (s.writeReg z n v).r m >>> z.bits = s.r m >>> z.bits := by
  cases z
  case b =>
    obtain rfl : m = n := by simpa [Operand.regs] using h
    apply BitVec.eq_of_getLsbD_eq
    intro i hi
    simp [State.writeReg, mergeLow, getLsbD_setField, BitVec.getLsbD_ushiftRight]
  case w =>
    obtain rfl : m = n := by simpa [Operand.regs] using h
    apply BitVec.eq_of_getLsbD_eq
    intro i hi
    simp [State.writeReg, mergeLow, getLsbD_setField, BitVec.getLsbD_ushiftRight]
  case l => simp [BitVec.ushiftRight_eq_zero]
  case q =>
    rw [BitVec.ushiftRight_eq_zero (by decide), BitVec.ushiftRight_eq_zero (by decide)]

/-- The registers an operand does not name are kept when it is written. -/
theorem writeReg_other (z : Size) (n m : Reg) (v : BitVec z.bits) (s : State)
    (h : m ∉ (Operand.reg n).regs z) : (s.writeReg z n v).r m = s.r m := by
  cases z
  case q =>
    have h' : m ≠ n ∧ m ≠ n + 1 := by simpa [Operand.regs] using h
    simp [State.writeReg, Ne.symm h'.1, Ne.symm h'.2]
  all_goals
    have h' : m ≠ n := by simpa [Operand.regs] using h
    simp [State.writeReg, Ne.symm h']

/-- Writing a register changes nothing but registers. -/
theorem writeReg_rest (z : Size) (n : Reg) (v : BitVec z.bits) (s : State) :
    s.writeReg z n v = { s with reg := (s.writeReg z n v).reg } := by
  cases z <;> rfl

/-- Sizes are whole bytes. -/
theorem size_bits (z : Size) : z.bits / 8 = z.bytes := by cases z <;> rfl

theorem size_bytes_le (z : Size) : z.bytes ≤ 8 := by cases z <;> simp [Size.bytes]

/-- The addresses of a memory operand. -/
theorem mem_addrs {z : Size} {a x : Word} :
    x ∈ (Operand.mem a).addrs z ↔ ∃ i < z.bytes, x = a.plus i := by
  simp [Operand.addrs, eq_comm]

/-- A value stored at its size reads back. -/
theorem memRead_after_write {z : Size} {a : Word} {v : BitVec z.bits} {s t : State}
    (h : memWrite z.bits a v s = .ok t) : memRead z.bits a t = .ok v := by
  obtain ⟨hv, rfl⟩ := memWrite_ok_iff.1 h
  refine memRead_ok_iff.2 ⟨?_, ?_⟩
  · simpa [canAccess] using hv
  · have hb := bytesAt_storeBytes s a (leBytes (z.bits / 8) v.toNat)
      (by rw [length_leBytes, size_bits]; have := size_bytes_le z; omega)
    rw [length_leBytes] at hb
    rw [hb, leValue_leBytes]
    apply BitVec.eq_of_toNat_eq
    have := v.isLt
    rw [BitVec.toNat_ofNat]
    cases z <;> simp only [Size.bits] at this ⊢ <;> omega

/-- What writing an operand that can be written does: it reads back, the rest of its register is kept,
and nothing else is changed. -/
structure OperandWritten (z : Size) (o : Operand) (v : BitVec z.bits) (u t : State) : Prop where
  value : readOp z o t = .ok v
  upper : ∀ n ∈ o.regs z, t.r n >>> z.bits = u.r n >>> z.bits
  regs : ∀ n, n ∉ o.regs z → t.r n = u.r n
  bytes : ∀ x, x ∉ o.addrs z → t.byteAt x = u.byteAt x
  recorded : Recorded u t (o.addrs z)
  rest : t = { u with reg := t.reg, mem := t.mem, written := t.written }

/-- A destination that is allowed and exists can be written. -/
theorem writeOp_ok {a : Access} (ha : a ≠ .read) {z : Size} {o : Operand} (ho : o.allowed a z false)
    (v : BitVec z.bits) {u : State} (hw : o.writable z u) :
    ∃ t, writeOp z o v u = .ok t ∧ OperandWritten z o v u t := by
  cases o with
  | lit _ => exact absurd ho ha
  | reg n =>
    refine ⟨u.writeReg z n v, rfl, ?_, fun m => writeReg_upper z n m v u,
      fun m => writeReg_other z n m v u, ?_, recorded_nil (by rw [writeReg_rest]), ?_⟩
    · simp only [readOp, readReg_writeReg]
    · intro x _
      rw [writeReg_rest]; rfl
    · rw [writeReg_rest]
  | mem x =>
    have hv : canAccess (z.bits / 8) x u := fun i hi =>
      hw _ (mem_addrs.2 ⟨i, by rw [← size_bits]; exact hi, rfl⟩)
    have h : memWrite z.bits x v u = .ok _ := memWrite_ok_iff.2 ⟨hv, rfl⟩
    refine ⟨_, h, memRead_after_write h, by simp [Operand.regs], ?_, ?_, ?_, ?_⟩
    · intro n _; simp
    · intro y hy
      refine byteAt_storeBytes_other _ _ _ _ fun i hi he => hy (mem_addrs.2 ⟨i, ?_, he⟩)
      rwa [length_leBytes, size_bits] at hi
    · have hr := recorded_storeBytes u x (leBytes (z.bits / 8) v.toNat)
      rw [length_leBytes] at hr
      simpa only [Operand.addrs, size_bits] using hr
    · rw [storeBytes_rest]

/-- A destination that was read can be written. -/
theorem writable_of_read {z : Size} {o : Operand} {u : State} {v : BitVec z.bits}
    (h : readOp z o u = .ok v) : o.writable z u := by
  intro x hx
  cases o with
  | mem a =>
    obtain ⟨i, hi, rfl⟩ := mem_addrs.1 hx
    exact (memRead_ok_iff.1 h).1 i (by rw [size_bits]; exact hi)
  | lit _ => simp [Operand.addrs] at hx
  | reg _ => simp [Operand.addrs] at hx

/-- An operand whose specifier stops, stops with it. -/
theorem OperandSpec.eval_stop {p : OperandSpec} {s : State} {e : Stop}
    (h : evalSpec p.access p.size p.spec s = .error e) : p.eval s = .error e := by
  rcases p with ⟨a, z, sp⟩
  cases a <;>
    simp only [OperandSpec.eval, evalRead, evalModify, evalWrite, evalAddress] at h ⊢ <;>
    rw [h] <;> rfl

/-- Operands evaluated one after the other. -/
theorem evalOperands_append (ps qs : List OperandSpec) (s : State) :
    evalOperands (ps ++ qs) s = evalOperands ps s >>= evalOperands qs := by
  induction ps generalizing s with
  | nil => rfl
  | cons p ps ih =>
    simp only [List.cons_append, evalOperands]
    cases h : p.eval s with
    | error e => rfl
    | ok u => exact ih u

end Sys2Proof.Machine
end

