-- ==== Sys2Proof/Laws/PerInstr.lean ====
section
/-!
SUPPORT. One lemma per instruction, about its encoding: the operand fields are at most
`maxLength - 1` bytes, so that the decoder's window holds every instruction (30_encoding.md R82, R107).
-/

namespace Sys2Proof.Laws

open Sys2Proof.Machine

/-- A base has at most five bytes, nine as a quadword's immediate. -/
theorem length_encodeBase (z : Size) (b : Base) : (b.encode z).length ≤ if z = .q then 9 else 5 := by
  cases b <;> cases z <;> simp [Base.encode, length_leBytes, Size.bytes]

/-- A specifier has at most six bytes, ten for a quadword. -/
theorem length_encodeSpec (z : Size) (sp : Spec) :
    (sp.encode z).length ≤ if z = .q then 10 else 6 := by
  cases sp with
  | direct b =>
    have h := length_encodeBase z b
    rw [Spec.encode]
    split at h <;> split <;> omega
  | indexed x b =>
    have h := length_encodeBase z b
    rw [Spec.encode, List.length_cons]
    split at h <;> split <;> omega

namespace EncodedLength

/-- The encoding is within the decoder's window (R107). -/
def Statement (i : Instr) : Prop := (encode i).length ≤ maxLength

/-- No field, or one or two bytes of branch displacement. -/
theorem short {i : Instr} (k v : Nat) (h : i.fields = leBytes k v) (hk : k ≤ 2) : Statement i := by
  simp only [Statement, encode, h, List.length_cons, length_leBytes, maxLength]; omega

theorem one {i : Instr} (x : Size) (a : Spec) (h : i.fields = a.encode x) : Statement i := by
  have h1 := length_encodeSpec x a
  simp only [Statement, encode, h, List.length_cons, maxLength]; split at h1 <;> omega

theorem two {i : Instr} (x y : Size) (a b : Spec) (h : i.fields = a.encode x ++ b.encode y) :
    Statement i := by
  have h1 := length_encodeSpec x a
  have h2 := length_encodeSpec y b
  simp only [Statement, encode, h, List.length_cons, List.length_append, maxLength]
  split at h1 <;> split at h2 <;> omega

theorem three {i : Instr} (x y z : Size) (a b c : Spec)
    (h : i.fields = a.encode x ++ b.encode y ++ c.encode z) : Statement i := by
  have h1 := length_encodeSpec x a
  have h2 := length_encodeSpec y b
  have h3 := length_encodeSpec z c
  simp only [Statement, encode, h, List.length_cons, List.length_append, maxLength]
  split at h1 <;> split at h2 <;> split at h3 <;> omega

theorem halt : Statement .halt := short 0 0 rfl (by decide)
theorem rei : Statement .rei := short 0 0 rfl (by decide)
theorem ret : Statement .ret := short 0 0 rfl (by decide)
theorem rsb : Statement .rsb := short 0 0 rfl (by decide)
theorem ldpctx : Statement .ldpctx := short 0 0 rfl (by decide)
theorem svpctx : Statement .svpctx := short 0 0 rfl (by decide)
theorem brb (disp : BitVec 8) : Statement (.brb disp) := short 1 _ rfl (by decide)
theorem bneq (disp : BitVec 8) : Statement (.bneq disp) := short 1 _ rfl (by decide)
theorem bnequ (disp : BitVec 8) : Statement (.bnequ disp) := short 1 _ rfl (by decide)
theorem beql (disp : BitVec 8) : Statement (.beql disp) := short 1 _ rfl (by decide)
theorem beqlu (disp : BitVec 8) : Statement (.beqlu disp) := short 1 _ rfl (by decide)
theorem bgtr (disp : BitVec 8) : Statement (.bgtr disp) := short 1 _ rfl (by decide)
theorem bleq (disp : BitVec 8) : Statement (.bleq disp) := short 1 _ rfl (by decide)
theorem jsb (dst : Spec) : Statement (.jsb dst) := one .b dst rfl
theorem bgeq (disp : BitVec 8) : Statement (.bgeq disp) := short 1 _ rfl (by decide)
theorem blss (disp : BitVec 8) : Statement (.blss disp) := short 1 _ rfl (by decide)
theorem bvc (disp : BitVec 8) : Statement (.bvc disp) := short 1 _ rfl (by decide)
theorem bvs (disp : BitVec 8) : Statement (.bvs disp) := short 1 _ rfl (by decide)
theorem bcc (disp : BitVec 8) : Statement (.bcc disp) := short 1 _ rfl (by decide)
theorem bgequ (disp : BitVec 8) : Statement (.bgequ disp) := short 1 _ rfl (by decide)
theorem bcs (disp : BitVec 8) : Statement (.bcs disp) := short 1 _ rfl (by decide)
theorem blssu (disp : BitVec 8) : Statement (.blssu disp) := short 1 _ rfl (by decide)
theorem movc3 (len : Spec) (src : Spec) (dst : Spec) : Statement (.movc3 len src dst) :=
  three .w .b .b len src dst rfl
theorem cmpc3 (len : Spec) (src1 : Spec) (src2 : Spec) : Statement (.cmpc3 len src1 src2) :=
  three .w .b .b len src1 src2 rfl
theorem movc5 (srclen : Spec) (src : Spec) (fill : Spec) (dstlen : Spec) (dst : Spec) : Statement (.movc5 srclen src fill dstlen dst) := by
  have h1 := length_encodeSpec .w srclen
  have h2 := length_encodeSpec .b src
  have h3 := length_encodeSpec .b fill
  have h4 := length_encodeSpec .w dstlen
  have h5 := length_encodeSpec .b dst
  have h : Instr.fields (.movc5 srclen src fill dstlen dst) = srclen.encode .w ++ src.encode .b
      ++ fill.encode .b ++ dstlen.encode .w ++ dst.encode .b := rfl
  simp only [reduceCtorEq, if_false] at h1 h2 h3 h4 h5
  simp only [Statement, encode, h, List.length_cons, List.length_append, maxLength]
  omega
theorem brw (disp : BitVec 16) : Statement (.brw disp) := short 2 _ rfl (by decide)
theorem locc (ch : Spec) (len : Spec) (addr : Spec) : Statement (.locc ch len addr) :=
  three .b .w .b ch len addr rfl
theorem skpc (ch : Spec) (len : Spec) (addr : Spec) : Statement (.skpc ch len addr) :=
  three .b .w .b ch len addr rfl
theorem movaw (src : Spec) (dst : Spec) : Statement (.movaw src dst) := two .w .l src dst rfl
theorem pushaw (src : Spec) : Statement (.pushaw src) := one .w src rfl
theorem ashl (cnt : Spec) (src : Spec) (dst : Spec) : Statement (.ashl cnt src dst) :=
  three .b .l .l cnt src dst rfl
theorem ashq (cnt : Spec) (src : Spec) (dst : Spec) : Statement (.ashq cnt src dst) :=
  three .b .q .q cnt src dst rfl
theorem clrq (dst : Spec) : Statement (.clrq dst) := one .q dst rfl
theorem movq (src : Spec) (dst : Spec) : Statement (.movq src dst) := two .q .q src dst rfl
theorem addb2 (src : Spec) (dst : Spec) : Statement (.addb2 src dst) := two .b .b src dst rfl
theorem addb3 (src1 : Spec) (src2 : Spec) (dst : Spec) : Statement (.addb3 src1 src2 dst) :=
  three .b .b .b src1 src2 dst rfl
theorem subb2 (src : Spec) (dst : Spec) : Statement (.subb2 src dst) := two .b .b src dst rfl
theorem mulb2 (src : Spec) (dst : Spec) : Statement (.mulb2 src dst) := two .b .b src dst rfl
theorem divb2 (src : Spec) (dst : Spec) : Statement (.divb2 src dst) := two .b .b src dst rfl
theorem bisb2 (mask : Spec) (dst : Spec) : Statement (.bisb2 mask dst) := two .b .b mask dst rfl
theorem bicb2 (mask : Spec) (dst : Spec) : Statement (.bicb2 mask dst) := two .b .b mask dst rfl
theorem xorb2 (mask : Spec) (dst : Spec) : Statement (.xorb2 mask dst) := two .b .b mask dst rfl
theorem movb (src : Spec) (dst : Spec) : Statement (.movb src dst) := two .b .b src dst rfl
theorem cmpb (src1 : Spec) (src2 : Spec) : Statement (.cmpb src1 src2) := two .b .b src1 src2 rfl
theorem bitb (mask : Spec) (src : Spec) : Statement (.bitb mask src) := two .b .b mask src rfl
theorem clrb (dst : Spec) : Statement (.clrb dst) := one .b dst rfl
theorem tstb (src : Spec) : Statement (.tstb src) := one .b src rfl
theorem incb (dst : Spec) : Statement (.incb dst) := one .b dst rfl
theorem decb (dst : Spec) : Statement (.decb dst) := one .b dst rfl
theorem rotl (cnt : Spec) (src : Spec) (dst : Spec) : Statement (.rotl cnt src dst) :=
  three .b .l .l cnt src dst rfl
theorem movab (src : Spec) (dst : Spec) : Statement (.movab src dst) := two .b .l src dst rfl
theorem pushab (src : Spec) : Statement (.pushab src) := one .b src rfl
theorem addw2 (src : Spec) (dst : Spec) : Statement (.addw2 src dst) := two .w .w src dst rfl
theorem addw3 (src1 : Spec) (src2 : Spec) (dst : Spec) : Statement (.addw3 src1 src2 dst) :=
  three .w .w .w src1 src2 dst rfl
theorem subw2 (src : Spec) (dst : Spec) : Statement (.subw2 src dst) := two .w .w src dst rfl
theorem mulw2 (src : Spec) (dst : Spec) : Statement (.mulw2 src dst) := two .w .w src dst rfl
theorem divw2 (src : Spec) (dst : Spec) : Statement (.divw2 src dst) := two .w .w src dst rfl
theorem bisw2 (mask : Spec) (dst : Spec) : Statement (.bisw2 mask dst) := two .w .w mask dst rfl
theorem bicw2 (mask : Spec) (dst : Spec) : Statement (.bicw2 mask dst) := two .w .w mask dst rfl
theorem xorw2 (mask : Spec) (dst : Spec) : Statement (.xorw2 mask dst) := two .w .w mask dst rfl
theorem movw (src : Spec) (dst : Spec) : Statement (.movw src dst) := two .w .w src dst rfl
theorem cmpw (src1 : Spec) (src2 : Spec) : Statement (.cmpw src1 src2) := two .w .w src1 src2 rfl
theorem bitw (mask : Spec) (src : Spec) : Statement (.bitw mask src) := two .w .w mask src rfl
theorem clrw (dst : Spec) : Statement (.clrw dst) := one .w dst rfl
theorem tstw (src : Spec) : Statement (.tstw src) := one .w src rfl
theorem incw (dst : Spec) : Statement (.incw dst) := one .w dst rfl
theorem decw (dst : Spec) : Statement (.decw dst) := one .w dst rfl
theorem addl2 (src : Spec) (dst : Spec) : Statement (.addl2 src dst) := two .l .l src dst rfl
theorem addl3 (src1 : Spec) (src2 : Spec) (dst : Spec) : Statement (.addl3 src1 src2 dst) :=
  three .l .l .l src1 src2 dst rfl
theorem subl2 (src : Spec) (dst : Spec) : Statement (.subl2 src dst) := two .l .l src dst rfl
theorem subl3 (src1 : Spec) (src2 : Spec) (dst : Spec) : Statement (.subl3 src1 src2 dst) :=
  three .l .l .l src1 src2 dst rfl
theorem mull2 (src : Spec) (dst : Spec) : Statement (.mull2 src dst) := two .l .l src dst rfl
theorem mull3 (src1 : Spec) (src2 : Spec) (dst : Spec) : Statement (.mull3 src1 src2 dst) :=
  three .l .l .l src1 src2 dst rfl
theorem divl2 (src : Spec) (dst : Spec) : Statement (.divl2 src dst) := two .l .l src dst rfl
theorem divl3 (src1 : Spec) (src2 : Spec) (dst : Spec) : Statement (.divl3 src1 src2 dst) :=
  three .l .l .l src1 src2 dst rfl
theorem bisl2 (mask : Spec) (dst : Spec) : Statement (.bisl2 mask dst) := two .l .l mask dst rfl
theorem bicl2 (mask : Spec) (dst : Spec) : Statement (.bicl2 mask dst) := two .l .l mask dst rfl
theorem xorl2 (mask : Spec) (dst : Spec) : Statement (.xorl2 mask dst) := two .l .l mask dst rfl
theorem movl (src : Spec) (dst : Spec) : Statement (.movl src dst) := two .l .l src dst rfl
theorem cmpl (src1 : Spec) (src2 : Spec) : Statement (.cmpl src1 src2) := two .l .l src1 src2 rfl
theorem bitl (mask : Spec) (src : Spec) : Statement (.bitl mask src) := two .l .l mask src rfl
theorem clrl (dst : Spec) : Statement (.clrl dst) := one .l dst rfl
theorem tstl (src : Spec) : Statement (.tstl src) := one .l src rfl
theorem incl (dst : Spec) : Statement (.incl dst) := one .l dst rfl
theorem decl (dst : Spec) : Statement (.decl dst) := one .l dst rfl
theorem mtpr (src : Spec) (procreg : Spec) : Statement (.mtpr src procreg) :=
  two .l .l src procreg rfl
theorem mfpr (procreg : Spec) (dst : Spec) : Statement (.mfpr procreg dst) :=
  two .l .l procreg dst rfl
theorem pushl (src : Spec) : Statement (.pushl src) := one .l src rfl
theorem moval (src : Spec) (dst : Spec) : Statement (.moval src dst) := two .l .l src dst rfl
theorem pushal (src : Spec) : Statement (.pushal src) := one .l src rfl
theorem callg (arglist : Spec) (dst : Spec) : Statement (.callg arglist dst) :=
  two .b .b arglist dst rfl
theorem calls (numarg : Spec) (dst : Spec) : Statement (.calls numarg dst) :=
  two .l .b numarg dst rfl

end EncodedLength

end Sys2Proof.Laws
end

