-- ==== Sys2Proof/Laws/Sequences.lean ====
section
/-!
SUPPORT. What the operations that repeat an access can do: runs of pushes and pops, strings, the entry
of an exception and the return from one, and the registers of a process control block.
-/

namespace Sys2Proof.Machine

/-! ## Runs of pushes and pops -/

/-- From `s`, longwords `vs` have been pushed, the first of the list lowest, and nothing else done. -/
structure PushedAll (vs : List Word) (s t : State) : Prop where
  sp : t.sp = s.sp - BitVec.ofNat 32 (4 * vs.length)
  value : ∀ (j : Nat) (v : Word), vs[j]? = some v → t.long (t.sp.plus (4 * j)) = v
  regs : ∀ n, n ≠ Reg.sp → t.r n = s.r n
  bytes : ∀ x, (∀ i < 4 * vs.length, x ≠ t.sp.plus i) → t.byteAt x = s.byteAt x
  recorded : Recorded s t ((List.range (4 * vs.length)).map t.sp.plus)
  rest : t = { s with reg := t.reg, mem := t.mem, written := t.written }

/-- Parameters pushed in order. At 2^30 of them the stack would meet itself. -/
theorem pushParams_ok {vs : List Word} {s t : State} (hl : 4 * vs.length ≤ 2 ^ 32)
    (h : pushParams vs s = .ok t) : PushedAll vs s t := by
  induction vs generalizing t with
  | nil =>
    simp only [pushParams, Except.ok.injEq] at h
    subst h
    exact ⟨by simp, by simp, fun _ _ => rfl, fun _ _ => rfl, recorded_nil rfl, rfl⟩
  | cons v vs ih =>
    simp only [List.length_cons] at hl
    rw [pushParams, bind_ok_iff] at h
    obtain ⟨u, hu, h⟩ := h
    have hp := ih (by omega) hu
    obtain ⟨-, rfl⟩ := push32_ok_iff.1 h
    have hsp : State.sp ((u.setR Reg.sp (u.sp - 4)).storeBytes (u.sp - 4) (leBytes 4 v.toNat)) =
        u.sp - 4 := by simp [State.sp]
    have h4 : ∀ k, u.sp.plus k = (u.sp - 4).plus (4 + k) := fun k => by
      rw [← plus_plus]
      congr 1
      simp [Word.plus]
    constructor
    · rw [hsp, hp.sp]
      simp only [List.length_cons]
      rw [show 4 * (vs.length + 1) = 4 * vs.length + 4 by ring, BitVec.ofNat_add]
      generalize BitVec.ofNat 32 (4 * vs.length) = w
      bv_omega
    · intro j w hj
      rw [hsp]
      cases j with
      | zero =>
        simp only [List.getElem?_cons_zero, Option.some.injEq] at hj
        subst hj
        simpa using long_storeBytes (u.setR Reg.sp (u.sp - 4)) (u.sp - 4) v
      | succ j =>
        simp only [List.getElem?_cons_succ] at hj
        have hlt : j < vs.length := by
          rw [List.getElem?_eq_some_iff] at hj; exact hj.1
        rw [← hp.value j w hj, h4, show 4 + 4 * j = 4 * (j + 1) by ring]
        refine long_congr fun i hi => ?_
        rw [byteAt_storeBytes_other]
        · rfl
        · intro k hk he
          rw [length_leBytes] at hk
          rw [plus_plus] at he
          have := plus_inj _ (by omega) (by omega) he
          omega
    · intro n hn
      rw [r_storeBytes, r_setR, if_neg (Ne.symm hn), hp.regs n hn]
    · intro x hx
      rw [hsp] at hx
      rw [byteAt_storeBytes_other _ _ _ _ fun i hi => ?_]
      · refine (hp.bytes x fun i hi => ?_)
        rw [h4]
        exact hx _ (by simp only [List.length_cons]; omega)
      · rw [length_leBytes] at hi
        exact hx _ (by simp only [List.length_cons]; omega)
    · rw [hsp]
      have hr := recorded_storeBytes (u.setR Reg.sp (u.sp - 4)) (u.sp - 4) (leBytes 4 v.toNat)
      refine ((hp.recorded.trans (by rw [hp.rest]) (hr.of_eq rfl rfl)).congr fun a => ?_)
      simp only [length_leBytes, List.length_cons, List.mem_append, List.mem_map, List.mem_range, h4]
      constructor
      · rintro ⟨i, hi, rfl⟩
        by_cases h : i < 4
        · exact .inr ⟨i, h, rfl⟩
        · exact .inl ⟨i - 4, by omega, by congr 1; omega⟩
      · rintro (⟨i, hi, rfl⟩ | ⟨i, hi, rfl⟩)
        · exact ⟨4 + i, by omega, rfl⟩
        · exact ⟨i, by omega, rfl⟩
    · rw [storeBytes_rest]
      have := hp.rest
      rw [this]
      rfl

/-- A run of pushes in two parts, the second part of the list first. -/
theorem pushParams_append (vs ws : List Word) (s : State) :
    pushParams (vs ++ ws) s = pushParams ws s >>= pushParams vs := by
  induction vs with
  | nil => cases h : pushParams ws s <;> simp [pushParams, bind, Except.bind, h]
  | cons v vs ih =>
    rw [List.cons_append, pushParams, ih]
    cases h : pushParams ws s <;> simp [pushParams, bind, Except.bind]

/-- Pushing registers other than SP is pushing their values. -/
theorem pushRegs_eq {ns : List Reg} {s : State} (hn : Reg.sp ∉ ns) (hl : 4 * ns.length ≤ 2 ^ 32) :
    pushRegs ns s = pushParams (ns.map s.r) s := by
  induction ns with
  | nil => rfl
  | cons n ns ih =>
    simp only [List.mem_cons, not_or] at hn
    simp only [List.length_cons] at hl
    simp only [pushRegs, List.map_cons, pushParams]
    rw [ih hn.2 (by omega)]
    rcases hu : pushParams (ns.map s.r) s with e | u
    · rfl
    · simp only [bind, Except.bind]
      rw [(pushParams_ok (by simpa using (by omega : 4 * ns.length ≤ 2 ^ 32)) hu).regs n
        (Ne.symm hn.1)]

/-- Registers pushed, none of them SP. -/
theorem pushRegs_ok {ns : List Reg} {s t : State} (hn : Reg.sp ∉ ns) (hl : 4 * ns.length ≤ 2 ^ 32)
    (h : pushRegs ns s = .ok t) : PushedAll (ns.map s.r) s t :=
  pushParams_ok (by simpa using hl) (pushRegs_eq hn hl ▸ h)

/-- Registers popped, none of them SP and none twice. -/
theorem popRegs_ok {ns : List Reg} {s t : State} (hn : Reg.sp ∉ ns) (hd : ns.Nodup)
    (h : popRegs ns s = .ok t) :
    t.sp = s.sp.plus (4 * ns.length) ∧
      (∀ (j : Nat) (n : Reg), ns[j]? = some n → t.r n = s.long (s.sp.plus (4 * j))) ∧
      (∀ n, n ≠ Reg.sp → n ∉ ns → t.r n = s.r n) ∧ t = { s with reg := t.reg } := by
  induction ns generalizing s with
  | nil =>
    simp only [popRegs, Except.ok.injEq] at h
    subst h
    simp
  | cons n ns ih =>
    simp only [List.mem_cons, not_or] at hn
    rw [List.nodup_cons] at hd
    rw [popRegs, bind_ok_iff] at h
    obtain ⟨⟨v, u⟩, hu, h⟩ := h
    obtain ⟨-, rfl, rfl⟩ := pop32_ok_iff.1 hu
    obtain ⟨h1, h2, h3, h4⟩ := ih hn.2 hd.2 h
    have hsp : State.sp ((s.setR Reg.sp (s.sp + 4)).setR n (s.long s.sp)) = s.sp.plus 4 := by
      simp only [State.sp]
      rw [r_setR, if_neg (Ne.symm hn.1), r_setR, if_pos rfl]
      rfl
    rw [hsp, plus_plus] at h1
    refine ⟨by rw [h1, List.length_cons]; congr 1; ring, ?_, ?_, ?_⟩
    · intro j m hj
      cases j with
      | zero =>
        simp only [List.getElem?_cons_zero, Option.some.injEq] at hj
        subst hj
        rw [h3 n (Ne.symm hn.1) hd.1]
        simp
      | succ j =>
        simp only [List.getElem?_cons_succ] at hj
        rw [h2 j m hj, hsp, plus_plus]
        simp only [long_setR]
        congr 2
        ring
    · intro m hm hk
      simp only [List.mem_cons, not_or] at hk
      rw [h3 m hm hk.2, r_setR, if_neg (Ne.symm hk.1), r_setR, if_neg (Ne.symm hm)]
    · rw [h4]
      rfl

/-! ## Call frames -/

/-- An entry mask is the word at the entry point, its bits 13:12 clear. -/
theorem entryMask_ok_iff {a : Word} {s : State} {mask : BitVec 16} :
    entryMask a s = .ok mask ↔
      canAccess 2 a s ∧ mask = s.word a ∧ (s.word a).extractLsb' 12 2 = 0 := by
  rw [entryMask, bind_ok_iff]
  constructor
  · rintro ⟨m, hm, h⟩
    obtain ⟨h1, h2⟩ := memRead_ok_iff.1 hm
    have h2 : m = s.word a := h2
    subst h2
    split at h
    · cases h
    · rename_i hz
      exact ⟨h1, by simpa using h.symm, by simpa using hz⟩
  · rintro ⟨h1, rfl, h2⟩
    refine ⟨_, memRead_word h1, ?_⟩
    rw [if_neg (by simpa using h2)]

/-- An entry mask names none of AP, FP, SP and PC, and names a register once. -/
theorem maskedRegs_plain (mask : BitVec 12) :
    (∀ n ∈ maskedRegs mask, n < Reg.ap) ∧ (maskedRegs mask).Nodup ∧
      (maskedRegs mask).length ≤ 12 := by
  refine ⟨fun n hn => ?_, List.Nodup.filter _ (by decide), List.length_filter_le _ _⟩
  have : ∀ m ∈ maskRegs, m < Reg.ap := by decide
  exact this n (List.mem_filter.1 hn).1

/-- A call frame that is built: SP aligned, the longwords of the frame pushed, FP, AP, the PSL and the
program counter set. -/
theorem callFrame_ok {calls : Bool} {mask : BitVec 16} {ap a : Word} {s t : State}
    (h : callFrame calls mask ap a s = .ok t) :
    ∃ u, PushedAll
        ([0, frameStatus (s.sp.extractLsb' 0 2) calls mask s.psl, s.r Reg.ap, s.r Reg.fp, s.pc] ++
          (maskedRegs (mask.extractLsb' 0 12)).map s.r)
        (s.setR Reg.sp (s.sp &&& 0xFFFFFFFC)) u ∧
      t = ((((u.setR Reg.fp u.sp).setR Reg.ap ap).setPsl (pslAfterCall mask u.psl)).setPc (a + 2)) := by
  obtain ⟨hlt, -, hlen⟩ := maskedRegs_plain (mask.extractLsb' 0 12)
  have hsp : Reg.sp ∉ maskedRegs (mask.extractLsb' 0 12) :=
    fun hm => absurd (hlt _ hm) (by decide)
  rw [callFrame] at h
  obtain ⟨u1, h1, h⟩ := bind_ok_iff.1 h
  obtain ⟨u2, h2, h⟩ := bind_ok_iff.1 h
  obtain ⟨u3, h3, h⟩ := bind_ok_iff.1 h
  obtain ⟨u4, h4, h⟩ := bind_ok_iff.1 h
  obtain ⟨u5, h5, h⟩ := bind_ok_iff.1 h
  obtain ⟨u6, h6, h⟩ := bind_ok_iff.1 h
  rw [pushRegs_eq hsp (by omega)] at h1
  have hm : (maskedRegs (mask.extractLsb' 0 12)).map
      (s.setR Reg.sp (s.sp &&& 0xFFFFFFFC)).r =
      (maskedRegs (mask.extractLsb' 0 12)).map s.r := by
    refine List.map_congr_left fun n hn => ?_
    rw [r_setR, if_neg]
    rintro rfl
    exact hsp hn
  rw [hm] at h1
  have k1 := pushParams_ok (by simp only [List.length_map]; omega) h1
  have hp : ∀ {v : Word} {x y : State}, push32 v x = .ok y → ∀ n, n ≠ Reg.sp → y.r n = x.r n := by
    intro v x y hxy n hn
    obtain ⟨-, rfl⟩ := push32_ok_iff.1 hxy
    rw [r_storeBytes, r_setR, if_neg (Ne.symm hn)]
  have e1 : ∀ n, n ≠ Reg.sp → u1.r n = s.r n := fun n hn => by
    rw [k1.regs n hn, r_setR, if_neg (Ne.symm hn)]
  refine ⟨u6, ?_, by simpa using h.symm⟩
  refine pushParams_ok (by simp; omega) ?_
  rw [pushParams_append]
  refine bind_ok_iff.2 ⟨u1, h1, ?_⟩
  have c2 : u1.pc = s.pc := e1 _ (by decide)
  have c3 : u2.r Reg.fp = s.r Reg.fp := by rw [hp h2 _ (by decide), e1 _ (by decide)]
  have c4 : u3.r Reg.ap = s.r Reg.ap := by
    rw [hp h3 _ (by decide), hp h2 _ (by decide), e1 _ (by decide)]
  rw [c2] at h2
  rw [c3] at h3
  rw [c4] at h4
  simp only [pushParams]
  exact bind_ok_iff.2 ⟨u5, bind_ok_iff.2 ⟨u4, bind_ok_iff.2 ⟨u3, bind_ok_iff.2 ⟨u2,
    bind_ok_iff.2 ⟨u1, rfl, h2⟩, h3⟩, h4⟩, h5⟩, h6⟩

/-! ## Strings -/

/-- A string read is the bytes at its addresses, all of which exist. -/
theorem readString_ok_iff {a : Word} {k : Nat} {s : State} {bs : List Byte} :
    readString a k s = .ok bs ↔ canAccess k a s ∧ bs = s.bytesAt a k := by
  induction k generalizing a bs with
  | zero => simp [readString, State.bytesAt, canAccess]
  | succ k ih =>
    have hc : canAccess (k + 1) a s ↔ canAccess 1 a s ∧ canAccess k (a.plus 1) s := by
      simp only [canAccess, plus_plus]
      constructor
      · exact fun h => ⟨fun i hi => h i (by omega), fun i hi => h (1 + i) (by omega)⟩
      · rintro ⟨h1, h2⟩ (_ | i) hi
        · exact h1 0 (by omega)
        · simpa [Nat.add_comm 1] using h2 i (by omega)
    rw [readString, bind_ok_iff, hc]
    constructor
    · rintro ⟨b, hb, h⟩
      obtain ⟨cs, h2, h3⟩ := bind_ok_iff.1 h
      obtain ⟨h4, rfl⟩ := ih.1 h2
      obtain ⟨h5, rfl⟩ := memRead_ok_iff.1 hb
      refine ⟨⟨h5, h4⟩, ?_⟩
      simp only [Except.ok.injEq] at h3
      subst h3
      simp [State.bytesAt, leValue]
    · rintro ⟨⟨h1, h2⟩, rfl⟩
      refine ⟨s.byteAt a, memRead_byte (by simpa using h1 0 (by omega)), ?_⟩
      rw [bind_of_ok (ih.2 ⟨h2, rfl⟩)]
      rfl

/-- A string written is its bytes stored upward, at addresses that all exist. -/
theorem writeString_ok_iff {a : Word} {bs : List Byte} {s t : State} :
    writeString a bs s = .ok t ↔ canAccess bs.length a s ∧ t = s.storeBytes a bs := by
  induction bs generalizing a s with
  | nil => simpa [writeString, State.storeBytes, canAccess] using eq_comm
  | cons b bs ih =>
    have h1 : ∀ u : State, memWrite 8 a b s = .ok u ↔ canAccess 1 a s ∧ u = s.storeByte a b := by
      intro u
      rw [memWrite_ok_iff]
      simp [leBytes, State.storeBytes]
    rw [writeString, bind_ok_iff]
    constructor
    · rintro ⟨u, hu, h⟩
      obtain ⟨h2, rfl⟩ := (h1 u).1 hu
      obtain ⟨h3, rfl⟩ := ih.1 h
      rw [canAccess_congr (cfg_storeByte s a b)] at h3
      refine ⟨?_, rfl⟩
      rintro (_ | i) hi
      · exact h2 0 (by omega)
      · simpa [plus_plus, Nat.add_comm 1] using h3 i (by simpa using hi)
    · rintro ⟨h2, rfl⟩
      refine ⟨_, (h1 _).2 ⟨fun i hi => h2 i (by simp only [List.length_cons]; omega), rfl⟩,
        ih.2 ⟨?_, rfl⟩⟩
      rw [canAccess_congr (cfg_storeByte s a b)]
      intro i hi
      rw [plus_plus]
      exact h2 (1 + i) (by simp only [List.length_cons]; omega)

/-- A scan of `k` bytes that has `j` left has passed bytes that all satisfy `skip`, and stands at one
that does not, or at the end. -/
theorem scanString_ok {skip : Byte → Bool} {p q : Word} {k j : Nat} {s : State}
    (h : scanString skip p k s = .ok (j, q)) :
    j ≤ k ∧ q = p.plus (k - j) ∧ (∀ i < k - j, skip (s.byteAt (p.plus i)) = true) ∧
      (0 < j → skip (s.byteAt q) = false) := by
  induction k generalizing p with
  | zero =>
    simp only [scanString, Except.ok.injEq, Prod.mk.injEq] at h
    obtain ⟨rfl, rfl⟩ := h
    simp
  | succ k ih =>
    rw [scanString, bind_ok_iff] at h
    obtain ⟨b, hb, h⟩ := h
    obtain ⟨-, hb⟩ := memRead_ok_iff.1 hb
    have hb : b = s.byteAt p := by simpa [State.bytesAt, leValue] using hb
    subst hb
    split at h
    · rename_i hs
      obtain ⟨h1, h2, h3, h4⟩ := ih h
      refine ⟨by omega, ?_, ?_, h4⟩
      · rw [h2, plus_plus]
        congr 1
        omega
      · rintro (_ | i) hi
        · simpa using hs
        · simpa [plus_plus, Nat.add_comm 1] using h3 i (by omega)
    · rename_i hs
      simp only [Except.ok.injEq, Prod.mk.injEq] at h
      obtain ⟨rfl, rfl⟩ := h
      simpa using hs

/-- A comparison of `k` pairs of bytes that ends with `left` of them left has passed equal pairs, and
stands at an unequal one, or at the end; the condition codes are of the last pair it compared. -/
theorem compareStrings_ok {p q : Word} {fl : Flags} {k : Nat} {s : State} {e : CompareEnd}
    (h : compareStrings p q fl k s = .ok e) :
    e.left ≤ k ∧ e.p = p.plus (k - e.left) ∧ e.q = q.plus (k - e.left) ∧
      (∀ i < k - e.left, s.byteAt (p.plus i) = s.byteAt (q.plus i)) ∧
      (0 < e.left → s.byteAt e.p ≠ s.byteAt e.q ∧ e.flags = cmpFlags (s.byteAt e.p) (s.byteAt e.q)) ∧
      (e.left = 0 → e.flags = if k = 0 then fl else
        cmpFlags (s.byteAt (p.plus (k - 1))) (s.byteAt (q.plus (k - 1)))) := by
  induction k generalizing p q fl with
  | zero =>
    simp only [compareStrings, Except.ok.injEq] at h
    subst h
    simp
  | succ k ih =>
    rw [compareStrings, bind_ok_iff] at h
    obtain ⟨a, ha, h⟩ := h
    obtain ⟨b, hb, h⟩ := bind_ok_iff.1 h
    have ha : a = s.byteAt p := by simpa [State.bytesAt, leValue] using (memRead_ok_iff.1 ha).2
    have hb : b = s.byteAt q := by simpa [State.bytesAt, leValue] using (memRead_ok_iff.1 hb).2
    subst ha hb
    split at h
    · rename_i hne
      simp only [Except.ok.injEq] at h
      subst h
      simpa using hne
    · rename_i hne
      have heq : s.byteAt p = s.byteAt q := by simpa using hne
      obtain ⟨h1, h2, h3, h4, h5, h6⟩ := ih h
      refine ⟨by omega, ?_, ?_, ?_, h5, ?_⟩
      · rw [h2, plus_plus]; congr 1; omega
      · rw [h3, plus_plus]; congr 1; omega
      · rintro (_ | i) hi
        · simpa using heq
        · simpa [plus_plus, Nat.add_comm 1] using h4 i (by omega)
      · intro hz
        rw [h6 hz]
        cases k with
        | zero => simp
        | succ k => simp [plus_plus, Nat.add_comm 1]

/-! ## Taking an exception and returning from one -/

/-- The state in which an entry through `vec` starts to push: the stack chosen, the new PSL in place. -/
def entryStart (kind : Entry) (vec : Word) (s : State) : State :=
  (if pslIS s.psl then s else s.switchStack (bankOf s.psl) (if vec.getLsbD 0 then .i else .k)).setPsl
    (match kind with
      | .interrupt level => pslForEntry (pslIS s.psl || vec.getLsbD 0) 0 level
      | .exception => pslForEntry (pslIS s.psl || vec.getLsbD 0) (pslCUR s.psl)
          (if vec.getLsbD 0 then 31 else pslIPL s.psl))

/-- An entry that completes has read its vector, pushed the old PSL, the saved PC and the parameters
on the stack the vector chose, and gone to the handler. -/
theorem enter_ok {kind : Entry} {off savedPc : Word} {params : List Word} {s t : State}
    (hl : 4 * (params.length + 2) ≤ 2 ^ 32) (h : enter kind off savedPc params s = .ok t) :
    canAccess 4 (s.scbb + off) s ∧ (s.long (s.scbb + off)).getLsbD 1 = false ∧
      ∃ u, PushedAll (params ++ [savedPc, s.psl]) (entryStart kind (s.long (s.scbb + off)) s) u ∧
        t = u.setPc (s.long (s.scbb + off) &&& 0xFFFFFFFC) := by
  rw [enter, bind_ok_iff] at h
  obtain ⟨vec, hv, h⟩ := h
  obtain ⟨hv1, hv2⟩ := memRead_ok_iff.1 hv
  have hv2 : vec = s.long (s.scbb + off) := hv2
  subst hv2
  split at h
  · cases h
  · rename_i hc
    obtain ⟨u1, h1, h⟩ := bind_ok_iff.1 h
    obtain ⟨u2, h2, h⟩ := bind_ok_iff.1 h
    obtain ⟨u3, h3, h⟩ := bind_ok_iff.1 h
    refine ⟨hv1, by simpa using hc, u3, ?_, by simpa using h.symm⟩
    refine pushParams_ok (by simpa using hl) ?_
    rw [pushParams_append]
    refine bind_ok_iff.2 ⟨u2, ?_, h3⟩
    rw [pushParams]
    refine bind_ok_iff.2 ⟨u1, ?_, h2⟩
    rw [pushParams]
    exact bind_ok_iff.2 ⟨_, rfl, h1⟩

/-- A return that completes has popped a PC and an acceptable PSL, switched to the stack of the restored
mode and emptied the record of stored bytes. -/
theorem returnFromException_ok {s t : State} (h : returnFromException s = .ok t) :
    canAccess 4 s.sp s ∧ canAccess 4 (s.sp + 4) s ∧
      reiRejects s.psl (s.long (s.sp + 4)) = false ∧
      pslUnmodelled (s.long (s.sp + 4)) = false ∧
      (pslIS (s.long (s.sp + 4)) = false →
        (pslCUR (s.long (s.sp + 4))).toNat < s.astlvl.toNat) ∧
      t = { ((((s.setR Reg.sp (s.sp + 8)).switchStack (bankOf s.psl)
          (bankOf (s.long (s.sp + 4)))).setPsl (s.long (s.sp + 4))).setPc (s.long s.sp)) with
            written := [] } := by
  rw [returnFromException, bind_ok_iff] at h
  obtain ⟨⟨pc, u1⟩, h1, h⟩ := h
  obtain ⟨⟨psl, u2⟩, h2, h⟩ := bind_ok_iff.1 h
  obtain ⟨ha, rfl, rfl⟩ := pop32_ok_iff.1 h1
  obtain ⟨hb, rfl, rfl⟩ := pop32_ok_iff.1 h2
  have hsp : (s.setR Reg.sp (s.sp + 4)).sp = s.sp + 4 := by simp [State.sp]
  have hset : ∀ v, (s.setR Reg.sp (s.sp + 4)).setR Reg.sp v = s.setR Reg.sp v := by
    intro v; simp [State.setR]
  rw [hsp] at hb
  simp only [hsp, hset, long_setR] at h
  split at h
  · cases h
  · rename_i hr
    split at h
    · cases h
    · rename_i hm
      split at h
      · cases h
      · rename_i hast
        refine ⟨ha, hb, by simpa using hr, by simpa using hm, ?_, ?_⟩
        · intro hi
          simp only [hi] at hast
          simpa [State.switchStack] using hast
        · simp only [Except.ok.injEq] at h
          rw [← h, BitVec.add_assoc]
          rfl

/-! ## The process control block -/

/-- Registers loaded from the block, none of them twice. -/
theorem pcbLoadRegs_ok {es : List (Reg × Word)} {s t : State} (hd : (es.map Prod.fst).Nodup)
    (h : pcbLoadRegs es s = .ok t) :
    (∀ e ∈ es, t.r e.1 = s.long (s.pcbb + e.2)) ∧
      (∀ n, n ∉ es.map Prod.fst → t.r n = s.r n) ∧ t = { s with reg := t.reg } := by
  induction es generalizing s with
  | nil =>
    simp only [pcbLoadRegs, Except.ok.injEq] at h
    subst h
    simp
  | cons e es ih =>
    rw [List.map_cons, List.nodup_cons] at hd
    rw [pcbLoadRegs, bind_ok_iff] at h
    obtain ⟨v, hv, h⟩ := h
    obtain ⟨-, hv⟩ := memRead_ok_iff.1 hv
    have hv : v = s.long (s.pcbb + e.2) := hv
    subst hv
    obtain ⟨h1, h2, h3⟩ := ih hd.2 h
    refine ⟨?_, ?_, ?_⟩
    · intro e' he'
      rcases List.mem_cons.1 he' with rfl | he'
      · rw [h2 _ hd.1]
        simp
      · rw [h1 e' he']
        simp
    · intro n hn
      simp only [List.map_cons, List.mem_cons, not_or] at hn
      rw [h2 n hn.2, r_setR, if_neg (Ne.symm hn.1)]
    · rw [h3]
      rfl

/-- Registers stored to the block, at places that do not overlap. -/
theorem pcbStoreRegs_ok {es : List (Reg × Word)} {s t : State}
    (hd : es.Pairwise fun x y => ∀ i < 4, ∀ j < 4, x.2.plus i ≠ y.2.plus j)
    (h : pcbStoreRegs es s = .ok t) :
    (∀ e ∈ es, t.long (s.pcbb + e.2) = s.r e.1) ∧
      (∀ x, (∀ e ∈ es, ∀ i < 4, x ≠ s.pcbb + e.2.plus i) → t.byteAt x = s.byteAt x) ∧
      Recorded s t (es.flatMap fun e => (List.range 4).map (s.pcbb + e.2).plus) ∧
      t = { s with mem := t.mem, written := t.written } := by
  have hadd : ∀ (b o : Word) (i : Nat), (b + o).plus i = b + o.plus i := fun b o i => by
    simp [Word.plus, BitVec.add_assoc]
  induction es generalizing s with
  | nil =>
    simp only [pcbStoreRegs, Except.ok.injEq] at h
    subst h
    exact ⟨by simp, fun _ _ => rfl, recorded_nil rfl, rfl⟩
  | cons e es ih =>
    rw [List.pairwise_cons] at hd
    rw [pcbStoreRegs, bind_ok_iff] at h
    obtain ⟨u, hu, h⟩ := h
    obtain ⟨-, hu⟩ := memWrite_ok_iff.1 hu
    have hu : u = s.storeBytes (s.pcbb + e.2) (leBytes 4 (s.r e.1).toNat) := hu
    have hr : u = { s with mem := u.mem, written := u.written } := by
      conv_lhs => rw [hu, storeBytes_rest]
      rw [hu]
    have hb : u.pcbb = s.pcbb := by rw [hr]
    have hg : ∀ n, u.r n = s.r n := fun n => by rw [hu, r_storeBytes]
    obtain ⟨h1, h2, h4, h3⟩ := ih hd.2 h
    rw [hb] at h1 h2 h4
    refine ⟨?_, ?_, ?_, ?_⟩
    · intro e' he'
      rcases List.mem_cons.1 he' with rfl | he'
      · have hl : u.long (s.pcbb + e'.2) = s.r e'.1 := by rw [hu]; exact long_storeBytes _ _ _
        rw [← hl]
        refine long_congr fun i hi => h2 _ fun f hf j hj hne => ?_
        rw [hadd] at hne
        exact hd.1 f hf i hi j hj (by simpa using hne)
      · rw [h1 e' he', hg]
    · intro x hx
      rw [h2 x fun f hf => hx f (List.mem_cons_of_mem _ hf), hu]
      refine byteAt_storeBytes_other _ _ _ _ fun i hi => ?_
      rw [length_leBytes] at hi
      rw [hadd]
      exact hx e (List.mem_cons_self ..) i hi
    · have hs := recorded_storeBytes s (s.pcbb + e.2) (leBytes 4 (s.r e.1).toNat)
      rw [length_leBytes, ← hu] at hs
      exact hs.trans (by rw [hr]) h4
    · rw [h3, hr]

/-- The places of the registers in the block do not overlap, and no register has two. -/
theorem pcbRegs_apart :
    (pcbRegs.Pairwise fun x y => ∀ i < 4, ∀ j < 4, x.2.plus i ≠ y.2.plus j) ∧
      (pcbRegs.map Prod.fst).Nodup := by decide +kernel

end Sys2Proof.Machine
end

