-- ==== Sys2Proof/Tests/Slice0.lean ====
section
/-!
SUPPORT. The model's own tests: ill-formed terms that WellFormed refuses, words written out from the
encoding tables, one step of each instruction, and states that meet the hypotheses of the
statements. A step test named `test_<mnemonic>_<id>` is the vector `<id>` of spec/95_test_vectors.md; its end
state is the vector's.
-/

namespace Sys2Proof.Tests

open Sys2Proof Sys2Proof.Machine

-- The kernel evaluations of this file run one after the other, not each on a thread of its own.
set_option Elab.async false

/-- Registers set in turn. -/
def withRegs (rs : List (Reg × Word)) (s : State) : State :=
  rs.foldl (fun s e => s.setR e.1 e.2) s

/-- Bytes placed in turn. -/
def withData (ds : List (Word × List Byte)) (m : Memory) : Memory :=
  ds.foldl (fun m e => memLoad m e.1 e.2) m

/-- A machine about to run `code` at `pc`, exceptions not delivered. Registers not named hold a value that
tells them apart. -/
def machine (pc : Word) (code : List Byte) (rs : List (Reg × Word)) (ds : List (Word × List Byte))
    (psl : Word) : State :=
  withRegs ((15, pc) :: rs) { State.reset with
    reg := Vector.ofFn fun n => 0xDEAD0000 + BitVec.ofNat 32 n.val, psl := psl,
    mem := withData ((pc, code) :: ds) [], cfg := configDefault }

/-- `t` is `s` but for `change`, the registers `rs`, the bytes `ds`, the PSL and the record of stored bytes. -/
def differs (s t : State) (change : State → State) (rs : List (Reg × Word))
    (ds : List (Word × List Byte)) (psl : Word) : Bool :=
  decide (t = withRegs rs
    { change s with mem := withData ds s.mem, psl := psl, written := t.written })

/-- One step ends in a next state with exactly these differences. -/
def lands (s : State) (change : State → State) (rs : List (Reg × Word))
    (ds : List (Word × List Byte)) (psl : Word) : Bool :=
  match step s with
  | .next t => differs s t change rs ds psl
  | .fault _ => false
  | .refused _ => false

/-- One step ends in an arithmetic trap, with these differences in the completed state. -/
def traps (k : ArithTrap) (s : State) (rs : List (Reg × Word)) (ds : List (Word × List Byte))
    (psl : Word) : Bool :=
  match step s with
  | .next _ => false
  | .fault (.arithmeticTrap k' t) => k == k' && differs s t id rs ds psl
  | .fault _ => false
  | .refused _ => false

/-- One step ends in this fault. -/
def faults (s : State) (f : Fault) : Bool :=
  match step s with
  | .next _ => false
  | .fault g => f == g
  | .refused _ => false

/-- One step is refused for this reason. -/
def refuses (s : State) (r : Refusal) : Bool :=
  match step s with
  | .next _ => false
  | .fault _ => false
  | .refused q => r == q

/-! ## Ill-formed terms -/

theorem test_wellFormed_refuses_an_oversize_immediate :
    Instr.wf (.clrb (.direct (.immediate 256))) = false ∧
    Instr.wf (.clrb (.direct (.immediate 255))) = true := by decide +kernel

theorem test_wellFormed_refuses_autoincrement_of_the_pc :
    Instr.wf (.clrl (.direct (.autoinc 15))) = false ∧
    Instr.wf (.clrl (.direct (.autoinc 14))) = true := by decide +kernel

theorem test_wellFormed_refuses_autoincrement_deferred_of_the_pc :
    Instr.wf (.clrl (.indexed 1 (.autoincDeferred 15))) = false ∧
    Instr.wf (.clrl (.indexed 1 (.autoincDeferred 14))) = true := by decide +kernel

theorem test_wellFormed_refuses_a_bare_nested_index :
    Instr.wf (.movl (.direct (.nestedIndex 1)) (.direct (.register 1))) = false ∧
    Instr.wf (.movl (.indexed 2 (.nestedIndex 1)) (.direct (.register 1))) = true := by decide +kernel

/-- Each operand is checked at its own size: MOVC5's first is a word, its third a byte. -/
theorem test_wellFormed_checks_every_operand :
    Instr.wf (.movc5 (.direct (.immediate 0x100)) (.direct (.deferred 1)) (.direct (.immediate 0x100))
      (.direct (.literal 1)) (.direct (.deferred 2))) = false ∧
    Instr.wf (.movc5 (.direct (.immediate 0x100)) (.direct (.deferred 1)) (.direct (.immediate 0xFF))
      (.direct (.literal 1)) (.direct (.deferred 2))) = true := by decide +kernel

/-! ## Words written out from the encoding tables (30_encoding.md R81 to R99, R114) -/

/-- All of these bytes are the encoding of one instruction. -/
def reads (bs : List Byte) (i : Instr) : Bool :=
  match decode bs with
  | .ok (j, rest) => i == j && rest == []
  | .error _ => false

theorem test_decode_privileged :
    reads [0x00] (.halt) = true ∧
    reads [0x02] (.rei) = true ∧
    reads [0x06] (.ldpctx) = true ∧
    reads [0x07] (.svpctx) = true ∧
    reads [0xDA, 0x9F, 0x10, 0x20, 0x30, 0x40, 0xA5, 0x84]
      (.mtpr (.direct (.absolute 0x40302010)) (.direct (.byteDisp 5 0x84))) = true ∧
    reads [0xDB, 0xBA, 0x7F, 0xC3, 0x34, 0x92]
      (.mfpr (.direct (.byteDispDeferred 10 0x7F)) (.direct (.wordDisp 3 0x9234))) = true := by
  decide +kernel

theorem test_decode_call :
    reads [0x04] (.ret) = true ∧
    reads [0x05] (.rsb) = true ∧
    reads [0x16, 0x56] (.jsb (.direct (.register 6))) = true ∧
    reads [0xFA, 0x44, 0x65, 0x59] (.callg (.indexed 4 (.deferred 5)) (.direct (.register 9))) = true ∧
    reads [0xFB, 0x62, 0x77] (.calls (.direct (.deferred 2)) (.direct (.autodec 7))) = true := by
  decide +kernel

theorem test_decode_branch :
    reads [0x11, 0xFB] (.brb 0xFB) = true ∧
    reads [0x12, 0xFB] (.bneq 0xFB) = true ∧
    reads [0x13, 0xFB] (.beql 0xFB) = true ∧
    reads [0x14, 0xFB] (.bgtr 0xFB) = true ∧
    reads [0x15, 0xFB] (.bleq 0xFB) = true ∧
    reads [0x18, 0xFB] (.bgeq 0xFB) = true ∧
    reads [0x19, 0xFB] (.blss 0xFB) = true ∧
    reads [0x1C, 0xFB] (.bvc 0xFB) = true ∧
    reads [0x1D, 0xFB] (.bvs 0xFB) = true ∧
    reads [0x1E, 0xFB] (.bcc 0xFB) = true ∧
    reads [0x1F, 0xFB] (.bcs 0xFB) = true ∧
    reads [0x31, 0x34, 0xF2] (.brw 0xF234) = true := by
  decide +kernel

theorem test_decode_string :
    reads [0x28, 0x6B, 0x74, 0x89]
      (.movc3 (.direct (.deferred 11)) (.direct (.autodec 4)) (.direct (.autoinc 9))) = true ∧
    reads [0x29, 0x8F, 0x81, 0x02, 0x97, 0x9F, 0x10, 0x20, 0x30, 0x40]
      (.cmpc3 (.direct (.immediate 0x281)) (.direct (.autoincDeferred 7)) (.direct (.absolute 0x40302010))) = true ∧
    reads [0x2C, 0xA5, 0x84, 0xBA, 0x7F, 0xC3, 0x34, 0x92, 0xD8, 0x01, 0x02, 0xE1, 0x01, 0x02, 0x03, 0xF4]
      (.movc5 (.direct (.byteDisp 5 0x84)) (.direct (.byteDispDeferred 10 0x7F)) (.direct (.wordDisp 3 0x9234)) (.direct (.wordDispDeferred 8 0x0201)) (.direct (.longDisp 1 0xF4030201))) = true ∧
    reads [0x3A, 0xF6, 0x05, 0x06, 0x07, 0x08, 0x2A, 0x44, 0x65]
      (.locc (.direct (.longDispDeferred 6 0x08070605)) (.direct (.literal 42)) (.indexed 4 (.deferred 5))) = true ∧
    reads [0x3B, 0x59, 0x62, 0x77]
      (.skpc (.direct (.register 9)) (.direct (.deferred 2)) (.direct (.autodec 7))) = true := by
  decide +kernel

theorem test_decode_move :
    reads [0x3E, 0x80, 0x8F, 0x81, 0x02, 0x03, 0x04]
      (.movaw (.direct (.autoinc 0)) (.direct (.immediate 0x4030281))) = true ∧
    reads [0x3F, 0x9A] (.pushaw (.direct (.autoincDeferred 10))) = true ∧
    reads [0x7C, 0xF9, 0x05, 0x06, 0x07, 0x08] (.clrq (.direct (.longDispDeferred 9 0x08070605))) = true ∧
    reads [0x7D, 0x2A, 0x47, 0x68] (.movq (.direct (.literal 42)) (.indexed 7 (.deferred 8))) = true ∧
    reads [0x90, 0x71, 0x86] (.movb (.direct (.autodec 1)) (.direct (.autoinc 6))) = true ∧
    reads [0x94, 0xB7, 0x7F] (.clrb (.direct (.byteDispDeferred 7 0x7F))) = true ∧
    reads [0x9E, 0x56, 0x6B] (.movab (.direct (.register 6)) (.direct (.deferred 11))) = true ∧
    reads [0x9F, 0x74] (.pushab (.direct (.autodec 4))) = true ∧
    reads [0xB0, 0x9A, 0x9F, 0x10, 0x20, 0x30, 0x40]
      (.movw (.direct (.autoincDeferred 10)) (.direct (.absolute 0x40302010))) = true ∧
    reads [0xB4, 0xE4, 0x01, 0x02, 0x03, 0xF4] (.clrw (.direct (.longDisp 4 0xF4030201))) = true ∧
    reads [0xD0, 0xEA, 0x01, 0x02, 0x03, 0xF4, 0xF3, 0x05, 0x06, 0x07, 0x08]
      (.movl (.direct (.longDisp 10 0xF4030201)) (.direct (.longDispDeferred 3 0x08070605))) = true ∧
    reads [0xD4, 0x74] (.clrl (.direct (.autodec 4))) = true ∧
    reads [0xDD, 0xD8, 0x01, 0x02] (.pushl (.direct (.wordDispDeferred 8 0x0201))) = true ∧
    reads [0xDE, 0xE1, 0x01, 0x02, 0x03, 0xF4, 0xF6, 0x05, 0x06, 0x07, 0x08]
      (.moval (.direct (.longDisp 1 0xF4030201)) (.direct (.longDispDeferred 6 0x08070605))) = true := by
  decide +kernel

theorem test_decode_move_more :
    reads [0xDF, 0x2A] (.pushal (.direct (.literal 42))) = true := by
  decide +kernel

theorem test_decode_shift :
    reads [0x78, 0x9F, 0x10, 0x20, 0x30, 0x40, 0xA8, 0x84, 0xB1, 0x7F]
      (.ashl (.direct (.absolute 0x40302010)) (.direct (.byteDisp 8 0x84)) (.direct (.byteDispDeferred 1 0x7F))) = true ∧
    reads [0x79, 0xC6, 0x34, 0x92, 0xDB, 0x01, 0x02, 0xE4, 0x01, 0x02, 0x03, 0xF4]
      (.ashq (.direct (.wordDisp 6 0x9234)) (.direct (.wordDispDeferred 11 0x0201)) (.direct (.longDisp 4 0xF4030201))) = true ∧
    reads [0x9C, 0xF3, 0x05, 0x06, 0x07, 0x08, 0x2A, 0x41, 0x62]
      (.rotl (.direct (.longDispDeferred 3 0x08070605)) (.direct (.literal 42)) (.indexed 1 (.deferred 2))) = true := by
  decide +kernel

theorem test_decode_arithmetic :
    reads [0x80, 0x50, 0x65] (.addb2 (.direct (.register 0)) (.direct (.deferred 5))) = true ∧
    reads [0x81, 0x7A, 0x83, 0x8F, 0x81]
      (.addb3 (.direct (.autodec 10)) (.direct (.autoinc 3)) (.direct (.immediate 0x81))) = true ∧
    reads [0x82, 0x91, 0x9F, 0x10, 0x20, 0x30, 0x40]
      (.subb2 (.direct (.autoincDeferred 1)) (.direct (.absolute 0x40302010))) = true ∧
    reads [0x84, 0xAB, 0x84, 0xB4, 0x7F]
      (.mulb2 (.direct (.byteDisp 11 0x84)) (.direct (.byteDispDeferred 4 0x7F))) = true ∧
    reads [0x86, 0xC9, 0x34, 0x92, 0xD2, 0x01, 0x02]
      (.divb2 (.direct (.wordDisp 9 0x9234)) (.direct (.wordDispDeferred 2 0x0201))) = true ∧
    reads [0x96, 0xD5, 0x01, 0x02] (.incb (.direct (.wordDispDeferred 5 0x0201))) = true ∧
    reads [0x97, 0xEA, 0x01, 0x02, 0x03, 0xF4] (.decb (.direct (.longDisp 10 0xF4030201))) = true ∧
    reads [0xA0, 0x89, 0x8F, 0x81, 0x02]
      (.addw2 (.direct (.autoinc 9)) (.direct (.immediate 0x281))) = true ∧
    reads [0xA1, 0x97, 0x9F, 0x10, 0x20, 0x30, 0x40, 0xA5, 0x84]
      (.addw3 (.direct (.autoincDeferred 7)) (.direct (.absolute 0x40302010)) (.direct (.byteDisp 5 0x84))) = true ∧
    reads [0xA2, 0xBA, 0x7F, 0xC3, 0x34, 0x92]
      (.subw2 (.direct (.byteDispDeferred 10 0x7F)) (.direct (.wordDisp 3 0x9234))) = true ∧
    reads [0xA4, 0xD8, 0x01, 0x02, 0xE1, 0x01, 0x02, 0x03, 0xF4]
      (.mulw2 (.direct (.wordDispDeferred 8 0x0201)) (.direct (.longDisp 1 0xF4030201))) = true ∧
    reads [0xA6, 0xF6, 0x05, 0x06, 0x07, 0x08, 0x2A]
      (.divw2 (.direct (.longDispDeferred 6 0x08070605)) (.direct (.literal 42))) = true ∧
    reads [0xB6, 0x2A] (.incw (.direct (.literal 42))) = true ∧
    reads [0xB7, 0x47, 0x68] (.decw (.indexed 7 (.deferred 8))) = true := by
  decide +kernel

theorem test_decode_arithmetic_more :
    reads [0xC0, 0x50, 0x65] (.addl2 (.direct (.register 0)) (.direct (.deferred 5))) = true ∧
    reads [0xC1, 0x7A, 0x83, 0x8F, 0x81, 0x02, 0x03, 0x04]
      (.addl3 (.direct (.autodec 10)) (.direct (.autoinc 3)) (.direct (.immediate 0x4030281))) = true ∧
    reads [0xC2, 0x91, 0x9F, 0x10, 0x20, 0x30, 0x40]
      (.subl2 (.direct (.autoincDeferred 1)) (.direct (.absolute 0x40302010))) = true ∧
    reads [0xC3, 0xAB, 0x84, 0xB4, 0x7F, 0xC9, 0x34, 0x92]
      (.subl3 (.direct (.byteDisp 11 0x84)) (.direct (.byteDispDeferred 4 0x7F)) (.direct (.wordDisp 9 0x9234))) = true ∧
    reads [0xC4, 0xD2, 0x01, 0x02, 0xE7, 0x01, 0x02, 0x03, 0xF4]
      (.mull2 (.direct (.wordDispDeferred 2 0x0201)) (.direct (.longDisp 7 0xF4030201))) = true ∧
    reads [0xC5, 0xF0, 0x05, 0x06, 0x07, 0x08, 0x2A, 0x4A, 0x6B]
      (.mull3 (.direct (.longDispDeferred 0 0x08070605)) (.direct (.literal 42)) (.indexed 10 (.deferred 11))) = true ∧
    reads [0xC6, 0x53, 0x68] (.divl2 (.direct (.register 3)) (.direct (.deferred 8))) = true ∧
    reads [0xC7, 0x71, 0x86, 0x8F, 0x81, 0x02, 0x03, 0x04]
      (.divl3 (.direct (.autodec 1)) (.direct (.autoinc 6)) (.direct (.immediate 0x4030281))) = true ∧
    reads [0xD6, 0x8F, 0x81, 0x02, 0x03, 0x04] (.incl (.direct (.immediate 0x4030281))) = true ∧
    reads [0xD7, 0x97] (.decl (.direct (.autoincDeferred 7))) = true := by
  decide +kernel

theorem test_decode_logical :
    reads [0x88, 0xE7, 0x01, 0x02, 0x03, 0xF4, 0xF0, 0x05, 0x06, 0x07, 0x08]
      (.bisb2 (.direct (.longDisp 7 0xF4030201)) (.direct (.longDispDeferred 0 0x08070605))) = true ∧
    reads [0x8A, 0x2A, 0x4A, 0x6B] (.bicb2 (.direct (.literal 42)) (.indexed 10 (.deferred 11))) = true ∧
    reads [0x8C, 0x53, 0x68] (.xorb2 (.direct (.register 3)) (.direct (.deferred 8))) = true ∧
    reads [0xA8, 0x44, 0x65, 0x59] (.bisw2 (.indexed 4 (.deferred 5)) (.direct (.register 9))) = true ∧
    reads [0xAA, 0x62, 0x77] (.bicw2 (.direct (.deferred 2)) (.direct (.autodec 7))) = true ∧
    reads [0xAC, 0x80, 0x8F, 0x81, 0x02]
      (.xorw2 (.direct (.autoinc 0)) (.direct (.immediate 0x281))) = true ∧
    reads [0xC8, 0x94, 0x9F, 0x10, 0x20, 0x30, 0x40]
      (.bisl2 (.direct (.autoincDeferred 4)) (.direct (.absolute 0x40302010))) = true ∧
    reads [0xCA, 0xA2, 0x84, 0xB7, 0x7F]
      (.bicl2 (.direct (.byteDisp 2 0x84)) (.direct (.byteDispDeferred 7 0x7F))) = true ∧
    reads [0xCC, 0xC0, 0x34, 0x92, 0xD5, 0x01, 0x02]
      (.xorl2 (.direct (.wordDisp 0 0x9234)) (.direct (.wordDispDeferred 5 0x0201))) = true := by
  decide +kernel

theorem test_decode_compare :
    reads [0x91, 0x8F, 0x81, 0x94]
      (.cmpb (.direct (.immediate 0x81)) (.direct (.autoincDeferred 4))) = true ∧
    reads [0x93, 0x9F, 0x10, 0x20, 0x30, 0x40, 0xA2, 0x84]
      (.bitb (.direct (.absolute 0x40302010)) (.direct (.byteDisp 2 0x84))) = true ∧
    reads [0x95, 0xC0, 0x34, 0x92] (.tstb (.direct (.wordDisp 0 0x9234))) = true ∧
    reads [0xB1, 0xA8, 0x84, 0xB1, 0x7F]
      (.cmpw (.direct (.byteDisp 8 0x84)) (.direct (.byteDispDeferred 1 0x7F))) = true ∧
    reads [0xB3, 0xC6, 0x34, 0x92, 0xDB, 0x01, 0x02]
      (.bitw (.direct (.wordDisp 6 0x9234)) (.direct (.wordDispDeferred 11 0x0201))) = true ∧
    reads [0xB5, 0xF9, 0x05, 0x06, 0x07, 0x08] (.tstw (.direct (.longDispDeferred 9 0x08070605))) = true ∧
    reads [0xD1, 0x2A, 0x41, 0x62] (.cmpl (.direct (.literal 42)) (.indexed 1 (.deferred 2))) = true ∧
    reads [0xD3, 0x56, 0x6B] (.bitl (.direct (.register 6)) (.direct (.deferred 11))) = true ∧
    reads [0xD5, 0x89] (.tstl (.direct (.autoinc 9))) = true := by
  decide +kernel

/-- The second spellings of R113 have the words of the first ones. -/
theorem test_encode_second_spellings :
    encode (.bnequ 5) = [0x12, 0x05] ∧ encode (.beqlu 5) = [0x13, 0x05] ∧
    encode (.bgequ 5) = [0x1E, 0x05] ∧ encode (.blssu 5) = [0x1F, 0x05] ∧
    decode (encode (.blssu 5)) = .ok (.bcs 5, []) := by decide +kernel

/-- Mode 4 in the base position and the R15 forms (R87, R91, R92); an opcode byte outside the table and an
instruction cut short are rejected by name (R109). -/
theorem test_decode_corners :
    reads [0xD4, 0x43, 0x44] (.clrl (.indexed 3 (.nestedIndex 4))) = true ∧
    reads [0xD4, 0x8F, 1, 2, 3, 4] (.clrl (.direct (.immediate 0x04030201))) = true ∧
    reads [0xD4, 0x9F, 1, 2, 3, 4] (.clrl (.direct (.absolute 0x04030201))) = true ∧
    reads [0xD4, 0xAF, 0xFE] (.clrl (.direct (.byteDisp 15 0xFE))) = true ∧
    decode [0xFD, 0x00] = .error (.unlistedOpcode 0xFD) ∧
    decode [0xD4] = .error .truncated := by decide +kernel

/-- The host's numbering of bits: bit 0 is the least significant of the first byte. -/
theorem test_decode_table_word :
    decodeTableWord 8 0x80 = some (.addb2 (.direct (.literal 0)) (.direct (.literal 0))) ∧
    decodeTableWord 8 0xFA = some (.callg (.direct (.literal 0)) (.direct (.literal 0))) ∧
    decodeTableWord 16 0xFB11 = some (.brb 0xFB) ∧ decodeTableWord 8 0xFD = none := by decide +kernel

/-! ## One step of each instruction -/

theorem test_halt_XE2 :
    lands { machine 0x300 [0x00] [(14, 0x7000)] [(0x610, [0, 7, 0, 0])] 0x03C00005
      with spbank.k := 0x6000, scbb := 0x600, cfg.deliver := true }
      (fun s => { s with spbank.u := 0x7000 }) [(14, 0x5FF8), (15, 0x700)] [(0x5FF8, [0, 3, 0, 0,
      5, 0, 0xC0, 3])] 0x00C00000 = true := by
  decide +kernel

theorem test_rei_PV31 :
    lands { machine 0x1000 [0x02] [(14, 0x4000)] [(0x4000, [0, 0x10, 0, 0, 0, 0, 0, 0])]
      0x041F0000 with spbank.k := 0x6000 } (fun s => { s with spbank.i := 0x4008 }) [(14, 0x6000),
      (15, 0x1000)] [] 0x00000000 = true := by
  decide +kernel

theorem test_ret_CL6 :
    lands (machine 0x1000 [0x04] [(2, 0), (13, 0x7FD8), (14, 0x7F00)] [(0x7FD8, [0, 0, 0, 0, 0x21,
      0, 4, 0xE0, 0xC, 0, 0, 0, 0xD, 0, 0, 0, 7, 2, 0, 0, 0x22, 0x22, 0x22, 0x22, 0xEE, 0xEE,
      0xEE, 2, 0, 0, 0, 6, 0, 0, 0, 7, 0, 0, 0])] 0x041F000A) id [(2, 0x22222222), (12, 0xC),
      (13, 0xD), (14, 0x7FFF), (15, 0x207)] [] 0x041F0021 = true := by
  decide +kernel

theorem test_rsb_CL13 :
    lands (machine 0x1000 [0x05] [(14, 0x7FFD)] [(0x7FFD, [6, 2, 0, 0])] 0x041F0000) id
      [(14, 0x8001), (15, 0x206)] [] 0x041F0000 = true := by
  decide +kernel

theorem test_ldpctx_PV35 :
    lands { machine 0x1000 [0x06] [(14, 0x4000)] [(0x2000, [0, 0x60, 0, 0, 0, 0, 0, 0, 0, 0, 0, 0,
      0, 0, 0xFE, 0x7F, 0x11, 0, 0, 0, 0x22, 0, 0, 0, 0, 0, 0, 0, 0, 0, 0, 0, 0, 0, 0, 0, 0, 0, 0,
      0, 0, 0, 0, 0, 0, 0, 0, 0, 0, 0, 0, 0, 0, 0, 0, 0, 0, 0, 0, 0, 0, 0, 0, 0, 0xCC, 0, 0, 0,
      0xDD, 0, 0, 0, 0, 0x10, 0, 0, 0, 0, 0xC0, 3, 0, 0, 0, 0x80, 0, 0, 0, 4, 0, 0, 0x80, 0x7F, 0,
      0, 0, 0])] 0x041F0000 with pcbb := 0x2000 }
      (fun s => { s with spbank.e := 0, spbank.i := 0x4000, spbank.k := 0x6000, spbank.s := 0, spbank.u := 0x7FFE0000, p0br := 0x80000000, p0lr := 0, p1br := 0x7F800000, p1lr := 0 })
      [(0, 0x11), (1, 0x22), (2, 0), (3, 0), (4, 0), (5, 0), (6, 0), (7, 0), (8, 0), (9, 0),
      (10, 0), (11, 0), (12, 0xCC), (13, 0xDD), (14, 0x5FF8), (15, 0x1001)] [(0x5FF8, [0, 0x10, 0,
      0, 0, 0, 0xC0, 3])] 0x001F0000 = true := by
  decide +kernel

theorem test_svpctx_PV38 :
    lands { machine 0x1000 [0x07] [(0, 0x100), (1, 0x101), (2, 0x102), (3, 0x103), (4, 0x104),
      (5, 0x105), (6, 0x106), (7, 0x107), (8, 0x108), (9, 0x109), (10, 0x10A), (11, 0x10B),
      (12, 0x10C), (13, 0x10D), (14, 0x5FF8)] [(0x5FF8, [0x34, 0x12, 0, 0, 0, 0, 0xC0, 3])]
      0x00000000
      with spbank.e := 0xE0, spbank.i := 0x4000, spbank.s := 0x50, spbank.u := 0x7FFE0000, pcbb := 0x2000 }
      (fun s => { s with spbank.k := 0x6000 }) [(14, 0x4000), (15, 0x1001)] [(0x2000, [0, 0x60, 0,
      0, 0xE0, 0, 0, 0, 0x50, 0, 0, 0, 0, 0, 0xFE, 0x7F, 0, 1, 0, 0, 1, 1, 0, 0, 2, 1, 0, 0, 3, 1,
      0, 0, 4, 1, 0, 0, 5, 1, 0, 0, 6, 1, 0, 0, 7, 1, 0, 0, 8, 1, 0, 0, 9, 1, 0, 0, 0xA, 1, 0, 0,
      0xB, 1, 0, 0, 0xC, 1, 0, 0, 0xD, 1, 0, 0, 0x34, 0x12, 0, 0, 0, 0, 0xC0, 3])] 0x04010000 =
      true := by
  decide +kernel

theorem test_brb_EX3 :
    lands (machine 0x1000 [0x11, 0xF6] [] [] 0x041F0000) id [(15, 0xFF8)] [] 0x041F0000 = true := by
  decide +kernel

theorem test_beql_BR7 :
    lands (machine 0x1000 [0x13, 0x04] [] [] 0x041F000B) id [(15, 0x1002)] [] 0x041F000B = true := by
  decide +kernel

theorem test_bgtr_BR8 :
    lands (machine 0x1000 [0x14, 0xFE] [] [] 0x041F0003) id [(15, 0x1000)] [] 0x041F0003 = true := by
  decide +kernel

theorem test_bleq_BR9 :
    lands (machine 0x1000 [0x15, 0x10] [] [] 0x041F0008) id [(15, 0x1012)] [] 0x041F0008 = true := by
  decide +kernel

theorem test_bgeq_BR10 :
    lands (machine 0x1000 [0x18, 0x10] [] [] 0x041F000A) id [(15, 0x1002)] [] 0x041F000A = true := by
  decide +kernel

theorem test_blss_BR11 :
    lands (machine 0x1000 [0x19, 0x10] [] [] 0x041F0002) id [(15, 0x1002)] [] 0x041F0002 = true := by
  decide +kernel

theorem test_bvc_RM12 :
    lands (machine 0x1000 [0x1C, 0x05] [] [] 0x041F000D) id [(15, 0x1007)] [] 0x041F000D = true := by
  decide +kernel

theorem test_bvs_RM13 :
    lands (machine 0x1000 [0x1D, 0x05] [] [] 0x041F0002) id [(15, 0x1007)] [] 0x041F0002 = true := by
  decide +kernel

theorem test_bcs_RM15 :
    lands (machine 0x1000 [0x1F, 0xFE] [] [] 0x041F0001) id [(15, 0x1000)] [] 0x041F0001 = true := by
  decide +kernel

theorem test_jsb_CL9 :
    lands (machine 0x200 [0x16, 0x9E] [(14, 0x7FFC)] [(0x7FFC, [0, 0x30, 0, 0])] 0x041F0000) id
      [(14, 0x7FFC), (15, 0x3000)] [(0x7FFC, [2, 2, 0, 0])] 0x041F0000 = true := by
  decide +kernel

theorem test_movc3_ST1 :
    lands (machine 0x1000 [0x28, 0x04, 0x61, 0x62] [(0, 0xFF), (1, 0x2000), (2, 0x2002),
      (3, 0xFF), (4, 0xFF), (5, 0xFF)] [(0x2000, [1, 2, 3, 4, 5, 6])] 0x041F0000) id [(0, 0),
      (1, 0x2004), (2, 0), (3, 0x2006), (4, 0), (5, 0), (15, 0x1004)] [(0x2002, [1, 2, 3, 4])]
      0x041F0004 = true := by
  decide +kernel

theorem test_cmpc3_ST13 :
    lands (machine 0x1000 [0x29, 0x02, 0x61, 0x62] [(1, 0x2000), (2, 0x3000)] [(0x2000, [0x41,
      0x80]), (0x3000, [0x41, 1])] 0x041F0000) id [(0, 1), (1, 0x2001), (2, 1), (3, 0x3001),
      (15, 0x1004)] [] 0x041F0008 = true := by
  decide +kernel

theorem test_movc5_ST10 :
    lands (machine 0x1000 [0x2C, 0x56, 0x61, 0x00, 0x01, 0x62] [(1, 0x2000), (2, 0x3000),
      (6, 0x8000)] [(0x2000, [0x41])] 0x041F0000) id [(0, 0x7FFF), (1, 0x2001), (2, 0),
      (3, 0x3001), (4, 0), (5, 0), (15, 0x1006)] [(0x3000, [0x41])] 0x041F0008 = true := by
  decide +kernel

theorem test_brw_BR3 :
    lands (machine 0x9000 [0x31, 0x00, 0x80] [] [] 0x041F0000) id [(15, 0x1003)] [] 0x041F0000 =
      true := by
  decide +kernel

theorem test_locc_ST15 :
    lands (machine 0x1000 [0x3A, 0x8F, 0x5A, 0x04, 0x61] [(1, 0x2000)] [(0x2000, [0x41, 0x42,
      0x43, 0x44])] 0x041F0000) id [(0, 0), (1, 0x2004), (15, 0x1005)] [] 0x041F0004 = true := by
  decide +kernel

theorem test_skpc_ST19 :
    lands (machine 0x1000 [0x3B, 0x20, 0x03, 0x61] [(1, 0x2000)] [(0x2000, [0x21])] 0x041F0000) id
      [(0, 3), (15, 0x1004)] [] 0x041F0000 = true := by
  decide +kernel

theorem test_movaw_OS33 :
    lands (machine 0x1000 [0x3E, 0x43, 0x62, 0x51] [(2, 0x2000), (3, 3)] [] 0x041F0000) id
      [(1, 0x2006), (15, 0x1004)] [] 0x041F0000 = true := by
  decide +kernel

theorem test_pushaw_RM1 :
    lands (machine 0x1000 [0x3F, 0x42, 0x61] [(1, 0x2000), (2, 3), (14, 0x8000)] [] 0x041F0000) id
      [(14, 0x7FFC), (15, 0x1003)] [(0x7FFC, [6, 0x20, 0, 0])] 0x041F0000 = true := by
  decide +kernel

theorem test_ashl_SH1 :
    lands (machine 0x1000 [0x78, 0x20, 0x51, 0x52] [(1, 1), (2, 0xFF)] [] 0x041F0000) id [(2, 0),
      (15, 0x1004)] [] 0x041F0006 = true := by
  decide +kernel

theorem test_ashl_SH11 :
    traps .integerOverflow (machine 0x1000 [0x78, 0x01, 0x51, 0x52] [(1, 0x40000000)] []
      0x041F0020) [(2, 0x80000000), (15, 0x1004)] [] 0x041F002A = true := by
  decide +kernel

theorem test_ashq_SH14 :
    lands (machine 0x1000 [0x79, 0x8F, 0xFF, 0x50, 0x52] [(0, 1), (1, 0x80000001)] [] 0x041F0000)
      id [(2, 0x80000000), (3, 0xC0000000), (15, 0x1005)] [] 0x041F0008 = true := by
  decide +kernel

theorem test_clrq_MV13 :
    lands (machine 0x1000 [0x7C, 0x62] [(2, 0x2000)] [(0x2000, [0xFF, 0xFF, 0xFF, 0xFF, 0xFF,
      0xFF, 0xFF, 0xFF])] 0x041F0000) id [(15, 0x1002)] [(0x2000, [0, 0, 0, 0, 0, 0, 0, 0])]
      0x041F0004 = true := by
  decide +kernel

theorem test_movq_MV15 :
    lands (machine 0x1000 [0x7D, 0x52, 0x53] [(2, 0x11111111), (3, 0x22222222), (4, 0x33333333)]
      [] 0x041F0000) id [(3, 0x11111111), (4, 0x22222222), (15, 0x1003)] [] 0x041F0000 = true := by
  decide +kernel

theorem test_addb2_AR1 :
    lands (machine 0x1000 [0x80, 0x01, 0x52] [(2, 0x7F)] [] 0x041F0000) id [(2, 0x80),
      (15, 0x1003)] [] 0x041F000A = true := by
  decide +kernel

theorem test_addb3_AR27 :
    lands (machine 0x1000 [0x81, 0x51, 0x52, 0x53] [(1, 0x80), (2, 0x80), (3, 0xFFFFFFFF)] []
      0x041F0000) id [(3, 0xFFFFFF00), (15, 0x1004)] [] 0x041F0007 = true := by
  decide +kernel

theorem test_subb2_AR5 :
    lands (machine 0x1000 [0x82, 0x01, 0x52] [(2, 0x80)] [] 0x041F0000) id [(2, 0x7F),
      (15, 0x1003)] [] 0x041F0002 = true := by
  decide +kernel

theorem test_mulb2_AR9 :
    lands (machine 0x1000 [0x84, 0x51, 0x52] [(1, 0xFF), (2, 0x80)] [] 0x041F0000) id [(2, 0x80),
      (15, 0x1003)] [] 0x041F000A = true := by
  decide +kernel

theorem test_divb2_AR17 :
    lands (machine 0x1000 [0x86, 0x51, 0x52] [(1, 0xFF), (2, 0x80)] [] 0x041F0000) id [(2, 0x80),
      (15, 0x1003)] [] 0x041F000A = true := by
  decide +kernel

theorem test_bisb2_LG6 :
    lands (machine 0x1000 [0x88, 0x51, 0x52] [(1, 0xFFFFFF00), (2, 0)] [] 0x041F000B) id [(2, 0),
      (15, 0x1003)] [] 0x041F0005 = true := by
  decide +kernel

theorem test_bicb2_RM11 :
    lands (machine 0x1000 [0x8A, 0x8F, 0xF0, 0x52] [(2, 0x123456FF)] [] 0x041F0000) id
      [(2, 0x1234560F), (15, 0x1004)] [] 0x041F0000 = true := by
  decide +kernel

theorem test_xorb2_LG3 :
    lands (machine 0x1000 [0x8C, 0x3F, 0x62] [(2, 0x2000)] [(0x2000, [0xFF])] 0x041F0000) id
      [(15, 0x1003)] [(0x2000, [0xC0])] 0x041F0008 = true := by
  decide +kernel

theorem test_movb_MV5 :
    lands (machine 0x1000 [0x90, 0x81, 0x52] [(1, 0x2000), (2, 0xFFFFFFFF)] [(0x2000, [0])]
      0x041F0000) id [(1, 0x2001), (2, 0xFFFFFF00), (15, 0x1003)] [] 0x041F0004 = true := by
  decide +kernel

theorem test_cmpb_CT2 :
    lands (machine 0x1000 [0x91, 0x51, 0x52] [(1, 0xFF), (2, 1)] [] 0x041F0000) id [(15, 0x1003)]
      [] 0x041F0008 = true := by
  decide +kernel

theorem test_bitb_CT8 :
    lands (machine 0x1000 [0x93, 0x51, 0x52] [(1, 0x80), (2, 0xFF)] [] 0x041F0000) id
      [(15, 0x1003)] [] 0x041F0008 = true := by
  decide +kernel

theorem test_clrb_RM2 :
    lands (machine 0x1000 [0x94, 0x61] [(1, 0x2000)] [(0x2000, [0xFF, 0xEE])] 0x041F0009) id
      [(15, 0x1002)] [(0x2000, [0])] 0x041F0005 = true := by
  decide +kernel

theorem test_tstb_CT9 :
    lands (machine 0x1000 [0x95, 0x81] [(1, 0x2000)] [(0x2000, [0x7F])] 0x041F0000) id
      [(1, 0x2001), (15, 0x1002)] [] 0x041F0000 = true := by
  decide +kernel

theorem test_incb_AR21 :
    lands (machine 0x1000 [0x96, 0x51] [(1, 0xABCDEFFF)] [] 0x041F0000) id [(1, 0xABCDEF00),
      (15, 0x1002)] [] 0x041F0005 = true := by
  decide +kernel

theorem test_decb_AR24 :
    lands (machine 0x1000 [0x97, 0x51] [(1, 0)] [] 0x041F0000) id [(1, 0xFF), (15, 0x1002)] []
      0x041F0009 = true := by
  decide +kernel

theorem test_rotl_SH21 :
    lands (machine 0x1000 [0x9C, 0x8F, 0xFF, 0x51, 0x52] [(1, 1)] [] 0x041F0001) id
      [(2, 0x80000000), (15, 0x1005)] [] 0x041F0009 = true := by
  decide +kernel

theorem test_movab_MV10 :
    lands (machine 0x1000 [0x9E, 0x8F, 0x55, 0x51] [] [] 0x041F0000) id [(1, 0x1002),
      (15, 0x1004)] [] 0x041F0000 = true := by
  decide +kernel

theorem test_pushab_MV21 :
    lands (machine 0x1000 [0x9F, 0x81] [(1, 0x2000), (14, 0x8000)] [] 0x041F0000) id [(1, 0x2001),
      (14, 0x7FFC), (15, 0x1002)] [(0x7FFC, [0, 0x20, 0, 0])] 0x041F0000 = true := by
  decide +kernel

theorem test_addw2_AR25 :
    traps .integerOverflow (machine 0x1000 [0xA0, 0x8F, 0xFF, 0x7F, 0x52] [(2, 0xAAAA0001)] []
      0x041F0020) [(2, 0xAAAA8000), (15, 0x1005)] [] 0x041F002A = true := by
  decide +kernel

theorem test_addw3_RM3 :
    lands (machine 0x1000 [0xA1, 0x51, 0x52, 0x53] [(1, 0x8000), (2, 0x8000), (3, 0xFFFFFFFF)] []
      0x041F0000) id [(3, 0xFFFF0000), (15, 0x1004)] [] 0x041F0007 = true := by
  decide +kernel

theorem test_subw2_RM4 :
    lands (machine 0x1000 [0xA2, 0x51, 0x52] [(1, 1), (2, 0x12340000)] [] 0x041F0000) id
      [(2, 0x1234FFFF), (15, 0x1003)] [] 0x041F0009 = true := by
  decide +kernel

theorem test_mulw2_AR10 :
    lands (machine 0x1000 [0xA4, 0x02, 0x52] [(2, 0x4000)] [] 0x041F0000) id [(2, 0x8000),
      (15, 0x1003)] [] 0x041F000A = true := by
  decide +kernel

theorem test_divw2_AR19 :
    lands (machine 0x1000 [0xA6, 0x51, 0x52] [(1, 0xFFFF), (2, 0x8000)] [] 0x041F0000) id
      [(2, 0x8000), (15, 0x1003)] [] 0x041F000A = true := by
  decide +kernel

theorem test_bisw2_RM10 :
    lands (machine 0x1000 [0xA8, 0x51, 0x62] [(1, 0x8001), (2, 0x2000)] [(0x2000, [0x10, 0])]
      0x041F0000) id [(15, 0x1003)] [(0x2000, [0x11, 0x80])] 0x041F0008 = true := by
  decide +kernel

theorem test_bicw2_LG8 :
    lands (machine 0x1000 [0xAA, 0x8F, 0xFF, 0xFF, 0x52] [(2, 0x12345678)] [] 0x041F0000) id
      [(2, 0x12340000), (15, 0x1005)] [] 0x041F0004 = true := by
  decide +kernel

theorem test_xorw2_RM5 :
    lands (machine 0x1000 [0xAC, 0x8F, 0xFF, 0xFF, 0x52] [(2, 0x1234F0F0)] [] 0x041F0000) id
      [(2, 0x12340F0F), (15, 0x1005)] [] 0x041F0000 = true := by
  decide +kernel

theorem test_movw_MV6 :
    lands (machine 0x1000 [0xB0, 0x52, 0x71] [(1, 0x2002), (2, 0xBEEF)] [] 0x041F0000) id
      [(1, 0x2000), (15, 0x1003)] [(0x2000, [0xEF, 0xBE])] 0x041F0008 = true := by
  decide +kernel

theorem test_cmpw_CT3 :
    lands (machine 0x1000 [0xB1, 0x51, 0x52] [(1, 0x7FFF), (2, 0x8000)] [] 0x041F0000) id
      [(15, 0x1003)] [] 0x041F0001 = true := by
  decide +kernel

theorem test_bitw_RM6 :
    lands (machine 0x1000 [0xB3, 0x51, 0x52] [(1, 0xFF), (2, 0xFF00)] [] 0x041F0003) id
      [(15, 0x1003)] [] 0x041F0005 = true := by
  decide +kernel

theorem test_clrw_RM7 :
    lands (machine 0x1000 [0xB4, 0x52] [(2, 0x12345678)] [] 0x041F000B) id [(2, 0x12340000),
      (15, 0x1002)] [] 0x041F0005 = true := by
  decide +kernel

theorem test_tstw_RM8 :
    lands (machine 0x1000 [0xB5, 0x52] [(2, 0x18000)] [] 0x041F0007) id [(15, 0x1002)] []
      0x041F0008 = true := by
  decide +kernel

theorem test_incw_AR28 :
    lands (machine 0x1000 [0xB6, 0x61] [(1, 0x2001)] [(0x2001, [0xFF, 0x7F])] 0x041F0000) id
      [(15, 0x1002)] [(0x2001, [0, 0x80])] 0x041F000A = true := by
  decide +kernel

theorem test_decw_RM9 :
    lands (machine 0x1000 [0xB7, 0x52] [(2, 0xFFFF8000)] [] 0x041F0000) id [(2, 0xFFFF7FFF),
      (15, 0x1002)] [] 0x041F0002 = true := by
  decide +kernel

theorem test_addl2_AR2 :
    lands (machine 0x1000 [0xC0, 0x51, 0x62] [(1, 0x10), (2, 0x2000)] [(0x2000, [0xF8, 0xFF, 0xFF,
      0xFF])] 0x041F0000) id [(15, 0x1003)] [(0x2000, [8, 0, 0, 0])] 0x041F0001 = true := by
  decide +kernel

theorem test_addl2_XE4 :
    lands { machine 0x300 [0xC0, 0x51, 0x50] [(0, 0x7FFFFFFF), (1, 1), (14, 0x6C00)]
      [(0x634, [0x80, 2, 0, 0])] 0x02800020 with spbank.k := 0x6000, scbb := 0x600, cfg.deliver :=
      true } (fun s => { s with spbank.s := 0x6C00 }) [(0, 0x80000000), (14, 0x5FF4), (15, 0x280)]
      [(0x5FF4, [1, 0, 0, 0, 3, 3, 0, 0, 0x2A, 0, 0x80, 2])] 0x00800000 = true := by
  decide +kernel

theorem test_addl3_EX2 :
    lands (machine 0x1000 [0xC1, 0x51, 0x52, 0x53] [(1, 0x7FFFFFFF), (2, 1), (3, 0)] []
      0x041F0000) id [(3, 0x80000000), (15, 0x1004)] [] 0x041F000A = true := by
  decide +kernel

theorem test_subl2_AR4 :
    lands (machine 0x1000 [0xC2, 0x51, 0x51] [(1, 0x12345678)] [] 0x041F0000) id [(1, 0),
      (15, 0x1003)] [] 0x041F0004 = true := by
  decide +kernel

theorem test_subl3_AR7 :
    lands (machine 0x1000 [0xC3, 0x51, 0x52, 0x53] [(1, 0xFFFFFFFF), (2, 0x7FFFFFFF)] []
      0x041F0000) id [(3, 0x80000000), (15, 0x1004)] [] 0x041F000B = true := by
  decide +kernel

theorem test_mull2_AR11 :
    lands (machine 0x1000 [0xC4, 0x00, 0x52] [(2, 0xFFFFFFFF)] [] 0x041F0000) id [(2, 0),
      (15, 0x1003)] [] 0x041F0004 = true := by
  decide +kernel

theorem test_mull3_AR8 :
    lands (machine 0x1000 [0xC5, 0x51, 0x52, 0x53] [(1, 0xFFFFFFFF), (2, 0x80000000)] []
      0x041F0000) id [(3, 0x80000000), (15, 0x1004)] [] 0x041F000A = true := by
  decide +kernel

theorem test_divl2_AR20 :
    traps .integerDivideByZero (machine 0x1000 [0xC6, 0x00, 0x62] [(2, 0x2000)] [(0x2000, [9, 0,
      0, 0])] 0x041F0000) [(15, 0x1003)] [(0x2000, [9, 0, 0, 0])] 0x041F0002 = true := by
  decide +kernel

theorem test_divl3_AR14 :
    lands (machine 0x1000 [0xC7, 0x51, 0x52, 0x53] [(1, 0xFFFFFFFE), (2, 7)] [] 0x041F0000) id
      [(3, 0xFFFFFFFD), (15, 0x1004)] [] 0x041F0008 = true := by
  decide +kernel

theorem test_bisl2_LG1 :
    lands (machine 0x1000 [0xC8, 0x00, 0x52] [(2, 0x80000000)] [] 0x041F0001) id [(2, 0x80000000),
      (15, 0x1003)] [] 0x041F0009 = true := by
  decide +kernel

theorem test_bicl2_LG2 :
    lands (machine 0x1000 [0xCA, 0x52, 0x52] [(2, 0xDEADBEEF)] [] 0x041F0000) id [(2, 0),
      (15, 0x1003)] [] 0x041F0004 = true := by
  decide +kernel

theorem test_xorl2_LG7 :
    lands (machine 0x1000 [0xCC, 0x51, 0x51] [(1, 0xCAFEBABE)] [] 0x041F0000) id [(1, 0),
      (15, 0x1003)] [] 0x041F0004 = true := by
  decide +kernel

theorem test_movl_MV1 :
    lands (machine 0x1000 [0xD0, 0x51, 0x71] [(1, 0x2004)] [] 0x041F0000) id [(1, 0x2000),
      (15, 0x1003)] [(0x2000, [4, 0x20, 0, 0])] 0x041F0000 = true := by
  decide +kernel

theorem test_movl_OS31 :
    lands (machine 0x1000 [0xD0, 0x43, 0xAF, 0x04, 0x51] [(3, 2)] [(0x1010, [0x44, 0x33, 0x22,
      0x11])] 0x041F0000) id [(1, 0x11223344), (15, 0x1005)] [] 0x041F0000 = true := by
  decide +kernel

theorem test_cmpl_CT5 :
    lands (machine 0x1000 [0xD1, 0x51, 0x52] [(1, 0x80000000), (2, 0x7FFFFFFF)] [] 0x041F0000) id
      [(15, 0x1003)] [] 0x041F0008 = true := by
  decide +kernel

theorem test_bitl_CT7 :
    lands (machine 0x1000 [0xD3, 0x01, 0x51] [(1, 3)] [] 0x041F0001) id [(15, 0x1003)] []
      0x041F0001 = true := by
  decide +kernel

theorem test_clrl_MV19 :
    lands (machine 0x1000 [0xD4, 0x7E] [(14, 0x8000)] [] 0x041F0000) id [(14, 0x7FFC),
      (15, 0x1002)] [(0x7FFC, [0, 0, 0, 0])] 0x041F0004 = true := by
  decide +kernel

theorem test_tstl_OR18 :
    lands (machine 0x1000 [0xD5, 0x8F, 0x00, 0x00, 0x00, 0x80] [] [] 0x041F0000) id [(15, 0x1006)]
      [] 0x041F0008 = true := by
  decide +kernel

theorem test_incl_AR22 :
    lands (machine 0x1000 [0xD6, 0x51] [(1, 0xFFFFFFFF)] [] 0x041F0000) id [(1, 0), (15, 0x1002)]
      [] 0x041F0005 = true := by
  decide +kernel

theorem test_decl_AR23 :
    lands (machine 0x1000 [0xD7, 0x51] [(1, 0x80000000)] [] 0x041F0000) id [(1, 0x7FFFFFFF),
      (15, 0x1002)] [] 0x041F0002 = true := by
  decide +kernel

theorem test_mtpr_PV12 :
    lands (machine 0x1000 [0xDA, 0x51, 0x12] [(1, 0xFFFFFFE5)] [] 0x041F0000) id [(15, 0x1003)] []
      0x04050008 = true := by
  decide +kernel

theorem test_mtpr_PV1 :
    faults (machine 0x1000 [0xDA, 0x05, 0x18] [] [] 0x041F0000) (.reservedOperand) = true := by
  decide +kernel

theorem test_mfpr_PV17 :
    lands { machine 0x1000 [0xDB, 0x00, 0x50] [(14, 0x8000)] [] 0x041F0000
      with spbank.k := 0x6000 } id [(0, 0x6000), (15, 0x1003)] [] 0x041F0000 = true := by
  decide +kernel

theorem test_pushl_MV11 :
    lands (machine 0x1000 [0xDD, 0x5E] [(14, 0x8000)] [] 0x041F0000) id [(14, 0x7FFC),
      (15, 0x1002)] [(0x7FFC, [0, 0x80, 0, 0])] 0x041F0000 = true := by
  decide +kernel

theorem test_moval_MV20 :
    lands (machine 0x1000 [0xDE, 0x42, 0x63, 0x54] [(2, 0xFFFFFFFF), (3, 0x2000)] [] 0x041F0000)
      id [(4, 0x1FFC), (15, 0x1004)] [] 0x041F0000 = true := by
  decide +kernel

theorem test_pushal_MV22 :
    lands (machine 0x1000 [0xDF, 0x81] [(1, 0x2000), (14, 0x8000)] [] 0x041F0000) id [(1, 0x2004),
      (14, 0x7FFC), (15, 0x1002)] [(0x7FFC, [0, 0x20, 0, 0])] 0x041F0000 = true := by
  decide +kernel

theorem test_callg_CL14 :
    lands (machine 0x200 [0xFA, 0x61, 0x62] [(1, 0x3000), (2, 0x1800), (12, 0xAC), (13, 0xAD),
      (14, 0x8000)] [(0x1800, [0, 0])] 0x041F0000) id [(12, 0x3000), (13, 0x7FEC), (14, 0x7FEC),
      (15, 0x1802)] [(0x7FEC, [0, 0, 0, 0, 0, 0, 0, 0, 0xAC, 0, 0, 0, 0xAD, 0, 0, 0, 3, 2, 0, 0])]
      0x041F0000 = true := by
  decide +kernel

theorem test_calls_CL1 :
    lands (machine 0x200 [0xFB, 0x00, 0x9F, 0x00, 0x18, 0x00, 0x00] [(0, 0xA0), (1, 0xA1),
      (2, 0xA2), (3, 0xA3), (4, 0xA4), (5, 0xA5), (6, 0xA6), (7, 0xA7), (8, 0xA8), (9, 0xA9),
      (10, 0xAA), (11, 0xAB), (12, 0xAC), (13, 0xAD), (14, 0x8003)] [(0x1800, [0xFF, 0xF])]
      0x041F0000) id [(12, 0x7FFF), (13, 0x7FB8), (14, 0x7FB8), (15, 0x1802)] [(0x7FB8, [0, 0, 0,
      0, 0, 0, 0xFF, 0xEF, 0xAC, 0, 0, 0, 0xAD, 0, 0, 0, 7, 2, 0, 0, 0xA0, 0, 0, 0, 0xA1, 0, 0, 0,
      0xA2, 0, 0, 0, 0xA3, 0, 0, 0, 0xA4, 0, 0, 0, 0xA5, 0, 0, 0, 0xA6, 0, 0, 0, 0xA7, 0, 0, 0,
      0xA8, 0, 0, 0, 0xA9, 0, 0, 0, 0xAA, 0, 0, 0, 0xAB, 0, 0, 0]), (0x7FFF, [0, 0, 0, 0])]
      0x041F0000 = true := by
  decide +kernel

theorem test_movl_ME6 :
    lands (machine 0x1000 [0xD0, 0x51, 0x62] [(1, 0x11223344), (2, 0xFFFFFFFD)] [] 0x041F0000) id
      [(15, 0x1003)] [(0x0, [0x11]), (0xFFFFFFFD, [0x44, 0x33, 0x22])] 0x041F0000 = true := by
  decide +kernel

theorem test_movl_ME8 :
    faults { machine 0x1000 [0xD0, 0x51, 0x62] [(1, 0x11223344), (2, 0xFFFD)] [(0xFFFD, [0, 0,
      0])] 0x041F0000 with cfg.absent := [⟨0x10000, 0xFFFFFFFF⟩] } (.machineCheck 0x00010000) =
      true := by
  decide +kernel

theorem test_movl_OR6 :
    refuses (machine 0x1000 [0xD0, 0x43, 0x83, 0x51] [(3, 0x2000)] [] 0x041F0000)
      (.unpredictableIndex) = true := by
  decide +kernel

theorem test_opcode_DE1 :
    refuses (machine 0x1000 [0x01] [] [] 0x041F0000) (.unlistedOpcode 0x01) = true := by
  decide +kernel

/-! ## Steps the spec's vectors do not have -/

/-- HALT in kernel mode (46_privileged.md R262, the rule's own example of the bytes `00`). -/
theorem test_halt_in_kernel_mode :
    lands (machine 0x1000 [0x00] [] [] 0x041F0000) (fun s => { s with halted := true })
      [(15, 0x1001)] [] 0x041F0000 = true := by decide +kernel

/-- BNEQ and BCC both ways (44_branch.md R221, R228). -/
theorem test_bneq_and_bcc :
    lands (machine 0x1000 [0x12, 0xFC] [] [] 0x041F000B) id [(15, 0xFFE)] [] 0x041F000B = true ∧
    lands (machine 0x1000 [0x12, 0xFC] [] [] 0x041F0004) id [(15, 0x1002)] [] 0x041F0004 = true ∧
    lands (machine 0x1000 [0x1E, 0x04] [] [] 0x041F000E) id [(15, 0x1006)] [] 0x041F000E = true ∧
    lands (machine 0x1000 [0x1E, 0x04] [] [] 0x041F0001) id [(15, 0x1002)] [] 0x041F0001 = true := by
  decide +kernel

/-- The host's placement of a word: the next step runs it (CMPB #0, #0 sets Z). -/
theorem test_withFetchWord_runs_the_word :
    lands (State.reset.withFetchWord 8 0x91) id [(15, 0x203)] [] 0x041F0004 = true := by decide +kernel

/-- Where exceptions are not delivered the reason is the outcome (60_exceptions.md R301). -/
theorem test_reserved_mode_without_delivery :
    faults (machine 0x1000 [0xD0, 0x01, 0x02] [] [] 0x041F0000) .reservedAddressingMode = true := by
  decide +kernel

/-! ## States that meet the hypotheses of the statements -/

/-- An answer that has a property. -/
def meets {ε α : Type} (x : Except ε α) (p : α → Bool) : Bool :=
  match x with
  | .ok r => p r
  | .error _ => false

/-- `meets` says that the evaluation answers, and what of the answer. -/
theorem meets_iff {ε α : Type} {x : Except ε α} {p : α → Bool} :
    meets x p = true ↔ ∃ r, x = .ok r ∧ p r = true := by
  cases x <;> simp [meets]

/-- The instruction answers a next state that has a property. -/
def runs (i : Instr) (s : State) (p : State → Bool) : Bool :=
  match exec i s with
  | .next t => p t
  | .fault _ => false
  | .refused _ => false

theorem runs_iff {i : Instr} {s : State} {p : State → Bool} :
    runs i s p = true ↔ ∃ t, exec i s = .next t ∧ p t = true := by
  cases h : exec i s <;> simp [runs, h]

/-- `Operand.writable`, evaluated. -/
def writes (z : Size) (o : Operand) (s : State) : Bool := (o.addrs z).all fun x => Config.valid s.cfg x

theorem writes_iff {z : Size} {o : Operand} {s : State} : writes z o s = true ↔ o.writable z s := by
  simp [writes]

/-- A kernel-mode machine with 31 bytes of code, a page of data at 0x2000 and a stack below 0x8000. -/
def tiny (code : List Byte) : State :=
  machine 0x1000 (code ++ List.replicate (31 - code.length) 0)
    [(1, 5), (2, 0x2000), (3, 2), (4, 0x80000000), (12, 0xAC), (13, 0x7FD8), (14, 0x8000)]
    [(0x2000, [0x00, 0x20, 0, 0, 0x04, 0x20, 0, 0, 0x41, 0x41, 0x42, 0x43, 0, 0, 0, 0]),
     (0x7FD8, [0, 0, 0, 0, 0x21, 0, 0x04, 0xE0, 0x0C, 0, 0, 0, 0x0D, 0, 0, 0, 7, 2, 0, 0,
       0x22, 0x22, 0x22, 0x22, 0xEE, 0xEE, 0xEE, 2, 0, 0, 0, 6, 0, 0, 0, 7, 0, 0, 0]),
     (0x8000, [0x00, 0x10, 0, 0, 0x0F, 0, 0x04, 0x04])] 0x041F0000

/-- The same in user mode. -/
def tinyUser (code : List Byte) : State := { tiny code with psl := 0x03C00000 }

/-- The same with memory absent from 0x8000 upward. -/
def tinyHole (code : List Byte) : State :=
  { tiny code with cfg := { (tiny code).cfg with absent := [⟨0x8000, 0xFFFFFFFF⟩] } }

/-- The operands `r` and memory at a register. -/
abbrev rn (n : Reg) : Spec := .direct (.register n)
abbrev at_ (n : Reg) : Spec := .direct (.deferred n)
abbrev lit (v : BitVec 6) : Spec := .direct (.literal v)

theorem witness_EncodeThenDecode :
    Instr.wf (.movc5 (.indexed 1 (.longDisp 2 9)) (at_ 1) (lit 63) (rn 15) (at_ 2)) = true := by decide +kernel

theorem witness_DecodeThenEncode :
    decode [0xC1, 0x51, 0x52, 0x53, 0x99] = .ok (.addl3 (rn 1) (rn 2) (rn 3), [0x99]) := by
  decide +kernel

theorem witness_LongestInstructionFits : (List.replicate 31 (0x2C : Byte)).length = maxLength := by
  decide +kernel

/-- A next state, a fault and a refusal. -/
theorem witness_StepRunsDecodedInstruction :
    (running (tiny [0xD6, 0x51]) ∧
      meets (decode (instrWindow (tiny [0xD6, 0x51]))) (fun r => r.1 == .incl (rn 1)) = true ∧
      runs (.incl (rn 1)) (tiny [0xD6, 0x51]) (fun t => t.irqs == []) = true) ∧
    (running (tiny [0xD6]) ∧
      meets (decode (instrWindow (tiny [0xD6]))) (fun r => r.1 == .incl (lit 0)) = true ∧
      faults (tiny [0xD6]) .reservedAddressingMode = true) ∧
    (running (tiny [0xD6, 0x6F]) ∧
      meets (decode (instrWindow (tiny [0xD6, 0x6F]))) (fun r => r.1 == .incl (at_ 15)) = true ∧
      refuses (tiny [0xD6, 0x6F]) .unpredictablePcDeferred = true) := by decide +kernel

theorem witness_PlacedInstructionRuns :
    running (tiny [0x12, 0x05]) ∧ Instr.wf (.bnequ 5) = true ∧
    (tiny [0x12, 0x05]).bytesAt (tiny [0x12, 0x05]).pc (encode (.bnequ 5)).length = encode (.bnequ 5) := by
  decide +kernel

theorem witness_UnlistedOpcodeIsRefused :
    running (tiny [0xFD]) ∧ canFetch 1 (tiny [0xFD]) ∧
    ∀ i : Instr, i.opcode ≠ (tiny [0xFD]).byteAt (tiny [0xFD]).pc := by
  refine ⟨by decide +kernel, by decide +kernel, fun i => ?_⟩
  have h : (tiny [0xFD]).byteAt (tiny [0xFD]).pc = 0xFD := by decide +kernel
  rw [h]
  cases i <;> exact of_decide_eq_true rfl

/-- One state for each clause. -/
theorem witness_StepsThatStartNoInstruction :
    { tiny [] with halted := true }.halted = true ∧
    ({ tiny [] with mapen := 1 }.halted = false ∧ { tiny [] with mapen := 1 }.mapen = 1) ∧
    (pslT 0x10 = true ∧ pslTP 0x40000000 = true ∧ pslCM 0x80000000 = true ∧ pslFPD 0x08000000 = true) ∧
    (let s := { tiny [] with written := [0x1000] }
     running s ∧ s.cfg.smc = .refuse ∧ s.pc.toNat ∈ s.written) ∧
    (let s := (tinyHole []).setPc 0x8000
     running s ∧ s.pc.toNat ∉ s.written ∧ Config.valid s.cfg s.pc = false) := by decide +kernel

/-- A level at IPL and one above it. -/
theorem witness_InterruptsAreMaskedByLevel :
    let s := { tiny [0xD6, 0x51] with
      psl := 0x04140000, irqs := [some ⟨20, 3⟩, some ⟨21, 4⟩], cfg.deliver := true }
    running s ∧ meets (decode (instrWindow s)) (fun r => r.1 == .incl (rn 1)) = true ∧
    runs (.incl (rn 1)) s (fun t => !t.halted && t.irqs == [some ⟨20, 3⟩, some ⟨21, 4⟩]
      && pslIPL t.psl == 20 && t.cfg.deliver) = true ∧
    runs (.incl (rn 1)) { s with irqs := s.irqs.tail } (fun t => !t.halted && t.irqs == [some ⟨21, 4⟩]
      && pslIPL t.psl == 20 && t.cfg.deliver) = true := by decide +kernel

/-- A store that wraps past the end of the address space. -/
theorem witness_StoreThenLoad :
    meets (memWrite 32 0xFFFFFFFE 0x11223344 (tiny [])) (fun _ => true) = true := by decide +kernel

/-- An access in reach, and one whose first and one whose last byte is out of reach. -/
theorem witness_AbsentMemoryIsAMachineCheck :
    canAccess 4 0x7FFC (tinyHole []) ∧
    (canAccess 0 0x8000 (tinyHole []) ∧ Config.valid (tinyHole []).cfg ((0x8000 : Word).plus 0) = false) ∧
    (canAccess 3 0x7FFD (tinyHole []) ∧ Config.valid (tinyHole []).cfg ((0x7FFD : Word).plus 3) = false) := by
  decide +kernel

theorem witness_EqualListingsAreEqualMemories :
    memWf (memSet (memSet [] 5 1) 2 0) = true ∧ memWf (memSet (memSet [] 2 0) 5 1) = true ∧
    ∀ x, memGet (memSet (memSet [] 5 1) 2 0) x = memGet (memSet (memSet [] 2 0) 5 1) x :=
  ⟨by decide +kernel, by decide +kernel, fun _ => rfl⟩

/-- A reserved form and one that is not. -/
theorem witness_ReservedModesFault :
    Spec.wf .l (.indexed 15 (.deferred 2)) = true ∧ canFetch 2 (tiny []) ∧
    reservedMode .read (.indexed 15 (.deferred 2)) ∧
    Spec.wf .l (at_ 2) = true ∧ ¬ reservedMode .write (at_ 2) :=
  ⟨by decide +kernel, by decide +kernel, .inl rfl, by decide +kernel, id⟩

/-- `MOVL (R2)+, #0`: a reserved second operand after one that steps R2. MTPR in kernel mode. -/
theorem witness_ReservedModesFault_of_instruction :
    operandsOf (.movl (.direct (.autoinc 2)) (lit 0)) = [.r .l (.direct (.autoinc 2))] ++ [.w .l (lit 0)] ∧
    modeAllows (.movl (.direct (.autoinc 2)) (lit 0)) (tinyUser []) ∧
    modeAllows (.mtpr (rn 1) (.indexed 15 (.deferred 2))) (tiny []) ∧
    meets (operandsBefore [.r .l (.direct (.autoinc 2))] (tinyUser [])) (fun u =>
      u.r 2 == 0x2004 && decide (canFetch ((lit 0).encode .l).length u)) = true ∧
    Spec.wf .l (lit 0) = true ∧ reservedMode .write (lit 0) :=
  ⟨rfl, by decide +kernel, by decide +kernel, by decide +kernel, by decide +kernel, fun h => nomatch h⟩

/-- The fault puts back what the first operand stepped: the saved PC is the opcode's (60_exceptions.md R305). -/
theorem test_reserved_second_operand_undoes_the_first :
    lands { machine 0x1000 [0xD0, 0x82, 0x00] [(2, 0x2000)] [(0x61C, [0, 0x30, 0, 0]), (0x2000, [1, 2, 3, 4])]
        0x03C00000 with spbank.k := 0x6000, scbb := 0x600, cfg.deliver := true }
      (fun s => { s with spbank.u := s.sp }) [(14, 0x5FF8), (15, 0x3000)]
      [(0x5FF8, [0, 0x10, 0, 0, 0, 0, 0xC0, 3])] 0x00C00000 = true := by decide +kernel

/-- The fetch of the longest form, and a register that points at memory. -/
theorem witness_UnpredictableFormsAreRefused :
    canFetch 11 (tiny []) ∧ (2 : Reg) ≠ Reg.pc ∧ canAccess 4 ((tiny []).r 2) (tiny []) := by decide +kernel

/-- `ADDL2 (R2), PC`, refused at its second operand. -/
theorem witness_UnpredictableFormsAreRefused_of_instruction :
    operandsOf (.addl2 (at_ 2) (rn 15)) = [.r .l (at_ 2)] ++ [.m .l (rn 15)] ∧
    modeAllows (.addl2 (at_ 2) (rn 15)) (tinyUser []) ∧
    (match operandsBefore [.r .l (at_ 2)] (tinyUser []) with
      | .ok u => decide (evalSpec .modify .l (rn 15) u = .error (.refuse .unpredictablePcRegister))
      | .error _ => false) = true := ⟨rfl, by decide +kernel, by decide +kernel⟩

theorem witness_SimpleOperandForms :
    canFetch 9 (tiny []) ∧ (14 : Reg) ≠ Reg.pc ∧ (13 : Reg) ≠ Reg.sp := by decide +kernel

theorem witness_SteppingOperandForms :
    canFetch 1 (tiny []) ∧ (14 : Reg) ≠ Reg.pc ∧ canAccess 4 ((tiny []).r 14) (tiny []) := by
  decide +kernel

/-- For a general register and for R15. -/
theorem witness_DisplacementForms :
    canFetch 5 (tiny []) ∧ canAccess 4 ((tiny []).r 2 + 0xFFFFFFFC) (tiny []) ∧
    canAccess 4 ((tiny []).pc.plus 5 + 0x7F) (tiny []) := by decide +kernel

theorem witness_IndexedForm :
    canFetch 1 (tiny []) ∧ (3 : Reg) ≠ Reg.pc ∧ (3 : Reg) ∉ Base.steps (.autoinc 2) ∧
    meets (evalSpec .read .q (.direct (.autoinc 2)) ((tiny []).setPc ((tiny []).pc + 1)))
      (fun r => r.1 == .mem 0x2000) = true := by decide +kernel

theorem witness_SpecifierFrame :
    Spec.wf .w (.indexed 3 (.autoincDeferred 2)) = true ∧
    meets (evalSpec .modify .w (.indexed 3 (.autoincDeferred 2)) (tiny [])) (fun r => r.1 == .mem 0x2004)
      = true := by decide +kernel

theorem witness_RegisterOperandParts : canFetch 1 (tiny []) := by decide +kernel

/-- An overflow with IV clear, and no overflow with IV set, at every size. -/
theorem witness_AdditionLaw :
    (∀ z ∈ [Size.b, .w, .l], meets (operandsRM z (lit 1) (rn 1) (tiny [])) (fun r =>
      (addCodes r.2.1 r.1).v == false) = true) ∧
    (∀ z ∈ [Size.b, .w, .l], meets (operandsRRW z z (rn 4) (rn 4) (at_ 2) (tiny [])) (fun r =>
      writes z r.2.2.1 (tiny [])) = true) ∧
    meets (operandsRRW .l .l (rn 4) (rn 4) (at_ 2) (tiny [])) (fun r =>
      (addCodes r.1 r.2.1).v && !pslIV (tiny []).psl) = true ∧
    (∀ z ∈ [Size.b, .w, .l], meets (operandsM z (at_ 2) (tiny [])) (fun r =>
      (addCodes r.1 1).v == false) = true) := by decide +kernel

theorem witness_SubtractionLaw :
    (∀ z ∈ [Size.b, .w, .l], meets (operandsRM z (lit 9) (rn 1) (tiny [])) (fun r =>
      (subCodes r.2.1 r.1).v == false) = true) ∧
    meets (operandsRRW .l .l (lit 1) (rn 4) (rn 14) (tiny [])) (fun r =>
      writes .l r.2.2.1 (tiny []) && (subCodes r.2.1 r.1).v && !pslIV (tiny []).psl) = true ∧
    (∀ z ∈ [Size.b, .w, .l], meets (operandsM z (at_ 2) (tiny [])) (fun r =>
      (subCodes r.1 1).v == false) = true) := by decide +kernel

theorem witness_MultiplicationLaw :
    (∀ z ∈ [Size.b, .w, .l], meets (operandsRM z (lit 9) (rn 1) (tiny [])) (fun r =>
      (mulCodes r.2.1 r.1).v == false) = true) ∧
    meets (operandsRRW .l .l (rn 4) (rn 4) (rn 14) (tiny [])) (fun r =>
      writes .l r.2.2.1 (tiny []) && (mulCodes r.1 r.2.1).v && !pslIV (tiny []).psl) = true := by
  decide +kernel

theorem witness_DivisionLaw :
    (∀ z ∈ [Size.b, .w, .l], meets (operandsRM z (lit 2) (rn 1) (tiny [])) (fun r =>
      r.1 != 0 && (divCodes r.1 r.2.1).v == false) = true) ∧
    meets (operandsRRW .l .l (.direct (.immediate 0xFFFFFFFF)) (rn 4) (at_ 2) (tiny [])) (fun r =>
      r.1 != 0 && writes .l r.2.2.1 (tiny []) && (divCodes r.1 r.2.1).v
        && !pslIV (tiny []).psl) = true := by decide +kernel

/-- At every size: a zero divisor with IV set and clear, and an overflow of each law with IV set. -/
theorem witness_ArithmeticTrapsAfterTheResult :
    let s := { withRegs [(4, 0x80), (5, 0x8000), (6, 0x80000000), (7, 0x7F), (8, 0x7FFF), (9, 0x7FFFFFFF)]
      (tiny []) with psl := 0x041F0020 }
    let min := [(Size.b, (4 : Reg)), (.w, 5), (.l, 6)]
    let max := [(Size.b, (7 : Reg)), (.w, 8), (.l, 9)]
    let minusOne := Spec.direct (.immediate 0xFFFFFFFF)
    (∀ z ∈ [Size.b, .w, .l], ∀ m ∈ [tiny [], s],
      meets (operandsRM z (lit 0) (at_ 2) m) (fun r => r.1 == 0) = true) ∧
    (∀ m ∈ [tiny [], s], meets (operandsRRW .l .l (lit 0) (rn 4) (at_ 2) m) (fun r =>
      r.1 == 0 && writes .l r.2.2.1 m) = true) ∧
    (∀ e ∈ min, meets (operandsRM e.1 minusOne (rn e.2) s) (fun r =>
      r.1 != 0 && (divCodes r.1 r.2.1).v && (addCodes r.2.1 r.1).v && (mulCodes r.2.1 r.1).v) = true) ∧
    (∀ e ∈ min, meets (operandsRM e.1 (lit 1) (rn e.2) s) (fun r => (subCodes r.2.1 r.1).v) = true) ∧
    (∀ e ∈ min, meets (operandsRRW e.1 e.1 minusOne (rn e.2) (at_ 2) s) (fun r =>
      r.1 != 0 && writes e.1 r.2.2.1 s && (divCodes r.1 r.2.1).v && (addCodes r.1 r.2.1).v
        && (mulCodes r.1 r.2.1).v) = true) ∧
    meets (operandsRRW .l .l (lit 1) (rn 6) (at_ 2) s) (fun r =>
      writes .l r.2.2.1 s && (subCodes r.2.1 r.1).v) = true ∧
    (∀ e ∈ min, meets (operandsM e.1 (rn e.2) s) (fun r => (subCodes r.1 1).v) = true) ∧
    (∀ e ∈ max, meets (operandsM e.1 (rn e.2) s) (fun r => (addCodes r.1 1).v) = true) ∧
    meets (operandsRRW .b .l (lit 1) (rn 6) (at_ 2) s) (fun r =>
      (shiftCodes r.1 r.2.1).v && writes .l r.2.2.1 s) = true ∧
    meets (operandsRRW .b .q (lit 63) (rn 4) (at_ 2) s) (fun r =>
      (shiftCodes r.1 r.2.1).v && writes .q r.2.2.1 s) = true ∧
    pslIV s.psl = true ∧ pslIV (tiny []).psl = false := by decide +kernel

theorem witness_LogicalInstructions :
    ∀ z ∈ [Size.b, .w, .l], meets (operandsRM z (rn 4) (.direct (.autoinc 2)) (tiny [])) (fun r =>
      (keepsCarry (r.2.1 ||| r.1) true).v == false) = true := by decide +kernel

theorem witness_MoveAndClearInstructions :
    (∀ z ∈ [Size.b, .w, .l, .q], meets (operandsRW z (at_ 2) (rn 13) (tiny [])) (fun r =>
      writes z r.2.1 (tiny [])) = true) ∧
    (∀ z ∈ [Size.b, .w, .l, .q], meets (operandsW z (.direct (.autodec 14)) (tiny [])) (fun r =>
      writes z r.1 (tiny [])) = true) ∧
    (∀ z ∈ [Size.b, .w, .l], meets (operandsAW z (at_ 2) (rn 14) (tiny [])) (fun r =>
      writes .l r.2.1 (tiny [])) = true) := by decide +kernel

theorem witness_PushInstructions :
    meets (operandsR .l (.direct (.autoinc 14)) (tiny [])) (fun r =>
      decide (canAccess 4 (r.2.sp - 4) (tiny []))) = true ∧
    ∀ z ∈ [Size.b, .w, .l], meets (operandsA z (.direct (.autoinc 14)) (tiny [])) (fun r =>
      decide (canAccess 4 (r.2.sp - 4) (tiny []))) = true := by decide +kernel

theorem witness_CompareAndBitTestLaws :
    ∀ z ∈ [Size.b, .w, .l], meets (operandsRR z z (rn 4) (at_ 2) (tiny [])) (fun _ => true) = true := by
  decide +kernel

theorem witness_TestLaw :
    ∀ z ∈ [Size.b, .w, .l], meets (operandsR z (at_ 2) (tiny [])) (fun _ => true) = true := by
  decide +kernel

/-- The fetches, and for each condition a PSL that meets it and one that does not. -/
theorem witness_BranchInstructions :
    canFetch 3 (tiny []) ∧
    (pslZ 4 = true ∧ pslN 8 = true ∧ pslV 2 = true ∧ pslC 1 = true) ∧
    (pslZ 0 = false ∧ pslN 0 = false ∧ pslV 0 = false ∧ pslC 0 = false) := by decide +kernel

/-- CALLS and CALLG to the entry mask 0x4141, which saves three registers. -/
theorem witness_CallsBuildTheFrame :
    let p := Spec.direct (.byteDisp 2 8)
    meets (operandsRA (lit 2) p (tiny [])) (fun r => decide (canAccess 2 r.2.1 (tiny []) ∧
      (r.2.2.word r.2.1).extractLsb' 12 2 = 0 ∧ canAccess 4 (r.2.2.sp - 4) (tiny []) ∧
      canAccess (frameSize (r.2.2.word r.2.1)) (frameBase (r.2.2.sp - 4) (r.2.2.word r.2.1)) (tiny []) ∧
      frameSize (r.2.2.word r.2.1) = 32)) = true ∧
    meets (operandsAA (at_ 2) p (tiny [])) (fun r => decide (canAccess 2 r.2.1 (tiny []) ∧
      (r.2.2.word r.2.1).extractLsb' 12 2 = 0 ∧
      canAccess (frameSize (r.2.2.word r.2.1)) (frameBase r.2.2.sp (r.2.2.word r.2.1)) (tiny []))) = true := by
  decide +kernel

/-- A frame of CALLS and one of CALLG (S clear). -/
theorem witness_RetUndoesTheFrame :
    (let s := tiny []; let w := s.long (s.r Reg.fp + 4)
     canFetch 1 s ∧ w.extractLsb' 8 8 = 0 ∧ canAccess (returnSize w) (s.r Reg.fp + 4) s ∧
     w.getLsbD 29 = true ∧ canAccess 4 (returnTop (s.r Reg.fp) w) s) ∧
    (let s := (tiny []).setR 13 0x2008; let w := s.long (s.r Reg.fp + 4)
     canFetch 1 s ∧ w.extractLsb' 8 8 = 0 ∧ canAccess (returnSize w) (s.r Reg.fp + 4) s ∧
     w.getLsbD 29 = false) := by decide +kernel

theorem witness_RetUndoesCalls :
    let p := Spec.direct (.byteDisp 2 8)
    meets (operandsRA (lit 2) p (tiny [])) (fun _ => true) = true ∧ (tiny []).psl &&& 0x0000FF10 = 0 ∧
    runs (.calls (lit 2) p) (tiny []) (fun t => decide (canFetch 1 t)) = true ∧
    (tiny []).cfg.deliver = false := by decide +kernel

theorem witness_SubroutineLinkage :
    meets (operandsA .b (.direct (.autoincDeferred 14)) (tiny [])) (fun r =>
      decide (canAccess 4 (r.2.sp - 4) (tiny []))) = true ∧
    canFetch 1 (tiny []) ∧ canAccess 4 (tiny []).sp (tiny []) := by decide +kernel

theorem witness_PrivilegedOutsideKernelFaults :
    canFetch 1 (tinyUser []) ∧ pslCUR (tinyUser []).psl ≠ 0 := by decide +kernel

theorem witness_HaltStopsTheProcessor : canFetch 1 (tiny []) ∧ pslCUR (tiny []).psl = 0 := by
  decide +kernel

theorem witness_ReiReturns :
    let s := tiny []
    canFetch 1 s ∧ canAccess 8 s.sp s ∧ reiAccepts s.psl (s.long (s.sp + 4)) ∧
    reiModelled (s.long (s.sp + 4)) s := by decide +kernel

/-- An image that raises privilege, one with T set, one that returns to a mode with an AST pending. -/
theorem witness_ReiChecksTheImage :
    (let s := tinyUser []; canFetch 1 s ∧ canAccess 8 s.sp s ∧ decide (reiAccepts s.psl (s.long (s.sp + 4))) = false) ∧
    (let s := { tiny [] with mem := withData [(0x8004, [0x10, 0, 4, 4])] (tiny []).mem }
     reiAccepts s.psl (s.long (s.sp + 4)) ∧ decide (reiModelled (s.long (s.sp + 4)) s) = false) ∧
    (let s := { tiny [] with mem := withData [(0x8004, [0, 0, 0xC0, 3])] (tiny []).mem, astlvl := 3 }
     reiAccepts s.psl (s.long (s.sp + 4)) ∧ decide (reiModelled (s.long (s.sp + 4)) s) = false) := by decide +kernel

/-- A machine with a process control block at 0x3000 that LDPCTX accepts. -/
def tinyPcb : State :=
  { tiny [] with pcbb := 0x3000, mem := withData [(0x3000, List.replicate 80 0 ++
    [0, 0, 0, 0x80, 0, 0, 0x20, 4, 0, 0, 0x80, 0x7F, 0, 0, 0x20, 0x80])] (tiny []).mem }

/-- Lengths and ASTLVL at the largest value the checks let pass. -/
theorem witness_LdpctxLoadsTheContext :
    let s := tinyPcb
    canFetch 1 s ∧ pslCUR s.psl = 0 ∧ pslIS s.psl = true ∧ canAccess 96 s.pcbb s ∧
    pcbAccepts (s.long (s.pcbb + 80)) (s.long (s.pcbb + 84)) (s.long (s.pcbb + 88))
      (s.long (s.pcbb + 92)) ∧ canAccess 8 (s.long s.pcbb - 8) s := by decide +kernel

theorem witness_ReservedImagesFault :
    meets (operandsRA (lit 2) (at_ 2) (tiny [])) (fun r => decide (canAccess 2 r.2.1 (tiny []) ∧
      (r.2.2.word r.2.1).extractLsb' 12 2 ≠ 0)) = true ∧
    meets (operandsAA (at_ 2) (at_ 2) (tiny [])) (fun r => decide (canAccess 2 r.2.1 (tiny []) ∧
      (r.2.2.word r.2.1).extractLsb' 12 2 ≠ 0)) = true ∧
    (let s := (tiny []).setR 13 0x1FFC
     canFetch 1 s ∧ canAccess 4 (s.r Reg.fp + 4) s ∧ (s.long (s.r Reg.fp + 4)).extractLsb' 8 8 ≠ 0) ∧
    (let s := { tiny [] with psl := 0x001F0000 }
     canFetch 1 s ∧ pslCUR s.psl = 0 ∧ pslIS s.psl = false) := by decide +kernel

/-- A block whose P0BR image is not in the system region. -/
theorem witness_ReservedImagesFault_of_ldpctx :
    let s := { tinyPcb with pcbb := 0x3004 }
    canFetch 1 s ∧ pslCUR s.psl = 0 ∧ pslIS s.psl = true ∧ canAccess 16 (s.pcbb + 80) s ∧
    ¬ pcbAccepts (s.long (s.pcbb + 80)) (s.long (s.pcbb + 84)) (s.long (s.pcbb + 88))
      (s.long (s.pcbb + 92)) :=
  ⟨by decide +kernel, by decide +kernel, by decide +kernel, by decide +kernel, fun h => absurd h.1 (by decide +kernel)⟩

/-- On the interrupt stack, and off it at IPL 0. -/
theorem witness_SvpctxSavesTheContext :
    ∀ psl ∈ [0x041F0000, 0], let s := { tinyPcb with psl := BitVec.ofNat 32 psl }
    canFetch 1 s ∧ pslCUR s.psl = 0 ∧ canAccess 8 s.sp s ∧ canAccess 80 s.pcbb s := by decide +kernel

/-- Every register of the map, with the value 4; 5 for the fault of ASTLVL. -/
theorem witness_MtprWritesTheRegister :
    (∀ e ∈ (tiny []).cfg.prnum,
      meets (operandsRR .l .l (lit 4) (.direct (.immediate (e.1.setWidth 64))) (tiny [])) (fun r =>
        r.1 == 4 && r.1.getLsbD 0 == false && prnumFind (tiny []).cfg.prnum r.2.1 == some e.2) = true) ∧
    meets (operandsRR .l .l (rn 1) (lit 0x18) (tiny [])) (fun r =>
      decide (4 < r.1.toNat) && prnumFind (tiny []).cfg.prnum r.2.1 == some .astlvl) = true ∧
    pslCUR (tiny []).psl = 0 := by decide +kernel

theorem witness_MfprReadsTheRegister :
    (∀ e ∈ (tiny []).cfg.prnum,
      meets (operandsRW .l (.direct (.immediate (e.1.setWidth 64))) (at_ 2) (tiny [])) (fun r =>
        writes .l r.2.1 (tiny []) && prnumFind (tiny []).cfg.prnum r.1 == some e.2) = true) ∧
    pslCUR (tiny []).psl = 0 := by decide +kernel

theorem witness_UnmodelledProcessorRegistersAreRefused :
    (∀ e ∈ [((0x14 : BitVec 6), none), (0x20, some ProcReg.iccs), (0x24, some .todr), (0x38, some .mapen)],
      meets (operandsRR .l .l (lit 1) (lit e.1) (tiny [])) (fun r =>
        r.1.getLsbD 0 && prnumFind (tiny []).cfg.prnum r.2.1 == e.2) = true ∧
      meets (operandsRW .l (lit e.1) (rn 1) (tiny [])) (fun r =>
        prnumFind (tiny []).cfg.prnum r.1 == e.2) = true) ∧
    pslCUR (tiny []).psl = 0 := by decide +kernel

/-- Overlapping strings. -/
theorem witness_Movc3CopiesTheString :
    meets (operandsRAA (lit 5) (at_ 2) (.direct (.byteDisp 2 2)) (tiny [])) (fun r => decide (
      canAccess r.1.toNat r.2.1 (tiny []) ∧ canAccess r.1.toNat r.2.2.1 (tiny []))) = true := by decide +kernel

theorem witness_Movc5CopiesAndFills :
    meets (operandsMovc5 (lit 2) (at_ 2) (lit 32) (lit 5) (.direct (.byteDisp 2 1)) (tiny [])) (fun r => decide (
      canAccess (min r.1.toNat r.2.2.2.1.toNat) r.2.1 (tiny []) ∧
      canAccess r.2.2.2.1.toNat r.2.2.2.2.1 (tiny []))) = true := by decide +kernel

/-- A difference at `j = 1`, and none (`j` the length). -/
theorem witness_Cmpc3FindsTheDifference :
    ∀ e ∈ [((4 : BitVec 6), 1), (1, 1), (0, 0)],
    meets (operandsRAA (lit e.1) (.direct (.byteDisp 2 8)) (.direct (.byteDisp 2 9)) (tiny [])) (fun r => decide (
      e.2 ≤ r.1.toNat ∧
      (∀ i < e.2, (tiny []).byteAt (r.2.1.plus i) = (tiny []).byteAt (r.2.2.1.plus i)) ∧
      (e.2 < r.1.toNat → (tiny []).byteAt (r.2.1.plus e.2) ≠ (tiny []).byteAt (r.2.2.1.plus e.2)) ∧
      canAccess (min r.1.toNat (e.2 + 1)) r.2.1 (tiny []) ∧
      canAccess (min r.1.toNat (e.2 + 1)) r.2.2.1 (tiny []))) = true := by decide +kernel

/-- Found at `j = 2` and not found, for LOCC and for SKPC. -/
theorem witness_ScansFindTheCharacter :
    (∀ e ∈ [((4 : BitVec 6), 2), (2, 2), (0, 0)],
      meets (operandsRRA (.direct (.immediate 0x42)) (lit e.1) (.direct (.byteDisp 2 8)) (tiny [])) (fun r => decide (
        e.2 ≤ r.2.1.toNat ∧ (∀ i < e.2, ¬ (tiny []).byteAt (r.2.2.1.plus i) = r.1) ∧
        (e.2 < r.2.1.toNat → (tiny []).byteAt (r.2.2.1.plus e.2) = r.1) ∧
        canAccess (min r.2.1.toNat (e.2 + 1)) r.2.2.1 (tiny []))) = true) ∧
    (∀ e ∈ [((4 : BitVec 6), 2), (2, 2), (0, 0)],
      meets (operandsRRA (.direct (.immediate 0x41)) (lit e.1) (.direct (.byteDisp 2 8)) (tiny [])) (fun r => decide (
        e.2 ≤ r.2.1.toNat ∧ (∀ i < e.2, ¬ (tiny []).byteAt (r.2.2.1.plus i) ≠ r.1) ∧
        (e.2 < r.2.1.toNat → (tiny []).byteAt (r.2.2.1.plus e.2) ≠ r.1) ∧
        canAccess (min r.2.1.toNat (e.2 + 1)) r.2.2.1 (tiny []))) = true) := by decide +kernel

/-- A left and a right shift; a left shift that overflows with IV clear. -/
theorem witness_ShiftAndRotateInstructions :
    (∀ c ∈ [Spec.direct (.immediate 0x80), lit 31], ∀ z ∈ [Size.l, .q],
      meets (operandsRRW .b z c (rn 1) (at_ 2) (tiny [])) (fun r =>
        writes z r.2.2.1 (tiny []) && !pslIV (tiny []).psl) = true) ∧
    meets (operandsRRW .b .l (lit 1) (rn 4) (at_ 2) (tiny [])) (fun r => (shiftCodes r.1 r.2.1).v) = true := by
  decide +kernel

theorem witness_ExceptionsEnterThroughTheirVectors :
    { tiny [] with cfg.deliver := true }.cfg.deliver = true ∧ (tiny []).cfg.deliver = false := by
  decide +kernel

/-- The defaults of the parameters after reset (00_scope.md R5). -/
theorem test_reset_takes_the_defaults :
    State.reset.cfg.deliver = false ∧ State.reset.cfg.smc = .refuse ∧ State.reset.irqs = [] := by
  decide +kernel

/-- A vector of code 0 and one of code 1, with and without a parameter. -/
theorem witness_EntrySavesAndSwitches :
    ∀ e ∈ [(0x2000, false), (0x2008, true)], ∀ params ∈ [([] : List Word), [2]],
    let s := { tiny [] with scbb := BitVec.ofNat 32 e.1, psl := 0 }
    params.length ≤ 1 ∧ canAccess 4 (s.scbb + 0) s ∧ (s.long (s.scbb + 0)).getLsbD 1 = false ∧
    (s.long (s.scbb + 0)).getLsbD 0 = e.2 ∧
    canAccess (entrySize params) (entryBase (s.long (s.scbb + 0)) params s) s := by decide +kernel

/-- A vector with no memory, one of code 2, and stacks with no memory under the first and under the last
longword pushed. -/
theorem witness_EntrySavesAndSwitches_of_refusals :
    let s := tinyHole []
    (let t := { s with scbb := 0x7E00 }; decide (canAccess 4 (t.scbb + 0x1FE) t) = false) ∧
    (canAccess 4 (s.scbb + 0x2008) s ∧ (s.long (s.scbb + 0x2008)).getLsbD 1 = false) ∧
    (canAccess 4 (s.scbb + 0x200A) s ∧ (s.long (s.scbb + 0x200A)).getLsbD 1 = true) ∧
    (∀ sp ∈ [0x8002, 4], let t := s.setR 14 (BitVec.ofNat 32 sp)
      canAccess 4 (t.scbb + 0x2000) t ∧ (t.long (t.scbb + 0x2000)).getLsbD 1 = false ∧
      decide (canAccess (entrySize []) (entryBase (t.long (t.scbb + 0x2000)) [] t) t) = false) := by
  decide +kernel

/-- From user mode off the interrupt stack, and from the interrupt stack. -/
theorem witness_ReiUndoesEntry :
    ∀ psl ∈ [0x03C00005, 0x04010000],
    let s := { tiny [] with scbb := 0x2000, psl := BitVec.ofNat 32 psl, spbank := { k := 0x9000, e := 0, s := 0, u := 0, i := 0 } }
    (match takeEntry .exception 0 0x1234 [] s with
      | .next t => decide (canFetch 1 t)
      | .fault _ => false
      | .refused _ => false) = true ∧
    pslLegal s.psl = true ∧ (pslIS s.psl = true → pslIPL s.psl ≠ 0) ∧ reiModelled s.psl s := by decide +kernel

/-- For StepKeepsPslLegal, StepKeepsDataCanonical, StepKeepsProcessorRegistersLegal and
NoInstructionRaisesPrivilege: a state that meets every invariant and whose step, a store, answers a next
state. -/
theorem witness_invariants :
    let s := tiny [0xD0, 0x51, 0x62]
    pslLegal s.psl = true ∧ dataWf s = true ∧ procRegsLegal s = true ∧ s.cfg.deliver = false ∧
    ((nextOf (step s)).any fun t => t.written != []) = true := by decide +kernel

theorem witness_UserStepsKeepSystemState :
    let s := tinyUser [0xD0, 0x51, 0x62]
    running s ∧ meets (decode (instrWindow s)) (fun r => r.1 == .movl (rn 1) (at_ 2) && r.1 != .rei) = true ∧
    s.cfg.deliver = false ∧ pslCUR s.psl ≠ 0 ∧ (nextOf (step s)).isSome = true := by decide +kernel

end Sys2Proof.Tests
end

/-!
PROOF. A step runs the instruction its bytes decode to, and the unpredictable uses of PC and SP are
refused (00_scope.md R10, 30_encoding.md R82, R106). The second rests on one law of `exec`: after the
opcode byte and the mode check every instruction evaluates its general operands, left to right, before it
does anything else (R104), so what stops an operand stops the instruction.
-/

namespace Sys2Proof.Proofs

open Sys2Proof Sys2Proof.Machine

/-! ## The step -/

/-- A running state is one in which an instruction is fetched (R29). -/
theorem beforeFetch_of_running {s : State} (h : running s) : beforeFetch s = none := by
  obtain ⟨hhalted, hmapen, hT, hTP, hCM, hFPD⟩ := h
  simp [beforeFetch, pslUnmodelled, hhalted, hmapen, hT, hTP, hCM, hFPD]

/-- A running state steps by the instruction its bytes decode to. -/
theorem step_of_decode {s : State} {i : Instr} {rest : List Byte} (hr : running s)
    (hd : decode (instrWindow s) = .ok (i, rest)) : step s = atBoundary (exec i s) := by
  simp [step, beforeFetch_of_running hr, hd]

/-- With no answer of the oracle left, no interrupt is offered (R312). -/
theorem atBoundary_next_of_no_irqs {t : State} (h : t.irqs = []) : atBoundary (.next t) = .next t := by
  simp only [atBoundary, offerInterrupt, h]
  split <;> rfl

/-- Settles O5: the step is `atBoundary` of the meaning, which passes faults, refusals and states without
an offered interrupt on. -/
theorem stepRunsDecodedInstruction : Obligations.StepRunsDecodedInstruction := by
  intro s i rest hr hd
  have hstep := step_of_decode hr hd
  refine ⟨hstep, fun t ht hirqs => ?_, fun f hf => ?_, fun r hrefused => ?_⟩
  · rw [hstep, ht, atBoundary_next_of_no_irqs hirqs]
  · rw [hstep, hf, atBoundary]
  · rw [hstep, hrefused, atBoundary]

/-! ## Instructions evaluate their operands first -/

/-- What stops the operands `ps` stops `body`: it evaluates them, in this order, before all else. -/
def EvaluatesFirst (ps : List OperandSpec) (body : State → Except Stop State) : Prop :=
  ∀ s e, evalOperands ps s = .error e → body s = .error e

namespace EvaluatesFirst

theorem nil {body : State → Except Stop State} : EvaluatesFirst [] body :=
  fun _ _ h => nomatch h

/-- A body that begins with the evaluation `x` of the operand `p` and goes on with `k`, which evaluates
the operands `ps` first in the state that `x` has reached. -/
theorem cons {α : Type} {p : OperandSpec} {ps : List OperandSpec} {x : State → Except Stop α}
    {reached : α → State} {k : α → Except Stop State} (hp : ∀ s, p.eval s = (x s).map reached)
    (hk : ∀ a e, evalOperands ps (reached a) = .error e → k a = .error e) :
    EvaluatesFirst (p :: ps) (fun s => x s >>= k) := by
  intro s e h
  rw [evalOperands, hp] at h
  change (x s >>= k) = .error e
  cases hx : x s with
  | error e' => rw [hx] at h; exact h
  | ok a => rw [hx] at h; exact hk a e h

variable {z : Size} {sp : Spec} {ps : List OperandSpec}

theorem read {k : BitVec z.bits × State → Except Stop State}
    (hk : ∀ v, EvaluatesFirst ps fun s => k (v, s)) :
    EvaluatesFirst (.r z sp :: ps) fun s => evalRead z sp s >>= k :=
  cons (fun _ => rfl) fun (v, u) e => hk v u e

theorem modify {k : BitVec z.bits × Operand × State → Except Stop State}
    (hk : ∀ v o, EvaluatesFirst ps fun s => k (v, o, s)) :
    EvaluatesFirst (.m z sp :: ps) fun s => evalModify z sp s >>= k :=
  cons (fun _ => rfl) fun (v, o, u) e => hk v o u e

theorem write {k : Operand × State → Except Stop State}
    (hk : ∀ o, EvaluatesFirst ps fun s => k (o, s)) :
    EvaluatesFirst (.w z sp :: ps) fun s => evalWrite z sp s >>= k :=
  cons (fun _ => rfl) fun (o, u) e => hk o u e

theorem address {k : Word × State → Except Stop State}
    (hk : ∀ v, EvaluatesFirst ps fun s => k (v, s)) :
    EvaluatesFirst (.a z sp :: ps) fun s => evalAddress z sp s >>= k :=
  cons (fun _ => rfl) fun (v, u) e => hk v u e

/-! The shared bodies of the instruction families. -/

variable {src src1 src2 dst mask cnt ch len addr : Spec}

theorem arith1 {law : BitVec z.bits → Alu z.bits} :
    EvaluatesFirst [.m z dst] (Machine.arith1 z law dst) :=
  modify fun _ _ => nil

theorem arith2 {law : BitVec z.bits → BitVec z.bits → Alu z.bits} :
    EvaluatesFirst [.r z src, .m z dst] (Machine.arith2 z law src dst) :=
  read fun _ => modify fun _ _ => nil

theorem arith3 {law : BitVec z.bits → BitVec z.bits → Alu z.bits} :
    EvaluatesFirst [.r z src1, .r z src2, .w z dst] (Machine.arith3 z law src1 src2 dst) :=
  read fun _ => read fun _ => write fun _ => nil

theorem logical2 {op : BitVec z.bits → BitVec z.bits → BitVec z.bits} :
    EvaluatesFirst [.r z mask, .m z dst] (Machine.logical2 z op mask dst) :=
  read fun _ => modify fun _ _ => nil

theorem compare : EvaluatesFirst [.r z src1, .r z src2] (Machine.compare z src1 src2) :=
  read fun _ => read fun _ => nil

theorem test : EvaluatesFirst [.r z src] (Machine.test z src) :=
  read fun _ => nil

theorem bitTest : EvaluatesFirst [.r z mask, .r z src] (Machine.bitTest z mask src) :=
  read fun _ => read fun _ => nil

theorem move : EvaluatesFirst [.r z src, .w z dst] (Machine.move z src dst) :=
  read fun _ => write fun _ => nil

theorem moveAddress : EvaluatesFirst [.a z src, .w .l dst] (Machine.moveAddress z src dst) :=
  address fun _ => write fun _ => nil

theorem pushAddress : EvaluatesFirst [.a z src] (Machine.pushAddress z src) :=
  address fun _ => nil

theorem clear : EvaluatesFirst [.w z dst] (Machine.clear z dst) :=
  write fun _ => nil

theorem shift : EvaluatesFirst [.r .b cnt, .r z src, .w z dst] (Machine.shift z cnt src dst) :=
  read fun _ => read fun _ => write fun _ => nil

theorem scan {skip : Byte → Byte → Bool} :
    EvaluatesFirst [.r .b ch, .r .w len, .a .b addr] (Machine.scan skip ch len addr) :=
  read fun _ => read fun _ => address fun _ => nil

end EvaluatesFirst

/-- What stops the opcode fetch or an operand of `i`, where the mode allows `i`, stops `i`. -/
def StopsWithOperands (i : Instr) : Prop :=
  ∀ s e, modeAllows i s → operandsBefore (operandsOf i) s = .error e → exec i s = conclude s (.error e)

theorem StopsWithOperands.of_body {i : Instr} {body : State → Except Stop State}
    (hexec : ∀ s, exec i s = runInstr s body) (hbody : EvaluatesFirst (operandsOf i) body) :
    StopsWithOperands i := by
  intro s e _ h
  rw [hexec, runInstr]
  congr 1
  rcases bind_error_iff.1 h with hfetch | ⟨t, hfetch, hops⟩
  · exact bind_of_error hfetch _
  · exact (bind_of_ok hfetch _).trans (hbody t e hops)

/-- In kernel mode the mode check changes nothing. -/
theorem kernelOnly_bind {α : Type} {s : State} (h : pslCUR s.psl = 0) (f : Unit → Except Stop α) :
    (kernelOnly s >>= f) = f () :=
  bind_of_ok (if_pos h) f

theorem StopsWithOperands.of_kernel_body {i : Instr} {body : State → Except Stop State}
    (hexec : ∀ s, exec i s = runInstr s fun t => kernelOnly t >>= fun _ => body t)
    (hop : i.opcode ∈ kernelOpcodes) (hbody : EvaluatesFirst (operandsOf i) body) :
    StopsWithOperands i := by
  intro s e hmode h
  rw [hexec, runInstr]
  congr 1
  rcases bind_error_iff.1 h with hfetch | ⟨t, hfetch, hops⟩
  · exact bind_of_error hfetch _
  · have hkernel : pslCUR t.psl = 0 := by rw [(evaluated_fetch hfetch).psl, hmode hop]
    exact (bind_of_ok hfetch _).trans ((kernelOnly_bind hkernel _).trans (hbody t e hops))

open EvaluatesFirst in
/-- Every instruction evaluates its operands before all else (R104). -/
theorem exec_stops_with_operands (i : Instr) : StopsWithOperands i := by
  cases i with
  | halt | ldpctx | svpctx => exact .of_kernel_body (fun _ => rfl) (of_decide_eq_true rfl) nil
  | mtpr => exact .of_kernel_body (fun _ => rfl) (of_decide_eq_true rfl) (read fun _ => read fun _ => nil)
  | mfpr => exact .of_kernel_body (fun _ => rfl) (of_decide_eq_true rfl) (read fun _ => write fun _ => nil)
  | rei | ret | rsb | brb | brw | bneq | bnequ | beql | beqlu | bgtr | bleq | bgeq | blss | bvc | bvs
  | bcc | bgequ | bcs | blssu => exact .of_body (fun _ => rfl) nil
  | incb | incw | incl | decb | decw | decl => exact .of_body (fun _ => rfl) arith1
  | addb2 | addw2 | addl2 | subb2 | subw2 | subl2 | mulb2 | mulw2 | mull2 | divb2 | divw2 | divl2 =>
    exact .of_body (fun _ => rfl) arith2
  | addb3 | addw3 | addl3 | subl3 | mull3 | divl3 => exact .of_body (fun _ => rfl) arith3
  | bisb2 | bisw2 | bisl2 | bicb2 | bicw2 | bicl2 | xorb2 | xorw2 | xorl2 =>
    exact .of_body (fun _ => rfl) logical2
  | cmpb | cmpw | cmpl => exact .of_body (fun _ => rfl) compare
  | tstb | tstw | tstl => exact .of_body (fun _ => rfl) test
  | bitb | bitw | bitl => exact .of_body (fun _ => rfl) bitTest
  | movb | movw | movl | movq => exact .of_body (fun _ => rfl) move
  | movab | movaw | moval => exact .of_body (fun _ => rfl) moveAddress
  | pushab | pushaw | pushal => exact .of_body (fun _ => rfl) pushAddress
  | pushl => exact .of_body (fun _ => rfl) (read fun _ => nil)
  | clrb | clrw | clrl | clrq => exact .of_body (fun _ => rfl) clear
  | ashl | ashq => exact .of_body (fun _ => rfl) shift
  | rotl => exact .of_body (fun _ => rfl) (read fun _ => read fun _ => write fun _ => nil)
  | locc | skpc => exact .of_body (fun _ => rfl) scan
  | movc3 | cmpc3 => exact .of_body (fun _ => rfl) (read fun _ => address fun _ => address fun _ => nil)
  | movc5 =>
    exact .of_body (fun _ => rfl)
      (read fun _ => address fun _ => read fun _ => read fun _ => address fun _ => nil)
  | jsb => exact .of_body (fun _ => rfl) (address fun _ => nil)
  | callg => exact .of_body (fun _ => rfl) (address fun _ => address fun _ => nil)
  | calls => exact .of_body (fun _ => rfl) (read fun _ => address fun _ => nil)

/-- An operand that stops, after the operands before it have been evaluated, stops the operands. -/
theorem operandsBefore_stop {before after : List OperandSpec} {p : OperandSpec} {s u : State} {e : Stop}
    (hu : operandsBefore before s = .ok u) (hp : evalSpec p.access p.size p.spec u = .error e) :
    operandsBefore (before ++ p :: after) s = .error e := by
  obtain ⟨t, hfetch, hbefore⟩ := bind_ok_iff.1 hu
  have hrest : evalOperands (p :: after) u = .error e := bind_of_error (OperandSpec.eval_stop hp) _
  rw [operandsBefore, bind_of_ok hfetch, evalOperands_append, bind_of_ok hbefore, hrest]

/-- An operand that stops, after the operands before it have been evaluated, stops the instruction. -/
theorem exec_of_operand_stop {i : Instr} {before after : List OperandSpec} {p : OperandSpec}
    {s u : State} {e : Stop} (hi : operandsOf i = before ++ p :: after) (hmode : modeAllows i s)
    (hu : operandsBefore before s = .ok u) (hp : evalSpec p.access p.size p.spec u = .error e) :
    exec i s = conclude s (.error e) :=
  exec_stops_with_operands i s e hmode (by rw [hi]; exact operandsBefore_stop hu hp)

/-! ## The refused forms (R106) -/

/-- A direct specifier is its mode, evaluated past the specifier byte. -/
theorem evalSpec_direct {s : State} (h : canFetch 1 s) (a : Access) (z : Size) (b : Base) :
    evalSpec a z (.direct b) s = evalMode a z false b (s.setPc (s.pc.plus 1)) :=
  bind_of_ok (fetch_ok h) _

/-- An indexed specifier whose base can be evaluated and clashes with the index is refused. -/
theorem evalSpec_indexed_clash {s : State} (h : canFetch 2 s) {a : Access} {z : Size} {x : Reg}
    {b : Base} {r : Operand × State} (hx : x ≠ Reg.pc) (hb : Base.clashes x b = true)
    (hr : evalMode a z true b (s.setPc (s.pc.plus 2)) = .ok r) :
    evalSpec a z (.indexed x b) s = .error (.refuse .unpredictableIndex) := by
  have hsecond : fetch 1 (s.setPc (s.pc.plus 1)) = .ok (s.setPc (s.pc.plus 2)) := by
    rw [fetch_ok (canFetch_setPc h)]
    simp [plus_plus]
  rw [evalSpec, bind_of_ok (fetch_ok (canFetch_mono h (by decide))), if_neg (by simpa using hx)]
  simp only [bind_of_ok hsecond, bind_of_ok hr, hb, if_true]

/-- Settles O14: each form by its mode, and the instruction by what stops its operand. -/
theorem unpredictableFormsAreRefused : Obligations.UnpredictableFormsAreRefused := by
  refine ⟨fun a z s h11 => ?_, fun i before after p s u r hi hmode hu hp =>
    exec_of_operand_stop hi hmode hu hp⟩
  have h1 : canFetch 1 s := canFetch_mono h11 (by decide)
  have h2 : canFetch 2 s := canFetch_mono h11 (by decide)
  refine ⟨fun ha => ?_, fun ha => ?_, ?_, ?_, fun v ha => ?_, fun x v hx ha => ?_, fun x hx => ?_,
    fun x hx => ?_, fun x hx hp => ?_⟩
  · simp [evalSpec_direct h1, evalMode, ha]
  · simp [evalSpec_direct h1, evalMode, ha]
  · simp [evalSpec_direct h1, evalMode]
  · simp [evalSpec_direct h1, evalMode]
  · rw [evalSpec_direct h1]
    rcases ha with rfl | rfl <;> rfl
  · rcases ha with rfl | rfl <;> exact evalSpec_indexed_clash h2 hx rfl rfl
  · exact evalSpec_indexed_clash h2 hx (by simp [Base.clashes]) (if_neg (by simpa using hx))
  · exact evalSpec_indexed_clash h2 hx (by simp [Base.clashes]) rfl
  · have hread : memRead 32 ((s.setPc (s.pc.plus 2)).r x) (s.setPc (s.pc.plus 2))
        = .ok (s.long (s.r x)) := by
      rw [r_setR_other s _ (Ne.symm hx)]
      exact (memRead_long hp).trans (by simp)
    exact evalSpec_indexed_clash h2 hx (by simp [Base.clashes]) (bind_of_ok hread _)

end Sys2Proof.Proofs

/-!
PROOF. The state (10_state.md): what every step keeps, and the laws of the steps that start no instruction, of
memory as data, of specifiers and register operands, of MTPR and MFPR, and of the entry of an exception or
interrupt.

What every step keeps (R31, R34, R38 to R44, R47, R48) rests on one relation, `Confined`: whatever an
instruction other than REI does before it ends, it keeps the processor mode and the invariants, and outside
kernel mode it writes only registers, the low byte of the PSL, and memory. REI and the entries, which do
change the mode, are treated beside it.
-/

namespace Sys2Proof.Proofs

open Sys2Proof Sys2Proof.Machine

/-! ## Fields of the PSL, by their bits -/

/-- A field of a word with another field replaced, where the two do not overlap. -/
theorem extract_setField_apart {lo len : Nat} {v : BitVec len} {w : Word} {lo' len' : Nat}
    (h : lo' + len' ≤ lo ∨ lo + len ≤ lo') :
    (setField lo len v w).extractLsb' lo' len' = w.extractLsb' lo' len' := by
  apply BitVec.eq_of_getLsbD_eq
  intro i hi
  simp only [BitVec.getLsbD_extractLsb', getLsbD_setField]
  rw [if_neg (by omega)]

/-- A field of a word that has just been replaced. -/
theorem extract_setField_same {lo len : Nat} {v : BitVec len} {w : Word} (h : lo + len ≤ 32) :
    (setField lo len v w).extractLsb' lo len = v := by
  apply BitVec.eq_of_getLsbD_eq
  intro i hi
  simp only [BitVec.getLsbD_extractLsb', getLsbD_setField, hi, Nat.add_sub_cancel_left]
  simp [hi, show lo + i < 32 by omega]

/-- The bits under a mask are kept when a field outside the mask is replaced. -/
theorem setField_and_of_disjoint {lo len : Nat} {v : BitVec len} {w mask : Word}
    (h : ∀ i < len, mask.getLsbD (lo + i) = false) : setField lo len v w &&& mask = w &&& mask := by
  apply word_ext
  intro i _
  simp only [BitVec.getLsbD_and, getLsbD_setField]
  split
  next hi =>
    have := h (i - lo) (by omega)
    rw [Nat.add_sub_cancel' hi.1] at this
    simp [this]
  next => rfl

/-- Two PSLs agree above the low byte, which holds the condition codes and the trap enables. -/
def SameUpper (v w : Word) : Prop := ∀ i, 8 ≤ i → v.getLsbD i = w.getLsbD i

theorem SameUpper.extract {v w : Word} (h : SameUpper v w) {lo len : Nat} (hlo : 8 ≤ lo) :
    v.extractLsb' lo len = w.extractLsb' lo len := by
  apply BitVec.eq_of_getLsbD_eq
  intro i hi
  simp only [BitVec.getLsbD_extractLsb', h (lo + i) (by omega)]

theorem SameUpper.mbz {v w : Word} (h : SameUpper v w) : v &&& pslMbz = w &&& pslMbz := by
  apply word_ext
  intro i _
  by_cases hi : 8 ≤ i
  · simp only [BitVec.getLsbD_and, h i hi]
  · have hmask : pslMbz.getLsbD i = false := by interval_cases i <;> rfl
    simp [hmask]

/-- What makes a PSL consistent lies above the low byte. -/
theorem SameUpper.legal {v w : Word} (h : SameUpper v w) : pslLegal v = pslLegal w := by
  have hcur : pslCUR v = pslCUR w := h.extract (by decide)
  have hprv : pslPRV v = pslPRV w := h.extract (by decide)
  have hipl : pslIPL v = pslIPL w := h.extract (by decide)
  have his : pslIS v = pslIS w := h 26 (by decide)
  simp only [pslLegal, h.mbz, hcur, hprv, hipl, his]

theorem sameUpper_setField (w : Word) {lo len : Nat} (v : BitVec len) (h : lo + len ≤ 8) :
    SameUpper (setField lo len v w) w := fun i hi => by
  rw [getLsbD_setField, if_neg (by omega)]

theorem sameUpper_withFlags (f : Flags) (w : Word) : SameUpper (pslWithFlags f w) w := fun i hi => by
  rw [getLsbD_pslWithFlags, if_neg (by omega), if_neg (by omega), if_neg (by omega), if_neg (by omega)]

theorem sameUpper_afterCall (mask : BitVec 16) (w : Word) : SameUpper (pslAfterCall mask w) w :=
  fun i hi => by
    simp only [pslAfterCall, getLsbD_setBit]
    rw [if_neg (by omega), if_neg (by omega), if_neg (by omega), sameUpper_withFlags _ _ i hi]

theorem sameUpper_afterReturn (l w : Word) : SameUpper (pslAfterReturn l w) w :=
  sameUpper_setField _ _ (by decide)

/-- In kernel mode only the must-be-zero bits can make a PSL inconsistent (R34). -/
theorem pslLegal_of_kernel {w : Word} (h : pslCUR w = 0) :
    pslLegal w = true ↔ w &&& pslMbz = 0 := by
  simp [pslLegal, h, BitVec.le_def]

@[simp] theorem pslCUR_withIS (b : Bool) (w : Word) : pslCUR (pslWithIS b w) = pslCUR w :=
  extract_setField_apart (by decide)

@[simp] theorem pslCUR_withIPL (l : BitVec 5) (w : Word) : pslCUR (pslWithIPL l w) = pslCUR w :=
  extract_setField_apart (by decide)

@[simp] theorem pslWithIS_mbz (b : Bool) (w : Word) : pslWithIS b w &&& pslMbz = w &&& pslMbz :=
  setField_and_of_disjoint (by decide)

@[simp] theorem pslWithIPL_mbz (l : BitVec 5) (w : Word) : pslWithIPL l w &&& pslMbz = w &&& pslMbz :=
  setField_and_of_disjoint (by decide)

/-! The PSL of an entry (R314). -/

@[simp] theorem pslIS_forEntry (is : Bool) (prv : BitVec 2) (ipl : BitVec 5) :
    pslIS (pslForEntry is prv ipl) = is := by
  rw [pslIS, pslForEntry, getLsbD_setBit]; rfl

@[simp] theorem pslCUR_forEntry (is : Bool) (prv : BitVec 2) (ipl : BitVec 5) :
    pslCUR (pslForEntry is prv ipl) = 0 := by
  rw [pslCUR, pslForEntry, setBit, extract_setField_apart (by decide), extract_setField_apart (by decide),
    extract_setField_apart (by decide)]
  rfl

@[simp] theorem pslPRV_forEntry (is : Bool) (prv : BitVec 2) (ipl : BitVec 5) :
    pslPRV (pslForEntry is prv ipl) = prv := by
  rw [pslPRV, pslForEntry, setBit, extract_setField_apart (by decide), extract_setField_same (by decide)]

@[simp] theorem pslIPL_forEntry (is : Bool) (prv : BitVec 2) (ipl : BitVec 5) :
    pslIPL (pslForEntry is prv ipl) = ipl := by
  rw [pslIPL, pslForEntry, setBit, extract_setField_apart (by decide), extract_setField_apart (by decide),
    extract_setField_same (by decide)]

/-- The PSL of an entry has no bit but those of IS, CUR, PRV and IPL. -/
theorem pslForEntry_rest (is : Bool) (prv : BitVec 2) (ipl : BitVec 5) :
    pslForEntry is prv ipl &&& 0xF820FFFF = 0 := by
  rw [pslForEntry, setBit, setField_and_of_disjoint (by decide), setField_and_of_disjoint (by decide),
    setField_and_of_disjoint (by decide)]
  rfl

theorem pslLegal_forEntry (is : Bool) (prv : BitVec 2) (ipl : BitVec 5) :
    pslLegal (pslForEntry is prv ipl) = true :=
  (pslLegal_of_kernel (pslCUR_forEntry is prv ipl)).2 (by
    rw [show pslMbz = 0xF820FFFF &&& pslMbz by rfl, ← BitVec.and_assoc, pslForEntry_rest]
    rfl)

/-! ## What an instruction can do to the state -/

/-- From `s` to `t` nothing has changed but registers, the low byte of the PSL, and memory with its record. -/
structure Unprivileged (s t : State) : Prop where
  psl : SameUpper t.psl s.psl
  data : dataWf s = true → dataWf t = true
  rest : t = { s with reg := t.reg, psl := t.psl, mem := t.mem, written := t.written }

/-- From `s` to `t` every invariant is kept. -/
structure Preserves (s t : State) : Prop where
  psl : pslLegal s.psl = true → pslLegal t.psl = true
  data : dataWf s = true → dataWf t = true
  procRegs : procRegsLegal s = true → procRegsLegal t = true
  cfg : t.cfg = s.cfg

theorem Preserves.trans {s u t : State} (h : Preserves s u) (h2 : Preserves u t) : Preserves s t :=
  ⟨h2.psl ∘ h.psl, h2.data ∘ h.data, h2.procRegs ∘ h.procRegs, h2.cfg.trans h.cfg⟩

/-- What an instruction other than REI can do: the mode and the invariants are kept, and outside kernel
mode nothing privileged is written (R250). -/
structure Confined (s t : State) : Prop extends Preserves s t where
  mode : pslCUR t.psl = pslCUR s.psl
  user : pslCUR s.psl ≠ 0 → Unprivileged s t

theorem Unprivileged.trans {s u t : State} (h : Unprivileged s u) (h2 : Unprivileged u t) :
    Unprivileged s t where
  psl i hi := (h2.psl i hi).trans (h.psl i hi)
  data := h2.data ∘ h.data
  rest := by rw [h2.rest, h.rest]

theorem Unprivileged.confined {s t : State} (h : Unprivileged s t) : Confined s t where
  psl := by rw [h.psl.legal]; exact id
  data := h.data
  procRegs := by rw [h.rest]; exact id
  cfg := by rw [h.rest]
  mode := h.psl.extract (by decide)
  user _ := h

theorem Confined.trans {s u t : State} (h : Confined s u) (h2 : Confined u t) : Confined s t where
  toPreserves := h.toPreserves.trans h2.toPreserves
  mode := h2.mode.trans h.mode
  user hs := (h.user hs).trans (h2.user (h.mode ▸ hs))

/-- In kernel mode an instruction can write whatever keeps the mode and the invariants. -/
theorem Confined.of_kernel {s t : State} (hs : pslCUR s.psl = 0) (hcur : pslCUR t.psl = pslCUR s.psl)
    (hmbz : t.psl &&& pslMbz = s.psl &&& pslMbz) (hmem : t.mem = s.mem) (hwritten : t.written = s.written)
    (hregs : procRegsLegal s = true → procRegsLegal t = true) (hcfg : t.cfg = s.cfg) : Confined s t where
  psl := by rw [pslLegal_of_kernel hs, pslLegal_of_kernel (hcur.trans hs), hmbz]; exact id
  data := by simp only [dataWf, hmem, hwritten]; exact id
  procRegs := hregs
  cfg := hcfg
  mode := hcur
  user h := absurd hs h

/-! The elementary updates. -/

theorem Unprivileged.of_evaluated {s u : State} {rs : List Reg} (h : Evaluated s u rs) :
    Unprivileged s u where
  psl := by rw [h.psl]; exact fun _ _ => rfl
  data := by rw [h.rest]; exact id
  rest := by rw [h.rest]

theorem Confined.of_evaluated {s u : State} {rs : List Reg} (h : Evaluated s u rs) : Confined s u :=
  (Unprivileged.of_evaluated h).confined

theorem Confined.refl (s : State) : Confined s s := .of_evaluated (.refl s [])

theorem confined_setR (s : State) (n : Reg) (v : Word) : Confined s (s.setR n v) :=
  .of_evaluated (evaluated_setR s n v)

theorem unprivileged_setPsl {s : State} {w : Word} (h : SameUpper w s.psl) :
    Unprivileged s (s.setPsl w) := ⟨h, id, rfl⟩

theorem confined_setFlags (s : State) (f : Flags) : Confined s (s.setFlags f) :=
  (unprivileged_setPsl (sameUpper_withFlags f s.psl)).confined

theorem confined_storeBytes (s : State) (a : Word) (vs : List Byte) : Confined s (s.storeBytes a vs) :=
  Unprivileged.confined {
    psl := by rw [psl_storeBytes]; exact fun _ _ => rfl
    data := by simpa [dataWf] using storeBytes_wf s a vs
    rest := by rw [storeBytes_rest] }

theorem confined_writeReg (z : Size) (n : Reg) (v : BitVec z.bits) (s : State) :
    Confined s (s.writeReg z n v) :=
  .of_evaluated (rs := (Operand.reg n).regs z)
    ⟨writeReg_rest z n v s, fun m _ hm => writeReg_other z n m v s hm⟩

/-! ## Computations that end confined -/

/-- However `x`, begun in `s`, ends with a value or with a trap, the state then reached is confined. -/
structure Confines {α : Type} (s : State) (reached : α → State) (x : Except Stop α) : Prop where
  ok : ∀ a, x = .ok a → Confined s (reached a)
  trap : ∀ k u, x = .error (.trap k u) → Confined s u

namespace Confines

variable {α β : Type} {s : State} {reached : α → State}

theorem pure {a : α} (h : Confined s (reached a)) : Confines s reached (.ok a) :=
  ⟨fun _ ha => by obtain rfl := Except.ok.inj ha; exact h, fun _ _ h => nomatch h⟩

theorem trapped {k : ArithTrap} {u : State} (h : Confined s u) :
    Confines s reached (.error (.trap k u)) :=
  ⟨fun _ h => (nomatch h), fun _ _ hu => by cases hu; exact h⟩

theorem fault {e : Exn} : Confines s reached (.error (.fault e)) :=
  ⟨fun _ h => (nomatch h), fun _ _ h => nomatch h⟩

theorem refuse {r : Refusal} : Confines s reached (.error (.refuse r)) :=
  ⟨fun _ h => (nomatch h), fun _ _ h => nomatch h⟩

/-- What can stop with a machine check alone. -/
theorem of_machineCheck {x : Except Stop α} (hok : ∀ a, x = .ok a → Confined s (reached a))
    (hstop : ∀ e, x = .error e → ∃ a, e = .fault (.machineCheck a)) : Confines s reached x :=
  ⟨hok, fun _ _ h => nomatch hstop _ h⟩

/-- A sequence, the second part begun where the first has ended. -/
theorem bind {x : Except Stop α} {k : α → Except Stop β} {reached' : β → State}
    (hx : Confines s reached x)
    (hk : ∀ a, Confined s (reached a) → Confines (reached a) reached' (k a)) :
    Confines s reached' (x >>= k) where
  ok b hb := by
    obtain ⟨a, ha, hb⟩ := bind_ok_iff.1 hb
    exact (hx.ok a ha).trans ((hk a (hx.ok a ha)).ok b hb)
  trap t u hu := by
    rcases bind_error_iff.1 hu with h | ⟨a, ha, h⟩
    · exact hx.trap t u h
    · exact (hx.ok a ha).trans ((hk a (hx.ok a ha)).trap t u h)

/-- An update, and what is begun after it. -/
theorem after {u : State} {x : Except Stop α} (h : Confined s u) (hx : Confines u reached x) :
    Confines s reached x :=
  ⟨fun a ha => h.trans (hx.ok a ha), fun k t ht => h.trans (hx.trap k t ht)⟩

theorem ite {c : Prop} [Decidable c] {x y : Except Stop α} (hx : c → Confines s reached x)
    (hy : ¬ c → Confines s reached y) : Confines s reached (if c then x else y) := by
  split
  next h => exact hx h
  next h => exact hy h

/-! The operations over memory, the instruction stream and the stack. -/

theorem memRead {bits : Nat} {a : Word} : Confines s (fun _ => s) (Machine.memRead bits a s) :=
  of_machineCheck (fun _ _ => .refl s) fun _ => memRead_stop

theorem memWrite {bits : Nat} {a : Word} {v : BitVec bits} :
    Confines s id (Machine.memWrite bits a v s) :=
  of_machineCheck (fun _ h => by
    obtain ⟨_, rfl⟩ := memWrite_ok_iff.1 h
    exact confined_storeBytes _ _ _) fun _ => memWrite_stop

theorem fetch {k : Nat} : Confines s id (Machine.fetch k s) where
  ok _ h := .of_evaluated (evaluated_fetch h)
  trap _ _ h := by rcases fetch_stop h with ⟨_, h⟩ | h <;> cases h

theorem push32 {v : Word} : Confines s id (Machine.push32 v s) :=
  .after (confined_setR s _ _) .memWrite

theorem pop32 : Confines s Prod.snd (Machine.pop32 s) :=
  .bind .memRead fun _ _ => .pure (confined_setR s _ _)

/-! Operands. -/

theorem evalDisp {k : Nat} {n : Reg} {d : Word} : Confines s Prod.snd (Machine.evalDisp k n d s) :=
  .bind .fetch fun _ _ => .pure (.refl _)

theorem evalDispDeferred {k : Nat} {n : Reg} {d : Word} :
    Confines s Prod.snd (Machine.evalDispDeferred k n d s) :=
  .bind .fetch fun _ _ => .bind .memRead fun _ _ => .pure (.refl _)

theorem evalMode {a : Access} {z : Size} {inner : Bool} {b : Base} :
    Confines s Prod.snd (Machine.evalMode a z inner b s) := by
  cases b with
  | literal => exact .ite (fun _ => .fault) fun _ => .pure (.refl s)
  | nestedIndex => exact .fault
  | register => exact .ite (fun _ => .fault) fun _ => .ite (fun _ => .refuse) fun _ => .pure (.refl s)
  | deferred => exact .ite (fun _ => .refuse) fun _ => .pure (.refl s)
  | autodec => exact .ite (fun _ => .refuse) fun _ => .pure (confined_setR s _ _)
  | autoinc => exact .pure (confined_setR s _ _)
  | immediate =>
    exact .ite (fun _ => .refuse) fun _ => .ite (fun _ => .pure (confined_setR s _ _)) fun _ =>
      .bind .fetch fun _ _ => .pure (.refl _)
  | autoincDeferred => exact .bind .memRead fun _ _ => .pure (confined_setR s _ _)
  | absolute => exact .bind .fetch fun _ _ => .pure (.refl _)
  | byteDisp | wordDisp | longDisp => exact .evalDisp
  | byteDispDeferred | wordDispDeferred | longDispDeferred => exact .evalDispDeferred

theorem evalSpec {a : Access} {z : Size} {sp : Spec} :
    Confines s Prod.snd (Machine.evalSpec a z sp s) := by
  cases sp with
  | direct b => exact .bind .fetch fun _ _ => .evalMode
  | indexed x b =>
    refine .bind .fetch fun _ _ => .ite (fun _ => .fault) fun _ => .bind .fetch fun _ _ =>
      .bind .evalMode fun (o, u) _ => .ite (fun _ => .refuse) fun _ => ?_
    cases o with
    | mem base => exact .pure (.refl u)
    | lit _ | reg _ => exact .fault

theorem readOp {z : Size} {o : Operand} : Confines s (fun _ => s) (Machine.readOp z o s) := by
  cases o with
  | mem a => exact .memRead
  | lit _ | reg _ => exact .pure (.refl s)

theorem writeOp {z : Size} {o : Operand} {v : BitVec z.bits} :
    Confines s id (Machine.writeOp z o v s) := by
  cases o with
  | lit _ => exact .fault
  | reg n => exact .pure (confined_writeReg z n v s)
  | mem a => exact .memWrite

variable {z : Size} {sp : Spec}

theorem evalRead : Confines s Prod.snd (Machine.evalRead z sp s) :=
  .bind .evalSpec fun _ _ => .bind .readOp fun _ _ => .pure (.refl _)

theorem evalModify : Confines s (fun r => r.2.2) (Machine.evalModify z sp s) :=
  .bind .evalSpec fun _ _ => .bind .readOp fun _ _ => .pure (.refl _)

theorem evalWrite : Confines s Prod.snd (Machine.evalWrite z sp s) := .evalSpec

theorem evalAddress : Confines s Prod.snd (Machine.evalAddress z sp s) :=
  .bind .evalSpec fun (o, u) _ => by
    cases o with
    | mem a => exact .pure (.refl u)
    | lit _ | reg _ => exact .fault

/-! Runs of accesses. -/

theorem readString {a : Word} {k : Nat} : Confines s (fun _ => s) (Machine.readString a k s) := by
  induction k generalizing a with
  | zero => exact .pure (.refl s)
  | succ k ih => exact .bind .memRead fun _ _ => .bind ih fun _ _ => .pure (.refl s)

theorem writeString {a : Word} {bs : List Byte} : Confines s id (Machine.writeString a bs s) := by
  induction bs generalizing s a with
  | nil => exact .pure (.refl s)
  | cons b bs ih => exact .bind .memWrite fun _ _ => ih

theorem compareStrings {p q : Word} {fl : Flags} {k : Nat} :
    Confines s (fun _ => s) (Machine.compareStrings p q fl k s) := by
  induction k generalizing p q fl with
  | zero => exact .pure (.refl s)
  | succ k ih =>
    exact .bind .memRead fun _ _ => .bind .memRead fun _ _ =>
      .ite (fun _ => .pure (.refl s)) fun _ => ih

theorem scanString {skip : Byte → Bool} {p : Word} {k : Nat} :
    Confines s (fun _ => s) (Machine.scanString skip p k s) := by
  induction k generalizing p with
  | zero => exact .pure (.refl s)
  | succ k ih => exact .bind .memRead fun _ _ => .ite (fun _ => ih) fun _ => .pure (.refl s)

theorem pushParams {vs : List Word} : Confines s id (Machine.pushParams vs s) := by
  induction vs with
  | nil => exact .pure (.refl s)
  | cons v vs ih => exact .bind ih fun _ _ => .push32

theorem pushRegs {ns : List Reg} : Confines s id (Machine.pushRegs ns s) := by
  induction ns with
  | nil => exact .pure (.refl s)
  | cons n ns ih => exact .bind ih fun _ _ => .push32

theorem popRegs {ns : List Reg} : Confines s id (Machine.popRegs ns s) := by
  induction ns generalizing s with
  | nil => exact .pure (.refl s)
  | cons n ns ih => exact .bind .pop32 fun _ _ => .after (confined_setR _ _ _) ih

theorem pcbLoadRegs {es : List (Reg × Word)} : Confines s id (Machine.pcbLoadRegs es s) := by
  induction es generalizing s with
  | nil => exact .pure (.refl s)
  | cons e es ih => exact .bind .memRead fun _ _ => .after (confined_setR _ _ _) ih

theorem pcbStoreRegs {es : List (Reg × Word)} : Confines s id (Machine.pcbStoreRegs es s) := by
  induction es generalizing s with
  | nil => exact .pure (.refl s)
  | cons e es ih => exact .bind .memWrite fun _ _ => ih

/-! The shared bodies of the instruction families. -/

variable {src src1 src2 dst mask cnt ch len addr : Spec}

theorem setFlags {f : Flags} : Confines s id (.ok (s.setFlags f)) := .pure (confined_setFlags s f)

theorem completeArith {n : Nat} {r : Alu n} : Confines s id (Machine.completeArith r s) :=
  .ite (fun _ => .trapped (confined_setFlags s _)) fun _ =>
    .ite (fun _ => .trapped (confined_setFlags s _)) fun _ => .setFlags

theorem arith1 {law : BitVec z.bits → Alu z.bits} : Confines s id (Machine.arith1 z law dst s) :=
  .bind .evalModify fun _ _ => .bind .writeOp fun _ _ => .completeArith

theorem arith2 {law : BitVec z.bits → BitVec z.bits → Alu z.bits} :
    Confines s id (Machine.arith2 z law src dst s) :=
  .bind .evalRead fun _ _ => .bind .evalModify fun _ _ => .bind .writeOp fun _ _ => .completeArith

theorem arith3 {law : BitVec z.bits → BitVec z.bits → Alu z.bits} :
    Confines s id (Machine.arith3 z law src1 src2 dst s) :=
  .bind .evalRead fun _ _ => .bind .evalRead fun _ _ => .bind .evalWrite fun _ _ =>
    .bind .writeOp fun _ _ => .completeArith

theorem logical2 {op : BitVec z.bits → BitVec z.bits → BitVec z.bits} :
    Confines s id (Machine.logical2 z op mask dst s) :=
  .bind .evalRead fun _ _ => .bind .evalModify fun _ _ => .bind .writeOp fun _ _ => .setFlags

theorem compare : Confines s id (Machine.compare z src1 src2 s) :=
  .bind .evalRead fun _ _ => .bind .evalRead fun _ _ => .setFlags

theorem test : Confines s id (Machine.test z src s) :=
  .bind .evalRead fun _ _ => .setFlags

theorem bitTest : Confines s id (Machine.bitTest z mask src s) :=
  .bind .evalRead fun _ _ => .bind .evalRead fun _ _ => .setFlags

theorem move : Confines s id (Machine.move z src dst s) :=
  .bind .evalRead fun _ _ => .bind .evalWrite fun _ _ => .bind .writeOp fun _ _ => .setFlags

theorem moveAddress : Confines s id (Machine.moveAddress z src dst s) :=
  .bind .evalAddress fun _ _ => .bind .evalWrite fun _ _ => .bind .writeOp fun _ _ => .setFlags

theorem pushValue {v : Word} : Confines s id (Machine.pushValue v s) :=
  .bind .push32 fun _ _ => .setFlags

theorem pushAddress : Confines s id (Machine.pushAddress z src s) :=
  .bind .evalAddress fun _ _ => .pushValue

theorem clear : Confines s id (Machine.clear z dst s) :=
  .bind .evalWrite fun _ _ => .bind .writeOp fun _ _ => .setFlags

theorem shift : Confines s id (Machine.shift z cnt src dst s) :=
  .bind .evalRead fun _ _ => .bind .evalRead fun _ _ => .bind .evalWrite fun _ _ =>
    .bind .writeOp fun _ _ => .completeArith

theorem scan {skip : Byte → Byte → Bool} : Confines s id (Machine.scan skip ch len addr s) :=
  .bind .evalRead fun _ _ => .bind .evalRead fun _ _ => .bind .evalAddress fun _ _ =>
    .bind .scanString fun _ _ =>
      .after (.trans (confined_setR _ _ _) (confined_setR _ _ _)) .setFlags

theorem branch {k : Nat} {d : Word} {taken : Bool} : Confines s id (Machine.branch k d taken s) := by
  refine .bind .fetch fun u _ => .pure ?_
  cases taken
  · exact .refl u
  · exact confined_setR u _ _

theorem entryMask {a : Word} : Confines s (fun _ => s) (Machine.entryMask a s) :=
  .bind .memRead fun _ _ => .ite (fun _ => .fault) fun _ => .pure (.refl s)

theorem callFrame {calls : Bool} {mask : BitVec 16} {ap a : Word} :
    Confines s id (Machine.callFrame calls mask ap a s) :=
  .after (confined_setR _ _ _) <|
    .bind .pushRegs fun _ _ => .bind .push32 fun _ _ => .bind .push32 fun _ _ => .bind .push32 fun _ _ =>
    .bind .push32 fun _ _ => .bind .push32 fun _ _ =>
    .after (.trans (confined_setR _ _ _) (confined_setR _ _ _)) <|
      .pure (.trans (unprivileged_setPsl (sameUpper_afterCall _ _)).confined (confined_setR _ _ _))

/-! The privileged bodies. -/

/-- A body that begins with the mode check goes on in kernel mode (R250). -/
theorem kernel {k : Unit → Except Stop State} (h : pslCUR s.psl = 0 → Confines s id (k ())) :
    Confines s id (kernelOnly s >>= k) := by
  by_cases hcur : pslCUR s.psl = 0
  · rw [kernelOnly_bind hcur]; exact h hcur
  · rw [kernelOnly, if_neg hcur]; exact .fault

end Confines

/-! ## The processor registers -/

/-- Every register that MTPR writes gets what its field allows (R259). -/
theorem writeProcReg_confines {s : State} (hs : pslCUR s.psl = 0) (p : ProcReg) (v : Word) :
    Confines s id (writeProcReg p v s) := by
  cases p with
  | ksp =>
    refine .pure ?_
    rw [id]
    split
    · exact .of_kernel hs rfl rfl rfl rfl id rfl
    · exact confined_setR s _ _
  | esp | ssp | usp => exact .pure (.of_kernel hs rfl rfl rfl rfl id rfl)
  | p0br | p0lr | p1br | p1lr | sbr | slr | pcbb | scbb =>
    refine .pure (.of_kernel hs rfl rfl rfl rfl ?_ rfl)
    simp +contextual [procRegsLegal, BitVec.extractLsb'_and]
  | ipl => exact .pure (.of_kernel hs (pslCUR_withIPL _ _) (pslWithIPL_mbz _ _) rfl rfl id rfl)
  | astlvl =>
    refine .ite (fun _ => .fault) fun hv => .pure (.of_kernel hs rfl rfl rfl rfl ?_ rfl)
    have hfield : v.toNat % 8 ≤ 4 := by omega
    simp +contextual [procRegsLegal, hfield]
  | iccs | todr => exact .refuse
  | mapen =>
    refine .ite (fun _ => .refuse) fun _ => .pure (.of_kernel hs rfl rfl rfl rfl ?_ rfl)
    simp +contextual [procRegsLegal]

theorem readProcReg_confines (p : ProcReg) (s : State) : Confines s (fun _ => s) (readProcReg p s) := by
  cases p with
  | iccs | todr => exact .refuse
  | ksp | esp | ssp | usp | p0br | p0lr | p1br | p1lr | sbr | slr | pcbb | scbb | ipl | astlvl | mapen =>
    exact .pure (.refl s)

/-- Saving one stack pointer and taking another is kernel work that touches no invariant (R35). -/
theorem confined_switchStack {s : State} (hs : pslCUR s.psl = 0) (old new : Slot) :
    Confined s (s.switchStack old new) := .of_kernel hs rfl rfl rfl rfl id rfl

/-- In kernel mode IS and IPL can be set. -/
theorem confined_setPsl {s : State} {w : Word} (hs : pslCUR s.psl = 0) (hcur : pslCUR w = pslCUR s.psl)
    (hmbz : w &&& pslMbz = s.psl &&& pslMbz) : Confined s (s.setPsl w) :=
  .of_kernel hs hcur hmbz rfl rfl id rfl

/-- The memory-management registers that LDPCTX takes from a block that has passed its checks (R254). -/
theorem confined_loadProcRegs {s : State} {t80 t84 t88 t92 : Word} (hs : pslCUR s.psl = 0)
    (h : pcbRejects t80 t84 t88 t92 = false) :
    Confined s { s with
      p0br := t80, p0lr := (t84.extractLsb' 0 22).setWidth 32, astlvl := t84.extractLsb' 24 3,
      p1br := t88, p1lr := (t92.extractLsb' 0 22).setWidth 32 } := by
  refine .of_kernel hs rfl rfl rfl rfl ?_ rfl
  have hlength (x : BitVec 22) : (x.setWidth 32).extractLsb' 22 10 = 0 := by
    apply BitVec.eq_of_getLsbD_eq
    intro i _
    simp
  simp only [pcbRejects, Bool.or_eq_false_iff, bne_eq_false_iff_eq, decide_eq_false_iff_not] at h
  obtain ⟨⟨⟨⟨⟨_, hp0br⟩, _⟩, hastlvl⟩, _, hp1br⟩, _⟩ := h
  simp +contextual only [procRegsLegal, hp0br, hp1br, hlength, Nat.not_lt.1 hastlvl, Bool.and_eq_true,
    beq_self_eq_true, decide_true, and_true, implies_true]

/-- LDPCTX's move from the interrupt stack to the kernel stack (R254). -/
theorem confined_leaveInterruptStack {s : State} (hs : pslCUR s.psl = 0) :
    Confined s ((s.switchStack .i .k).setPsl (pslWithIS false s.psl)) :=
  .trans (confined_switchStack hs .i .k) (confined_setPsl hs (pslCUR_withIS _ _) (pslWithIS_mbz _ _))

/-- SVPCTX's move to the interrupt stack (R256). -/
theorem confined_toInterruptStack {s : State} (hs : pslCUR s.psl = 0) :
    Confined s (toInterruptStack s) := by
  rw [toInterruptStack]
  split
  · exact .refl s
  · refine .trans (confined_switchStack hs .k .i) (confined_setPsl hs ?_ ?_) <;> split <;>
      simp [State.switchStack]

theorem confined_setMoveRegs (s : State) (r0 r1 r3 : Word) : Confined s (s.setMoveRegs r0 r1 r3) :=
  .of_evaluated (rs := [0, 1, 2, 3, 4, 5]) ⟨rfl, fun n _ hn => by
    simp only [List.mem_cons, not_or] at hn
    simp [State.setMoveRegs, hn, eq_comm]⟩

/-! ## Every instruction but REI is confined -/

/-- The opcode byte and a confined body. -/
def ConfinedInstr (i : Instr) : Prop :=
  ∃ body, (∀ s, exec i s = runInstr s body) ∧ ∀ s, Confines s id (body s)

theorem ConfinedInstr.of_body {i : Instr} {body : State → Except Stop State}
    (hexec : ∀ s, exec i s = runInstr s body) (hbody : ∀ s, Confines s id (body s)) : ConfinedInstr i :=
  ⟨body, hexec, hbody⟩

open Confines in
theorem confinedInstr_of_ne_rei {i : Instr} (hrei : i ≠ .rei) : ConfinedInstr i := by
  cases i with
  | rei => exact absurd rfl hrei
  | halt =>
    exact .of_body (fun _ => rfl) fun s => kernel fun hs => .pure (.of_kernel hs rfl rfl rfl rfl id rfl)
  | ldpctx =>
    refine .of_body (fun _ => rfl) fun s => kernel fun hs => .ite (fun _ => .refuse) fun _ => ?_
    refine .bind .memRead fun _ _ => .bind .memRead fun _ _ => .bind .memRead fun _ _ =>
      .bind .memRead fun _ _ => .ite (fun _ => .fault) fun hpcb => ?_
    refine .bind .memRead fun ksp _ => .bind .memRead fun esp _ => .bind .memRead fun ssp _ =>
      .bind .memRead fun usp _ => ?_
    refine .after (u := (((s.setBanked .k ksp).setBanked .e esp).setBanked .s ssp).setBanked .u usp)
      (.of_kernel hs rfl rfl rfl rfl id rfl) (.bind .pcbLoadRegs fun u hu => ?_)
    have hcur : pslCUR u.psl = 0 := hu.mode.trans hs
    have hload := confined_loadProcRegs hcur (Bool.eq_false_of_not_eq_true hpcb)
    refine .after hload (.after (confined_leaveInterruptStack (hload.mode.trans hcur)) ?_)
    exact .bind .memRead fun _ _ => .bind .push32 fun _ _ => .bind .memRead fun _ _ => .push32
  | svpctx =>
    refine .of_body (fun _ => rfl) fun s => kernel fun hs => .bind .pop32 fun _ h1 =>
      .bind .pop32 fun _ h2 => .after (confined_toInterruptStack (h2.mode.trans (h1.mode.trans hs))) ?_
    exact .bind .memWrite fun _ _ => .bind .memWrite fun _ _ => .bind .memWrite fun _ _ =>
      .bind .memWrite fun _ _ => .bind .pcbStoreRegs fun _ _ => .bind .memWrite fun _ _ => .memWrite
  | mtpr =>
    refine .of_body (fun _ => rfl) fun s => kernel fun hs => .bind .evalRead fun _ h1 =>
      .bind .evalRead fun (k, u) h2 => ?_
    dsimp only
    split
    · exact .refuse
    · exact .bind (writeProcReg_confines (h2.mode.trans (h1.mode.trans hs)) _ _) fun _ _ => .setFlags
  | mfpr =>
    refine .of_body (fun _ => rfl) fun s => kernel fun _ => .bind .evalRead fun _ _ =>
      .bind .evalWrite fun (o, u) _ => ?_
    dsimp only
    split
    · exact .refuse
    · exact .bind (readProcReg_confines _ u) fun _ _ => .bind .writeOp fun _ _ => .setFlags
  | ret =>
    refine .of_body (fun _ => rfl) fun s => .after (confined_setR _ _ _) <| .bind .pop32 fun (w, _) _ =>
      .ite (fun _ => .fault) fun _ => .bind .pop32 fun _ _ => .after (confined_setR _ _ _) <|
      .bind .pop32 fun _ _ => .after (confined_setR _ _ _) <| .bind .pop32 fun _ _ =>
      .bind .popRegs fun u _ => ?_
    refine .after (confined_setR u Reg.sp (u.sp + (w.extractLsb' 30 2).setWidth 32)) <|
      .after (unprivileged_setPsl (sameUpper_afterReturn w _)).confined <| .ite (fun _ => ?_) fun _ => ?_
    · exact .bind .pop32 fun _ _ => .pure (.trans (confined_setR _ _ _) (confined_setR _ _ _))
    · exact .pure (confined_setR _ _ _)
  | rsb => exact .of_body (fun _ => rfl) fun s => .bind .pop32 fun _ _ => .pure (confined_setR _ _ _)
  | brb | brw | bneq | bnequ | beql | beqlu | bgtr | bleq | bgeq | blss | bvc | bvs | bcc | bgequ | bcs
  | blssu => exact .of_body (fun _ => rfl) fun _ => branch
  | incb | incw | incl | decb | decw | decl => exact .of_body (fun _ => rfl) fun _ => arith1
  | addb2 | addw2 | addl2 | subb2 | subw2 | subl2 | mulb2 | mulw2 | mull2 | divb2 | divw2 | divl2 =>
    exact .of_body (fun _ => rfl) fun _ => arith2
  | addb3 | addw3 | addl3 | subl3 | mull3 | divl3 => exact .of_body (fun _ => rfl) fun _ => arith3
  | bisb2 | bisw2 | bisl2 | bicb2 | bicw2 | bicl2 | xorb2 | xorw2 | xorl2 =>
    exact .of_body (fun _ => rfl) fun _ => logical2
  | cmpb | cmpw | cmpl => exact .of_body (fun _ => rfl) fun _ => compare
  | tstb | tstw | tstl => exact .of_body (fun _ => rfl) fun _ => test
  | bitb | bitw | bitl => exact .of_body (fun _ => rfl) fun _ => bitTest
  | movb | movw | movl | movq => exact .of_body (fun _ => rfl) fun _ => move
  | movab | movaw | moval => exact .of_body (fun _ => rfl) fun _ => moveAddress
  | pushab | pushaw | pushal => exact .of_body (fun _ => rfl) fun _ => pushAddress
  | pushl => exact .of_body (fun _ => rfl) fun _ => .bind .evalRead fun _ _ => pushValue
  | clrb | clrw | clrl | clrq => exact .of_body (fun _ => rfl) fun _ => clear
  | ashl | ashq => exact .of_body (fun _ => rfl) fun _ => shift
  | rotl =>
    exact .of_body (fun _ => rfl) fun _ => .bind .evalRead fun _ _ => .bind .evalRead fun _ _ =>
      .bind .evalWrite fun _ _ => .bind .writeOp fun _ _ => .setFlags
  | locc | skpc => exact .of_body (fun _ => rfl) fun _ => scan
  | movc3 =>
    exact .of_body (fun _ => rfl) fun _ => .bind .evalRead fun _ _ => .bind .evalAddress fun _ _ =>
      .bind .evalAddress fun _ _ => .bind .readString fun _ _ => .bind .writeString fun _ _ =>
      .after (confined_setMoveRegs _ _ _ _) .setFlags
  | cmpc3 =>
    exact .of_body (fun _ => rfl) fun _ => .bind .evalRead fun _ _ => .bind .evalAddress fun _ _ =>
      .bind .evalAddress fun _ _ => .bind .compareStrings fun _ _ =>
      .after (((confined_setR _ _ _).trans (confined_setR _ _ _)).trans
        ((confined_setR _ _ _).trans (confined_setR _ _ _))) .setFlags
  | movc5 =>
    exact .of_body (fun _ => rfl) fun _ => .bind .evalRead fun _ _ => .bind .evalAddress fun _ _ =>
      .bind .evalRead fun _ _ => .bind .evalRead fun _ _ => .bind .evalAddress fun _ _ =>
      .bind .readString fun _ _ => .bind .writeString fun _ _ => .bind .writeString fun _ _ =>
      .after (confined_setMoveRegs _ _ _ _) .setFlags
  | jsb =>
    exact .of_body (fun _ => rfl) fun _ => .bind .evalAddress fun _ _ => .bind .push32 fun _ _ =>
      .pure (confined_setR _ _ _)
  | callg =>
    exact .of_body (fun _ => rfl) fun _ => .bind .evalAddress fun _ _ => .bind .evalAddress fun _ _ =>
      .bind .entryMask fun _ _ => .callFrame
  | calls =>
    exact .of_body (fun _ => rfl) fun _ => .bind .evalRead fun _ _ => .bind .evalAddress fun _ _ =>
      .bind .entryMask fun _ _ => .bind .push32 fun _ _ => .callFrame

/-! ## Entries and returns -/

/-- An entry reads its vector, then pushes the old PSL, the saved PC and the parameters in one run on the
stack that the vector picks (R314). -/
theorem enter_eq (kind : Entry) (off savedPc : Word) (params : List Word) (s : State) :
    enter kind off savedPc params s = memRead 32 (s.scbb + off) s >>= fun vec =>
      if vec.getLsbD 1 then .error (.refuse .unsupportedVectorCode)
      else pushParams (params ++ [savedPc, s.psl]) (entryStart kind vec s) >>= fun u =>
        .ok (u.setPc (vec &&& 0xFFFFFFFC)) := by
  rw [enter]
  congr 1
  funext vec
  dsimp only
  split
  · rfl
  · rw [pushParams_append]
    simp only [pushParams, bind_assoc]
    rfl

/-- The start of an entry writes SP, the PSL and the bank alone. -/
theorem entryStart_rest (kind : Entry) (vec : Word) (s : State) :
    entryStart kind vec s = { s with
      reg := (entryStart kind vec s).reg
      psl := (entryStart kind vec s).psl
      spbank := (entryStart kind vec s).spbank } := by
  simp only [entryStart]
  split <;> rfl

/-- The start of an entry keeps every invariant: the PSL it makes is consistent (R34, R314). -/
theorem preserves_entryStart (kind : Entry) (vec : Word) (s : State) :
    Preserves s (entryStart kind vec s) where
  psl _ := by cases kind <;> exact pslLegal_forEntry _ _ _
  data := by rw [entryStart_rest]; exact id
  procRegs := by rw [entryStart_rest]; exact id
  cfg := by rw [entryStart_rest]

theorem preserves_of_takeEntry {kind : Entry} {off savedPc : Word} {params : List Word} {s t : State}
    (h : takeEntry kind off savedPc params s = .next t) : Preserves s t := by
  rw [takeEntry_next_iff, enter_eq] at h
  obtain ⟨vec, _, h⟩ := bind_ok_iff.1 h
  split at h
  · cases h
  · obtain ⟨u, hu, h⟩ := bind_ok_iff.1 h
    obtain rfl := Except.ok.inj h
    exact (preserves_entryStart kind vec s).trans
      ((Confines.pushParams.ok u hu).trans (confined_setR u _ _)).toPreserves

/-- From `s` to `t` every invariant is kept, and where exceptions are not delivered the mode gets no more
privileged. -/
structure Lawful (s t : State) : Prop extends Preserves s t where
  mode : s.cfg.deliver = false → (pslCUR s.psl).toNat ≤ (pslCUR t.psl).toNat

theorem Confined.lawful {s t : State} (h : Confined s t) : Lawful s t :=
  ⟨h.toPreserves, fun _ => by rw [h.mode]⟩

theorem Lawful.trans {s u t : State} (h : Lawful s u) (h2 : Lawful u t) : Lawful s t :=
  ⟨h.toPreserves.trans h2.toPreserves, fun hd => (h.mode hd).trans (h2.mode (h.cfg ▸ hd))⟩

/-- An entry is made only where exceptions are delivered. -/
theorem lawful_of_takeEntry {kind : Entry} {off savedPc : Word} {params : List Word} {s t : State}
    (hd : s.cfg.deliver = true) (h : takeEntry kind off savedPc params s = .next t) : Lawful s t :=
  ⟨preserves_of_takeEntry h, fun h' => absurd (hd.symm.trans h') (by decide)⟩

/-- REI's checks let through only a consistent PSL of a mode no more privileged (R252). -/
theorem legal_of_not_reiRejects {old new : Word} (h : reiRejects old new = false) :
    pslLegal new = true ∧ (pslCUR old).toNat ≤ (pslCUR new).toNat := by
  simp only [reiRejects, Bool.or_eq_false_iff, Bool.and_eq_false_imp, decide_eq_false_iff_not,
    decide_eq_true_eq, bne_eq_false_iff_eq, BitVec.not_lt] at h
  obtain ⟨⟨⟨⟨⟨⟨⟨hcur, _⟩, his⟩, _⟩, hipl⟩, hprv⟩, _⟩, hmbz⟩ := h
  refine ⟨?_, hcur⟩
  have hkernel : pslIPL new = 0 ∨ pslCUR new = 0 :=
    or_iff_not_imp_left.2 fun h => hipl ((BitVec.pos_iff_ne_zero _).2 h)
  simp only [pslLegal, hmbz, hprv, beq_self_eq_true, decide_true, Bool.and_true, Bool.true_and,
    Bool.and_eq_true, Bool.or_eq_true, Bool.not_eq_true', beq_iff_eq]
  exact ⟨by cases h : pslIS new <;> simp [his, h], hkernel⟩

theorem lawful_of_returnFromException {s t : State} (h : returnFromException s = .ok t) : Lawful s t := by
  obtain ⟨_, _, hrejects, _, _, rfl⟩ := returnFromException_ok h
  obtain ⟨hlegal, hcur⟩ := legal_of_not_reiRejects hrejects
  refine ⟨⟨fun _ => hlegal, fun hdata => ?_, id, rfl⟩, fun _ => hcur⟩
  simp only [dataWf, Bool.and_eq_true] at hdata
  exact Bool.and_eq_true_iff.2 ⟨hdata.1, rfl⟩

theorem returnFromException_no_trap {s : State} {k : ArithTrap} {u : State} :
    returnFromException s ≠ .error (.trap k u) := by
  intro h
  rcases bind_error_iff.1 h with h | ⟨⟨pc, t⟩, _, h⟩
  · obtain ⟨_, h⟩ := pop32_stop h
    cases h
  · rcases bind_error_iff.1 h with h | ⟨⟨psl, t⟩, _, h⟩
    · obtain ⟨_, h⟩ := pop32_stop h
      cases h
    · dsimp only at h
      repeat' split at h
      all_goals cases h

/-! ## Every step is lawful -/

/-- What a body reaches, with a value or with a trap, makes what its instruction does. -/
theorem lawful_of_runInstr {s t : State} {body : State → Except Stop State}
    (hok : ∀ u v, body u = .ok v → Lawful u v)
    (htrap : ∀ u k v, body u = .error (.trap k v) → Lawful u v)
    (h : runInstr s body = .next t) : Lawful s t := by
  have hfetch : ∀ u, fetch 1 s = .ok u → Lawful s u := fun u hu => (Confines.fetch.ok u hu).lawful
  rcases conclude_next h with hx | ⟨hd, _, _, _, hentry⟩ | ⟨k, v, hx, hd, hentry⟩
  · obtain ⟨u, hu, hv⟩ := bind_ok_iff.1 hx
    exact (hfetch u hu).trans (hok u t hv)
  · exact lawful_of_takeEntry hd hentry
  · rcases bind_error_iff.1 hx with hx | ⟨u, hu, hv⟩
    · rcases fetch_stop hx with ⟨_, hx⟩ | hx <;> cases hx
    · exact ((hfetch u hu).trans (htrap u k v hv)).trans (lawful_of_takeEntry hd hentry)

theorem lawful_of_exec {i : Instr} {s t : State} (h : exec i s = .next t) : Lawful s t := by
  by_cases hrei : i = .rei
  · have hexec : exec i s = runInstr s returnFromException := by rw [hrei]; rfl
    exact lawful_of_runInstr (body := returnFromException) (fun _ _ => lawful_of_returnFromException)
      (fun _ _ _ h => absurd h returnFromException_no_trap) (hexec ▸ h)
  · obtain ⟨body, hexec, hbody⟩ := confinedInstr_of_ne_rei hrei
    exact lawful_of_runInstr (fun u v hv => ((hbody u).ok v hv).lawful)
      (fun u k v hv => ((hbody u).trap k v hv).lawful) (hexec s ▸ h)

/-- The boundary takes an answer off the oracle's list and can enter an interrupt (R312). -/
theorem lawful_of_offerInterrupt {s t : State} (h : offerInterrupt s = .next t) : Lawful s t := by
  have hirqs (l : List (Option Irq)) : Lawful s { s with irqs := l } :=
    ⟨⟨id, id, id, rfl⟩, fun _ => le_rfl⟩
  have hsame : ∀ {u : State}, Lawful s u → Host.Outcome.next (φ := Fault) (ρ := Refusal) u = .next t →
      Lawful s t := fun hu he => by cases he; exact hu
  simp only [offerInterrupt] at h
  split at h
  · exact hsame (hirqs s.irqs) h
  · split at h
    · exact hsame (hirqs s.irqs) h
    · exact hsame (hirqs _) h
    · split at h
      · exact hsame (hirqs _) h
      · split at h
        next hd => exact (hirqs _).trans (lawful_of_takeEntry (by exact hd) h)
        next => cases h

/-- An opcode that decodes to nothing answers no next state but an entry's. -/
theorem lawful_of_rejectOpcode {e : DecodeError} {s t : State} (h : rejectOpcode e s = .next t) :
    Lawful s t :=
  lawful_of_runInstr (body := fun _ => .error (.refuse (decodeRefusal e))) (fun _ _ h => nomatch h)
    (fun _ _ _ h => nomatch h) h

/-- The one next state that a step reaches without an instruction is its own (R262). -/
theorem eq_of_beforeFetch_next {s t : State} (h : beforeFetch s = some (.next t)) : s = t := by
  simp only [beforeFetch] at h
  split at h
  · cases h; rfl
  · repeat' split at h
    all_goals cases h

theorem lawful_of_step {s t : State} (h : step s = .next t) : Lawful s t := by
  simp only [step] at h
  split at h
  next o ho =>
    subst h
    exact eq_of_beforeFetch_next ho ▸ (Confined.refl s).lawful
  next =>
    split at h
    next p _ =>
      cases hx : exec p.1 s with
      | next u =>
        rw [hx] at h
        exact (lawful_of_exec hx).trans (lawful_of_offerInterrupt h)
      | fault f => rw [hx] at h; cases h
      | refused r => rw [hx] at h; cases h
    next => exact lawful_of_rejectOpcode h

/-- Settles O56: REI's checks and the PSL of an entry make a consistent PSL, the privileged instructions
change IS and IPL in kernel mode only, and the others leave all above the low byte alone. -/
theorem stepKeepsPslLegal : Obligations.StepKeepsPslLegal :=
  fun _ _ hlegal h => (lawful_of_step h).psl hlegal

/-- Settles O57: every store inserts in order, and REI empties the record. -/
theorem stepKeepsDataCanonical : Obligations.StepKeepsDataCanonical :=
  fun _ _ hdata h => (lawful_of_step h).data hdata

/-- Settles O58: only MTPR and LDPCTX write processor registers, one masking and the other checking what
it writes. -/
theorem stepKeepsProcessorRegistersLegal : Obligations.StepKeepsProcessorRegistersLegal :=
  fun _ _ hregs h => (lawful_of_step h).procRegs hregs

/-- Settles O59: without delivery only REI changes the mode, and its checks turn a more privileged one
down. -/
theorem noInstructionRaisesPrivilege : Obligations.NoInstructionRaisesPrivilege :=
  fun _ _ hd h => ⟨(lawful_of_step h).mode hd, (lawful_of_step h).cfg⟩

/-! ## Steps that start no instruction -/

/-- Every instruction fetches its opcode byte before all else (R80, R82). -/
theorem exec_eq_runInstr (i : Instr) : ∃ body, ∀ s, exec i s = runInstr s body := by
  by_cases hrei : i = .rei
  · exact ⟨returnFromException, fun s => by rw [hrei]; rfl⟩
  · obtain ⟨body, hexec, _⟩ := confinedInstr_of_ne_rei hrei
    exact ⟨body, hexec⟩

/-- What stops the fetch of the opcode byte stops the step, whatever the bytes decode to. -/
theorem step_of_fetch_stop {s : State} {e : Stop} (hr : running s) (h : fetch 1 s = .error e)
    (hboundary : atBoundary (conclude s (.error e)) = conclude s (.error e)) :
    step s = conclude s (.error e) := by
  simp only [step, beforeFetch_of_running hr]
  split
  next p _ =>
    obtain ⟨body, hexec⟩ := exec_eq_runInstr p.1
    rw [hexec, runInstr, bind_of_error h, hboundary]
  next => rw [rejectOpcode, bind_of_error h]

/-- A byte stored to since the last REI is not fetched (R67). -/
theorem fetch_one_of_modified {s : State} (hsmc : s.cfg.smc = .refuse) (hpc : s.pc.toNat ∈ s.written) :
    fetch 1 s = .error (.refuse .modifiedCodeWithoutRei) :=
  bind_of_error (by rw [checkUnmodified, if_pos ⟨hsmc, hpc⟩]) _

/-- Where no memory exists the fetch is a machine check (R54). -/
theorem fetch_one_of_absent {s : State} (hpc : s.cfg.smc = .coherent ∨ s.pc.toNat ∉ s.written)
    (hvalid : Config.valid s.cfg s.pc = false) :
    fetch 1 s = .error (.fault (.machineCheck s.pc)) := by
  have hunmodified : checkUnmodified s s.pc 1 = .ok () := by
    rw [checkUnmodified, if_neg, checkUnmodified]
    rintro ⟨hsmc, hmem⟩
    rcases hpc with h | h
    · cases h.symm.trans hsmc
    · exact h hmem
  rw [fetch, bind_of_ok hunmodified]
  exact bind_of_error (by rw [checkValid, hvalid]; rfl) _

/-- Settles O8: the first three by `beforeFetch`, the last two by what stops the opcode fetch. -/
theorem stepsThatStartNoInstruction : Obligations.StepsThatStartNoInstruction := by
  intro s
  refine ⟨fun hhalted => ?_, fun hhalted hmapen => ?_, fun hhalted hmapen hbits => ?_,
    fun hr hsmc hpc => ?_, fun hr hpc hvalid => ?_⟩
  · simp [step, beforeFetch, hhalted]
  · simp [step, beforeFetch, hhalted, hmapen]
  · have hpsl : pslUnmodelled s.psl = true := by
      simpa only [pslUnmodelled, Bool.or_eq_true, or_assoc] using hbits
    simp [step, beforeFetch, hhalted, hmapen, hpsl]
  · exact step_of_fetch_stop hr (fetch_one_of_modified hsmc hpc) rfl
  · exact step_of_fetch_stop hr (fetch_one_of_absent hpc hvalid) rfl

/-- An interrupt at or below IPL is passed over (R30, R312). -/
theorem offerInterrupt_masked {t : State} {q : Irq} {more : List (Option Irq)} (hhalted : t.halted = false)
    (hirqs : t.irqs = some q :: more) (hlevel : q.level ≤ pslIPL t.psl) :
    offerInterrupt t = .next { t with irqs := more } := by
  rw [offerInterrupt, if_neg (by simp [hhalted]), hirqs]
  exact if_pos hlevel

/-- An interrupt above IPL is entered where exceptions are delivered (R312, R314). -/
theorem offerInterrupt_entered {t : State} {q : Irq} {more : List (Option Irq)} (hhalted : t.halted = false)
    (hirqs : t.irqs = some q :: more) (hlevel : ¬ q.level ≤ pslIPL t.psl) (hd : t.cfg.deliver = true) :
    offerInterrupt t = takeEntry (.interrupt q.level) (q.index.setWidth 32 * 4) t.pc []
      { t with irqs := more } := by
  rw [offerInterrupt, if_neg (by simp [hhalted]), hirqs]
  exact (if_neg hlevel).trans (if_pos hd)

/-- Settles O9: the boundary compares the level with IPL; four times an index is its shift by 2. -/
theorem interruptsAreMaskedByLevel : Obligations.InterruptsAreMaskedByLevel := by
  intro s t i rest q more hr hd hexec hhalted hirqs
  rw [step_of_decode hr hd, hexec, atBoundary]
  refine ⟨fun hlevel => offerInterrupt_masked hhalted hirqs hlevel, fun hlevel hdeliver => ?_⟩
  rw [offerInterrupt_entered hhalted hirqs (Nat.not_le.2 hlevel) hdeliver, BitVec.shiftLeft_eq_mul_twoPow]
  rfl

/-! ## Memory as data -/

/-- An address below every listed one is not listed. -/
theorem memGet_of_lt {m : Memory} {x : Nat} (h : ∀ c ∈ m, x < c.1) : memGet m x = none := by
  induction m with
  | nil => rfl
  | cons c m ih =>
    have hx : x ≠ c.1 := (h c List.mem_cons_self).ne
    simp only [memGet, if_neg hx]
    exact ih fun d hd => h d (List.mem_cons_of_mem c hd)

/-- A memory whose listing begins with `f` and that lists the address of `e` begins no later than there. -/
theorem head_le_of_memGet {e f : Host.Cell} {l k : Memory} (hf : ∀ g ∈ k, f.1 < g.1)
    (h : memGet (e :: l) e.1 = memGet (f :: k) e.1) : f.1 ≤ e.1 := by
  by_contra hlt
  have hlt := Nat.not_le.1 hlt
  rw [memGet_of_lt (m := f :: k) (List.forall_mem_cons.2 ⟨hlt, fun g hg => hlt.trans (hf g hg)⟩)] at h
  simp [memGet] at h

/-- Settles O12, by induction on the listings: both begin with their least listed address. -/
theorem equalListingsAreEqualMemories : Obligations.EqualListingsAreEqualMemories := by
  intro m m' hm hm' hget
  obtain ⟨hrise, -⟩ := (memWf_iff m).1 hm
  obtain ⟨hrise', -⟩ := (memWf_iff m').1 hm'
  clear hm hm'
  induction m generalizing m' with
  | nil =>
    cases m' with
    | nil => rfl
    | cons d m' => simpa [memGet] using hget d.1
  | cons c m ih =>
    cases m' with
    | nil => simpa [memGet] using hget c.1
    | cons d m' =>
      obtain ⟨hc, hrise⟩ := List.pairwise_cons.1 hrise
      obtain ⟨hd, hrise'⟩ := List.pairwise_cons.1 hrise'
      have haddr : c.1 = d.1 := Nat.le_antisymm
        (head_le_of_memGet hc (hget d.1).symm) (head_le_of_memGet hd (hget c.1))
      have hbyte : c.2 = d.2 := by simpa [memGet, haddr] using hget c.1
      have htail : ∀ x, memGet m x = memGet m' x := fun x => by
        by_cases hx : x = c.1
        · rw [memGet_of_lt (hx ▸ hc), memGet_of_lt (hx ▸ haddr ▸ hd)]
        · simpa [memGet, hx, haddr ▸ hx] using hget x
      rw [Prod.ext haddr hbyte, ih m' htail hrise hrise']

/-! ## Specifiers and register operands -/

/-- A fetch moves the program counter past its bytes (R25). -/
theorem pc_of_fetch {k : Nat} {s t : State} (h : fetch k s = .ok t) : t.pc = s.pc.plus k := by
  obtain ⟨_, rfl⟩ := fetch_ok_iff.1 h
  simp

theorem length_encodeBase_pos (z : Size) (b : Base) : 0 < (b.encode z).length := by
  cases b <;> exact Nat.succ_pos _

/-- A mode evaluated after its specifier byte moves the program counter past the bytes that follow. -/
theorem evalMode_pc {a : Access} {z : Size} {inner : Bool} {b : Base} {s u : State} {o : Operand}
    (hwf : b.wf z = true) (h : evalMode a z inner b s = .ok (o, u)) :
    u.pc = s.pc.plus ((b.encode z).length - 1) := by
  have hset (v : Word) : (s.setPc v).pc = v := by simp
  have hkept {n : Reg} (hn : n ≠ Reg.pc) (v : Word) : (s.setR n v).pc = s.pc.plus 0 := by
    rw [State.pc, r_setR_other s v hn, plus_zero]
  cases b with
  | nestedIndex n => cases h
  | literal v | register n | deferred n =>
    simp only [evalMode] at h
    repeat' split at h
    all_goals cases h
    exact (plus_zero _).symm
  | autodec n =>
    simp only [evalMode] at h
    split at h
    next => cases h
    next hn => cases h; exact hkept (by simpa using hn) _
  | autoinc n =>
    cases h
    exact hkept (by simpa [Base.wf] using hwf) _
  | autoincDeferred n =>
    obtain ⟨p, _, h⟩ := bind_ok_iff.1 h
    cases h
    exact hkept (by simpa [Base.wf] using hwf) _
  | immediate v =>
    simp only [evalMode] at h
    rw [Base.encode, List.length_cons, length_leBytes]
    split at h
    next => cases h
    next =>
      split at h
      next => cases h; exact hset _
      next =>
        obtain ⟨t, ht, h⟩ := bind_ok_iff.1 h
        cases h
        exact pc_of_fetch ht
  | absolute p =>
    obtain ⟨t, ht, h⟩ := bind_ok_iff.1 h
    cases h
    exact pc_of_fetch ht
  | byteDisp n d | wordDisp n d | longDisp n d =>
    obtain ⟨_, rfl, _⟩ := evalDisp_ok h
    exact hset _
  | byteDispDeferred n d | wordDispDeferred n d | longDispDeferred n d =>
    obtain ⟨_, rfl, _⟩ := evalDispDeferred_ok h
    exact hset _

/-- A specifier evaluated moves the program counter past its bytes (R57, R107). -/
theorem evalSpec_pc {a : Access} {z : Size} {sp : Spec} {s u : State} {o : Operand}
    (hwf : sp.wf z = true) (h : evalSpec a z sp s = .ok (o, u)) :
    u.pc = s.pc.plus (sp.encode z).length := by
  cases sp with
  | direct b =>
    obtain ⟨t, ht, h⟩ := bind_ok_iff.1 h
    rw [evalMode_pc (Bool.and_eq_true_iff.1 hwf).1 h, pc_of_fetch ht, plus_plus, Spec.encode,
      Nat.add_sub_cancel' (length_encodeBase_pos z b)]
  | indexed x b =>
    obtain ⟨t, ht, h⟩ := bind_ok_iff.1 h
    split at h
    next => cases h
    next =>
      obtain ⟨t', ht', h⟩ := bind_ok_iff.1 h
      obtain ⟨⟨o', u'⟩, hmode, h⟩ := bind_ok_iff.1 h
      have hpc : u'.pc = s.pc.plus (Spec.encode z (.indexed x b)).length := by
        rw [evalMode_pc hwf hmode, pc_of_fetch ht', pc_of_fetch ht, plus_plus, plus_plus,
          Nat.add_sub_cancel' (length_encodeBase_pos z b), Nat.add_comm]
        rfl
      dsimp only at h
      repeat' split at h
      all_goals cases h
      exact hpc

/-- Settles O19: the program counter by `evalSpec_pc`, all else by what an evaluation writes. -/
theorem specifierFrame : Obligations.SpecifierFrame := by
  intro a z sp s u o hwf h
  obtain ⟨heval, _⟩ := evalSpec_ok h
  exact ⟨evalSpec_pc hwf h, heval.regs, heval.rest⟩

/-- The low part of a register after it has been written, and the part above it. -/
theorem extract_mergeLow {k : Nat} (v : BitVec k) (old : Word) (hk : k ≤ 32) :
    (mergeLow k v old).extractLsb' 0 k = v ∧
      (mergeLow k v old).extractLsb' k (32 - k) = old.extractLsb' k (32 - k) :=
  ⟨extract_setField_same (by omega), extract_setField_apart (by omega)⟩

/-- Settles O20: the reads by bits, the writes by `extract_mergeLow` and what a register write keeps. -/
theorem registerOperandParts : Obligations.RegisterOperandParts := by
  intro n s
  have hpair : n + 1 ≠ n := by simp
  refine ⟨⟨?_, ?_, rfl, rfl⟩, fun v => ?_, fun v => ?_, fun v => ?_, fun v => ?_,
    fun z v k hk hkq => ?_, fun a z ha hf => ?_⟩
  · exact BitVec.setWidth_eq_extractLsb' (by decide)
  · exact BitVec.setWidth_eq_extractLsb' (by decide)
  · simp only [State.writeReg, r_setR_same]
    exact extract_mergeLow (k := 8) v (s.r n) (by decide)
  · simp only [State.writeReg, r_setR_same]
    exact extract_mergeLow (k := 16) v (s.r n) (by decide)
  · simp [State.writeReg]
  · simpa [State.writeReg, hpair] using BitVec.setWidth_eq_extractLsb' (x := v) (by decide : 32 ≤ 64)
  · refine writeReg_other z n k v s ?_
    rw [Operand.regs]
    split
    next hq => simp [hk, hkq hq]
    next => simp [hk]
  · rw [evalSpec_direct hf, evalSpec_direct hf]
    simp [evalMode, ha]

/-- Settles O54, by evaluation of the reset value. -/
theorem resetPsl : Obligations.ResetPsl := by
  unfold Obligations.ResetPsl
  decide

/-- Settles O55, by evaluation of the reset state. -/
theorem resetMeetsTheInvariants : Obligations.ResetMeetsTheInvariants := by
  refine ⟨rfl, rfl, rfl, rfl, rfl, ?_, ?_, ?_, ?_⟩ <;> decide

/-! ## What a completed instruction has written -/

/-- The flags of a move are those that keep the carry (R162, R176). -/
theorem moveFlags_eq {n : Nat} (r : BitVec n) (c : Bool) : moveFlags r c = keepsCarry r c := rfl

@[simp] theorem readOp_setFlags (z : Size) (o : Operand) (f : Flags) (s : State) :
    readOp z o (s.setFlags f) = readOp z o s := by
  cases o with
  | lit v => rfl
  | reg n => cases z <;> rfl
  | mem a => simp [readOp, memRead]

/-- An operand written and the condition codes set, after the specifiers have been evaluated. -/
theorem wrote_of_operandWritten {s u t : State} {sps : List Spec} {z : Size} {o : Operand}
    {v : BitVec z.bits} (he : Evaluated s u (stepped sps)) (hw : OperandWritten z o v u t) (f : Flags) :
    Wrote s u (t.setFlags f) sps z o v f where
  value := by rw [readOp_setFlags]; exact hw.value
  upper := hw.upper
  evaluated := hw.regs
  regs n hpc hn ho := (hw.regs n ho).trans (he.regs n hpc hn)
  bytes x hx := (hw.bytes x hx).trans (he.byteAt x)
  recorded := (Recorded.of_eq (t := t.setFlags f) ⟨hw.recorded.mem, hw.recorded.kept⟩
    he.written.symm he.cfg.symm)
  flags := pslFlags_withFlags f t.psl
  psl := by rw [pslKept, psl_setFlags, withFlags_and_mask, hw.rest, he.psl]
  rest := by rw [State.setFlags, State.setPsl, hw.rest, he.rest]

/-! ## The operands of MTPR and MFPR -/

/-- The opcode and one operand of access type r. -/
theorem operandsR_ok {z : Size} {src : Spec} {s u : State} {a : BitVec z.bits}
    (h : operandsR z src s = .ok (a, u)) :
    ∃ t, fetch 1 s = .ok t ∧ evalRead z src t = .ok (a, u) := bind_ok_iff.1 h

/-- The opcode and two operands of access type r. -/
theorem operandsRR_ok {y z : Size} {src1 src2 : Spec} {s u : State} {a : BitVec y.bits}
    {b : BitVec z.bits} (h : operandsRR y z src1 src2 s = .ok (a, b, u)) :
    ∃ t t', fetch 1 s = .ok t ∧ evalRead y src1 t = .ok (a, t') ∧ evalRead z src2 t' = .ok (b, u) := by
  obtain ⟨⟨a', t'⟩, h1, h⟩ := bind_ok_iff.1 h
  obtain ⟨⟨b', u'⟩, h2, h⟩ := bind_ok_iff.1 h
  obtain ⟨t, h0, h1⟩ := operandsR_ok h1
  cases h
  exact ⟨t, t', h0, h1, h2⟩

/-- The opcode and two operands of access types r and w. -/
theorem operandsRW_ok {z : Size} {src dst : Spec} {s u : State} {a : BitVec z.bits} {o : Operand}
    (h : operandsRW z src dst s = .ok (a, o, u)) :
    ∃ t t', fetch 1 s = .ok t ∧ evalRead z src t = .ok (a, t') ∧ evalWrite z dst t' = .ok (o, u) := by
  obtain ⟨⟨a', t'⟩, h1, h⟩ := bind_ok_iff.1 h
  obtain ⟨⟨o', u'⟩, h2, h⟩ := bind_ok_iff.1 h
  obtain ⟨t, h0, h1⟩ := operandsR_ok h1
  cases h
  exact ⟨t, t', h0, h1, h2⟩

theorem stepped_pair (sp sp' : Spec) : stepped [sp, sp'] = Spec.steps sp ++ Spec.steps sp' := by
  simp [stepped]

theorem evaluated_operandsRR {y z : Size} {src1 src2 : Spec} {s u : State} {a : BitVec y.bits}
    {b : BitVec z.bits} (h : operandsRR y z src1 src2 s = .ok (a, b, u)) :
    Evaluated s u (stepped [src1, src2]) := by
  obtain ⟨t, t', h0, h1, h2⟩ := operandsRR_ok h
  rw [stepped_pair]
  exact ((evaluated_fetch h0).trans (evalRead_ok h1)).trans (evalRead_ok h2)

theorem evaluated_operandsRW {z : Size} {src dst : Spec} {s u : State} {a : BitVec z.bits} {o : Operand}
    (h : operandsRW z src dst s = .ok (a, o, u)) :
    Evaluated s u (stepped [src, dst]) ∧ o.allowed .write z false := by
  obtain ⟨t, t', h0, h1, h2⟩ := operandsRW_ok h
  rw [stepped_pair]
  obtain ⟨hdst, hallowed⟩ := evalWrite_ok h2
  exact ⟨((evaluated_fetch h0).trans (evalRead_ok h1)).trans hdst, hallowed⟩

/-! ## MTPR -/

section Mtpr

variable {src procreg : Spec} {s u : State} {v k : Word} {x : Option ProcReg}

/-- MTPR in kernel mode, once both operands have been evaluated: what it does is the effect of the
register that the number selects, if there is one (R258). -/
theorem exec_mtpr (hs : pslCUR s.psl = 0) (h : operandsRR .l .l src procreg s = .ok (v, k, u))
    (hx : prnumFind s.cfg.prnum k = x) :
    exec (.mtpr src procreg) s = conclude s
      (x.elim (.error (.refuse (.unknownProcessorRegister k))) fun p =>
      writeProcReg p v u >>= fun t =>
      .ok (t.setFlags (moveFlags v (pslC t.psl)))) := by
  obtain ⟨t, t', h0, h1, h2⟩ := operandsRR_ok h
  have hkernel : pslCUR t.psl = 0 := by rw [(evaluated_fetch h0).psl, hs]
  rw [← (evaluated_operandsRR h).cfg] at hx
  change runInstr s _ = _
  rw [runInstr, bind_of_ok h0, kernelOnly_bind hkernel, bind_of_ok h1]
  dsimp only
  rw [bind_of_ok h2]
  dsimp only
  rw [hx]
  cases x <;> rfl

end Mtpr

/-- MTPR completes with what `writeProcReg` makes, where that keeps C. -/
theorem completesMtpr_of {p : ProcReg} {ok : Word → Prop} {f : State → Word → State}
    (hwrite : ∀ u v, ok v → writeProcReg p v u = .ok (f u v))
    (hcarry : ∀ u v, pslC (f u v).psl = pslC u.psl) : CompletesMtpr p ok f := by
  intro src procreg s u v k hs h hp hv
  refine ⟨(f u v).setFlags (keepsCarry v (pslC s.psl)), ?_, pslFlags_withFlags _ _,
    withFlags_and_mask _ _, rfl⟩
  rw [exec_mtpr hs h hp, Option.elim_some, bind_of_ok (hwrite u v hv), hcarry, (evaluated_operandsRR h).psl,
    moveFlags_eq]
  rfl

/-- The PSL with IPL replaced, as R41 writes it. -/
theorem pslWithIPL_eq (v w : Word) :
    pslWithIPL (v.extractLsb' 0 5) w = (w &&& 0xFFE0FFFF) ||| ((v &&& 0x1F) <<< 16) := by
  have hlevel : (v.extractLsb' 0 5).setWidth 32 = v &&& 0x1F := by
    apply word_ext
    intro i hi
    interval_cases i <;> simp
  rw [pslWithIPL, setField, hlevel]
  rfl

theorem pslC_withIPL (l : BitVec 5) (w : Word) : pslC (pslWithIPL l w) = pslC w := by
  rw [pslC, pslWithIPL, getLsbD_setField]
  rfl

/-! The rows of R259 that do more than write a register of their own. -/

theorem completesMtpr_ksp : CompletesMtpr .ksp (fun _ => True)
    (fun u v => if pslIS u.psl then { u with spbank.k := v } else u.setR Reg.sp v) :=
  completesMtpr_of (fun _ _ _ => rfl) fun u v => by split <;> rfl

theorem completesMtpr_ipl : CompletesMtpr .ipl (fun _ => True)
    (fun u v => { u with psl := (u.psl &&& 0xFFE0FFFF) ||| ((v &&& 0x1F) <<< 16) }) := by
  simp only [← pslWithIPL_eq]
  exact completesMtpr_of (fun _ _ _ => rfl) fun _ _ => pslC_withIPL _ _

theorem completesMtpr_astlvl : CompletesMtpr .astlvl (fun v => v.toNat ≤ 4)
    (fun u v => { u with astlvl := v.extractLsb' 0 3 }) := by
  refine completesMtpr_of (fun u v hv => ?_) fun _ _ => rfl
  rw [writeProcReg, if_neg (Nat.not_lt.2 hv), BitVec.setWidth_eq_extractLsb' (by decide)]

theorem completesMtpr_mapen : CompletesMtpr .mapen (fun v => v.getLsbD 0 = false)
    (fun u _ => { u with mapen := 0 }) := by
  refine completesMtpr_of (fun u v hv => ?_) fun _ _ => rfl
  rw [writeProcReg, hv]
  rfl

/-- Settles O43: each register by its row of `writeProcReg`. -/
theorem mtprWritesTheRegister : Obligations.MtprWritesTheRegister := by
  refine ⟨completesMtpr_ksp, ?_, ?_, ?_, ?_, ?_, ?_, ?_, ?_, ?_, ?_, ?_, completesMtpr_ipl,
    completesMtpr_astlvl, completesMtpr_mapen, fun src procreg s u v k hs h hp hv => ?_⟩
  case refine_12 =>
    rw [exec_mtpr hs h hp, Option.elim_some, writeProcReg, if_pos hv]
    rfl
  all_goals exact completesMtpr_of (fun _ _ _ => rfl) fun _ _ => rfl

/-! ## MFPR -/

section Mfpr

variable {procreg dst : Spec} {s u : State} {k : Word} {o : Operand} {x : Option ProcReg}

/-- MFPR in kernel mode, once both operands have been evaluated: what it does is the effect of the
register that the number selects, if there is one (R260). -/
theorem exec_mfpr (hs : pslCUR s.psl = 0) (h : operandsRW .l procreg dst s = .ok (k, o, u))
    (hx : prnumFind s.cfg.prnum k = x) :
    exec (.mfpr procreg dst) s = conclude s
      (x.elim (.error (.refuse (.unknownProcessorRegister k))) fun p =>
      readProcReg p u >>= fun v => writeOp .l o v u >>= fun t =>
      .ok (t.setFlags (moveFlags v (pslC t.psl)))) := by
  obtain ⟨t, t', h0, h1, h2⟩ := operandsRW_ok h
  have hkernel : pslCUR t.psl = 0 := by rw [(evaluated_fetch h0).psl, hs]
  rw [← (evaluated_operandsRW h).1.cfg] at hx
  change runInstr s _ = _
  rw [runInstr, bind_of_ok h0, kernelOnly_bind hkernel, bind_of_ok h1]
  dsimp only
  rw [bind_of_ok h2]
  dsimp only
  rw [hx]
  cases x <;> rfl

end Mfpr

/-- MFPR completes with what `readProcReg` answers. -/
theorem completesMfpr_of {p : ProcReg} {f : State → Word} (hread : ∀ u, readProcReg p u = .ok (f u)) :
    CompletesMfpr p f := by
  intro procreg dst s u k o hs h hwritable hp
  obtain ⟨heval, hallowed⟩ := evaluated_operandsRW h
  have hwritable : o.writable .l u := by simpa only [Operand.writable, heval.cfg] using hwritable
  obtain ⟨t, ht, hwritten⟩ := writeOp_ok (by decide) hallowed (f u) hwritable
  refine ⟨_, ?_, wrote_of_operandWritten heval hwritten _⟩
  have hpsl : t.psl = s.psl := by rw [hwritten.rest, heval.psl]
  rw [exec_mfpr hs h hp, Option.elim_some, bind_of_ok (hread u), bind_of_ok ht, hpsl, moveFlags_eq]
  rfl

/-- IPL as a value is bits 20:16 of the PSL. -/
theorem completesMfpr_ipl : CompletesMfpr .ipl (fun u => (u.psl >>> 16) &&& 0x1F) := by
  have hipl (w : Word) : (w >>> 16) &&& 0x1F = (pslIPL w).setWidth 32 := by
    apply word_ext
    intro i hi
    interval_cases i <;> simp [pslIPL]
  simp only [hipl]
  exact completesMfpr_of fun _ => rfl

/-- Settles O44: each register by its row of `readProcReg`. -/
theorem mfprReadsTheRegister : Obligations.MfprReadsTheRegister := by
  refine ⟨?_, ?_, ?_, ?_, ?_, ?_, ?_, ?_, ?_, ?_, ?_, ?_, completesMfpr_ipl, ?_, ?_⟩
  all_goals exact completesMfpr_of fun _ => rfl

/-- Settles O45: the look-up fails, or the register's row refuses. -/
theorem unmodelledProcessorRegistersAreRefused : Obligations.UnmodelledProcessorRegistersAreRefused := by
  refine ⟨fun src procreg s u v k hs h => ⟨fun hp => exec_mtpr hs h hp, fun hp => ?_, fun hp hv => ?_⟩,
    fun procreg dst s u k o hs h => ⟨fun hp => exec_mfpr hs h hp, fun hp => ?_⟩⟩
  · rcases hp with hp | hp <;> rw [exec_mtpr hs h hp] <;> rfl
  · rw [exec_mtpr hs h hp, Option.elim_some, writeProcReg, if_pos hv]
    rfl
  · rcases hp with hp | hp <;> rw [exec_mfpr hs h hp] <;> rfl

/-! ## Runs of pushes -/

/-- A run of bytes exists when both of its parts do. -/
theorem canAccess_add {j k : Nat} {a : Word} {s : State} :
    canAccess (j + k) a s ↔ canAccess j a s ∧ canAccess k (a.plus j) s := by
  refine ⟨fun h => ⟨fun i hi => h i (by omega), fun i hi => ?_⟩, fun ⟨hj, hk⟩ i hi => ?_⟩
  · rw [plus_plus]
    exact h (j + i) (by omega)
  · by_cases hij : i < j
    · exact hj i hij
    · have h := hk (i - j) (by omega)
      rwa [plus_plus, Nat.add_sub_cancel' (Nat.le_of_not_lt hij)] at h

/-- A run of pushes completes when memory exists at each of its bytes. -/
theorem pushParams_completes_iff {vs : List Word} {s : State} (hl : 4 * vs.length ≤ 2 ^ 32) :
    (∃ t, pushParams vs s = .ok t) ↔
      canAccess (4 * vs.length) (s.sp - BitVec.ofNat 32 (4 * vs.length)) s := by
  induction vs with
  | nil => simp [pushParams, canAccess]
  | cons v vs ih =>
    rw [List.length_cons] at hl ⊢
    have hlen : 4 * (vs.length + 1) = 4 + 4 * vs.length := by ring
    have hnext : (s.sp - BitVec.ofNat 32 (4 + 4 * vs.length)).plus 4
        = s.sp - BitVec.ofNat 32 (4 * vs.length) := by
      rw [Word.plus, BitVec.ofNat_add]
      bv_omega
    have hpush {u : State} (hu : pushParams vs s = .ok u) : (∃ t, push32 v u = .ok t) ↔
        canAccess 4 (s.sp - BitVec.ofNat 32 (4 + 4 * vs.length)) s := by
      have hpushed := pushParams_ok (by omega) hu
      have hbase : u.sp - 4 = s.sp - BitVec.ofNat 32 (4 + 4 * vs.length) := by
        rw [hpushed.sp, BitVec.ofNat_add]
        bv_omega
      have hcfg : u.cfg = s.cfg := by rw [hpushed.rest]
      simp only [push32_ok_iff, hbase, canAccess_congr hcfg, exists_and_left, exists_eq, and_true]
    rw [hlen, canAccess_add, hnext, ← ih (by omega)]
    simp only [pushParams, bind_ok_iff]
    constructor
    · rintro ⟨t, u, hu, ht⟩
      exact ⟨(hpush hu).1 ⟨t, ht⟩, u, hu⟩
    · rintro ⟨hv, u, hu⟩
      obtain ⟨t, ht⟩ := (hpush hu).2 hv
      exact ⟨t, u, hu, ht⟩

/-- A run of pushes that stops is a machine check. -/
theorem pushParams_stop {vs : List Word} {s : State} {e : Stop} (h : pushParams vs s = .error e) :
    ∃ x, e = .fault (.machineCheck x) := by
  induction vs with
  | nil => cases h
  | cons v vs ih =>
    rcases bind_error_iff.1 h with h | ⟨u, _, h⟩
    · exact ih h
    · exact push32_stop h

/-! ## What an entry has done -/

theorem length_entryPushes (params : List Word) (savedPc psl : Word) :
    4 * (params ++ [savedPc, psl]).length = entrySize params := by
  rw [List.length_append, entrySize, List.length_cons, List.length_singleton]
  ring

/-- An entry begins to push at the stack pointer that its vector picks (R35, R314). -/
theorem entryStart_sp (kind : Entry) (vec : Word) (s : State) :
    (entryStart kind vec s).sp = entryTop vec s := by
  simp only [entryStart, entryTop]
  split
  · rfl
  · simp [State.switchStack, State.banked, State.setBanked]

theorem entryStart_spbank (kind : Entry) (vec : Word) (s : State) :
    (entryStart kind vec s).spbank
      = if pslIS s.psl then s.spbank else s.spbank.put s.sp (bankOf s.psl) := by
  simp only [entryStart]
  split <;> rfl

theorem entryStart_r (kind : Entry) (vec : Word) (s : State) {n : Reg} (hn : n ≠ Reg.sp) :
    (entryStart kind vec s).r n = s.r n := by
  simp only [entryStart]
  split
  · rfl
  · exact r_setR_other (s.setBanked _ _) _ (Ne.symm hn)

/-- An entry whose pushes have been made has done what R314 says. -/
theorem entered_of_pushedAll {kind : Entry} {vec savedPc : Word} {params : List Word} {s u : State}
    {prv : BitVec 2} {ipl : BitVec 5}
    (hpsl : (entryStart kind vec s).psl = pslForEntry (pslIS s.psl || vec.getLsbD 0) prv ipl)
    (hp : PushedAll (params ++ [savedPc, s.psl]) (entryStart kind vec s) u) :
    Entered s (u.setPc (vec &&& 0xFFFFFFFC)) vec savedPc params prv ipl := by
  have hsize := length_entryPushes params savedPc s.psl
  have husp : (u.setPc (vec &&& 0xFFFFFFFC)).sp = u.sp := r_setR_other u _ (by decide)
  have hsp : u.sp = entryBase vec params s := by
    rw [hp.sp, hsize, entryStart_sp, entryBase]
  have hupsl : u.psl = pslForEntry (pslIS s.psl || vec.getLsbD 0) prv ipl := by rw [hp.rest, hpsl]
  have hvalue (j : Nat) (v : Word) (h : (params ++ [savedPc, s.psl])[j]? = some v) :
      (u.setPc (vec &&& 0xFFFFFFFC)).long (u.sp.plus (4 * j)) = v :=
    (long_setR u _ _ _).trans (hp.value j v h)
  have hbyte (x : Word) : (entryStart kind vec s).byteAt x = s.byteAt x := by
    rw [entryStart_rest]; rfl
  constructor
  case pc => simp
  case sp => rw [husp, hsp]
  case param =>
    rintro p rfl
    rw [husp, ← plus_zero u.sp]
    exact hvalue 0 p rfl
  case savedPc =>
    rw [husp]
    exact hvalue params.length savedPc (by simp)
  case savedPsl =>
    rw [husp, show u.sp + BitVec.ofNat 32 (4 * params.length) + 4 = u.sp.plus (4 * (params.length + 1)) from
      plus_plus u.sp (4 * params.length) 4]
    exact hvalue (params.length + 1) s.psl (by simp)
  case is => rw [psl_setR, hupsl, pslIS_forEntry]
  case cur => rw [psl_setR, hupsl, pslCUR_forEntry]
  case prv => rw [psl_setR, hupsl, pslPRV_forEntry]
  case ipl => rw [psl_setR, hupsl, pslIPL_forEntry]
  case psl => rw [psl_setR, hupsl, pslForEntry_rest]
  case bank => rw [spbank_setR, hp.rest, ← entryStart_spbank kind]
  case regs =>
    intro n hsp hpc
    rw [r_setR_other u _ (Ne.symm hpc), hp.regs n hsp, entryStart_r kind vec s hsp]
  case bytes =>
    intro x hx
    rw [byteAt_setR, hp.bytes x fun i hi he => hx ?_, hbyte]
    rw [← hsp, ← hsize, he]
    exact List.mem_map_of_mem (List.mem_range.2 hi)
  case recorded =>
    have hr := hp.recorded.of_eq (s' := s) (by rw [entryStart_rest]) (by rw [entryStart_rest])
    rw [hsize, hsp] at hr
    exact ⟨hr.mem, hr.kept⟩
  case rest =>
    rw [State.setPc, State.setR, hp.rest, entryStart_rest]

section Entries

variable {kind : Entry} {off savedPc : Word} {params : List Word} {s : State}

/-- An entry whose vector has code 0 or 1 is its run of pushes (R314). -/
theorem enter_of_vector (hvec : canAccess 4 (s.scbb + off) s)
    (hcode : (s.long (s.scbb + off)).getLsbD 1 = false) :
    enter kind off savedPc params s
      = pushParams (params ++ [savedPc, s.psl]) (entryStart kind (s.long (s.scbb + off)) s) >>= fun u =>
        .ok (u.setPc (s.long (s.scbb + off) &&& 0xFFFFFFFC)) := by
  rw [enter_eq, bind_of_ok (memRead_long hvec), if_neg (by rw [hcode]; exact Bool.false_ne_true)]

/-- The pushes of an entry complete when memory exists at each of their bytes. -/
theorem entry_pushes_iff (vec : Word) (hl : params.length ≤ 1) :
    (∃ u, pushParams (params ++ [savedPc, s.psl]) (entryStart kind vec s) = .ok u) ↔
      canAccess (entrySize params) (entryBase vec params s) s := by
  have hsize := length_entryPushes params savedPc s.psl
  have hcfg : (entryStart kind vec s).cfg = s.cfg := by rw [entryStart_rest]
  rw [pushParams_completes_iff (by rw [hsize, entrySize]; omega), hsize, entryStart_sp,
    canAccess_congr hcfg, entryBase]

/-- An entry that completes, whatever its kind. -/
theorem takeEntry_entered (hl : params.length ≤ 1) (hvec : canAccess 4 (s.scbb + off) s)
    (hcode : (s.long (s.scbb + off)).getLsbD 1 = false)
    (hstack : canAccess (entrySize params) (entryBase (s.long (s.scbb + off)) params s) s)
    {prv : BitVec 2} {ipl : BitVec 5}
    (hpsl : (entryStart kind (s.long (s.scbb + off)) s).psl
      = pslForEntry (pslIS s.psl || (s.long (s.scbb + off)).getLsbD 0) prv ipl) :
    ∃ t, takeEntry kind off savedPc params s = .next t ∧
      Entered s t (s.long (s.scbb + off)) savedPc params prv ipl := by
  obtain ⟨u, hu⟩ := (entry_pushes_iff (kind := kind) (savedPc := savedPc) _ hl).2 hstack
  have hpushed := pushParams_ok (by simp; omega) hu
  refine ⟨_, takeEntry_next_iff.2 ?_, entered_of_pushedAll hpsl hpushed⟩
  rw [enter_of_vector hvec hcode, bind_of_ok hu]

/-- A machine check inside an entry is refused (R314, R317). -/
theorem takeEntry_of_fault {e : Exn} (h : enter kind off savedPc params s = .error (.fault e)) :
    takeEntry kind off savedPc params s = .refused .exceptionDuringEntry := by
  rw [takeEntry, h]

end Entries

/-- Settles O52: the entry is the read of its vector and one run of pushes, and completes exactly when
memory exists for both. -/
theorem entrySavesAndSwitches : Obligations.EntrySavesAndSwitches := by
  refine ⟨fun off savedPc params s hl hvec hcode hstack => ⟨?_, fun level => ?_⟩,
    fun kind off savedPc params s hl =>
      ⟨fun hvec => ?_, fun hvec hcode => ?_, fun hvec hcode hstack => ?_⟩⟩
  · exact takeEntry_entered hl hvec hcode hstack rfl
  · exact takeEntry_entered hl hvec hcode hstack rfl
  · cases hread : memRead 32 (s.scbb + off) s with
    | ok vec => exact absurd (memRead_ok_iff.1 hread).1 hvec
    | error e =>
      obtain ⟨x, rfl⟩ := memRead_stop hread
      exact takeEntry_of_fault (by rw [enter_eq, bind_of_error hread])
  · rw [takeEntry, enter_eq, bind_of_ok (memRead_long hvec), if_pos hcode]
  · cases hpush : pushParams (params ++ [savedPc, s.psl])
        (entryStart kind (s.long (s.scbb + off)) s) with
    | ok u => exact absurd ((entry_pushes_iff _ hl).1 ⟨u, hpush⟩) hstack
    | error e =>
      obtain ⟨x, rfl⟩ := pushParams_stop hpush
      exact takeEntry_of_fault (by rw [enter_of_vector hvec hcode, bind_of_error hpush])

end Sys2Proof.Proofs

/-!
PROOF. Memory (20_memory.md): what a store changes and that it reads back (R53, R54, R64), and that an access
reaches all of its bytes or is the machine check of the first that is absent (R54, R60, R303).
-/

namespace Sys2Proof.Proofs

open Sys2Proof Sys2Proof.Machine

/-! ## What a store has done -/

/-- The byte of weight `256 ^ i` is the field of eight bits at `8 * i` (R53). -/
theorem getElem_leBytes {n k i : Nat} (v : BitVec n) (h : i < (leBytes k v.toNat).length) :
    (leBytes k v.toNat)[i] = v.extractLsb' (8 * i) 8 := by
  have hbyte := getElem?_leBytes k v.toNat i (by simpa using h)
  rw [List.getElem?_eq_getElem h, Option.some_inj] at hbyte
  rw [hbyte, BitVec.extractLsb', Nat.shiftRight_eq_div_pow, pow_mul]
  norm_num

/-- The bytes of a store lie in ascending order from the least significant (R53, R54). -/
theorem byteAt_of_memWrite {z : Size} {a : Word} {v : BitVec z.bits} {s t : State}
    (h : memWrite z.bits a v s = .ok t) {i : Nat} (hi : i < z.bytes) :
    t.byteAt (a.plus i) = v.extractLsb' (8 * i) 8 := by
  obtain ⟨-, rfl⟩ := memWrite_ok_iff.1 h
  have hsize := size_bytes_le z
  rw [byteAt_storeBytes, getElem_leBytes]
  · rw [length_leBytes, size_bits]
    omega
  · rwa [length_leBytes, size_bits]

/-- A store is the write of a memory operand (R84). -/
theorem operandWritten_of_memWrite {z : Size} {a : Word} {v : BitVec z.bits} {s t : State}
    (h : memWrite z.bits a v s = .ok t) : OperandWritten z (.mem a) v s t := by
  obtain ⟨hv, -⟩ := memWrite_ok_iff.1 h
  have hwritable : (Operand.mem a).writable z s := fun x hx => by
    obtain ⟨i, hi, rfl⟩ := mem_addrs.1 hx
    exact hv i (by rwa [size_bits])
  obtain ⟨u, hu, hwritten⟩ := writeOp_ok (a := .write) (o := .mem a) (by decide) trivial v hwritable
  cases hu.symm.trans h
  exact hwritten

/-- Settles O10: the store is the write of a memory operand, and it writes no register. -/
theorem storeThenLoad : Obligations.StoreThenLoad := by
  intro z a v s t h
  have hwritten := operandWritten_of_memWrite h
  have hrest : t = { s with mem := t.mem, written := t.written } := by
    obtain ⟨-, rfl⟩ := memWrite_ok_iff.1 h
    exact storeBytes_rest ..
  refine ⟨hwritten.value, fun i hi => byteAt_of_memWrite h hi, hwritten.bytes, fun x => ?_, hrest⟩
  rw [hwritten.recorded.mem]
  simp only [BitVec.toNat_inj, exists_eq_right']

/-! ## Accesses where memory is absent -/

/-- Settles O11: both accesses check all of their addresses, in ascending order, before all else. -/
theorem absentMemoryIsAMachineCheck : Obligations.AbsentMemoryIsAMachineCheck := by
  intro z a v s
  refine ⟨fun hv => ?_, fun i hi hbelow habsent => ?_, fun x => rfl⟩
  · have hbits : canAccess (z.bits / 8) a s := by rwa [size_bits]
    exact ⟨⟨_, memRead_ok_iff.2 ⟨hbits, rfl⟩⟩, _, memWrite_ok_iff.2 ⟨hbits, rfl⟩⟩
  · have hcheck : checkValid s.cfg a (z.bits / 8) = .error (.fault (.machineCheck (a.plus i))) :=
      checkValid_error (by rwa [size_bits]) hbelow habsent
    exact ⟨bind_of_error hcheck _, bind_of_error hcheck _⟩

end Sys2Proof.Proofs

/-!
PROOF. The encoding (30_encoding.md): the decoder reads back exactly what the encoder writes (R80 to R99, R107,
R113, R114), and what a step does at bytes that are an instruction and at an opcode byte that is none (R109).

The decoder is put together from parts, and so is the proof: `Reads n p R` says at once that a part gives back
what is written, answers for nothing else, and is content with `n` bytes. It holds of a field, of a base, of a
specifier, and through `Reads.bind` of the operand fields of every instruction.
-/

namespace Sys2Proof.Proofs

open Sys2Proof Sys2Proof.Machine

/-! ## Decoders that read back what is written -/

/-- The decoder `p` reads exactly the byte strings that `R` gives its values, none longer than `n`: it reads
each one back, it answers for no other one, and `n` bytes always hold one. -/
structure Reads {α : Type} (n : Nat) (p : List Byte → Except DecodeError (α × List Byte))
    (R : α → List Byte → Prop) : Prop where
  back : ∀ {x front}, R x front → ∀ rest, p (front ++ rest) = .ok (x, rest)
  only : ∀ {bs x rest}, p bs = .ok (x, rest) → ∃ front, R x front ∧ bs = front ++ rest
  length_le : ∀ {x front}, R x front → front.length ≤ n
  whole : ∀ {bs}, n ≤ bs.length → ∃ r, p bs = .ok r

namespace Reads

variable {α β : Type} {n m : Nat} {p : List Byte → Except DecodeError (α × List Byte)}
  {R S : α → List Byte → Prop}

/-- Any larger bound will do. -/
theorem mono (h : Reads n p R) (hnm : n ≤ m) : Reads m p R where
  back := h.back
  only := h.only
  length_le hx := (h.length_le hx).trans hnm
  whole hbs := h.whole (hnm.trans hbs)

/-- Only which byte strings a value has matters. -/
theorem congr (h : Reads n p R) (hRS : ∀ x bs, R x bs ↔ S x bs) : Reads n p S := by
  rwa [show S = R from funext fun x => funext fun bs => propext (hRS x bs).symm]

/-- A decoder that answers the same everywhere. -/
theorem of_eq (h : Reads n p R) {q : List Byte → Except DecodeError (α × List Byte)}
    (hq : ∀ bs, q bs = p bs) : Reads n q R := by
  rwa [show q = p from funext hq]

/-- A decoder that reads no byte. -/
theorem pure (x : α) : Reads 0 (fun bs => .ok (x, bs)) (fun y front => y = x ∧ front = []) where
  back := by rintro _ _ ⟨rfl, rfl⟩ rest; rfl
  only := by rintro _ _ _ ⟨⟩; exact ⟨[], ⟨rfl, rfl⟩, rfl⟩
  length_le := by rintro _ _ ⟨rfl, rfl⟩; exact le_rfl
  whole _ := ⟨_, rfl⟩

/-- A decoder that goes on with the bytes another one has left. -/
theorem bind {q : α → List Byte → Except DecodeError (β × List Byte)} {T : α → β → List Byte → Prop}
    (hp : Reads n p R) (hq : ∀ a, Reads m (q a) (T a)) :
    Reads (n + m) (fun bs => p bs >>= fun r => q r.1 r.2)
      (fun y front => ∃ a f g, R a f ∧ T a y g ∧ front = f ++ g) where
  back := by
    rintro y _ ⟨a, f, g, hf, hg, rfl⟩ rest
    rw [List.append_assoc]
    exact (bind_of_ok (hp.back hf _) _).trans ((hq a).back hg rest)
  only := by
    intro bs y rest h
    obtain ⟨⟨a, bs'⟩, hpa, hqa⟩ := bind_ok_iff.1 h
    obtain ⟨f, hf, rfl⟩ := hp.only hpa
    obtain ⟨g, hg, rfl⟩ := (hq a).only hqa
    exact ⟨f ++ g, ⟨a, f, g, hf, hg, rfl⟩, (List.append_assoc ..).symm⟩
  length_le := by
    rintro y _ ⟨a, f, g, hf, hg, rfl⟩
    rw [List.length_append]
    exact Nat.add_le_add (hp.length_le hf) ((hq a).length_le hg)
  whole := by
    intro bs hbs
    obtain ⟨⟨a, bs'⟩, hpa⟩ := hp.whole (Nat.le_of_add_right_le hbs)
    obtain ⟨f, hf, rfl⟩ := hp.only hpa
    have hf' := hp.length_le hf
    rw [List.length_append] at hbs
    obtain ⟨r, hr⟩ := (hq a).whole (bs := bs') (by omega)
    exact ⟨r, (bind_of_ok hpa _).trans hr⟩

/-- A decoder whose value another one's is made into. -/
theorem map (hp : Reads n p R) (f : α → β) :
    Reads n (fun bs => (p bs).map fun r => (f r.1, r.2)) (fun y front => ∃ a, y = f a ∧ R a front) :=
  (hp.bind fun a => pure (f a)).congr fun y front => by
    constructor
    · rintro ⟨a, g, _, hg, ⟨rfl, rfl⟩, rfl⟩
      exact ⟨a, rfl, by rwa [List.append_nil]⟩
    · rintro ⟨a, rfl, ha⟩
      exact ⟨a, front, [], ha, ⟨rfl, rfl⟩, (List.append_nil _).symm⟩

end Reads

/-! ## Fields -/

/-- A little-endian field is read back as its value (R52). -/
theorem reads_takeField (k : Nat) :
    Reads k (takeField k) (fun v front => v < 256 ^ k ∧ front = leBytes k v) := by
  induction k with
  | zero => exact (Reads.pure 0).congr fun v front => by simp [leBytes]
  | succ k ih =>
    have hmap (b : Byte) := ih.map fun v => b.toNat + 256 * v
    refine ⟨?_, ?_, ?_, ?_⟩
    · rintro v _ ⟨hv, rfl⟩ rest
      refine (hmap (BitVec.ofNat 8 v)).back ⟨v / 256, ?_, by omega, rfl⟩ rest
      rw [BitVec.toNat_ofNat, Nat.mod_add_div]
    · rintro (_ | ⟨b, bs⟩) v rest h
      · cases h
      · obtain ⟨_, ⟨w, rfl, hw, rfl⟩, rfl⟩ := (hmap b).only h
        have hb := b.isLt
        refine ⟨b :: leBytes k w, ⟨by omega, ?_⟩, rfl⟩
        rw [leBytes, show (b.toNat + 256 * w) / 256 = w by omega]
        congr 1
        apply BitVec.eq_of_toNat_eq
        rw [BitVec.toNat_ofNat]
        omega
    · rintro v _ ⟨_, rfl⟩
      exact (length_leBytes _ _).le
    · rintro (_ | ⟨b, bs⟩) hbs
      · cases hbs
      · exact (hmap b).whole (Nat.le_of_succ_le_succ hbs)

/-- A field of `k` bytes taken as a bit vector that can hold it. -/
theorem reads_field {α : Type} {k n : Nat} (hkn : 256 ^ k ≤ 2 ^ n) (mk : BitVec n → α) :
    Reads k (fun bs => (takeField k bs).map fun r => (mk (BitVec.ofNat n r.1), r.2))
      (fun x front => ∃ v : BitVec n, v.toNat < 256 ^ k ∧ x = mk v ∧ front = leBytes k v.toNat) :=
  ((reads_takeField k).map fun v => mk (BitVec.ofNat n v)).congr fun x front => by
    constructor
    · rintro ⟨v, rfl, hv, rfl⟩
      have hn : (BitVec.ofNat n v).toNat = v := by
        rw [BitVec.toNat_ofNat, Nat.mod_eq_of_lt (hv.trans_le hkn)]
      exact ⟨BitVec.ofNat n v, by rwa [hn], rfl, by rw [hn]⟩
    · rintro ⟨v, hv, rfl, rfl⟩
      exact ⟨v.toNat, by rw [BitVec.ofNat_toNat, BitVec.setWidth_eq], hv, rfl⟩

/-! ## Specifiers -/

@[simp] theorem highNibble_specByte {mode : Nat} (h : mode < 16) (n : Reg) :
    highNibble (specByte mode n) = mode := by
  have hn := n.isLt
  rw [highNibble, specByte, BitVec.toNat_ofNat]
  omega

@[simp] theorem lowNibble_specByte (mode : Nat) (n : Reg) : lowNibble (specByte mode n) = n := by
  have hn := n.isLt
  apply Fin.ext
  rw [lowNibble, specByte, BitVec.toNat_ofNat, Fin.val_ofNat]
  omega

/-- Every byte is a specifier byte: its mode and its register (R85). -/
theorem exists_specByte (b : Byte) : ∃ mode < 16, ∃ n, specByte mode n = b := by
  have hb := b.isLt
  refine ⟨highNibble b, by rw [highNibble]; omega, lowNibble b, BitVec.eq_of_toNat_eq ?_⟩
  rw [specByte, BitVec.toNat_ofNat, highNibble, lowNibble, Fin.val_ofNat]
  omega

/-- A literal's byte has one of the modes 0 to 3 (R86). -/
theorem highNibble_literal (v : BitVec 6) : highNibble (v.setWidth 8) < 4 := by
  have hv := v.isLt
  rw [highNibble, BitVec.toNat_setWidth]
  omega

/-- The modes 0 to 3 are literals (R86). -/
theorem decodeBaseAfter_of_lt {b : Byte} (h : highNibble b < 4) (z : Size) (bs : List Byte) :
    decodeBaseAfter z b bs = .ok (.literal (b.setWidth 6), bs) := by
  unfold decodeBaseAfter
  split
  case h_13 => rfl
  all_goals omega

/-- A field of an operand's size fits the 64 bits of an immediate (R95). -/
theorem pow_bytes_le (z : Size) : 256 ^ z.bytes ≤ 2 ^ 64 := by cases z <;> decide

/-- A base's bytes decode to it. -/
theorem decodeBase_encode {z : Size} {b : Base} (hwf : b.wf z = true) (rest : List Byte) :
    decodeBase z (b.encode z ++ rest) = .ok (b, rest) := by
  have hfield {k n : Nat} (mk : BitVec n → Base) (hkn : 256 ^ k = 2 ^ n) (d : BitVec n) :=
    (reads_field hkn.le mk).back ⟨d, hkn ▸ d.isLt, rfl, rfl⟩ rest
  cases b with
  | literal v => simpa [Base.encode, decodeBase] using decodeBaseAfter_of_lt (highNibble_literal v) z rest
  | nestedIndex n | register n | deferred n | autodec n =>
    simp [Base.encode, decodeBase, decodeBaseAfter]
  | autoinc n | autoincDeferred n =>
    have hn : n ≠ Reg.pc := by simpa [Base.wf] using hwf
    simp [Base.encode, decodeBase, decodeBaseAfter, hn]
  | immediate v =>
    have hv : v.toNat < 256 ^ z.bytes := by
      cases z <;> simpa [Base.wf, Size.bits, Size.bytes] using hwf
    simpa [Base.encode, decodeBase, decodeBaseAfter]
      using (reads_field (pow_bytes_le z) Base.immediate).back ⟨v, hv, rfl, rfl⟩ rest
  | absolute d => simpa [Base.encode, decodeBase, decodeBaseAfter] using hfield .absolute rfl d
  | byteDisp n d => simpa [Base.encode, decodeBase, decodeBaseAfter] using hfield (.byteDisp n) rfl d
  | byteDispDeferred n d =>
    simpa [Base.encode, decodeBase, decodeBaseAfter] using hfield (.byteDispDeferred n) rfl d
  | wordDisp n d => simpa [Base.encode, decodeBase, decodeBaseAfter] using hfield (.wordDisp n) rfl d
  | wordDispDeferred n d =>
    simpa [Base.encode, decodeBase, decodeBaseAfter] using hfield (.wordDispDeferred n) rfl d
  | longDisp n d => simpa [Base.encode, decodeBase, decodeBaseAfter] using hfield (.longDisp n) rfl d
  | longDispDeferred n d =>
    simpa [Base.encode, decodeBase, decodeBaseAfter] using hfield (.longDispDeferred n) rfl d

/-- The byte of a mode below 4 is its low six bits (R86). -/
theorem setWidth_literal {mode : Nat} (h : mode < 4) (n : Reg) :
    ((specByte mode n).setWidth 6).setWidth 8 = specByte mode n := by
  have hn := n.isLt
  apply BitVec.eq_of_toNat_eq
  rw [BitVec.toNat_setWidth, BitVec.toNat_setWidth, specByte, BitVec.toNat_ofNat]
  omega

/-- Whatever decodes as a base is its encoding. -/
theorem encode_of_decodeBaseAfter {z : Size} {b : Byte} {bs rest : List Byte} {base : Base}
    (h : decodeBaseAfter z b bs = .ok (base, rest)) :
    base.wf z = true ∧ base.encode z ++ rest = b :: bs := by
  have hfield {k n : Nat} {mk : BitVec n → Base} (hkn : 256 ^ k ≤ 2 ^ n)
      (hwf : ∀ d, d.toNat < 256 ^ k → (mk d).wf z = true)
      (henc : ∀ d, (mk d).encode z = b :: leBytes k d.toNat)
      (h : ((takeField k bs).map fun r => (mk (BitVec.ofNat n r.1), r.2)) = .ok (base, rest)) :
      base.wf z = true ∧ base.encode z ++ rest = b :: bs := by
    obtain ⟨_, ⟨d, hd, rfl, rfl⟩, rfl⟩ := (reads_field hkn mk).only h
    exact ⟨hwf d hd, by rw [henc]; rfl⟩
  obtain ⟨mode, hmode, n, rfl⟩ := exists_specByte b
  simp only [decodeBaseAfter, highNibble_specByte hmode, lowNibble_specByte] at h
  split at h
  case h_1 | h_2 | h_3 | h_4 => cases h; exact ⟨rfl, rfl⟩
  case h_5 =>
    split at h
    next hn =>
      subst hn
      refine hfield (pow_bytes_le z) (fun d hd => ?_) (fun _ => rfl) h
      cases z <;> simpa [Base.wf, Size.bits, Size.bytes] using hd
    next hn => cases h; exact ⟨decide_eq_true hn, rfl⟩
  case h_6 =>
    split at h
    next hn => subst hn; exact hfield (by decide) (fun _ _ => rfl) (fun _ => rfl) h
    next hn => cases h; exact ⟨decide_eq_true hn, rfl⟩
  case h_7 | h_8 | h_9 | h_10 | h_11 | h_12 =>
    exact hfield (by decide) (fun _ _ => rfl) (fun _ => rfl) h
  case h_13 =>
    have hlow : mode < 4 := by simp only [imp_false] at *; omega
    cases h
    exact ⟨rfl, congrArg (· :: bs) (setWidth_literal hlow n)⟩

/-- The most bytes that follow a base's specifier byte. -/
def maxTail (z : Size) : Nat := max 4 z.bytes

/-- A specifier byte and the bytes that may follow it always hold a base. -/
theorem decodeBaseAfter_whole {z : Size} {b : Byte} {bs : List Byte} (h : maxTail z ≤ bs.length) :
    ∃ r, decodeBaseAfter z b bs = .ok r := by
  have hfield {k : Nat} (hk : k ≤ maxTail z) (f : Nat × List Byte → Base × List Byte) :
      ∃ r, (takeField k bs).map f = .ok r := by
    obtain ⟨r, hr⟩ := (reads_takeField k).whole (hk.trans h)
    exact ⟨f r, congrArg (Except.map f) hr⟩
  have h4 : 4 ≤ maxTail z := le_max_left ..
  unfold decodeBaseAfter
  split
  case h_1 | h_2 | h_3 | h_4 | h_13 => exact ⟨_, rfl⟩
  case h_5 =>
    split
    next => exact hfield (le_max_right ..) _
    next => exact ⟨_, rfl⟩
  case h_6 =>
    split
    next => exact hfield h4 _
    next => exact ⟨_, rfl⟩
  case h_7 | h_8 | h_9 | h_10 | h_11 | h_12 => exact hfield (by omega) _

/-- A base is read back (R85 to R98). -/
theorem reads_base (z : Size) :
    Reads (1 + maxTail z) (decodeBase z) (fun b front => b.wf z = true ∧ b.encode z = front) where
  back := by rintro b _ ⟨hwf, rfl⟩ rest; exact decodeBase_encode hwf rest
  only := by
    rintro (_ | ⟨b, bs⟩) base rest h
    · cases h
    · obtain ⟨hwf, henc⟩ := encode_of_decodeBaseAfter h
      exact ⟨_, ⟨hwf, rfl⟩, henc.symm⟩
  length_le := by
    rintro b _ ⟨_, rfl⟩
    have hb := Laws.length_encodeBase z b
    cases z <;> exact hb
  whole := by
    rintro (_ | ⟨b, bs⟩) h
    · rw [Nat.add_comm] at h; cases h
    · exact decodeBaseAfter_whole (by rw [List.length_cons] at h; omega)

theorem maxTail_le (z : Size) : maxTail z ≤ 8 := by cases z <;> decide

/-- A base has a first byte, and its mode is 4 for a nested index alone (R85, R87). -/
theorem exists_first_byte (z : Size) (b : Base) :
    ∃ byte tail, b.encode z = byte :: tail ∧ (highNibble byte = 4 ↔ b.isNestedIndex = true) := by
  cases b with
  | literal v =>
    have hv := highNibble_literal v
    exact ⟨_, _, rfl, iff_of_false (by omega) Bool.false_ne_true⟩
  | _ => exact ⟨_, _, rfl, by simp [Base.isNestedIndex]⟩

/-- A specifier is read back: its first byte tells an index from a base alone (R85, R87). -/
theorem reads_spec (z : Size) :
    Reads (2 + maxTail z) (decodeSpec z) (fun sp front => sp.wf z = true ∧ sp.encode z = front) := by
  have hdirect := (reads_base z).map Spec.direct
  have hindexed (x : Reg) := (reads_base z).map (Spec.indexed x)
  refine ⟨?_, ?_, ?_, ?_⟩
  · rintro (b | ⟨x, b⟩) _ ⟨hwf, rfl⟩ rest
    · obtain ⟨hb, hnested⟩ := Bool.and_eq_true_iff.1 hwf
      rw [Spec.encode]
      have hback := hdirect.back ⟨b, rfl, hb, rfl⟩ rest
      obtain ⟨byte, tail, henc, hmode⟩ := exists_first_byte z b
      rw [henc] at hback ⊢
      exact (if_neg (by simpa [hmode] using hnested)).trans hback
    · have hback := (hindexed x).back ⟨b, rfl, hwf, rfl⟩ rest
      simpa [Spec.encode, decodeSpec] using hback
  · rintro (_ | ⟨byte, bs⟩) sp rest h
    · cases h
    · rw [decodeSpec] at h
      split at h
      next hmode =>
        obtain ⟨_, ⟨b, rfl, hwf, rfl⟩, rfl⟩ := (hindexed _).only h
        obtain ⟨mode, hlt, n, rfl⟩ := exists_specByte byte
        rw [highNibble_specByte hlt] at hmode
        subst hmode
        exact ⟨_, ⟨hwf, rfl⟩, by simp [Spec.encode]⟩
      next hmode =>
        obtain ⟨_, ⟨b, rfl, hwf, rfl⟩, hbytes⟩ := hdirect.only (bs := byte :: bs) h
        obtain ⟨first, tail, henc, hfirst⟩ := exists_first_byte z b
        refine ⟨_, ⟨?_, rfl⟩, hbytes⟩
        rw [henc] at hbytes
        cases hbytes
        simpa [Spec.wf, hwf, hfirst] using hmode
  · rintro sp _ ⟨_, rfl⟩
    have hsp := Laws.length_encodeSpec z sp
    cases z <;> exact hsp
  · rintro (_ | ⟨byte, bs⟩) h
    · rw [Nat.add_comm] at h; cases h
    · rw [List.length_cons] at h
      rw [decodeSpec]
      split
      next => exact (hindexed _).whole (by omega)
      next => exact hdirect.whole (bs := byte :: bs) (by rw [List.length_cons]; omega)

/-! ## Instructions -/

/-- `i` is the decoder's spelling of an instruction: its opcode, whether it is well formed, and its operand
fields. -/
structure IsInstr (op : Byte) (ok : Bool) (i : Instr) (bs : List Byte) : Prop where
  opcode : i.opcode = op
  wf : i.wf = ok
  canonical : i.canonical = i
  fields : i.fields = bs

/-- The operand fields that the opcode of `i` announces are read back, those of `i` among them, and 30 bytes
always hold them. -/
def ReadsFields (i : Instr) : Prop :=
  ∃ R, Reads 30 (decodeFields i.opcode) R ∧ (i.wf = true → R i.canonical i.fields) ∧
    ∀ j front, R j front → IsInstr i.opcode true j front

namespace ReadsFields

/-! One lemma per shape of row: the decoder's row for the opcode, and that every instruction it makes has this
opcode and these fields. A second spelling has the row of its first one (R113). -/

theorem none {i : Instr} (hdec : ∀ bs, decodeFields i.opcode bs = .ok (i, bs))
    (hi : IsInstr i.opcode true i []) : ReadsFields i := by
  refine ⟨_, ((Reads.pure i).mono (by decide)).of_eq hdec, fun _ => ⟨hi.canonical, hi.fields⟩, ?_⟩
  rintro j _ ⟨rfl, rfl⟩
  exact hi

theorem disp8 {i : Instr} {mk : BitVec 8 → Instr} (d : BitVec 8)
    (hdec : ∀ bs, decodeFields i.opcode bs = decodeDisp8 mk bs)
    (hi : i.canonical = mk d ∧ i.fields = leBytes 1 d.toNat)
    (hmk : ∀ d, IsInstr i.opcode true (mk d) (leBytes 1 d.toNat)) : ReadsFields i := by
  refine ⟨_, ((reads_field (by decide) mk).mono (by decide)).of_eq hdec, fun _ => ⟨d, d.isLt, hi⟩, ?_⟩
  rintro j _ ⟨e, _, rfl, rfl⟩
  exact hmk e

theorem disp16 {mk : BitVec 16 → Instr} {d : BitVec 16}
    (hdec : ∀ bs, decodeFields (mk d).opcode bs = decodeDisp16 mk bs)
    (hmk : ∀ e, IsInstr (mk d).opcode true (mk e) (leBytes 2 e.toNat)) : ReadsFields (mk d) := by
  refine ⟨_, ((reads_field (by decide) mk).mono (by decide)).of_eq hdec,
    fun _ => ⟨d, d.isLt, (hmk d).canonical, (hmk d).fields⟩, ?_⟩
  rintro j _ ⟨e, _, rfl, rfl⟩
  exact hmk e

theorem one {z : Size} {mk : Spec → Instr} {a : Spec}
    (hdec : ∀ bs, decodeFields (mk a).opcode bs = decodeOne z mk bs)
    (hmk : ∀ a', IsInstr (mk a).opcode (a'.wf z) (mk a') (a'.encode z)) : ReadsFields (mk a) := by
  have hread := (reads_spec z).bind fun a => .pure (mk a)
  refine ⟨_, (hread.mono ?_).of_eq hdec, fun hwf => ?_, ?_⟩
  · have hz := maxTail_le z
    omega
  · rw [(hmk a).canonical, (hmk a).fields]
    rw [(hmk a).wf] at hwf
    exact ⟨a, _, _, ⟨hwf, rfl⟩, ⟨rfl, rfl⟩, by simp⟩
  · rintro j _ ⟨a', _, _, ⟨ha, rfl⟩, ⟨rfl, rfl⟩, rfl⟩
    rw [List.append_nil, ← ha]
    exact hmk a'

theorem two {y z : Size} {mk : Spec → Spec → Instr} {a b : Spec}
    (hdec : ∀ bs, decodeFields (mk a b).opcode bs = decodeTwo y z mk bs)
    (hmk : ∀ a' b', IsInstr (mk a b).opcode (a'.wf y && b'.wf z) (mk a' b') (a'.encode y ++ b'.encode z)) :
    ReadsFields (mk a b) := by
  have hread := (reads_spec y).bind fun a => (reads_spec z).bind fun b => .pure (mk a b)
  refine ⟨_, (hread.mono ?_).of_eq hdec, fun hwf => ?_, ?_⟩
  · have hy := maxTail_le y
    have hz := maxTail_le z
    omega
  · rw [(hmk a b).canonical, (hmk a b).fields]
    rw [(hmk a b).wf, Bool.and_eq_true] at hwf
    obtain ⟨ha, hb⟩ := hwf
    exact ⟨a, _, _, ⟨ha, rfl⟩, ⟨b, _, _, ⟨hb, rfl⟩, ⟨rfl, rfl⟩, rfl⟩, by simp⟩
  · rintro j _ ⟨a', _, _, ⟨ha, rfl⟩, ⟨b', _, _, ⟨hb, rfl⟩, ⟨rfl, rfl⟩, rfl⟩, rfl⟩
    simpa [ha, hb] using hmk a' b'

theorem three {x y z : Size} {mk : Spec → Spec → Spec → Instr} {a b c : Spec}
    (hdec : ∀ bs, decodeFields (mk a b c).opcode bs = decodeThree x y z mk bs)
    (hmk : ∀ a' b' c', IsInstr (mk a b c).opcode (a'.wf x && b'.wf y && c'.wf z) (mk a' b' c')
      (a'.encode x ++ b'.encode y ++ c'.encode z)) :
    ReadsFields (mk a b c) := by
  have hread := (reads_spec x).bind fun a => (reads_spec y).bind fun b => (reads_spec z).bind fun c =>
    .pure (mk a b c)
  refine ⟨_, (hread.mono ?_).of_eq hdec, fun hwf => ?_, ?_⟩
  · have hx := maxTail_le x
    have hy := maxTail_le y
    have hz := maxTail_le z
    omega
  · rw [(hmk a b c).canonical, (hmk a b c).fields]
    rw [(hmk a b c).wf, Bool.and_eq_true, Bool.and_eq_true] at hwf
    obtain ⟨⟨ha, hb⟩, hc⟩ := hwf
    exact ⟨a, _, _, ⟨ha, rfl⟩, ⟨b, _, _, ⟨hb, rfl⟩, ⟨c, _, _, ⟨hc, rfl⟩, ⟨rfl, rfl⟩, rfl⟩, rfl⟩, by simp⟩
  · rintro j _ ⟨a', _, _, ⟨ha, rfl⟩, ⟨b', _, _, ⟨hb, rfl⟩, ⟨c', _, _, ⟨hc, rfl⟩, ⟨rfl, rfl⟩, rfl⟩, rfl⟩, rfl⟩
    simpa [ha, hb, hc] using hmk a' b' c'

theorem movc5 {sl a f dl d : Spec} : ReadsFields (.movc5 sl a f dl d) := by
  have hread := (reads_spec .w).bind fun sl => (reads_spec .b).bind fun a => (reads_spec .b).bind fun f =>
    (reads_spec .w).bind fun dl => (reads_spec .b).bind fun d => .pure (Instr.movc5 sl a f dl d)
  refine ⟨_, (hread.mono (by decide)).of_eq fun _ => rfl, fun hwf => ?_, ?_⟩
  · simp only [Instr.wf, Bool.and_eq_true] at hwf
    obtain ⟨⟨⟨⟨hsl, ha⟩, hf⟩, hdl⟩, hd⟩ := hwf
    exact ⟨sl, _, _, ⟨hsl, rfl⟩, ⟨a, _, _, ⟨ha, rfl⟩, ⟨f, _, _, ⟨hf, rfl⟩, ⟨dl, _, _, ⟨hdl, rfl⟩,
      ⟨d, _, _, ⟨hd, rfl⟩, ⟨rfl, rfl⟩, rfl⟩, rfl⟩, rfl⟩, rfl⟩, by simp [Instr.fields]⟩
  · rintro j _ ⟨sl', _, _, ⟨hsl, rfl⟩, ⟨a', _, _, ⟨ha, rfl⟩, ⟨f', _, _, ⟨hf, rfl⟩, ⟨dl', _, _, ⟨hdl, rfl⟩,
      ⟨d', _, _, ⟨hd, rfl⟩, ⟨rfl, rfl⟩, rfl⟩, rfl⟩, rfl⟩, rfl⟩, rfl⟩
    exact ⟨rfl, by simp [Instr.wf, hsl, ha, hf, hdl, hd], rfl, by simp [Instr.fields]⟩

end ReadsFields

/-- The operand fields of every row of the opcode table are read back (R82, R114). The decoder's row is found by
evaluating its table at the opcode, which is made a literal first. -/
theorem readsFields (i : Instr) : ReadsFields i := by
  cases i with
  | halt | rei | ret | rsb | ldpctx | svpctx =>
    exact .none (by dsimp only [Instr.opcode]; exact fun _ => rfl) ⟨rfl, rfl, rfl, rfl⟩
  | brb d | bneq d | bnequ d | beql d | beqlu d | bgtr d | bleq d | bgeq d | blss d | bvc d | bvs d | bcc d
  | bgequ d | bcs d | blssu d =>
    exact .disp8 d (by dsimp only [Instr.opcode]; exact fun _ => rfl) ⟨rfl, rfl⟩
      fun _ => ⟨rfl, rfl, rfl, rfl⟩
  | brw =>
    exact .disp16 (by dsimp only [Instr.opcode]; exact fun _ => rfl) fun _ => ⟨rfl, rfl, rfl, rfl⟩
  | jsb | pushaw | pushab | pushal | pushl | clrb | clrw | clrl | clrq | tstb | tstw | tstl | incb | incw
  | incl | decb | decw | decl =>
    exact .one (by dsimp only [Instr.opcode]; exact fun _ => rfl) fun _ => ⟨rfl, rfl, rfl, rfl⟩
  | addb2 | addw2 | addl2 | subb2 | subw2 | subl2 | mulb2 | mulw2 | mull2 | divb2 | divw2 | divl2 | bisb2
  | bisw2 | bisl2 | bicb2 | bicw2 | bicl2 | xorb2 | xorw2 | xorl2 | movb | movw | movl | movq | cmpb | cmpw
  | cmpl | bitb | bitw | bitl | movab | movaw | moval | mtpr | mfpr | callg | calls =>
    exact .two (by dsimp only [Instr.opcode]; exact fun _ => rfl) fun _ _ => ⟨rfl, rfl, rfl, rfl⟩
  | addb3 | addw3 | addl3 | subl3 | mull3 | divl3 | ashl | ashq | rotl | locc | skpc | movc3 | cmpc3 =>
    exact .three (by dsimp only [Instr.opcode]; exact fun _ => rfl) fun _ _ _ => ⟨rfl, rfl, rfl, rfl⟩
  | movc5 => exact .movc5

/-- The instruction that an opcode byte announces where only zeros follow it: it witnesses that the byte is
listed. -/
def zeroFields (op : Byte) : Option Instr := (decodeFields op (List.replicate 30 0)).toOption.map Prod.fst

theorem exists_opcode_of_zeroFields {op : Byte} {n : Nat} (hop : op.toNat = n)
    (h : ((zeroFields (BitVec.ofNat 8 n)).any fun i => i.opcode == BitVec.ofNat 8 n) = true) :
    ∃ i : Instr, i.opcode = op := by
  obtain rfl : BitVec.ofNat 8 n = op := by rw [← hop, BitVec.ofNat_toNat, BitVec.setWidth_eq]
  obtain ⟨i, _, hi⟩ := (Option.any_eq_true _ _).1 h
  exact ⟨i, eq_of_beq hi⟩

/-- An opcode byte that no instruction has is rejected by name (R109). -/
theorem decodeFields_unlisted {op : Byte} (h : ∀ i : Instr, i.opcode ≠ op) (bs : List Byte) :
    decodeFields op bs = .error (.unlistedOpcode op) := by
  unfold decodeFields
  split
  case h_89 => rfl
  all_goals
    obtain ⟨i, hi⟩ := exists_opcode_of_zeroFields ‹_› rfl
    exact absurd hi (h i)

/-- An opcode byte is an instruction's or it is rejected. -/
theorem listed_or_rejected (op : Byte) :
    (∃ i : Instr, i.opcode = op) ∨ ∀ bs, decodeFields op bs = .error (.unlistedOpcode op) :=
  (em _).imp_right fun h => decodeFields_unlisted (not_exists.1 h)

/-! ## Decoding and encoding -/

/-- Settles O1: the fields of a well-formed instruction are among those its opcode reads back. -/
theorem encodeThenDecode : Obligations.EncodeThenDecode := by
  intro i rest hwf
  obtain ⟨R, hread, hi, -⟩ := readsFields i
  exact hread.back (hi hwf) rest

/-- Settles O2: an opcode that decodes is an instruction's, and its fields are read from nothing else. -/
theorem decodeThenEncode : Obligations.DecodeThenEncode := by
  rintro (_ | ⟨op, bs⟩) rest i h
  · cases h
  rw [decode] at h
  rcases listed_or_rejected op with ⟨j, rfl⟩ | hrejected
  · obtain ⟨R, hread, -, hR⟩ := readsFields j
    obtain ⟨front, hfront, rfl⟩ := hread.only h
    obtain ⟨hop, hwf, hcanon, hfields⟩ := hR i front hfront
    exact ⟨hwf, hcanon, by rw [encode, hop, hfields, List.cons_append]⟩
  · cases (hrejected bs).symm.trans h

/-- Settles O3: thirty bytes after the opcode hold its operand fields. -/
theorem longestInstructionFits : Obligations.LongestInstructionFits := by
  rintro (_ | ⟨op, bs⟩) hlen
  · cases hlen
  rw [decode]
  rcases listed_or_rejected op with ⟨j, rfl⟩ | hrejected
  · obtain ⟨R, hread, -⟩ := readsFields j
    obtain ⟨r, hr⟩ := hread.whole (Nat.le_of_eq (Nat.succ_injective hlen).symm)
    rw [hr]
    exact nofun
  · rw [hrejected]
    exact nofun

/-- Settles O4, by running the decoder on the four byte strings. -/
theorem workedEncodingsDecode : Obligations.WorkedEncodingsDecode := ⟨rfl, rfl, rfl, rfl⟩

/-! ## The step -/

/-- The decoder's window holds every well-formed instruction (R107). -/
theorem length_encode_le {i : Instr} (hwf : i.wf = true) : (encode i).length ≤ maxLength := by
  obtain ⟨R, hread, hi, -⟩ := readsFields i
  exact Nat.succ_le_succ (hread.length_le (hi hwf))

/-- Settles O6: the window is the instruction's bytes and those after them. -/
theorem placedInstructionRuns : Obligations.PlacedInstructionRuns := by
  intro s i hr hwf hbytes
  have hwindow : instrWindow s = encode i ++ s.bytesAt (s.pc.plus (encode i).length)
      (maxLength - (encode i).length) := by
    rw [instrWindow, ← Nat.add_sub_of_le (length_encode_le hwf), bytesAt_append, hbytes,
      Nat.add_sub_cancel_left]
  exact step_of_decode hr (by rw [hwindow]; exact encodeThenDecode i _ hwf)

/-- Settles O7: the decoder rejects the byte by name, and the step fetches it before it refuses it. -/
theorem unlistedOpcodeIsRefused : Obligations.UnlistedOpcodeIsRefused := by
  intro s hr hfetch hop
  have hdecode : decode (instrWindow s) = .error (.unlistedOpcode (s.byteAt s.pc)) :=
    decodeFields_unlisted hop _
  simp only [step, beforeFetch_of_running hr, hdecode]
  rw [rejectOpcode, bind_of_ok (fetch_ok hfetch)]
  rfl

end Sys2Proof.Proofs

/-!
PROOF. Operand specifiers (30_encoding.md): the forms that fault (R86, R87, R88, R105, R305), and what each of
the other forms yields and steps (R86 to R98).

A specifier faults where its base does, and a base in the cases of R105 alone, since fetches and pointer reads
stop with other reasons (`NoModeFault`). The forms are the modes of `evalMode`, evaluated past the specifier
byte.
-/

namespace Sys2Proof.Proofs

open Sys2Proof Sys2Proof.Machine

/-! ## Reserved addressing modes (R105) -/

/-- The bases that fault: a literal that is not read or is indexed, a register whose address is taken or that
is indexed, a nested index (R86, R87, R88). -/
def Base.reserved (a : Access) (inner : Bool) : Base → Prop
  | .literal _ => inner = true ∨ a ≠ .read
  | .register _ => inner = true ∨ a = .address
  | .nestedIndex _ => True
  | .deferred _ | .autodec _ | .autoinc _ | .immediate _ | .autoincDeferred _ | .absolute _
  | .byteDisp _ _ | .byteDispDeferred _ _ | .wordDisp _ _ | .wordDispDeferred _ _
  | .longDisp _ _ | .longDispDeferred _ _ => False

theorem reservedMode_direct_iff (a : Access) (b : Base) :
    reservedMode a (.direct b) ↔ Base.reserved a false b := by
  cases b <;> simp [reservedMode, Base.reserved]

theorem reservedMode_indexed_iff (a : Access) (x : Reg) (b : Base) :
    reservedMode a (.indexed x b) ↔ x = Reg.pc ∨ Base.reserved a true b := by
  cases b <;> simp [reservedMode, Base.reserved]

/-- What only fetches and reads never raises the reserved addressing mode fault. -/
def NoModeFault {α : Type} (x : Except Stop α) : Prop := x ≠ .error (.fault .reservedAddressingMode)

namespace NoModeFault

variable {α β : Type} {s : State}

theorem ok {r : α} : NoModeFault (.ok r) := nofun
theorem refuse {r : Refusal} : NoModeFault (α := α) (.error (.refuse r)) := nofun

theorem bind {x : Except Stop α} {f : α → Except Stop β} (hx : NoModeFault x)
    (hf : ∀ r, NoModeFault (f r)) : NoModeFault (x >>= f) := by
  intro h
  rcases bind_error_iff.1 h with h | ⟨r, _, h⟩
  · exact hx h
  · exact hf r h

theorem fetch {k : Nat} : NoModeFault (Machine.fetch k s) := by
  intro h
  rcases fetch_stop h with ⟨x, h⟩ | h <;> cases h

theorem memRead {bits : Nat} {a : Word} : NoModeFault (Machine.memRead bits a s) := by
  intro h
  obtain ⟨x, h⟩ := memRead_stop h
  cases h

theorem evalDisp {k : Nat} {n : Reg} {d : Word} : NoModeFault (Machine.evalDisp k n d s) :=
  fetch.bind fun _ => ok

theorem evalDispDeferred {k : Nat} {n : Reg} {d : Word} : NoModeFault (Machine.evalDispDeferred k n d s) :=
  fetch.bind fun _ => memRead.bind fun _ => ok

theorem ite {c : Prop} [Decidable c] {x y : Except Stop α} (hx : NoModeFault x) (hy : NoModeFault y) :
    NoModeFault (if c then x else y) := by
  split
  · exact hx
  · exact hy

end NoModeFault

open NoModeFault in
/-- A base, its specifier byte fetched, faults in the cases of R105 and in no other. -/
theorem evalMode_fault_iff (a : Access) (z : Size) (inner : Bool) (b : Base) (s : State) :
    evalMode a z inner b s = .error (.fault .reservedAddressingMode) ↔ Base.reserved a inner b := by
  cases b with
  | nestedIndex n => exact iff_of_true rfl trivial
  | literal v =>
    rw [evalMode]
    split
    next h => exact iff_of_true rfl (by simpa [Base.reserved] using h)
    next h => exact iff_of_false ok (by simpa [Base.reserved] using h)
  | register n =>
    rw [evalMode]
    split
    next h => exact iff_of_true rfl (by simpa [Base.reserved] using h)
    next h => exact iff_of_false (ite refuse ok) (by simpa [Base.reserved] using h)
  | deferred n | autodec n => exact iff_of_false (ite refuse ok) id
  | autoinc n => exact iff_of_false ok id
  | immediate v => exact iff_of_false (ite refuse (ite ok (fetch.bind fun _ => ok))) id
  | absolute p => exact iff_of_false (fetch.bind fun _ => ok) id
  | autoincDeferred n => exact iff_of_false (memRead.bind fun _ => ok) id
  | byteDisp n d | wordDisp n d | longDisp n d => exact iff_of_false evalDisp id
  | byteDispDeferred n d | wordDispDeferred n d | longDispDeferred n d => exact iff_of_false evalDispDeferred id

/-- A base evaluated within an index lies in memory. -/
theorem evalMode_inner_mem {a : Access} {z : Size} {b : Base} {s u : State} {o : Operand}
    (h : evalMode a z true b s = .ok (o, u)) : ∃ p, o = .mem p := by
  cases b with
  | literal v | register n | nestedIndex n => cases h
  | deferred n | autodec n | immediate v =>
    simp only [evalMode, Bool.true_or, if_true] at h
    split at h
    next => cases h
    next => cases h; exact ⟨_, rfl⟩
  | autoinc n => cases h; exact ⟨_, rfl⟩
  | absolute p | autoincDeferred n =>
    obtain ⟨_, _, h⟩ := bind_ok_iff.1 h
    cases h
    exact ⟨_, rfl⟩
  | byteDisp n d | wordDisp n d | longDisp n d =>
    obtain ⟨_, _, rfl⟩ := evalDisp_ok h
    exact ⟨_, rfl⟩
  | byteDispDeferred n d | wordDispDeferred n d | longDispDeferred n d =>
    obtain ⟨_, _, _, rfl⟩ := evalDispDeferred_ok h
    exact ⟨_, rfl⟩

section Indexed

variable {a : Access} {z : Size} {x : Reg} {b : Base} {s t u v : State}

/-- What stops the base of an indexed specifier stops the specifier. -/
theorem evalSpec_indexed_stop {e : Stop} (hx : x ≠ Reg.pc) (hfirst : fetch 1 s = .ok t)
    (hsecond : fetch 1 t = .ok u) (hbase : evalMode a z true b u = .error e) :
    evalSpec a z (.indexed x b) s = .error e := by
  rw [evalSpec, bind_of_ok hfirst, if_neg (by simpa using hx)]
  simp only [bind_of_ok hsecond, bind_of_error hbase]

/-- An indexed specifier whose base does not clash adds the index, taken before the base is evaluated. -/
theorem evalSpec_indexed_mem {base : Word} (hx : x ≠ Reg.pc) (hfirst : fetch 1 s = .ok t)
    (hsecond : fetch 1 t = .ok u) (hclash : Base.clashes x b = false)
    (hbase : evalMode a z true b u = .ok (.mem base, v)) :
    evalSpec a z (.indexed x b) s = .ok (.mem (base + t.r x * BitVec.ofNat 32 z.bytes), v) := by
  rw [evalSpec, bind_of_ok hfirst, if_neg (by simpa using hx)]
  simp only [bind_of_ok hsecond, bind_of_ok hbase, hclash, Bool.false_eq_true, if_false]

end Indexed

theorem evalSpec_direct_fault_iff {s : State} (h : canFetch 1 s) (a : Access) (z : Size) (b : Base) :
    evalSpec a z (.direct b) s = .error (.fault .reservedAddressingMode) ↔ reservedMode a (.direct b) := by
  rw [evalSpec_direct h, evalMode_fault_iff, reservedMode_direct_iff]

theorem evalSpec_indexed_fault_iff {s : State} (h : canFetch 2 s) (a : Access) (z : Size) (x : Reg) (b : Base) :
    evalSpec a z (.indexed x b) s = .error (.fault .reservedAddressingMode)
      ↔ reservedMode a (.indexed x b) := by
  rw [reservedMode_indexed_iff]
  have hfirst := fetch_ok (canFetch_mono h (by decide : 1 ≤ 2))
  by_cases hx : x = Reg.pc
  · subst hx
    exact iff_of_true (bind_of_ok hfirst _) (.inl rfl)
  · have hsecond := fetch_ok (canFetch_setPc (j := 1) (k := 1) h)
    rw [or_iff_right hx, ← evalMode_fault_iff a z true b]
    cases hbase : evalMode a z true b _ with
    | error e => rw [evalSpec_indexed_stop hx hfirst hsecond hbase]
    | ok r =>
      obtain ⟨o, u⟩ := r
      obtain ⟨base, rfl⟩ := evalMode_inner_mem hbase
      refine iff_of_false ?_ nofun
      cases hclash : Base.clashes x b with
      | false => rw [evalSpec_indexed_mem hx hfirst hsecond hclash hbase]; exact nofun
      | true =>
        rw [evalSpec_indexed_clash h hx hclash (by simpa [plus_plus] using hbase)]
        exact nofun

/-- A specifier faults in the cases of R105 and in no other. -/
theorem evalSpec_fault_iff {z : Size} {sp : Spec} {s : State} (h : canFetch (sp.encode z).length s)
    (a : Access) :
    evalSpec a z sp s = .error (.fault .reservedAddressingMode) ↔ reservedMode a sp := by
  cases sp with
  | direct b => exact evalSpec_direct_fault_iff (canFetch_mono h (length_encodeBase_pos z b)) a z b
  | indexed x b =>
    exact evalSpec_indexed_fault_iff (canFetch_mono h (Nat.succ_le_succ (length_encodeBase_pos z b))) a z x b

/-- Settles O13: the specifier by its mode, the instruction by what stops its operand. -/
theorem reservedModesFault : Obligations.ReservedModesFault := by
  refine ⟨fun a z sp s _ h => evalSpec_fault_iff h a,
    fun i before after p s u hi hmode hu _ h hreserved => ?_⟩
  exact exec_of_operand_stop hi hmode hu ((evalSpec_fault_iff h p.access).2 hreserved)

/-! ## The forms that yield an address -/

/-- A base that neither steps the index register nor is an immediate does not clash with it. -/
theorem clashes_eq_false {x : Reg} {b : Base} (hsteps : x ∉ Base.steps b)
    (himmediate : ∀ v, b ≠ .immediate v) : Base.clashes x b = false := by
  cases b with
  | immediate v => exact absurd rfl (himmediate v)
  | autodec n | autoinc n | autoincDeferred n =>
    exact beq_false_of_ne fun hn => hsteps (List.mem_singleton.2 hn.symm)
  | _ => rfl

/-- A base other than an immediate that yields an address yields it within an index too. -/
theorem evalMode_inner {a : Access} {z : Size} {b : Base} {s u : State} {base : Word}
    (himmediate : ∀ v, b ≠ .immediate v) (h : evalMode a z false b s = .ok (.mem base, u)) :
    evalMode a z true b s = .ok (.mem base, u) := by
  cases b with
  | immediate v => exact absurd rfl (himmediate v)
  | literal v | register n =>
    simp only [evalMode] at h
    repeat' split at h
    all_goals cases h
  | _ => exact h

/-- Settles O18: the base is evaluated after the index byte as it would be alone. -/
theorem indexedForm : Obligations.IndexedForm := by
  intro a z x b s u base h hx hsteps himmediate hbase
  obtain ⟨t, hsecond, hmode⟩ := bind_ok_iff.1 hbase
  rw [← r_setR_other s (s.pc + 1) (Ne.symm hx)]
  exact evalSpec_indexed_mem hx (fetch_ok h) hsecond (clashes_eq_false hsteps himmediate)
    (evalMode_inner himmediate hmode)

/-- The state after a fetch made past the specifier byte. -/
theorem fetch_after_first {k : Nat} {s : State} (h : canFetch (1 + k) s) :
    fetch k (s.setPc (s.pc.plus 1)) = .ok (s.setPc (s.pc.plus (1 + k))) := by
  rw [fetch_ok (canFetch_setPc h)]
  simp [plus_plus]

/-- A longword reads the same after the program counter has moved. -/
theorem memRead_long_setPc {x : Word} {s : State} (h : canAccess 4 x s) (v : Word) :
    memRead 32 x (s.setPc v) = .ok (s.long x) :=
  (memRead_long (s := s.setPc v) h).trans (by rw [long_setR])

/-- Settles O15: each form by its mode, the fetches of the immediate and the absolute form past the specifier
byte. -/
theorem simpleOperandForms : Obligations.SimpleOperandForms := by
  intro a z s h9
  have hdirect := evalSpec_direct (canFetch_mono h9 (by decide : 1 ≤ 9))
  have hz := size_bytes_le z
  refine ⟨fun v => hdirect _ _ _, fun n ha hpc hsp => ?_, fun n hpc => ?_, fun v => ?_, fun v => ?_,
    fun p => ?_⟩
  · have hallowed : ¬ (n = Reg.pc ∨ z = .q ∧ n = Reg.sp) := by tauto
    simp [hdirect, evalMode, ha, hallowed]
  · simp [hdirect, evalMode, hpc, Ne.symm hpc]
  · exact (hdirect _ _ _).trans (bind_of_ok (fetch_after_first (canFetch_mono h9 (by omega))) _)
  · simp [hdirect, evalMode, plus_plus]
  · exact (hdirect _ _ _).trans (bind_of_ok (fetch_after_first (k := 4) (canFetch_mono h9 (by decide))) _)

/-- Settles O16: each form by its mode; the program counter that the specifier byte moves is no register of
these forms. -/
theorem steppingOperandForms : Obligations.SteppingOperandForms := by
  intro a z n s h hn
  have hr : (s.setPc (s.pc.plus 1)).r n = s.r n := r_setR_other s _ (Ne.symm hn)
  refine ⟨?_, ?_, fun hpointer => ?_⟩
  · simp [evalSpec_direct h, evalMode, hn, hr]
  · simp [evalSpec_direct h, evalMode, hr]
  · simp only [evalSpec_direct h, evalMode, hr, bind_of_ok (memRead_long_setPc hpointer _)]
    rfl

/-- What a displacement of `k` bytes is added to: the register, or the address after the displacement for R15
(R93, R97). -/
def dispBase (k : Nat) (n : Reg) (s : State) : Word := if n = Reg.pc then s.pc.plus (1 + k) else s.r n

section Displacement

variable {k : Nat} {a : Access} {z : Size} {n : Reg} {b : Base} {d : Word} {s : State}

theorem r_after_disp (k : Nat) (n : Reg) (s : State) :
    (s.setPc (s.pc.plus (1 + k))).r n = dispBase k n s := by
  simp only [r_setR, dispBase, eq_comm]

theorem evalSpec_disp (hmode : ∀ t, evalMode a z false b t = evalDisp k n d t) (h : canFetch (1 + k) s) :
    evalSpec a z (.direct b) s = .ok (.mem (dispBase k n s + d), s.setPc (s.pc.plus (1 + k))) := by
  rw [evalSpec_direct (canFetch_mono h (Nat.le_add_right ..)), hmode, evalDisp,
    bind_of_ok (fetch_after_first h), r_after_disp]

theorem evalSpec_dispDeferred (hmode : ∀ t, evalMode a z false b t = evalDispDeferred k n d t)
    (h : canFetch (1 + k) s) (hpointer : canAccess 4 (dispBase k n s + d) s) :
    evalSpec a z (.direct b) s = .ok (.mem (s.long (dispBase k n s + d)), s.setPc (s.pc.plus (1 + k))) := by
  rw [evalSpec_direct (canFetch_mono h (Nat.le_add_right ..)), hmode, evalDispDeferred,
    bind_of_ok (fetch_after_first h), r_after_disp, bind_of_ok (memRead_long_setPc hpointer _)]

end Displacement

/-- Settles O17: the six forms are the two shapes at three widths. -/
theorem displacementForms : Obligations.DisplacementForms := by
  intro a z n s
  exact ⟨fun _ => evalSpec_disp (k := 1) fun _ => rfl, fun _ => evalSpec_disp (k := 2) fun _ => rfl,
    fun _ => evalSpec_disp (k := 4) fun _ => rfl, fun _ => evalSpec_dispDeferred (k := 1) fun _ => rfl,
    fun _ => evalSpec_dispDeferred (k := 2) fun _ => rfl,
    fun _ => evalSpec_dispDeferred (k := 4) fun _ => rfl⟩

end Sys2Proof.Proofs

/-!
PROOF. Integer arithmetic and the traps of the arithmetic and shift instructions (40_integer_arithmetic.md R130
to R159, 48_shift_rotate.md R286, R287).

Each law of the model, which narrows an exact integer at the end, is the spec's formula over N-bit words
(`addLaw_eq` and its neighbours). Each form of the instructions evaluates its operands, writes the destination
and the condition codes of its law, and only then traps or completes (`Computed`). A statement about an
instruction follows from the law that its body names.
-/

namespace Sys2Proof.Proofs

open Sys2Proof Sys2Proof.Machine

/-! ## The laws in the spec's own formulas -/

/-- An exact integer that does not fit, in the form of the library's overflow predicates. -/
theorem not_fitsSigned (n : Nat) (x : Int) :
    (!fitsSigned n x) = (decide (x ≥ 2 ^ (n - 1)) || decide (x < -2 ^ (n - 1))) := by
  rw [fitsSigned, Bool.not_and, ← decide_not, ← decide_not, Bool.or_comm]
  simp only [not_le, not_lt, ge_iff_le]

theorem ofInt_toInt_sub {n : Nat} (a b : BitVec n) : BitVec.ofInt n (a.toInt - b.toInt) = a - b := by
  rw [Int.sub_eq_add_neg, BitVec.ofInt_add, BitVec.ofInt_neg, BitVec.ofInt_toInt, BitVec.ofInt_toInt,
    BitVec.sub_eq_add_neg]

/-- The addition law (R131). -/
theorem addLaw_eq {n : Nat} (a b : BitVec n) : addLaw a b = { value := a + b, flags := addCodes a b } := by
  have hsum : BitVec.ofNat n (a.toNat + b.toNat) = a + b := by
    rw [BitVec.ofNat_add, BitVec.ofNat_toNat, BitVec.ofNat_toNat, BitVec.setWidth_eq, BitVec.setWidth_eq]
  have hoverflow : (!fitsSigned n (a.toInt + b.toInt))
      = (decide (a.msb = b.msb) && decide ((a + b).msb ≠ a.msb)) := by
    rw [not_fitsSigned, ← BitVec.saddOverflow, BitVec.saddOverflow_eq]
    simp only [beq_eq_decide, decide_not, ne_eq]
  simp only [addLaw, addCodes, hsum, hoverflow, beq_eq_decide]

/-- The subtraction law (R132). -/
theorem subLaw_eq {n : Nat} (a b : BitVec n) : subLaw a b = { value := a - b, flags := subCodes a b } := by
  have hoverflow : (!fitsSigned n (a.toInt - b.toInt))
      = (decide (a.msb ≠ b.msb) && decide ((a - b).msb ≠ a.msb)) := by
    rw [not_fitsSigned, ← BitVec.ssubOverflow, BitVec.ssubOverflow_eq]
    cases a.msb <;> cases b.msb <;> simp
  simp only [subLaw, subCodes, ofInt_toInt_sub, hoverflow, beq_eq_decide]

/-- The multiplication law (R133). -/
theorem mulLaw_eq {n : Nat} (a b : BitVec n) : mulLaw a b = { value := a * b, flags := mulCodes a b } := by
  have hproduct : BitVec.ofInt n (a.toInt * b.toInt) = a * b := by
    rw [BitVec.ofInt_mul, BitVec.ofInt_toInt, BitVec.ofInt_toInt]
  have hoverflow : (!fitsSigned n (a.toInt * b.toInt))
      = (decide (a.toInt * b.toInt < -2 ^ (n - 1)) || decide (2 ^ (n - 1) - 1 < a.toInt * b.toInt)) := by
    rw [not_fitsSigned, Bool.or_comm]
    simp only [ge_iff_le, Int.sub_one_lt_iff]
  simp only [mulLaw, mulCodes, hproduct, hoverflow, beq_eq_decide]

/-- The signed value of a word of `n` bits fits. -/
theorem fitsSigned_toInt {n : Nat} (x : BitVec n) : fitsSigned n x.toInt = true := by
  simp [fitsSigned, BitVec.le_toInt, BitVec.toInt_lt]

/-- The quotient overflows in one case, the least dividend by -1 (R134). -/
theorem fitsSigned_tdiv {n : Nat} {divr divd : BitVec n} (h : divr ≠ 0) :
    fitsSigned n (divd.toInt.tdiv divr.toInt) = true ↔
      ¬ (divd = BitVec.intMin n ∧ divr = BitVec.allOnes n) := by
  constructor
  · rintro hfits ⟨rfl, rfl⟩
    have hpos : 0 < n := Nat.pos_of_ne_zero fun h0 => by subst h0; exact h (BitVec.eq_nil _)
    have hquot : (BitVec.intMin n).toInt.tdiv (BitVec.allOnes n).toInt = 2 ^ (n - 1) := by
      rw [BitVec.toInt_allOnes, if_pos hpos, BitVec.toInt_intMin_of_pos hpos, Int.tdiv_neg, Int.tdiv_one,
        Int.neg_neg]
    rw [hquot, fitsSigned] at hfits
    simp at hfits
  · intro hne
    have hquot : (divd.sdiv divr).toInt = divd.toInt.tdiv divr.toInt :=
      BitVec.toInt_sdiv_of_ne_or_ne divd divr (by rwa [BitVec.neg_one_eq_allOnes, ← not_and_or])
    rw [← hquot]
    exact fitsSigned_toInt _

/-- The division law (R134). -/
theorem divLaw_eq {n : Nat} (divr divd : BitVec n) :
    divLaw divr divd
      = { value := divResult divr divd, flags := divCodes divr divd, divideByZero := decide (divr = 0) } := by
  have hquot : BitVec.ofInt n (divd.toInt.tdiv divr.toInt) = divd.sdiv divr := by
    rw [← BitVec.toInt_inj, BitVec.toInt_ofInt, BitVec.toInt_sdiv]
  by_cases hzero : divr = 0#n
  · simp [divLaw, divResult, divCodes, hzero, beq_eq_decide]
  · have hoverflow : (!fitsSigned n (divd.toInt.tdiv divr.toInt))
        = decide (divd = BitVec.intMin n ∧ divr = BitVec.allOnes n) := by
      rw [Bool.eq_iff_iff, Bool.not_eq_true', ← Bool.not_eq_true, fitsSigned_tdiv hzero, not_not,
        decide_eq_true_iff]
    simp [divLaw, divResult, divCodes, hzero, hoverflow, hquot, beq_eq_decide]

/-- With a zero divisor the division law says so. -/
theorem divLaw_of_zero {n : Nat} {divr : BitVec n} (h : divr = 0) (divd : BitVec n) :
    divLaw divr divd
      = { value := divResult divr divd, flags := divCodes divr divd, divideByZero := true } := by
  rw [divLaw_eq, decide_eq_true h]

/-- With another divisor it divides. -/
theorem divLaw_of_ne_zero {n : Nat} {divr : BitVec n} (h : divr ≠ 0) (divd : BitVec n) :
    divLaw divr divd = { value := divResult divr divd, flags := divCodes divr divd } := by
  rw [divLaw_eq, decide_eq_false h]

/-- The shift law (R286, R287). -/
theorem ashLaw_eq {n : Nat} (c : BitVec 8) (x : BitVec n) :
    ashLaw c x = { value := shiftResult c x, flags := shiftCodes c x } := by
  by_cases hc : 0 ≤ c.toInt
  · have hpower (k : Nat) : BitVec.ofInt n (2 ^ k) = BitVec.twoPow n k := by
      apply BitVec.eq_of_toNat_eq
      rw [← Nat.cast_ofNat, ← Nat.cast_pow, BitVec.ofInt_natCast, BitVec.toNat_ofNat, BitVec.toNat_twoPow]
    have hleft : BitVec.ofInt n (x.toInt * 2 ^ c.toInt.toNat) = x <<< c.toInt.toNat := by
      rw [BitVec.ofInt_mul, BitVec.ofInt_toInt, BitVec.shiftLeft_eq_mul_twoPow, hpower]
    simp only [ashLaw, shiftResult, shiftCodes, hc, hleft, beq_eq_decide, if_true, decide_true,
      Bool.true_and, bne, ne_eq, decide_not]
  · have hright : BitVec.ofInt n (x.toInt / 2 ^ (-c.toInt).toNat) = x.sshiftRight (-c.toInt).toNat := by
      rw [BitVec.sshiftRight, Int.shiftRight_eq_div_pow, Int.natCast_pow]
      rfl
    simp only [ashLaw, shiftResult, shiftCodes, hc, hright, beq_eq_decide, if_false, decide_false,
      Bool.false_and]

/-! ## The operands of the arithmetic instructions -/

theorem evaluated_operandsM {z : Size} {dst : Spec} {s u : State} {b : BitVec z.bits} {o : Operand}
    (h : operandsM z dst s = .ok (b, o, u)) :
    Evaluated s u (stepped [dst]) ∧ o.allowed .modify z false ∧ o.writable z u := by
  obtain ⟨t, h0, h1⟩ := bind_ok_iff.1 h
  obtain ⟨hdst, hallowed, hread⟩ := evalModify_ok h1
  rw [show stepped [dst] = Spec.steps dst by simp [stepped]]
  exact ⟨(evaluated_fetch h0).trans hdst, hallowed, writable_of_read hread⟩

/-- The opcode and two operands of access types r and m. -/
theorem operandsRM_ok {z : Size} {src dst : Spec} {s u : State} {a b : BitVec z.bits} {o : Operand}
    (h : operandsRM z src dst s = .ok (a, b, o, u)) :
    ∃ t t', fetch 1 s = .ok t ∧ evalRead z src t = .ok (a, t') ∧
      evalModify z dst t' = .ok (b, o, u) := by
  obtain ⟨⟨a', t'⟩, h1, h⟩ := bind_ok_iff.1 h
  obtain ⟨⟨b', o', u'⟩, h2, h⟩ := bind_ok_iff.1 h
  obtain ⟨t, h0, h1⟩ := operandsR_ok h1
  cases h
  exact ⟨t, t', h0, h1, h2⟩

theorem evaluated_operandsRM {z : Size} {src dst : Spec} {s u : State} {a b : BitVec z.bits}
    {o : Operand} (h : operandsRM z src dst s = .ok (a, b, o, u)) :
    Evaluated s u (stepped [src, dst]) ∧ o.allowed .modify z false ∧ o.writable z u := by
  obtain ⟨t, t', h0, h1, h2⟩ := operandsRM_ok h
  obtain ⟨hdst, hallowed, hread⟩ := evalModify_ok h2
  rw [stepped_pair]
  exact ⟨((evaluated_fetch h0).trans (evalRead_ok h1)).trans hdst, hallowed, writable_of_read hread⟩

/-- The opcode, two operands of access type r and one of access type w. -/
theorem operandsRRW_ok {y z : Size} {src1 src2 dst : Spec} {s u : State} {a : BitVec y.bits}
    {b : BitVec z.bits} {o : Operand} (h : operandsRRW y z src1 src2 dst s = .ok (a, b, o, u)) :
    ∃ t, operandsRR y z src1 src2 s = .ok (a, b, t) ∧ evalWrite z dst t = .ok (o, u) := by
  obtain ⟨⟨a', b', t⟩, h1, h⟩ := bind_ok_iff.1 h
  obtain ⟨⟨o', u'⟩, h2, h⟩ := bind_ok_iff.1 h
  cases h
  exact ⟨t, h1, h2⟩

theorem evaluated_operandsRRW {y z : Size} {src1 src2 dst : Spec} {s u : State} {a : BitVec y.bits}
    {b : BitVec z.bits} {o : Operand} (h : operandsRRW y z src1 src2 dst s = .ok (a, b, o, u)) :
    Evaluated s u (stepped [src1, src2, dst]) ∧ o.allowed .write z false := by
  obtain ⟨t, h1, h2⟩ := operandsRRW_ok h
  obtain ⟨hdst, hallowed⟩ := evalWrite_ok h2
  rw [show stepped [src1, src2, dst] = stepped [src1, src2] ++ Spec.steps dst by simp [stepped]]
  exact ⟨(evaluated_operandsRR h1).trans hdst, hallowed⟩

/-! ## How an arithmetic instruction ends -/

/-- How an instruction with the result `r` ends once it has reached `t`: a zero divisor traps always, an
overflow when IV is set (R134, R135). -/
def arithOutcome {n : Nat} (r : Alu n) (t : State) : Outcome :=
  if r.divideByZero then raiseTrap .integerDivideByZero t
  else if r.flags.v && pslIV t.psl then raiseTrap .integerOverflow t
  else .next t

theorem conclude_completeArith {n : Nat} (r : Alu n) (s t : State) :
    conclude s (completeArith r t) = arithOutcome r (t.setFlags r.flags) := by
  rw [completeArith, arithOutcome, psl_setFlags, pslIV_withFlags]
  split
  · rfl
  · split <;> rfl

/-- The instruction that began in `s` and had evaluated its specifiers `sps` in `u` ends with `x`: it has
written the value and the condition codes of `r`, and only then traps or completes. -/
def Computed (s u : State) (sps : List Spec) {z : Size} (o : Operand) (r : Alu z.bits) (x : Outcome) :
    Prop :=
  ∃ t, x = arithOutcome r t ∧ Wrote s u t sps z o r.value r.flags

/-- The common end of the arithmetic and shift instructions: the destination written, the condition codes
set, then the trap (R135). -/
theorem computed_of_writeOp {a : Access} {s u : State} {sps : List Spec} {z : Size} {o : Operand}
    (r : Alu z.bits) (ha : a ≠ .read) (he : Evaluated s u (stepped sps)) (ho : o.allowed a z false)
    (hw : o.writable z u) :
    Computed s u sps o r (conclude s (writeOp z o r.value u >>= completeArith r)) := by
  obtain ⟨t, ht, hwritten⟩ := writeOp_ok ha ho r.value hw
  refine ⟨t.setFlags r.flags, ?_, wrote_of_operandWritten he hwritten r.flags⟩
  rw [bind_of_ok ht, conclude_completeArith]

section Computed

variable {s u : State} {sps : List Spec} {z : Size} {o : Operand} {r : Alu z.bits} {x : Outcome}
  {v : BitVec z.bits} {f : Flags}

/-- IV is above the condition codes. -/
theorem pslIV_of_pslKept {t : State} (h : pslKept s t) : pslIV t.psl = pslIV s.psl := by
  have hbit := congrArg (BitVec.getLsbD · 5) h
  simpa [pslIV] using hbit

/-- Without a zero divisor or an enabled overflow the instruction completes. -/
theorem Computed.next (h : Computed s u sps o r x) (hr : r = { value := v, flags := f })
    (hv : f.v = true → pslIV s.psl = false) : ∃ t, x = .next t ∧ Wrote s u t sps z o v f := by
  subst hr
  obtain ⟨t, rfl, hwrote⟩ := h
  refine ⟨t, ?_, hwrote⟩
  have hquiet : (f.v && pslIV t.psl) = false := by
    rw [pslIV_of_pslKept hwrote.psl]
    simpa using hv
  simp [arithOutcome, hquiet]

/-- An overflow traps where IV is set. -/
theorem Computed.overflow (h : Computed s u sps o r x) (hr : r = { value := v, flags := f })
    (hv : overflowEnabled f s) :
    ∃ t, x = raiseTrap .integerOverflow t ∧ Wrote s u t sps z o v f := by
  subst hr
  obtain ⟨t, rfl, hwrote⟩ := h
  refine ⟨t, ?_, hwrote⟩
  have hiv : pslIV t.psl = true := (pslIV_of_pslKept hwrote.psl).trans hv.2
  simp [arithOutcome, hv.1, hiv]

/-- A zero divisor traps whatever IV holds. -/
theorem Computed.zeroDivisor (h : Computed s u sps o r x)
    (hr : r = { value := v, flags := f, divideByZero := true }) :
    ∃ t, x = raiseTrap .integerDivideByZero t ∧ Wrote s u t sps z o v f := by
  subst hr
  obtain ⟨t, rfl, hwrote⟩ := h
  exact ⟨t, if_pos rfl, hwrote⟩

end Computed

/-! ## The three forms (R130, R285) -/

/-- The instruction computes `law` of its modified operand. -/
def ComputesM (mk : Spec → Instr) (z : Size) (law : BitVec z.bits → Alu z.bits) : Prop :=
  ∀ (dst : Spec) (s u : State) (b : BitVec z.bits) (o : Operand),
    operandsM z dst s = .ok (b, o, u) → Computed s u [dst] o (law b) (exec (mk dst) s)

/-- The instruction computes `law` of its source and its modified operand. -/
def ComputesRM (mk : Spec → Spec → Instr) (z : Size)
    (law : BitVec z.bits → BitVec z.bits → Alu z.bits) : Prop :=
  ∀ (src dst : Spec) (s u : State) (a b : BitVec z.bits) (o : Operand),
    operandsRM z src dst s = .ok (a, b, o, u) →
    Computed s u [src, dst] o (law a b) (exec (mk src dst) s)

/-- The instruction computes `law` of its two sources. -/
def ComputesRRW (mk : Spec → Spec → Spec → Instr) (y z : Size)
    (law : BitVec y.bits → BitVec z.bits → Alu z.bits) : Prop :=
  ∀ (src1 src2 dst : Spec) (s u : State) (a : BitVec y.bits) (b : BitVec z.bits) (o : Operand),
    operandsRRW y z src1 src2 dst s = .ok (a, b, o, u) → o.writable z s →
    Computed s u [src1, src2, dst] o (law a b) (exec (mk src1 src2 dst) s)

/-- The 3-operand form with a first source of a size of its own: the body of `arith3` and of `shift`. -/
def arithRRW (y z : Size) (law : BitVec y.bits → BitVec z.bits → Alu z.bits) (src1 src2 dst : Spec)
    (s : State) : Except Stop State := do
  let (a, s) ← evalRead y src1 s
  let (b, s) ← evalRead z src2 s
  let (o, s) ← evalWrite z dst s
  let s ← writeOp z o (law a b).value s
  completeArith (law a b) s

theorem arith3_eq_arithRRW (z : Size) : arith3 z = arithRRW z z := rfl

theorem shift_eq_arithRRW (z : Size) : shift z = arithRRW .b z ashLaw := rfl

section Forms

variable {y z : Size}

theorem computesM_of_arith1 {mk : Spec → Instr} {law : BitVec z.bits → Alu z.bits}
    (hexec : ∀ dst s, exec (mk dst) s = runInstr s (arith1 z law dst)) : ComputesM mk z law := by
  intro dst s u b o h
  obtain ⟨he, ho, hw⟩ := evaluated_operandsM h
  obtain ⟨t, h0, h1⟩ := bind_ok_iff.1 h
  rw [hexec, runInstr, bind_of_ok h0, arith1, bind_of_ok h1]
  exact computed_of_writeOp (law b) (by decide) he ho hw

theorem computesRM_of_arith2 {mk : Spec → Spec → Instr} {law : BitVec z.bits → BitVec z.bits → Alu z.bits}
    (hexec : ∀ src dst s, exec (mk src dst) s = runInstr s (arith2 z law src dst)) :
    ComputesRM mk z law := by
  intro src dst s u a b o h
  obtain ⟨he, ho, hw⟩ := evaluated_operandsRM h
  obtain ⟨t, t', h0, h1, h2⟩ := operandsRM_ok h
  rw [hexec, runInstr, bind_of_ok h0, arith2, bind_of_ok h1]
  dsimp only
  rw [bind_of_ok h2]
  exact computed_of_writeOp (law a b) (by decide) he ho hw

theorem computesRRW_of_arithRRW {mk : Spec → Spec → Spec → Instr}
    {law : BitVec y.bits → BitVec z.bits → Alu z.bits}
    (hexec : ∀ src1 src2 dst s,
      exec (mk src1 src2 dst) s = runInstr s (arithRRW y z law src1 src2 dst)) :
    ComputesRRW mk y z law := by
  intro src1 src2 dst s u a b o h hw
  obtain ⟨he, ho⟩ := evaluated_operandsRRW h
  have hw : o.writable z u := by simpa only [Operand.writable, he.cfg] using hw
  obtain ⟨v, hsrc, h3⟩ := operandsRRW_ok h
  obtain ⟨t, t', h0, h1, h2⟩ := operandsRR_ok hsrc
  rw [hexec, runInstr, bind_of_ok h0, arithRRW, bind_of_ok h1]
  dsimp only
  rw [bind_of_ok h2]
  dsimp only
  rw [bind_of_ok h3]
  exact computed_of_writeOp (law a b) (by decide) he ho hw

theorem computesRRW_of_arith3 {mk : Spec → Spec → Spec → Instr}
    {law : BitVec z.bits → BitVec z.bits → Alu z.bits}
    (hexec : ∀ src1 src2 dst s, exec (mk src1 src2 dst) s = runInstr s (arith3 z law src1 src2 dst)) :
    ComputesRRW mk z z law :=
  computesRRW_of_arithRRW (by simpa only [arith3_eq_arithRRW] using hexec)

theorem computesRRW_of_shift {mk : Spec → Spec → Spec → Instr}
    (hexec : ∀ cnt src dst s, exec (mk cnt src dst) s = runInstr s (shift z cnt src dst)) :
    ComputesRRW mk .b z ashLaw :=
  computesRRW_of_arithRRW (by simpa only [shift_eq_arithRRW] using hexec)

/-! What each form's statements follow from: its law in the spec's formulas. -/

section M

variable {mk : Spec → Instr} {law : BitVec z.bits → Alu z.bits} {value : BitVec z.bits → BitVec z.bits}
  {codes : BitVec z.bits → Flags}

theorem ComputesM.completes (h : ComputesM mk z law)
    (hlaw : ∀ b, law b = { value := value b, flags := codes b }) :
    CompletesM mk z value fun b _ => codes b :=
  fun dst s u b o hops hv => (h dst s u b o hops).next (hlaw b) hv

theorem ComputesM.overflows (h : ComputesM mk z law)
    (hlaw : ∀ b, law b = { value := value b, flags := codes b }) : OverflowsM mk z value codes :=
  fun dst s u b o hops hv => (h dst s u b o hops).overflow (hlaw b) hv

end M

section RM

variable {mk : Spec → Spec → Instr} {law : BitVec z.bits → BitVec z.bits → Alu z.bits}
  {value : BitVec z.bits → BitVec z.bits → BitVec z.bits} {codes : BitVec z.bits → BitVec z.bits → Flags}

theorem ComputesRM.completes (h : ComputesRM mk z law)
    (hlaw : ∀ a b, law a b = { value := value a b, flags := codes a b }) :
    CompletesRM mk z value fun a b _ => codes a b :=
  fun src dst s u a b o hops hv => (h src dst s u a b o hops).next (hlaw a b) hv

theorem ComputesRM.overflows (h : ComputesRM mk z law)
    (hlaw : ∀ a b, law a b = { value := value a b, flags := codes a b }) :
    OverflowsRM mk z value codes :=
  fun src dst s u a b o hops hv => (h src dst s u a b o hops).overflow (hlaw a b) hv

theorem ComputesRM.divisionTraps (h : ComputesRM mk z divLaw) : DivisionTrapsRM mk z :=
  ⟨fun src dst s u a b o hops ha => (h src dst s u a b o hops).zeroDivisor (divLaw_of_zero ha b),
    fun src dst s u a b o hops ⟨ha, hv⟩ =>
      (h src dst s u a b o hops).overflow (divLaw_of_ne_zero ha b) hv⟩

end RM

section RRW

variable {mk : Spec → Spec → Spec → Instr} {law : BitVec y.bits → BitVec z.bits → Alu z.bits}
  {value : BitVec y.bits → BitVec z.bits → BitVec z.bits} {codes : BitVec y.bits → BitVec z.bits → Flags}

theorem ComputesRRW.completes (h : ComputesRRW mk y z law)
    (hlaw : ∀ a b, law a b = { value := value a b, flags := codes a b }) :
    CompletesRRW mk y z value fun a b _ => codes a b :=
  fun src1 src2 dst s u a b o hops hw hv => (h src1 src2 dst s u a b o hops hw).next (hlaw a b) hv

theorem ComputesRRW.overflows (h : ComputesRRW mk y z law)
    (hlaw : ∀ a b, law a b = { value := value a b, flags := codes a b }) :
    OverflowsRRW mk y z value codes :=
  fun src1 src2 dst s u a b o hops hw hv => (h src1 src2 dst s u a b o hops hw).overflow (hlaw a b) hv

theorem ComputesRRW.divisionTraps {mk : Spec → Spec → Spec → Instr} (h : ComputesRRW mk z z divLaw) :
    DivisionTrapsRRW mk z :=
  ⟨fun src1 src2 dst s u a b o hops hw ha =>
      (h src1 src2 dst s u a b o hops hw).zeroDivisor (divLaw_of_zero ha b),
    fun src1 src2 dst s u a b o hops hw ⟨ha, hv⟩ =>
      (h src1 src2 dst s u a b o hops hw).overflow (divLaw_of_ne_zero ha b) hv⟩

end RRW

end Forms

/-! ## The statements -/

/-- Settles O21: the bodies of ADDx and INCx run the addition law. -/
theorem additionLaw : Obligations.AdditionLaw := by
  refine ⟨?_, ?_, ?_, ?_, ?_, ?_, ?_, ?_, ?_⟩
  iterate 3 exact (computesRM_of_arith2 fun _ _ _ => rfl).completes fun a b => addLaw_eq b a
  iterate 3 exact (computesRRW_of_arith3 fun _ _ _ _ => rfl).completes addLaw_eq
  iterate 3 exact (computesM_of_arith1 fun _ _ => rfl).completes fun b => addLaw_eq b 1

/-- Settles O22: the bodies of SUBx and DECx run the subtraction law, the first operand taken away. -/
theorem subtractionLaw : Obligations.SubtractionLaw := by
  refine ⟨?_, ?_, ?_, ?_, ?_, ?_, ?_⟩
  iterate 3 exact (computesRM_of_arith2 fun _ _ _ => rfl).completes fun a b => subLaw_eq b a
  · exact (computesRRW_of_arith3 fun _ _ _ _ => rfl).completes fun a b => subLaw_eq b a
  iterate 3 exact (computesM_of_arith1 fun _ _ => rfl).completes fun b => subLaw_eq b 1

/-- Settles O23: the bodies of MULx run the multiplication law. -/
theorem multiplicationLaw : Obligations.MultiplicationLaw := by
  refine ⟨?_, ?_, ?_, ?_⟩
  iterate 3 exact (computesRM_of_arith2 fun _ _ _ => rfl).completes fun a b => mulLaw_eq b a
  · exact (computesRRW_of_arith3 fun _ _ _ _ => rfl).completes mulLaw_eq

/-- Settles O24: the bodies of DIVx run the division law, which divides where the divisor is not zero. -/
theorem divisionLaw : Obligations.DivisionLaw := by
  refine ⟨fun z mk hmk src dst s u a b o hops ha hv => ?_, fun src1 src2 dst s u a b o hops hw ha hv => ?_⟩
  · have hcomputes : ComputesRM mk z divLaw := by
      rcases hmk with ⟨rfl, rfl⟩ | ⟨rfl, rfl⟩ | ⟨rfl, rfl⟩
      all_goals exact computesRM_of_arith2 fun _ _ _ => rfl
    exact (hcomputes src dst s u a b o hops).next (divLaw_of_ne_zero ha b) hv
  · have hcomputes : ComputesRRW .divl3 .l .l divLaw := computesRRW_of_arith3 fun _ _ _ _ => rfl
    exact (hcomputes src1 src2 dst s u a b o hops hw).next (divLaw_of_ne_zero ha b) hv

/-- Settles O25: the destination and the condition codes are written before `completeArith` looks at the
divisor and at the overflow. -/
theorem arithmeticTrapsAfterTheResult : Obligations.ArithmeticTrapsAfterTheResult := by
  refine ⟨⟨?_, ?_, ?_, ?_⟩, ⟨?_, ?_, ?_, ?_, ?_, ?_, ?_, ?_, ?_⟩, ⟨?_, ?_, ?_, ?_, ?_, ?_, ?_⟩,
    ⟨?_, ?_, ?_, ?_⟩, ⟨?_, ?_⟩⟩
  iterate 3 exact (computesRM_of_arith2 fun _ _ _ => rfl).divisionTraps
  · exact (computesRRW_of_arith3 fun _ _ _ _ => rfl).divisionTraps
  iterate 3 exact (computesRM_of_arith2 fun _ _ _ => rfl).overflows fun a b => addLaw_eq b a
  iterate 3 exact (computesRRW_of_arith3 fun _ _ _ _ => rfl).overflows addLaw_eq
  iterate 3 exact (computesM_of_arith1 fun _ _ => rfl).overflows fun b => addLaw_eq b 1
  iterate 3 exact (computesRM_of_arith2 fun _ _ _ => rfl).overflows fun a b => subLaw_eq b a
  · exact (computesRRW_of_arith3 fun _ _ _ _ => rfl).overflows fun a b => subLaw_eq b a
  iterate 3 exact (computesM_of_arith1 fun _ _ => rfl).overflows fun b => subLaw_eq b 1
  iterate 3 exact (computesRM_of_arith2 fun _ _ _ => rfl).overflows fun a b => mulLaw_eq b a
  · exact (computesRRW_of_arith3 fun _ _ _ _ => rfl).overflows mulLaw_eq
  iterate 2 exact (computesRRW_of_shift fun _ _ _ _ => rfl).overflows ashLaw_eq

end Sys2Proof.Proofs

/-!
PROOF. The logical instructions (41_logical.md R160 to R171).

The nine instructions are one form, `logical2`, over three operations. The form writes the operation's result
and sets the condition codes with the C it finds; neither the evaluation of the operands nor the store has
changed the PSL, so that C is the one from before the instruction.
-/

namespace Sys2Proof.Proofs

open Sys2Proof Sys2Proof.Machine

/-- An instruction whose body is `logical2` completes with its operation applied to mask and destination. -/
theorem completesRM_of_logical2 {mk : Spec → Spec → Instr} {z : Size}
    (op : BitVec z.bits → BitVec z.bits → BitVec z.bits)
    (hexec : ∀ mask dst s, exec (mk mask dst) s = runInstr s (logical2 z op mask dst)) :
    CompletesRM mk z op fun m d => keepsCarry (op m d) := by
  intro mask dst s u m d o h _
  obtain ⟨heval, hallowed, hwritable⟩ := evaluated_operandsRM h
  obtain ⟨t, t', hopcode, hmask, hdst⟩ := operandsRM_ok h
  obtain ⟨v, hv, hwritten⟩ := writeOp_ok (by decide) hallowed (op m d) hwritable
  refine ⟨_, ?_, wrote_of_operandWritten heval hwritten _⟩
  have hpsl : v.psl = s.psl := by rw [hwritten.rest, heval.psl]
  rw [hexec, runInstr, bind_of_ok hopcode, logical2, bind_of_ok hmask]
  dsimp only
  rw [bind_of_ok hdst]
  dsimp only
  rw [bind_of_ok hv, hpsl, moveFlags_eq]
  rfl

/-- Settles O26: the bodies of BISx2, BICx2 and XORx2 are `logical2` with the operation of R161. -/
theorem logicalInstructions : Obligations.LogicalInstructions := by
  refine ⟨?_, ?_, ?_, ?_, ?_, ?_, ?_, ?_, ?_⟩
  iterate 3 exact completesRM_of_logical2 bisLaw fun _ _ _ => rfl
  iterate 3 exact completesRM_of_logical2 bicLaw fun _ _ _ => rfl
  iterate 3 exact completesRM_of_logical2 xorLaw fun _ _ _ => rfl

end Sys2Proof.Proofs

/-!
PROOF. The move, move-address, clear and push instructions (42_move.md R175 to R194).

Each body is the evaluation of its operands followed by one of two ends: the value is written to the destination,
or it is pushed; then the condition codes are set with the C found there. Neither the evaluation nor the write
has changed the PSL, so that C is the one from before the instruction. Each end is settled once, for
any operands.
-/

namespace Sys2Proof.Proofs

open Sys2Proof Sys2Proof.Machine

/-! ## The operands of the moves -/

theorem stepped_single (sp : Spec) : stepped [sp] = Spec.steps sp := by simp [stepped]

theorem evaluated_operandsR {z : Size} {src : Spec} {s u : State} {a : BitVec z.bits}
    (h : operandsR z src s = .ok (a, u)) : Evaluated s u (stepped [src]) := by
  obtain ⟨t, hopcode, hsrc⟩ := operandsR_ok h
  rw [stepped_single]
  exact (evaluated_fetch hopcode).trans (evalRead_ok hsrc)

theorem evaluated_operandsA {z : Size} {src : Spec} {s u : State} {a : Word}
    (h : operandsA z src s = .ok (a, u)) : Evaluated s u (stepped [src]) := by
  obtain ⟨t, hopcode, hsrc⟩ := bind_ok_iff.1 h
  rw [stepped_single]
  exact (evaluated_fetch hopcode).trans (evalAddress_ok hsrc)

theorem evaluated_operandsW {z : Size} {dst : Spec} {s u : State} {o : Operand}
    (h : operandsW z dst s = .ok (o, u)) :
    Evaluated s u (stepped [dst]) ∧ o.allowed .write z false := by
  obtain ⟨t, hopcode, hw⟩ := bind_ok_iff.1 h
  obtain ⟨hdst, hallowed⟩ := evalWrite_ok hw
  rw [stepped_single]
  exact ⟨(evaluated_fetch hopcode).trans hdst, hallowed⟩

/-- The opcode and two operands of access types a and w. -/
theorem operandsAW_ok {z : Size} {src dst : Spec} {s u : State} {a : Word} {o : Operand}
    (h : operandsAW z src dst s = .ok (a, o, u)) :
    ∃ t t', fetch 1 s = .ok t ∧ evalAddress z src t = .ok (a, t') ∧ evalWrite .l dst t' = .ok (o, u) := by
  obtain ⟨⟨a', t'⟩, h1, h⟩ := bind_ok_iff.1 h
  obtain ⟨⟨o', u'⟩, hdst, h⟩ := bind_ok_iff.1 h
  obtain ⟨t, hopcode, hsrc⟩ := bind_ok_iff.1 h1
  cases h
  exact ⟨t, t', hopcode, hsrc, hdst⟩

theorem evaluated_operandsAW {z : Size} {src dst : Spec} {s u : State} {a : Word} {o : Operand}
    (h : operandsAW z src dst s = .ok (a, o, u)) :
    Evaluated s u (stepped [src, dst]) ∧ o.allowed .write .l false := by
  obtain ⟨t, t', hopcode, hsrc, hw⟩ := operandsAW_ok h
  obtain ⟨hdst, hallowed⟩ := evalWrite_ok hw
  rw [stepped_pair]
  exact ⟨((evaluated_fetch hopcode).trans (evalAddress_ok hsrc)).trans hdst, hallowed⟩

/-! ## How an instruction completes -/

/-- An instruction completes where its opcode byte is fetched and its body, begun after that byte, answers
a state. -/
theorem exec_next {i : Instr} {s s1 t : State} {body : State → Except Stop State}
    (hexec : exec i s = runInstr s body) (hopcode : fetch 1 s = .ok s1) (h : body s1 = .ok t) :
    exec i s = .next t :=
  hexec.trans (runInstr_next ((bind_of_ok hopcode _).trans h))

/-! ## A value written to its destination (R175) -/

/-- The end of the moves and clears: the destination written, then the condition codes set from the C found. -/
def writeThenFlags (z : Size) (o : Operand) (v : BitVec z.bits) (f : Bool → Flags) (u : State) :
    Except Stop State := do
  let t ← writeOp z o v u
  .ok (t.setFlags (f (pslC t.psl)))

/-- The C found after the write is the one from before the instruction (R176). -/
theorem writeThenFlags_wrote {s u : State} {sps : List Spec} {z : Size} {o : Operand} (v : BitVec z.bits)
    (f : Bool → Flags) (he : Evaluated s u (stepped sps)) (ho : o.allowed .write z false)
    (hw : o.writable z s) :
    ∃ t, writeThenFlags z o v f u = .ok t ∧ Wrote s u t sps z o v (f (pslC s.psl)) := by
  have hw : o.writable z u := by simpa only [Operand.writable, he.cfg] using hw
  obtain ⟨t, ht, hwritten⟩ := writeOp_ok (by decide) ho v hw
  have hpsl : t.psl = s.psl := by rw [hwritten.rest, he.psl]
  refine ⟨_, ?_, wrote_of_operandWritten he hwritten _⟩
  rw [writeThenFlags, bind_of_ok ht, hpsl]

section Writes

variable {z : Size}

/-- An instruction whose body is `move` completes. -/
theorem completesRW_of_move {mk : Spec → Spec → Instr}
    (hexec : ∀ src dst s, exec (mk src dst) s = runInstr s (move z src dst)) :
    CompletesRW mk z keepsCarry := by
  intro src dst s u a o h hw
  obtain ⟨he, ho⟩ := evaluated_operandsRW h
  obtain ⟨t, ht, hwrote⟩ := writeThenFlags_wrote a (moveFlags a) he ho hw
  obtain ⟨s1, s2, hopcode, hsrc, hdst⟩ := operandsRW_ok h
  refine ⟨t, exec_next (hexec src dst s) hopcode ?_, hwrote⟩
  exact (bind_of_ok hsrc _).trans ((bind_of_ok hdst _).trans ht)

/-- An instruction whose body is `moveAddress` completes. -/
theorem completesAW_of_moveAddress {mk : Spec → Spec → Instr}
    (hexec : ∀ src dst s, exec (mk src dst) s = runInstr s (moveAddress z src dst)) :
    CompletesAW mk z keepsCarry := by
  intro src dst s u a o h hw
  obtain ⟨he, ho⟩ := evaluated_operandsAW h
  obtain ⟨t, ht, hwrote⟩ := writeThenFlags_wrote (z := .l) a (moveFlags a) he ho hw
  obtain ⟨s1, s2, hopcode, hsrc, hdst⟩ := operandsAW_ok h
  refine ⟨t, exec_next (hexec src dst s) hopcode ?_, hwrote⟩
  exact (bind_of_ok hsrc _).trans ((bind_of_ok hdst _).trans ht)

/-- An instruction whose body is `clear` completes. -/
theorem completesW_of_clear {mk : Spec → Instr}
    (hexec : ∀ dst s, exec (mk dst) s = runInstr s (clear z dst)) :
    CompletesW mk z 0 fun c => { n := false, z := true, v := false, c := c } := by
  intro dst s u o h hw
  obtain ⟨he, ho⟩ := evaluated_operandsW h
  obtain ⟨t, ht, hwrote⟩ := writeThenFlags_wrote (z := z) 0 _ he ho hw
  obtain ⟨s1, hopcode, hdst⟩ := bind_ok_iff.1 h
  exact ⟨t, exec_next (hexec dst s) hopcode ((bind_of_ok hdst _).trans ht), hwrote⟩

end Writes

/-- Settles O27: each body is `move`, `clear` or `moveAddress` at the instruction's size. -/
theorem moveAndClearInstructions : Obligations.MoveAndClearInstructions := by
  refine ⟨?_, ?_, ?_, ?_, ?_, ?_, ?_, ?_, ?_, ?_, ?_⟩
  iterate 4 exact completesRW_of_move fun _ _ _ => rfl
  iterate 4 exact completesW_of_clear fun _ _ => rfl
  iterate 3 exact completesAW_of_moveAddress fun _ _ _ => rfl

/-! ## A value pushed (R178) -/

section Push

variable {s u t : State} {sps : List Spec} {v : Word}

/-- A push, after the specifiers have been evaluated. -/
theorem pushed_of_push32 (he : Evaluated s u (stepped sps)) (h : push32 v u = .ok t) :
    Pushed s u t sps v := by
  obtain ⟨-, rfl⟩ := push32_ok_iff.1 h
  have hkept (n : Reg) (hn : n ≠ Reg.sp) :
      ((u.setR Reg.sp (u.sp - 4)).storeBytes (u.sp - 4) (leBytes 4 v.toNat)).r n = u.r n :=
    (r_storeBytes ..).trans (r_setR_other u _ hn.symm)
  constructor
  case sp => exact (r_storeBytes ..).trans (r_setR_same ..)
  case value => exact long_storeBytes ..
  case evaluated => exact hkept
  case regs => exact fun n hsp hpc hn => (hkept n hsp).trans (he.regs n hpc hn)
  case bytes =>
    intro x hx
    rw [byteAt_storeBytes_other, byteAt_setR, he.byteAt]
    intro i hi hxi
    exact hx (mem_addrs.2 ⟨i, by simpa using hi, hxi⟩)
  case recorded =>
    have hr := recorded_storeBytes (u.setR Reg.sp (u.sp - 4)) (u.sp - 4) (leBytes 4 v.toNat)
    rw [length_leBytes] at hr
    exact hr.of_eq he.written.symm he.cfg.symm
  case rest => rw [storeBytes_rest, State.setR, he.rest]

/-- The condition codes are no part of what a push has done. -/
theorem pushed_setFlags (h : Pushed s u t sps v) (f : Flags) : Pushed s u (t.setFlags f) sps v where
  sp := h.sp
  value := (long_setFlags ..).trans h.value
  evaluated := h.evaluated
  regs := h.regs
  bytes := h.bytes
  recorded := ⟨h.recorded.mem, h.recorded.kept⟩
  rest := by rw [State.setFlags, State.setPsl, h.rest]

/-- The end of the push instructions, where memory exists at the new top of the stack. -/
theorem pushValue_pushed (he : Evaluated s u (stepped sps)) (hv : canAccess 4 (u.sp - 4) s) :
    ∃ t, pushValue v u = .ok t ∧ Pushed s u t sps v ∧
      pslFlags t.psl = keepsCarry v (pslC s.psl) ∧ pslKept s t := by
  obtain ⟨t, ht⟩ : ∃ t, push32 v u = .ok t :=
    ⟨_, push32_ok_iff.2 ⟨(he.canAccess_iff _ _).2 hv, rfl⟩⟩
  have hpsl : t.psl = s.psl := by
    obtain ⟨-, rfl⟩ := push32_ok_iff.1 ht
    rw [psl_storeBytes, psl_setR, he.psl]
  refine ⟨_, bind_of_ok ht _, pushed_setFlags (pushed_of_push32 he ht) _, ?_, ?_⟩
  · rw [psl_setFlags, pslFlags_withFlags, hpsl, moveFlags_eq]
  · rw [pslKept, psl_setFlags, withFlags_and_mask, hpsl]

end Push

/-- PUSHL reads its operand, then pushes (R190). -/
theorem exec_pushl {src : Spec} {s u t : State} {v : Word} (h : operandsR .l src s = .ok (v, u))
    (ht : pushValue v u = .ok t) : exec (.pushl src) s = .next t := by
  obtain ⟨s1, hopcode, hsrc⟩ := operandsR_ok h
  exact exec_next rfl hopcode ((bind_of_ok hsrc _).trans ht)

/-- An instruction whose body is `pushAddress` takes its operand's address, then pushes it (R177). -/
theorem exec_of_pushAddress {i : Instr} {z : Size} {src : Spec} {s u t : State} {a : Word}
    (hexec : exec i s = runInstr s (pushAddress z src)) (h : operandsA z src s = .ok (a, u))
    (ht : pushValue a u = .ok t) : exec i s = .next t := by
  obtain ⟨s1, hopcode, hsrc⟩ := bind_ok_iff.1 h
  exact exec_next hexec hopcode ((bind_of_ok hsrc _).trans ht)

/-- Settles O28: PUSHL and the three sizes of PUSHAx end in the same push. -/
theorem pushInstructions : Obligations.PushInstructions := by
  refine ⟨fun src s u v h hv => ?_, fun z mk hmk src s u a h hv => ?_⟩
  · obtain ⟨t, ht, hpushed⟩ := pushValue_pushed (v := v) (evaluated_operandsR h) hv
    exact ⟨t, exec_pushl h ht, hpushed⟩
  · have hexec : exec (mk src) s = runInstr s (pushAddress z src) := by
      rcases hmk with ⟨rfl, rfl⟩ | ⟨rfl, rfl⟩ | ⟨rfl, rfl⟩ <;> rfl
    obtain ⟨t, ht, hpushed⟩ := pushValue_pushed (v := a) (evaluated_operandsA h) hv
    exact ⟨t, exec_of_pushAddress hexec h ht, hpushed⟩

end Sys2Proof.Proofs

/-!
PROOF. The compare, test and bit-test instructions (43_compare_test.md R200 to R211).

Each body evaluates its read operands and then only sets the condition codes. So one frame fact about the end
(`onlyFlags_setFlags`) serves all nine instructions. For two operands the compare and the bit test are one form
(`flagsRR`) with different condition codes.
-/

namespace Sys2Proof.Proofs

open Sys2Proof Sys2Proof.Machine

/-! ## The condition codes in the spec's own formulas -/

/-- The compare law: the library's signed and unsigned orders are those of the exact values (R200). -/
theorem cmpFlags_eq {n : Nat} (a b : BitVec n) : cmpFlags a b = compareCodes a b := by
  simp only [cmpFlags, compareCodes, BitVec.slt, BitVec.ult, beq_eq_decide]

/-- The test law (R201). -/
theorem tstFlags_eq {n : Nat} (a : BitVec n) :
    tstFlags a = { n := a.msb, z := decide (a = 0), v := false, c := false } := by
  simp only [tstFlags, beq_eq_decide]

/-- The bit-test law (R202). -/
theorem bitFlags_eq {n : Nat} (m a : BitVec n) (c : Bool) : bitFlags m a c = keepsCarry (a &&& m) c :=
  moveFlags_eq _ c

/-! ## An instruction that only sets the condition codes -/

/-- The condition codes set, after the specifiers have been evaluated. -/
theorem onlyFlags_setFlags {s u : State} {sps : List Spec} (he : Evaluated s u (stepped sps)) (f : Flags) :
    OnlyFlags s u (u.setFlags f) sps f where
  evaluated := r_setFlags u f
  regs := he.regs
  flags := pslFlags_withFlags f u.psl
  psl := by rw [pslKept, psl_setFlags, withFlags_and_mask, he.psl]
  rest := by rw [State.setFlags, State.setPsl, he.rest]

/-- The common form of `compare` and `bitTest`: two operands read, then condition codes of them and of the C
found. -/
def flagsRR (z : Size) (codes : BitVec z.bits → BitVec z.bits → Bool → Flags) (src1 src2 : Spec)
    (s : State) : Except Stop State := do
  let (a, s) ← evalRead z src1 s
  let (b, s) ← evalRead z src2 s
  .ok (s.setFlags (codes a b (pslC s.psl)))

theorem compare_eq_flagsRR (z : Size) : Machine.compare z = flagsRR z fun a b _ => compareCodes a b := by
  funext src1 src2 s
  simp only [Machine.compare, flagsRR, cmpFlags_eq]

theorem bitTest_eq_flagsRR (z : Size) : bitTest z = flagsRR z fun m a => keepsCarry (a &&& m) := by
  funext mask src s
  simp only [bitTest, flagsRR, bitFlags_eq]

section Completes

variable {z : Size}

/-- An instruction whose body is `flagsRR` completes: the C it finds is the one from before the instruction. -/
theorem completesRR_of_flagsRR {mk : Spec → Spec → Instr}
    {codes : BitVec z.bits → BitVec z.bits → Bool → Flags}
    (hexec : ∀ src1 src2 s, exec (mk src1 src2) s = runInstr s (flagsRR z codes src1 src2)) :
    CompletesRR mk z codes := by
  intro src1 src2 s u a b h
  have he := evaluated_operandsRR h
  obtain ⟨s1, s2, hopcode, hsrc1, hsrc2⟩ := operandsRR_ok h
  refine ⟨_, exec_next (hexec src1 src2 s) hopcode ?_, onlyFlags_setFlags he _⟩
  rw [← he.psl]
  exact (bind_of_ok hsrc1 _).trans (bind_of_ok hsrc2 _)

theorem completesRR_of_compare {mk : Spec → Spec → Instr}
    (hexec : ∀ src1 src2 s, exec (mk src1 src2) s = runInstr s (Machine.compare z src1 src2)) :
    CompletesRR mk z fun a b _ => compareCodes a b :=
  completesRR_of_flagsRR (by simpa only [compare_eq_flagsRR] using hexec)

theorem completesRR_of_bitTest {mk : Spec → Spec → Instr}
    (hexec : ∀ mask src s, exec (mk mask src) s = runInstr s (bitTest z mask src)) :
    CompletesRR mk z fun m a => keepsCarry (a &&& m) :=
  completesRR_of_flagsRR (by simpa only [bitTest_eq_flagsRR] using hexec)

theorem completesR_of_test {mk : Spec → Instr}
    (hexec : ∀ src s, exec (mk src) s = runInstr s (test z src)) :
    CompletesR mk z fun a _ => { n := a.msb, z := decide (a = 0), v := false, c := false } := by
  intro src s u a h
  obtain ⟨s1, hopcode, hsrc⟩ := operandsR_ok h
  simp only [← tstFlags_eq]
  exact ⟨_, exec_next (hexec src s) hopcode (bind_of_ok hsrc _), onlyFlags_setFlags (evaluated_operandsR h) _⟩

end Completes

/-- Settles O29: each body is `compare` or `bitTest` at the instruction's size. -/
theorem compareAndBitTestLaws : Obligations.CompareAndBitTestLaws := by
  refine ⟨?_, ?_, ?_, ?_, ?_, ?_⟩
  iterate 3 exact completesRR_of_compare fun _ _ _ => rfl
  iterate 3 exact completesRR_of_bitTest fun _ _ _ => rfl

/-- Settles O30: each body is `test` at the instruction's size. -/
theorem testLaw : Obligations.TestLaw :=
  ⟨completesR_of_test fun _ _ => rfl, completesR_of_test fun _ _ => rfl, completesR_of_test fun _ _ => rfl⟩

end Sys2Proof.Proofs

/-!
PROOF. The branch instructions (44_branch.md R215 to R229).

Each body is `branch`: the displacement is always fetched, and added to the address after it when the branch is
taken. So the end is settled once, for both widths of displacement and both ways; the conditional branches add
that the PSL they test, after the opcode byte, is the one from before the instruction.
-/

namespace Sys2Proof.Proofs

open Sys2Proof Sys2Proof.Machine

/-- The two fetches make one move of the program counter, from which the displacement counts (R215, R216). -/
theorem branch_after_opcode {k : Nat} {s : State} (h : canFetch (1 + k) s) (d : Word) (taken : Bool) :
    branch k d taken (s.setPc (s.pc.plus 1)) =
      .ok (s.setPc (if taken then s.pc.plus (1 + k) + d else s.pc.plus (1 + k))) := by
  rw [branch, fetchDisp, bind_of_ok (fetch_after_first h)]
  cases taken with
  | true => simp only [if_pos, setR_setR_same, r_setR_same]
  | false => rfl

/-- An instruction whose body is `branch`, taken, ends at the displaced address. -/
theorem exec_branch_always {i : Instr} {k : Nat} {d : Word} {s : State}
    (hexec : exec i s = runInstr s (branch k d true)) (h : canFetch (1 + k) s) :
    exec i s = .next (s.setPc (s.pc.plus (1 + k) + d)) :=
  exec_next hexec (fetch_ok (canFetch_mono h (Nat.le_add_right ..))) (branch_after_opcode h d true)

/-- An instruction whose body is `branchIf` tests the PSL from before the instruction: fetching the opcode has
moved the program counter alone. -/
theorem exec_branchIf {i : Instr} {cond : Word → Bool} {disp : BitVec 8} {s : State}
    (hexec : exec i s = runInstr s (branchIf cond disp)) (h : canFetch 2 s) :
    exec i s =
      .next (s.setPc (if cond s.psl then s.pc + 2 + disp.signExtend 32 else s.pc + 2)) :=
  exec_next hexec (fetch_ok (canFetch_mono h (by decide))) (branch_after_opcode (k := 1) h _ (cond s.psl))

/-- A conditional branch completes both ways, under any condition that its test of the PSL decides. -/
theorem completesBranch_of_branchIf {mk : BitVec 8 → Instr} {test : Word → Bool} {cond : State → Prop}
    (hexec : ∀ disp s, exec (mk disp) s = runInstr s (branchIf test disp))
    (htest : ∀ s : State, test s.psl = true ↔ cond s) : CompletesBranch mk cond := by
  intro disp s hfetch
  have hnext := exec_branchIf (hexec disp s) hfetch
  constructor
  · intro htaken
    rwa [if_pos ((htest s).2 htaken)] at hnext
  · intro hnotTaken
    rwa [if_neg (mt (htest s).1 hnotTaken)] at hnext

/-- Settles O31: BRB and BRW are `branch`, taken; the others are `branchIf` with the test of their row in the
table (R217), a second spelling with that of the first. -/
theorem branchInstructions : Obligations.BranchInstructions := by
  refine ⟨fun _ _ h => exec_branch_always (k := 1) rfl h, fun _ _ h => exec_branch_always (k := 2) rfl h,
    ?beql, ?beqlu, ?bneq, ?bnequ, ?blss, ?bleq, ?bgtr, ?bgeq, ?bvc, ?bvs, ?bcc, ?bgequ, ?bcs, ?blssu⟩
  case beql | beqlu | blss | bvs | bcs | blssu =>
    exact completesBranch_of_branchIf (fun _ _ => rfl) fun _ => Iff.rfl
  case bneq | bnequ | bgeq | bvc | bcc | bgequ =>
    exact completesBranch_of_branchIf (fun _ _ => rfl) fun _ => iff_of_eq (Bool.not_eq_true' _)
  case bleq => exact completesBranch_of_branchIf (fun _ _ => rfl) fun _ => Bool.or_eq_true_iff
  case bgtr =>
    refine completesBranch_of_branchIf (fun _ _ => rfl) fun _ => ?_
    rw [Bool.not_eq_true', Bool.or_eq_false_iff]

end Sys2Proof.Proofs

/-!
PROOF. The subroutine instructions JSB and RSB (45_procedure_call.md R242 to R244), and the laws of register
updates, pops and fields that the procedure instructions share with them.
-/

namespace Sys2Proof.Proofs

open Sys2Proof Sys2Proof.Machine

/-! ## Registers, pops and fields -/

/-- Two updates of different registers can be made in either order. -/
theorem setR_comm (s : State) {m n : Reg} (h : m ≠ n) (v w : Word) :
    (s.setR m v).setR n w = (s.setR n w).setR m v := by
  have hmn : m.val ≠ n.val := fun he => h (Fin.ext he)
  simp only [State.setR, Vector.set_comm _ _ hmn]

/-- A lower-numbered register is kept. -/
theorem r_setR_above (s : State) {m n : Reg} (v : Word) (h : n < m) : (s.setR m v).r n = s.r n :=
  r_setR_other s v h.ne'

theorem setR_setPsl (s : State) (n : Reg) (v w : Word) : (s.setPsl w).setR n v = (s.setR n v).setPsl w := rfl

theorem sp_setSp (s : State) (v : Word) : (s.setR Reg.sp v).sp = v := r_setR_same ..

theorem sp_setPc (s : State) (v : Word) : (s.setPc v).sp = s.sp := r_setR_other s v (by decide)

/-- A pop where SP is `p` and memory exists there. -/
theorem pop32_at {s : State} {p : Word} (hsp : s.sp = p) (h : canAccess 4 p s) :
    pop32 s = .ok (s.long p, s.setR Reg.sp (p + 4)) := by
  subst hsp
  exact pop32_ok_iff.2 ⟨h, rfl, rfl⟩

/-- A field of a longword, widened again, is the longword shifted and masked. -/
theorem setWidth_extract (w : Word) (lo len : Nat) :
    (w.extractLsb' lo len).setWidth 32 = (w >>> lo) &&& BitVec.ofNat 32 (2 ^ len - 1) := by
  apply word_ext
  intro i hi
  simp only [BitVec.getLsbD_setWidth, BitVec.getLsbD_extractLsb', BitVec.getLsbD_and,
    BitVec.getLsbD_ushiftRight, BitVec.getLsbD_ofNat, Nat.testBit_two_pow_sub_one, hi, decide_true,
    Bool.true_and]
  exact Bool.and_comm _ _

/-- The field of the highest two bits, widened again, is the longword shifted. -/
theorem setWidth_extract_top (w : Word) : (w.extractLsb' 30 2).setWidth 32 = w >>> 30 := by
  rw [setWidth_extract]
  apply word_ext
  intro i hi
  interval_cases i <;> simp

/-! ## Subroutine linkage -/

/-- What a push has done is not about the program counter. -/
theorem pushed_setPc {s u t : State} {sps : List Spec} {v : Word} (h : Pushed s u t sps v) (a : Word) :
    Pushed s (u.setPc a) (t.setPc a) sps v where
  sp := by rw [sp_setPc, sp_setPc, h.sp]
  value := by rw [sp_setPc, long_setR, h.value]
  evaluated n hn := by simp only [r_setR, h.evaluated n hn]
  regs n hsp hpc hn := (r_setR_other t a hpc.symm).trans (h.regs n hsp hpc hn)
  bytes x hx := by
    rw [sp_setPc] at hx
    exact (byteAt_setR ..).trans (h.bytes x hx)
  recorded := by
    rw [sp_setPc]
    exact ⟨h.recorded.mem, h.recorded.kept⟩
  rest := by rw [State.setPc, State.setR, h.rest]

/-- JSB pushes the address of the next instruction, then goes to its target (R242). -/
theorem exec_jsb {dst : Spec} {s u t : State} {a : Word} (h : operandsA .b dst s = .ok (a, u))
    (ht : push32 u.pc u = .ok t) : exec (.jsb dst) s = .next (t.setPc a) := by
  obtain ⟨s1, hopcode, hdst⟩ := bind_ok_iff.1 h
  exact exec_next rfl hopcode ((bind_of_ok hdst _).trans (bind_of_ok ht _))

/-- RSB goes to the longword it pops (R244). -/
theorem exec_rsb {s : State} (hfetch : canFetch 1 s) (hstack : canAccess 4 s.sp s) :
    exec .rsb s = .next ((s.setR Reg.sp (s.sp + 4)).setPc (s.long s.sp)) := by
  refine exec_next rfl (fetch_ok hfetch) ((bind_of_ok (pop32_at (sp_setPc s _) hstack) _).trans ?_)
  simp only [long_setR]
  rw [State.setPc, setR_comm s (by decide), setR_setR_same]

/-- Settles O35: JSB is a push of the program counter and RSB a pop into it. -/
theorem subroutineLinkage : Obligations.SubroutineLinkage := by
  refine ⟨fun dst s u a h hstack => ?_, fun s => exec_rsb⟩
  have he := evaluated_operandsA h
  obtain ⟨t, ht⟩ : ∃ t, push32 u.pc u = .ok t :=
    ⟨_, push32_ok_iff.2 ⟨(he.canAccess_iff _ _).2 hstack, rfl⟩⟩
  have hpc : (t.setPc a).pc = a := r_setR_same ..
  refine ⟨t.setPc a, exec_jsb h ht, hpc, ?_, ?_⟩
  · rw [hpc]
    exact pushed_setPc (pushed_of_push32 he ht) a
  · obtain ⟨-, rfl⟩ := push32_ok_iff.1 ht
    rw [psl_setR, psl_storeBytes, psl_setR, he.psl]

end Sys2Proof.Proofs

/-!
PROOF. CALLS and CALLG (45_procedure_call.md R236 to R239).

Both are one form, `enterCall`: the entry mask is checked, the argument counts (one for CALLS, none for CALLG) are
pushed, and then the frame. AP, FP and PC are pushed like the registers that the mask names, so the frame is one
run of pushes from the aligned SP: where it completes and what lies in it follow from the laws of such a run.
-/

namespace Sys2Proof.Proofs

open Sys2Proof Sys2Proof.Machine

/-! ## The PSL of a call (R236, R237) -/

theorem pslFlags_afterCall (mask : BitVec 16) (w : Word) :
    pslFlags (pslAfterCall mask w) = { n := false, z := false, v := false, c := false } := by
  simp only [pslFlags, pslN, pslZ, pslV, pslC, pslAfterCall, getLsbD_setBit, getLsbD_pslWithFlags]
  rfl

/-- A call takes IV and DV from its entry mask and clears FU (R237). -/
theorem enables_afterCall (mask : BitVec 16) (w : Word) :
    pslIV (pslAfterCall mask w) = mask.getLsbD 14 ∧ pslFU (pslAfterCall mask w) = false ∧
      pslDV (pslAfterCall mask w) = mask.getLsbD 15 := by
  simp only [pslIV, pslFU, pslDV, pslAfterCall, getLsbD_setBit]
  exact ⟨rfl, rfl, rfl⟩

/-- A call keeps T and every bit of the PSL above the low byte. -/
theorem pslAfterCall_and (mask : BitVec 16) (w : Word) :
    pslAfterCall mask w &&& 0xFFFFFF10 = w &&& 0xFFFFFF10 := by
  have hflags (f : Flags) : pslWithFlags f w &&& 0xFFFFFF10 = w &&& 0xFFFFFF10 := by
    simp only [pslWithFlags, setBit]
    iterate 4 rw [setField_and_of_disjoint (by decide)]
  simp only [pslAfterCall, setBit]
  iterate 3 rw [setField_and_of_disjoint (by decide)]
  exact hflags _

/-! ## A call as one run of pushes (R239) -/

/-- The registers that a call saves, in the order of the frame. -/
def frameRegs (mask : BitVec 16) : List Reg :=
  Reg.ap :: Reg.fp :: Reg.pc :: maskedRegs (mask.extractLsb' 0 12)

/-- The longwords of the frame that a call makes in `s`, the lowest first. -/
def frameLongs (calls : Bool) (mask : BitVec 16) (s : State) : List Word :=
  [0, frameStatus (s.sp.extractLsb' 0 2) calls mask s.psl] ++ (frameRegs mask).map s.r

/-- SP rounded down to a longword, where the frame begins. -/
def alignSp (s : State) : State := s.setR Reg.sp (s.sp &&& 0xFFFFFFFC)

/-- The procedure at `a` entered, its frame at SP. -/
def enterProcedure (mask : BitVec 16) (ap a : Word) (s : State) : State :=
  (((s.setR Reg.fp s.sp).setR Reg.ap ap).setPsl (pslAfterCall mask s.psl)).setPc (a + 2)

/-- The registers below AP are those of the state in which the procedure is entered. -/
theorem r_enterProcedure (mask : BitVec 16) (ap a : Word) (s : State) {n : Reg} (hn : n < Reg.ap) :
    (enterProcedure mask ap a s).r n = s.r n := by
  rw [enterProcedure, r_setR_above _ _ (hn.trans (by decide)), r_setPsl, r_setR_above _ _ hn,
    r_setR_above _ _ (hn.trans (by decide))]

theorem ap_enterProcedure (mask : BitVec 16) (ap a : Word) (s : State) :
    (enterProcedure mask ap a s).r Reg.ap = ap := by
  rw [enterProcedure, r_setR_above _ _ (by decide), r_setPsl, r_setR_same]

theorem fp_enterProcedure (mask : BitVec 16) (ap a : Word) (s : State) :
    (enterProcedure mask ap a s).r Reg.fp = s.sp := by
  rw [enterProcedure, r_setR_above _ _ (by decide), r_setPsl, r_setR_other _ _ (by decide), r_setR_same]

theorem sp_enterProcedure (mask : BitVec 16) (ap a : Word) (s : State) :
    (enterProcedure mask ap a s).sp = s.sp := by
  rw [enterProcedure, sp_setPc, State.sp, r_setPsl, r_setR_other _ _ (by decide), r_setR_other _ _ (by decide)]

theorem sp_alignSp (s : State) : (alignSp s).sp = s.sp &&& 0xFFFFFFFC := r_setR_same ..

theorem sp_not_mem_frameRegs (mask : BitVec 16) : Reg.sp ∉ frameRegs mask := by
  obtain ⟨hlt, -, -⟩ := maskedRegs_plain (mask.extractLsb' 0 12)
  simp only [frameRegs, List.mem_cons, not_or]
  exact ⟨by decide, by decide, by decide, fun h => absurd (hlt _ h) (by decide)⟩

theorem length_frameLongs (calls : Bool) (mask : BitVec 16) (s : State) :
    4 * (frameLongs calls mask s).length = frameSize mask := by
  simp only [frameLongs, frameRegs, frameSize, List.length_append, List.length_map, List.length_cons,
    List.length_nil]
  ring

theorem frameSize_le (mask : BitVec 16) : frameSize mask ≤ 68 := by
  obtain ⟨-, -, hlength⟩ := maskedRegs_plain (mask.extractLsb' 0 12)
  rw [frameSize]
  omega

/-- The status longword of R239 in the spec's own formula. -/
theorem frameStatus_eq (top : Word) (calls : Bool) (mask : BitVec 16) (psl : Word) :
    frameStatus (top.extractLsb' 0 2) calls mask psl =
      ((top &&& 3) <<< 30) ||| ((BitVec.ofBool calls).setWidth 32 <<< 29) |||
        ((mask &&& 0xFFF).setWidth 32 <<< 16) ||| (psl &&& 0x0000FFE0) := by
  apply word_ext
  intro i hi
  simp only [frameStatus, BitVec.getLsbD_append]
  interval_cases i <;> simp

/-- A call frame is one run of pushes from the aligned SP: AP, FP and PC are pushed like the registers that the
mask names. -/
theorem callFrame_eq (calls : Bool) (mask : BitVec 16) (ap a : Word) (s : State) :
    callFrame calls mask ap a s =
      pushParams (frameLongs calls mask s) (alignSp s) >>= fun u => .ok (enterProcedure mask ap a u) := by
  have hsp := sp_not_mem_frameRegs mask
  have hsaved : (frameRegs mask).map s.r = (frameRegs mask).map (alignSp s).r :=
    List.map_congr_left fun n hn => (r_setR_other s _ (ne_of_mem_of_not_mem hn hsp).symm).symm
  have hsize := frameSize_le mask
  rw [← length_frameLongs calls mask s, frameLongs, List.length_append, List.length_map] at hsize
  rw [frameLongs, pushParams_append, hsaved, ← pushRegs_eq hsp (by omega)]
  simp only [callFrame, frameRegs, pushRegs, pushParams, bind_assoc]
  rfl

/-- A call frame completes when memory exists at each of its bytes. -/
theorem callFrame_completes_iff {calls : Bool} {mask : BitVec 16} {ap a : Word} {s : State} :
    (∃ t, callFrame calls mask ap a s = .ok t) ↔
      canAccess (frameSize mask) (frameBase s.sp mask) s := by
  have hsize := length_frameLongs calls mask s
  have hpushes := pushParams_completes_iff (vs := frameLongs calls mask s) (s := alignSp s)
    (by have := frameSize_le mask; omega)
  rw [hsize, sp_alignSp] at hpushes
  rw [callFrame_eq]
  constructor
  · rintro ⟨t, ht⟩
    obtain ⟨u, hu, -⟩ := bind_ok_iff.1 ht
    exact hpushes.1 ⟨u, hu⟩
  · intro hmem
    obtain ⟨u, hu⟩ := hpushes.2 hmem
    exact ⟨_, bind_of_ok hu _⟩

/-! ## Entering a procedure -/

/-- CALLS and CALLG after their operands: the mask checked, the argument counts `counts` pushed (one for CALLS,
none for CALLG), the frame built and the procedure entered with the AP that `ap` gives (R236, R238). -/
def enterCall (calls : Bool) (counts : List Word) (ap : State → Word) (a : Word) (u : State) :
    Except Stop State := do
  let mask ← entryMask a u
  let t ← pushParams counts u
  callFrame calls mask (ap t) a t

/-- The opcode and two operands of access types r and a. -/
theorem operandsRA_ok {src dst : Spec} {s u : State} {n a : Word} (h : operandsRA src dst s = .ok (n, a, u)) :
    ∃ t t', fetch 1 s = .ok t ∧ evalRead .l src t = .ok (n, t') ∧ evalAddress .b dst t' = .ok (a, u) := by
  obtain ⟨⟨n', t'⟩, h1, h⟩ := bind_ok_iff.1 h
  obtain ⟨⟨a', u'⟩, hdst, h⟩ := bind_ok_iff.1 h
  obtain ⟨t, hopcode, hsrc⟩ := operandsR_ok h1
  cases h
  exact ⟨t, t', hopcode, hsrc, hdst⟩

/-- The opcode and two operands of access type a. -/
theorem operandsAA_ok {src dst : Spec} {s u : State} {al a : Word} (h : operandsAA src dst s = .ok (al, a, u)) :
    ∃ t t', fetch 1 s = .ok t ∧ evalAddress .b src t = .ok (al, t') ∧ evalAddress .b dst t' = .ok (a, u) := by
  obtain ⟨⟨al', t'⟩, h1, h⟩ := bind_ok_iff.1 h
  obtain ⟨⟨a', u'⟩, hdst, h⟩ := bind_ok_iff.1 h
  obtain ⟨t, hopcode, hsrc⟩ := bind_ok_iff.1 h1
  cases h
  exact ⟨t, t', hopcode, hsrc, hdst⟩

theorem evaluated_operandsRA {src dst : Spec} {s u : State} {n a : Word}
    (h : operandsRA src dst s = .ok (n, a, u)) : Evaluated s u (stepped [src, dst]) := by
  obtain ⟨t, t', hopcode, hsrc, hdst⟩ := operandsRA_ok h
  rw [stepped_pair]
  exact ((evaluated_fetch hopcode).trans (evalRead_ok hsrc)).trans (evalAddress_ok hdst)

theorem evaluated_operandsAA {src dst : Spec} {s u : State} {al a : Word}
    (h : operandsAA src dst s = .ok (al, a, u)) : Evaluated s u (stepped [src, dst]) := by
  obtain ⟨t, t', hopcode, hsrc, hdst⟩ := operandsAA_ok h
  rw [stepped_pair]
  exact ((evaluated_fetch hopcode).trans (evalAddress_ok hsrc)).trans (evalAddress_ok hdst)

/-- CALLS pushes its argument count, and AP points at it (R236). -/
theorem exec_calls {numarg dst : Spec} {s u : State} {n a : Word}
    (h : operandsRA numarg dst s = .ok (n, a, u)) :
    exec (.calls numarg dst) s = conclude s (enterCall true [n] State.sp a u) := by
  obtain ⟨s1, s2, hopcode, hnumarg, hdst⟩ := operandsRA_ok h
  refine congrArg (conclude s) ((bind_of_ok hopcode _).trans ?_)
  exact (bind_of_ok hnumarg _).trans (bind_of_ok hdst _)

/-- CALLG pushes no count; AP is the address of the argument list (R238). -/
theorem exec_callg {arglist dst : Spec} {s u : State} {al a : Word}
    (h : operandsAA arglist dst s = .ok (al, a, u)) :
    exec (.callg arglist dst) s = conclude s (enterCall false [] (fun _ => al) a u) := by
  obtain ⟨s1, s2, hopcode, harglist, hdst⟩ := operandsAA_ok h
  refine congrArg (conclude s) ((bind_of_ok hopcode _).trans ?_)
  exact (bind_of_ok harglist _).trans (bind_of_ok hdst _)

/-- A call completes when its mask can be read and is legal and memory exists for the counts and the frame. -/
theorem enterCall_completes_iff {calls : Bool} {counts : List Word} {ap : State → Word} {a : Word}
    {u : State} (hl : counts.length ≤ 1) :
    (∃ t, enterCall calls counts ap a u = .ok t) ↔
      (canAccess 2 a u ∧ (u.word a).extractLsb' 12 2 = 0) ∧
      canAccess (4 * counts.length) (u.sp - BitVec.ofNat 32 (4 * counts.length)) u ∧
      canAccess (frameSize (u.word a))
        (frameBase (u.sp - BitVec.ofNat 32 (4 * counts.length)) (u.word a)) u := by
  have hframe {v : State} (hv : pushParams counts u = .ok v) :
      (∃ t, callFrame calls (u.word a) (ap v) a v = .ok t) ↔ canAccess (frameSize (u.word a))
        (frameBase (u.sp - BitVec.ofNat 32 (4 * counts.length)) (u.word a)) u := by
    have hpushed := pushParams_ok (by omega) hv
    rw [callFrame_completes_iff, hpushed.sp, canAccess_congr (by rw [hpushed.rest])]
  rw [← pushParams_completes_iff (by omega)]
  simp only [enterCall, bind_ok_iff, entryMask_ok_iff]
  constructor
  · rintro ⟨t, _, ⟨hmask, rfl, hmbz⟩, v, hv, ht⟩
    exact ⟨⟨hmask, hmbz⟩, ⟨v, hv⟩, (hframe hv).1 ⟨t, ht⟩⟩
  · rintro ⟨⟨hmask, hmbz⟩, ⟨v, hv⟩, hmem⟩
    obtain ⟨t, ht⟩ := (hframe hv).2 hmem
    exact ⟨t, _, ⟨hmask, rfl, hmbz⟩, v, hv, ht⟩

/-! ## What a call has done -/

/-- SP before the alignment is the end of the frame and the bytes skipped (R239). -/
theorem plus_frameBase (top : Word) (mask : BitVec 16) :
    (frameBase top mask).plus (frameSize mask + (top &&& 3).toNat) = top := by
  have hparts : (top &&& 0xFFFFFFFC) + (top &&& 3) = top := by
    rw [BitVec.add_eq_or_of_and_eq_zero _ _ (by rw [BitVec.and_assoc, ← BitVec.and_assoc _ top,
      BitVec.and_comm _ top, BitVec.and_assoc top]; simp), ← BitVec.and_or_distrib_left]
    exact BitVec.and_allOnes
  calc (frameBase top mask).plus (frameSize mask + (top &&& 3).toNat)
      = (top &&& 0xFFFFFFFC) + (top &&& 3) := by
        rw [Word.plus, frameBase, BitVec.ofNat_add, BitVec.ofNat_toNat, BitVec.setWidth_eq, ← BitVec.add_assoc,
          BitVec.sub_add_cancel]
    _ = top := hparts

/-- The bytes of the frame are apart from those of the argument count above it. -/
theorem frame_apart {top : Word} {mask : BitVec 16} {i k : Nat} (hi : i < frameSize mask) (hk : k < 4) :
    top.plus k ≠ (frameBase top mask).plus i := by
  intro he
  have hsize := frameSize_le mask
  have hlow : (top &&& 3).toNat ≤ 3 := by rw [BitVec.toNat_and]; exact Nat.and_le_right
  have hoffsets : (frameBase top mask).plus (frameSize mask + (top &&& 3).toNat + k)
      = (frameBase top mask).plus i := by rw [← plus_plus, plus_frameBase, he]
  have := plus_inj _ (by omega) (by omega) hoffsets
  omega

/-- A call has entered the procedure with the frame pushed below the counts. -/
theorem enterCall_ok {calls : Bool} {counts : List Word} {ap : State → Word} {a : Word} {u t : State}
    (hl : counts.length ≤ 1) (h : enterCall calls counts ap a u = .ok t) :
    ∃ v w, PushedAll counts u v ∧ PushedAll (frameLongs calls (u.word a) v) (alignSp v) w ∧
      t = enterProcedure (u.word a) (ap v) a w := by
  obtain ⟨mask, hmask, h⟩ := bind_ok_iff.1 h
  obtain ⟨-, rfl, -⟩ := entryMask_ok_iff.1 hmask
  obtain ⟨v, hv, h⟩ := bind_ok_iff.1 h
  rw [callFrame_eq] at h
  obtain ⟨w, hw, h⟩ := bind_ok_iff.1 h
  have hsize := frameSize_le (u.word a)
  rw [← length_frameLongs calls _ v] at hsize
  exact ⟨v, w, pushParams_ok (by omega) hv, pushParams_ok (by omega) hw, (Except.ok.inj h).symm⟩

section Called

/-! From `u` to `v` the counts have been pushed, from there to `w` the frame. -/

variable {calls : Bool} {mask : BitVec 16} {counts : List Word} {s u v w : State}

theorem psl_of_pushedAll {vs : List Word} (h : PushedAll vs u v) : v.psl = u.psl := by
  rw [h.rest]

theorem sp_of_framePushed (hframe : PushedAll (frameLongs calls mask v) (alignSp v) w) :
    w.sp = frameBase v.sp mask := by
  rw [hframe.sp, length_frameLongs, sp_alignSp, frameBase]

theorem long_enterProcedure (hframe : PushedAll (frameLongs calls mask v) (alignSp v) w) (x a : Word) {j : Nat}
    {y : Word} (h : (frameLongs calls mask v)[j]? = some y) :
    (enterProcedure mask x a w).long ((frameBase v.sp mask).plus (4 * j)) = y := by
  rw [← sp_of_framePushed hframe]
  exact (long_setR ..).trans (hframe.value j y h)

/-- The argument count above the frame is not touched by the frame. -/
theorem long_count {n : Word} (hcounts : PushedAll [n] u v)
    (hframe : PushedAll (frameLongs calls mask v) (alignSp v) w) (x a : Word) :
    (enterProcedure mask x a w).long v.sp = n := by
  calc (enterProcedure mask x a w).long v.sp
      = v.long v.sp := long_congr fun k hk => hframe.bytes _ fun i hi => by
        rw [length_frameLongs] at hi
        rw [sp_of_framePushed hframe]
        exact frame_apart hi hk
    _ = n := by simpa using hcounts.value 0 n rfl

/-- The bytes recorded by a call are those of the frame and of the counts. -/
theorem recorded_of_framePushed (hcounts : PushedAll counts u v)
    (hframe : PushedAll (frameLongs calls mask v) (alignSp v) w) :
    Recorded u w ((List.range (frameSize mask)).map (frameBase v.sp mask).plus ++
      (List.range (4 * counts.length)).map v.sp.plus) := by
  have hw : Recorded v w ((List.range (frameSize mask)).map (frameBase v.sp mask).plus) := by
    rw [← sp_of_framePushed hframe, ← length_frameLongs calls mask v]
    exact hframe.recorded.of_eq rfl rfl
  refine (hcounts.recorded.trans (by rw [hcounts.rest]) hw).congr fun y => ?_
  rw [List.mem_append, List.mem_append, or_comm]

/-- A call that has pushed its counts and its frame has done what R239 says. -/
theorem called_of_pushedAll {sps : List Spec} (he : Evaluated s u (stepped sps)) (hcounts : PushedAll counts u v)
    (hframe : PushedAll (frameLongs calls mask v) (alignSp v) w) (x a : Word) :
    Called s u (enterProcedure mask x a w) sps ((BitVec.ofBool calls).setWidth 32) mask v.sp x a
      ((List.range (4 * counts.length)).map v.sp.plus) := by
  have hsp := sp_of_framePushed hframe
  have hlong {j : Nat} {y : Word} := long_enterProcedure hframe x a (j := j) (y := y)
  have hvr (n : Reg) (hn : n ≠ Reg.sp) : v.r n = u.r n := hcounts.regs n hn
  have hvpsl : v.psl = u.psl := psl_of_pushedAll hcounts
  have hwpsl : w.psl = u.psl := (psl_of_pushedAll hframe).trans hvpsl
  have hlow (n : Reg) (hn : n < Reg.ap) : (enterProcedure mask x a w).r n = u.r n := by
    have hn' : n < Reg.sp := hn.trans (by decide)
    rw [r_enterProcedure _ _ _ _ hn, hframe.regs n hn'.ne, alignSp, r_setR_above _ _ hn', hvr n hn'.ne]
  constructor
  case fp => rw [fp_enterProcedure, hsp]
  case sp => rw [sp_enterProcedure, hsp]
  case ap => exact ap_enterProcedure ..
  case pc => exact r_setR_same ..
  case handler => simpa using hlong (j := 0) rfl
  case status => exact (hlong (j := 1) rfl).trans (by rw [frameStatus_eq, hvpsl])
  case savedAp => exact (hlong (j := 2) rfl).trans (hvr _ (by decide))
  case savedFp => exact (hlong (j := 3) rfl).trans (hvr _ (by decide))
  case savedPc => exact (hlong (j := 4) rfl).trans (hvr _ (by decide))
  case saved =>
    intro j n hj
    have hn : n < Reg.sp := ((maskedRegs_plain _).1 n (List.mem_of_getElem? hj)).trans (by decide)
    have hplace : frameBase v.sp mask + 20 + BitVec.ofNat 32 (4 * j) = (frameBase v.sp mask).plus (4 * (j + 5)) :=
      (plus_plus _ 20 (4 * j)).trans (congrArg _ (by ring))
    rw [hplace, hlong (j := j + 5) (y := v.r n) ?_, hvr n hn.ne]
    simp [frameLongs, frameRegs, hj]
  case evaluated => exact hlow
  case regs =>
    intro n hn hsteps
    exact (hlow n hn).trans (he.regs n (hn.trans (by decide)).ne hsteps)
  case flags => exact pslFlags_afterCall mask w.psl
  case enables => exact enables_afterCall mask w.psl
  case psl => exact (pslAfterCall_and mask w.psl).trans (by rw [hwpsl, he.psl])
  case bytes =>
    intro y hyframe hycounts
    have hw : w.byteAt y = v.byteAt y := hframe.bytes y fun i hi hy => hyframe <| by
      rw [length_frameLongs] at hi
      exact List.mem_map.2 ⟨i, List.mem_range.2 hi, by rw [hy, hsp]⟩
    have hv : v.byteAt y = u.byteAt y := hcounts.bytes y fun i hi hy => hycounts <|
      List.mem_map.2 ⟨i, List.mem_range.2 hi, hy.symm⟩
    exact hw.trans (hv.trans (he.byteAt y))
  case recorded =>
    have hall := (recorded_of_framePushed hcounts hframe).of_eq he.written.symm he.cfg.symm
    exact ⟨hall.mem, hall.kept⟩
  case rest =>
    have hv : v = { s with reg := v.reg, mem := v.mem, written := v.written } :=
      hcounts.rest.trans (by rw [he.rest])
    have hw : w = { s with reg := w.reg, mem := w.mem, written := w.written } :=
      hframe.rest.trans (by rw [alignSp, State.setR, hv])
    rw [enterProcedure, State.setPc, State.setR, State.setPsl, hw]
    rfl

end Called

/-- What CALLS has done once its operands have been evaluated. -/
theorem called_of_calls {numarg dst : Spec} {s u t : State} {n a : Word}
    (h : operandsRA numarg dst s = .ok (n, a, u)) (ht : enterCall true [n] State.sp a u = .ok t) :
    t.long (u.sp - 4) = n ∧ Called s u t [numarg, dst] 1 (u.word a) (u.sp - 4) (u.sp - 4) a
      ((List.range 4).map (u.sp - 4).plus) := by
  obtain ⟨v, w, hcounts, hframe, rfl⟩ := enterCall_ok (by simp) ht
  have hsp : u.sp - 4 = v.sp := hcounts.sp.symm
  rw [hsp]
  exact ⟨long_count hcounts hframe _ _, called_of_pushedAll (evaluated_operandsRA h) hcounts hframe _ _⟩

/-- What CALLG has done once its operands have been evaluated. -/
theorem called_of_callg {arglist dst : Spec} {s u t : State} {al a : Word}
    (h : operandsAA arglist dst s = .ok (al, a, u)) (ht : enterCall false [] (fun _ => al) a u = .ok t) :
    Called s u t [arglist, dst] 0 (u.word a) u.sp al a [] := by
  obtain ⟨v, w, hcounts, hframe, rfl⟩ := enterCall_ok (by simp) ht
  have hsp : u.sp = v.sp := by simpa using hcounts.sp.symm
  rw [hsp]
  exact called_of_pushedAll (evaluated_operandsAA h) hcounts hframe _ _

/-- Settles O32: with memory for the count and the frame the call completes, and the run of pushes is the frame. -/
theorem callsBuildTheFrame : Obligations.CallsBuildTheFrame := by
  refine ⟨fun numarg dst s u n a h hmask hmbz hcount hframe => ?_,
    fun arglist dst s u al a h hmask hmbz hframe => ?_⟩
  · have hmem := (evaluated_operandsRA h).canAccess_iff
    obtain ⟨t, ht⟩ := (enterCall_completes_iff (calls := true) (counts := [n]) (ap := State.sp) le_rfl).2
      ⟨⟨(hmem _ _).2 hmask, hmbz⟩, (hmem _ _).2 hcount, (hmem _ _).2 hframe⟩
    exact ⟨t, by rw [exec_calls h, ht]; rfl, called_of_calls h ht⟩
  · have hmem := (evaluated_operandsAA h).canAccess_iff
    obtain ⟨t, ht⟩ := (enterCall_completes_iff (calls := false) (counts := []) (ap := fun _ => al) (by decide)).2
      ⟨⟨(hmem _ _).2 hmask, hmbz⟩, by simp [canAccess], by simpa using (hmem _ _).2 hframe⟩
    exact ⟨t, by rw [exec_callg h, ht]; rfl, called_of_callg h ht⟩

end Sys2Proof.Proofs

/-!
PROOF. RET (45_procedure_call.md R240), and that it undoes CALLS (R241).

RET pops the frame in three runs (AP and FP, the PC, the saved registers) and then leaves it: the alignment
undone, the low byte of the PSL loaded, the arguments removed. That it undoes CALLS follows from what the two have
done, `Called` and `Returned`, by the fields of the status longword that the one writes and the other reads.
-/

namespace Sys2Proof.Proofs

open Sys2Proof Sys2Proof.Machine

/-! ## A return as a run of pops (R240) -/

/-- From `s`, the registers `ns` have been popped, the first from the lowest longword, and nothing else done. -/
structure PoppedAll (ns : List Reg) (s t : State) : Prop where
  sp : t.sp = s.sp.plus (4 * ns.length)
  value : ∀ (j : Nat) (n : Reg), ns[j]? = some n → t.r n = s.long (s.sp.plus (4 * j))
  regs : ∀ n, n ≠ Reg.sp → n ∉ ns → t.r n = s.r n
  rest : t = { s with reg := t.reg }

/-- A run of pops, none of them of SP, completes where memory exists. -/
theorem popRegs_completes {ns : List Reg} {s : State} (hn : Reg.sp ∉ ns)
    (h : canAccess (4 * ns.length) s.sp s) : ∃ t, popRegs ns s = .ok t := by
  induction ns generalizing s with
  | nil => exact ⟨s, rfl⟩
  | cons n ns ih =>
    rw [List.mem_cons, not_or] at hn
    rw [List.length_cons, Nat.mul_succ, Nat.add_comm, canAccess_add] at h
    obtain ⟨hfirst, hrest⟩ := h
    have hsp : ((s.setR Reg.sp (s.sp + 4)).setR n (s.long s.sp)).sp = s.sp + 4 :=
      (r_setR_other _ _ (Ne.symm hn.1)).trans (sp_setSp ..)
    obtain ⟨t, ht⟩ := ih (s := (s.setR Reg.sp (s.sp + 4)).setR n (s.long s.sp)) hn.2 (by rw [hsp]; exact hrest)
    exact ⟨t, (bind_of_ok (pop32_at rfl hfirst) _).trans ht⟩

theorem popRegs_poppedAll {ns : List Reg} {s : State} (hn : Reg.sp ∉ ns) (hd : ns.Nodup)
    (h : canAccess (4 * ns.length) s.sp s) : ∃ t, popRegs ns s = .ok t ∧ PoppedAll ns s t := by
  obtain ⟨t, ht⟩ := popRegs_completes hn h
  obtain ⟨hsp, hvalue, hregs, hrest⟩ := popRegs_ok hn hd ht
  exact ⟨t, ht, hsp, hvalue, hregs, hrest⟩

/-- The end of RET, with the frame popped: the alignment undone, the low byte of the PSL loaded, and the
arguments removed where the frame is one of CALLS. -/
def leaveFrame (w newPc : Word) (s : State) : Except Stop State :=
  let s := s.setR Reg.sp (s.sp + (w.extractLsb' 30 2).setWidth 32)
  let s := s.setPsl (pslAfterReturn w s.psl)
  if w.getLsbD 29 then do
    let (n, s) ← pop32 s
    let s := s.setR Reg.sp (s.sp + 4 * (n.extractLsb' 0 8).setWidth 32)
    .ok (s.setPc newPc)
  else .ok (s.setPc newPc)

/-- RET with the status longword `w` popped: AP and FP, the PC and the saved registers are popped. -/
def popFrame (w : Word) (s : State) : Except Stop State := do
  let s ← popRegs [Reg.ap, Reg.fp] s
  let (newPc, s) ← pop32 s
  let s ← popRegs (maskedRegs (w.extractLsb' 16 12)) s
  leaveFrame w newPc s

/-- RET where the status longword can be read. -/
theorem exec_ret {s : State} (hfetch : canFetch 1 s) (hstatus : canAccess 4 (s.r Reg.fp + 4) s) :
    exec .ret s = conclude s
      (if (s.long (s.r Reg.fp + 4)).extractLsb' 8 8 != 0 then .error (.fault .reservedOperand)
       else popFrame (s.long (s.r Reg.fp + 4))
        ((s.setPc (s.pc + 1)).setR Reg.sp (s.r Reg.fp + 4 + 4))) := by
  have hfp : (s.setPc (s.pc + 1)).r Reg.fp = s.r Reg.fp := r_setR_other s _ (by decide)
  have hpop := pop32_at (s := (s.setPc (s.pc + 1)).setR Reg.sp (s.r Reg.fp + 4)) (sp_setSp _ _) hstatus
  rw [long_setR, long_setR, setR_setR_same] at hpop
  refine (runInstr_of_fetch hfetch _).trans (congrArg (conclude s) ?_)
  dsimp only
  rw [hfp, bind_of_ok hpop]
  simp only [popFrame, popRegs, bind_assoc]
  rfl

/-- SP at the end of RET, where it is `top` once the alignment is undone: past the arguments of a CALLS. -/
def leftSp (w top : Word) (s : State) : Word :=
  if w.getLsbD 29 then top + 4 + 4 * (s.long top &&& 0xFF) else top

/-- What the end of RET makes of the state in which the frame has been popped. -/
def frameLeft (w top newPc : Word) (s : State) : State :=
  ((s.setR Reg.sp (leftSp w top s)).setPsl (pslAfterReturn w s.psl)).setPc newPc

/-- The registers below SP are kept at the end of RET. -/
theorem r_frameLeft (w top newPc : Word) (s : State) {n : Reg} (hn : n < Reg.sp) :
    (frameLeft w top newPc s).r n = s.r n := by
  rw [frameLeft, r_setR_above _ _ (hn.trans (by decide)), r_setPsl, r_setR_above _ _ hn]

theorem leaveFrame_ok {w newPc top : Word} {s : State} (htop : s.sp + w >>> 30 = top)
    (hargs : w.getLsbD 29 = true → canAccess 4 top s) :
    leaveFrame w newPc s = .ok (frameLeft w top newPc s) := by
  have hcount (n : Word) : (n.extractLsb' 0 8).setWidth 32 = n &&& 0xFF := by
    rw [setWidth_extract, BitVec.ushiftRight_zero]
    rfl
  simp only [leaveFrame, frameLeft, leftSp, setWidth_extract_top, hcount, htop, psl_setR]
  split
  next hS =>
    have hpop := pop32_at (s := (s.setR Reg.sp top).setPsl (pslAfterReturn w s.psl)) (sp_setSp _ _) (hargs hS)
    rw [bind_of_ok hpop]
    simp only [setR_setPsl, setR_setR_same, r_setPsl, r_setR_same, long_setPsl, long_setR]
  next => rfl

/-- The frame from `p` up popped: from `s` to `v` AP, FP and the registers of the mask have been read from it. -/
structure FramePopped (mask : BitVec 12) (p : Word) (s v : State) : Prop where
  sp : v.sp = p.plus (12 + 4 * (maskedRegs mask).length)
  ap : v.r Reg.ap = s.long p
  fp : v.r Reg.fp = s.long (p.plus 4)
  restored : ∀ (j : Nat) (n : Reg), (maskedRegs mask)[j]? = some n → v.r n = s.long (p.plus (12 + 4 * j))
  regs : ∀ n : Reg, n < Reg.ap → n ∉ maskedRegs mask → v.r n = s.r n
  rest : v = { s with reg := v.reg }

theorem long_of_rest {s t : State} (h : t = { s with reg := t.reg }) (x : Word) : t.long x = s.long x := by
  rw [h]
  exact long_congr fun _ _ => rfl

/-- RET with the status longword popped comes to its end with the frame popped, where memory exists for it. -/
theorem popFrame_eq_leaveFrame {w p : Word} {s : State} (hsp : s.sp = p)
    (hmem : canAccess (12 + 4 * (maskedRegs (w.extractLsb' 16 12)).length) p s) :
    ∃ v, popFrame w s = leaveFrame w (s.long (p.plus 8)) v ∧ FramePopped (w.extractLsb' 16 12) p s v := by
  obtain ⟨hbelow, hnodup, -⟩ := maskedRegs_plain (w.extractLsb' 16 12)
  have hnot {n : Reg} (hn : Reg.ap ≤ n) : n ∉ maskedRegs (w.extractLsb' 16 12) :=
    fun h => absurd (hbelow n h) (not_lt.2 hn)
  obtain ⟨hlow, hmasked⟩ := canAccess_add.1 hmem
  obtain ⟨hpair, hpc⟩ := (canAccess_add (j := 8) (k := 4)).1 hlow
  subst hsp
  obtain ⟨u, hu, hpairPopped⟩ := popRegs_poppedAll (ns := [Reg.ap, Reg.fp]) (by decide) (by decide) hpair
  have hcfg : u.cfg = s.cfg := by rw [hpairPopped.rest]
  have hpop := pop32_at (p := s.sp.plus 8) hpairPopped.sp ((canAccess_congr hcfg 4 _).2 hpc)
  have husp : (u.setR Reg.sp (s.sp.plus 8 + 4)).sp = s.sp.plus 12 :=
    (sp_setSp ..).trans (plus_plus s.sp 8 4)
  obtain ⟨v, hv, hmaskPopped⟩ := popRegs_poppedAll (s := u.setR Reg.sp (s.sp.plus 8 + 4)) (hnot (by decide)) hnodup
    (by rw [husp]; exact (canAccess_congr hcfg _ _).2 hmasked)
  have hulong := long_of_rest hpairPopped.rest
  refine ⟨v, ?_, ?_⟩
  · rw [popFrame, bind_of_ok hu, bind_of_ok hpop]
    dsimp only
    rw [bind_of_ok hv, ← hulong]
  · constructor
    case sp => rw [hmaskPopped.sp, husp, plus_plus]
    case ap =>
      rw [hmaskPopped.regs _ (by decide) (hnot (by decide)), r_setR_other _ _ (by decide),
        hpairPopped.value 0 _ rfl, plus_zero]
    case fp =>
      rw [hmaskPopped.regs _ (by decide) (hnot (by decide)), r_setR_other _ _ (by decide),
        hpairPopped.value 1 _ rfl]
    case restored =>
      intro j n hj
      rw [hmaskPopped.value j n hj, husp, plus_plus, long_setR, hulong]
    case regs =>
      intro n hn hm
      have hnsp : n < Reg.sp := hn.trans (by decide)
      have hnfp : n < Reg.fp := hn.trans (by decide)
      rw [hmaskPopped.regs n hnsp.ne hm, r_setR_above _ _ hnsp,
        hpairPopped.regs n hnsp.ne (by simp [hn.ne, hnfp.ne])]
    case rest => exact hmaskPopped.rest.trans (by rw [State.setR, hpairPopped.rest])

theorem returnTop_eq (fp w : Word) : returnTop fp w = fp.plus (4 + returnSize w) + w >>> 30 :=
  congrArg (· + w >>> 30) (plus_plus fp 4 (returnSize w))

theorem pslAfterReturn_eq (w psl : Word) :
    pslAfterReturn w psl = (psl &&& 0xFFFFFF00) ||| (w &&& 0xFF) := by
  apply word_ext
  intro i hi
  simp only [pslAfterReturn, getLsbD_setField]
  interval_cases i <;> simp

/-- RET has undone its frame once it has popped it and left it (R240). -/
theorem returned_of_framePopped {s v : State} {w newPc x y : Word}
    (hpopped : FramePopped (w.extractLsb' 16 12) ((s.r Reg.fp).plus 8) ((s.setPc x).setR Reg.sp y) v)
    (hpc : newPc = s.long (s.r Reg.fp + 16)) :
    Returned s (frameLeft w (returnTop (s.r Reg.fp) w) newPc v) w := by
  have hslong (z : Word) : ((s.setPc x).setR Reg.sp y).long z = s.long z := by rw [long_setR, long_setR]
  have hvlong (z : Word) : v.long z = s.long z := by rw [long_of_rest hpopped.rest, hslong]
  have hvpsl : v.psl = s.psl := by
    rw [hpopped.rest]
    rfl
  have hr {n : Reg} := r_frameLeft w (returnTop (s.r Reg.fp) w) newPc v (n := n)
  constructor
  case ap => rw [hr (by decide), hpopped.ap, hslong]; rfl
  case fp => rw [hr (by decide), hpopped.fp, hslong, plus_plus]; rfl
  case pc => exact (r_setR_same ..).trans hpc
  case restored =>
    intro j n hj
    have hn := (maskedRegs_plain _).1 n (List.mem_of_getElem? hj)
    rw [hr (hn.trans (by decide)), hpopped.restored j n hj, hslong, plus_plus, ← Nat.add_assoc, ← plus_plus]
    rfl
  case regs =>
    intro n hn hm
    rw [hr (hn.trans (by decide)), hpopped.regs n hn hm, r_setR_above _ _ (hn.trans (by decide)),
      r_setR_above _ _ (hn.trans (by decide))]
  case sp => rw [frameLeft, sp_setPc, State.sp, r_setPsl, r_setR_same, leftSp, hvlong]
  case psl => rw [frameLeft, psl_setR, psl_setPsl, pslAfterReturn_eq, hvpsl]
  case rest =>
    rw [frameLeft, State.setPc, State.setPsl, State.setR, State.setR, hpopped.rest]
    rfl

/-- Settles O33: the frame is popped in the order in which it lies, then left. -/
theorem retUndoesTheFrame : Obligations.RetUndoesTheFrame := by
  rintro s w hfetch hw hmbz hframe hargs
  have hsize : returnSize w = 4 + (12 + 4 * (maskedRegs (w.extractLsb' 16 12)).length) := by
    rw [returnSize]
    ring
  rw [hsize, canAccess_add] at hframe
  obtain ⟨hstatus, hframe⟩ := hframe
  obtain ⟨v, hbody, hpopped⟩ := popFrame_eq_leaveFrame
    (s := (s.setPc (s.pc + 1)).setR Reg.sp (s.r Reg.fp + 4 + 4)) ((sp_setSp _ _).trans (plus_plus _ 4 4))
    (by rwa [← plus_plus _ 4 4])
  have htop : v.sp + w >>> 30 = returnTop (s.r Reg.fp) w := by
    rw [hpopped.sp, returnTop_eq, plus_plus, hsize]
    congr 2
    ring
  refine ⟨_, ?_, returned_of_framePopped hpopped (newPc := s.long (s.r Reg.fp + 16)) rfl⟩
  rw [exec_ret hfetch hstatus, ← hw, if_neg (by simp [hmbz]), hbody, leaveFrame_ok htop (by
    rw [hpopped.rest]; exact hargs), long_setR, long_setR, plus_plus]
  rfl

/-! ## A call undone (R236, R240, R241) -/

/-- Where exceptions are not delivered, an instruction that comes to a next state has completed. -/
theorem ok_of_conclude_next {s t : State} {x : Except Stop State} (hd : s.cfg.deliver = false)
    (hx : Confines s id x) (h : conclude s x = .next t) : x = .ok t := by
  rcases conclude_next h with hok | ⟨hd', -⟩ | ⟨k, u, htrap, hd', -⟩
  · exact hok
  · exact absurd (hd'.symm.trans hd) (by decide)
  · rw [(hx.trap k u htrap).cfg] at hd'
    exact absurd (hd'.symm.trans hd) (by decide)

theorem confines_enterCall {calls : Bool} {counts : List Word} {ap : State → Word} {a : Word} {u : State} :
    Confines u id (enterCall calls counts ap a u) :=
  .bind .entryMask fun _ _ => .bind .pushParams fun _ _ => .callFrame

section FrameStatus

variable (top : Word) (calls : Bool) (mask : BitVec 16) (psl : Word)

theorem frameStatus_spa : frameStatus (top.extractLsb' 0 2) calls mask psl >>> 30 = top &&& 3 := by
  apply word_ext
  intro i hi
  simp only [frameStatus, BitVec.getLsbD_ushiftRight, BitVec.getLsbD_append]
  interval_cases i <;> simp

theorem frameStatus_mask :
    (frameStatus (top.extractLsb' 0 2) calls mask psl).extractLsb' 16 12 = mask.extractLsb' 0 12 := by
  apply BitVec.eq_of_getLsbD_eq
  intro i hi
  simp only [frameStatus, BitVec.getLsbD_extractLsb', BitVec.getLsbD_append]
  interval_cases i <;> simp

theorem frameStatus_s : (frameStatus (top.extractLsb' 0 2) calls mask psl).getLsbD 29 = calls := by
  simp only [frameStatus, BitVec.getLsbD_append]
  simp

variable {psl}

/-- The byte that RET checks is zero where the must-be-zero byte of the caller's PSL is. -/
theorem frameStatus_mbz (h : psl &&& 0x0000FF10 = 0) :
    (frameStatus (top.extractLsb' 0 2) calls mask psl).extractLsb' 8 8 = 0 := by
  apply BitVec.eq_of_getLsbD_eq
  intro i hi
  have hzero := congrArg (BitVec.getLsbD · (8 + i)) h
  simp only [frameStatus, BitVec.getLsbD_extractLsb', BitVec.getLsbD_append]
  interval_cases i <;> simpa using hzero

/-- The PSL that RET makes of the procedure's PSL `w` is the caller's without the condition codes. -/
theorem frameStatus_psl {w : Word} (h : psl &&& 0x0000FF10 = 0)
    (hw : w &&& 0xFFFFFF10 = psl &&& 0xFFFFFF10) :
    (w &&& 0xFFFFFF00) ||| (frameStatus (top.extractLsb' 0 2) calls mask psl &&& 0xFF) = psl &&& 0xFFFFFFF0 := by
  apply word_ext
  intro i hi
  have hzero := congrArg (BitVec.getLsbD · i) h
  have hkept := congrArg (BitVec.getLsbD · i) hw
  clear h hw
  simp only [frameStatus, BitVec.getLsbD_and, BitVec.getLsbD_or, BitVec.getLsbD_append] at hzero hkept ⊢
  interval_cases i <;> simp_all

end FrameStatus

/-- The bytes that RET reads of a frame are all but its lowest longword. -/
theorem frameSize_eq_returnSize {mask : BitVec 16} {w : Word} (h : w.extractLsb' 16 12 = mask.extractLsb' 0 12) :
    frameSize mask = 4 + returnSize w := by
  rw [frameSize, returnSize, h]
  ring

/-- SP after the frame of a call has been popped is SP before the frame was aligned. -/
theorem returnTop_frameBase {top w : Word} {mask : BitVec 16}
    (hmask : w.extractLsb' 16 12 = mask.extractLsb' 0 12) (hspa : w >>> 30 = top &&& 3) :
    returnTop (frameBase top mask) w = top := by
  rw [returnTop_eq, ← frameSize_eq_returnSize hmask, hspa]
  calc (frameBase top mask).plus (frameSize mask) + (top &&& 3)
      = (frameBase top mask).plus (frameSize mask + (top &&& 3).toNat) := by
        rw [← plus_plus]
        simp only [Word.plus, BitVec.ofNat_toNat, BitVec.setWidth_eq]
    _ = top := plus_frameBase top mask

/-- The registers below SP that a return from a call's frame leaves are those the call found. -/
theorem returned_regs {s u t v : State} {sps : List Spec} {sBit w top ap entry : Word} {mask : BitVec 16}
    {count : List Word} (hcalled : Called s u t sps sBit mask top ap entry count) (hret : Returned t v w)
    (hmask : w.extractLsb' 16 12 = mask.extractLsb' 0 12) {n : Reg} (hn : n < Reg.sp) : v.r n = u.r n := by
  have hfp := hcalled.fp
  rcases lt_or_ge n Reg.ap with hlow | hhigh
  · by_cases hm : n ∈ maskedRegs (w.extractLsb' 16 12)
    · obtain ⟨j, hj⟩ := List.mem_iff_getElem?.1 hm
      rw [hret.restored j n hj, hfp, hcalled.saved j n (hmask ▸ hj)]
    · rw [hret.regs n hlow hm, hcalled.evaluated n hlow]
  · have hcases : ∀ m : Reg, Reg.ap ≤ m → m < Reg.sp → m = Reg.ap ∨ m = Reg.fp := by decide
    obtain rfl | rfl := hcases n hhigh hn
    · rw [hret.ap, hfp, hcalled.savedAp]
    · rw [hret.fp, hfp, hcalled.savedFp]

/-- Settles O34: the frame that CALLS has built is one that RET undoes, and what RET reads there is what CALLS
has saved. -/
theorem retUndoesCalls : Obligations.RetUndoesCalls := by
  intro numarg dst s u t n a h hpsl hexec hd hfetch
  have he := evaluated_operandsRA h
  have hok : enterCall true [n] State.sp a u = .ok t := by
    rw [exec_calls h] at hexec
    exact ok_of_conclude_next hd (.after (.of_evaluated he) confines_enterCall) hexec
  obtain ⟨hn, hcalled⟩ := called_of_calls h hok
  obtain ⟨-, (hcount : canAccess 4 (u.sp - 4) u),
    (hframe : canAccess (frameSize (u.word a)) (frameBase (u.sp - 4) (u.word a)) u)⟩ :=
      (enterCall_completes_iff le_rfl).1 ⟨t, hok⟩
  have hcfg : t.cfg = u.cfg := by rw [hcalled.rest, he.cfg]
  have hupsl : u.psl &&& 0x0000FF10 = 0 := by rw [he.psl, hpsl]
  have hstatus : t.long (t.r Reg.fp + 4) = frameStatus ((u.sp - 4).extractLsb' 0 2) true (u.word a) u.psl := by
    rw [hcalled.fp]
    exact hcalled.status.trans (frameStatus_eq (u.sp - 4) true _ _).symm
  have hmask := frameStatus_mask (u.sp - 4) true (u.word a) u.psl
  have hspa := frameStatus_spa (u.sp - 4) true (u.word a) u.psl
  have hs := frameStatus_s (u.sp - 4) true (u.word a) u.psl
  have hmbz := frameStatus_mbz (u.sp - 4) true (u.word a) hupsl
  have hreturned := frameStatus_psl (u.sp - 4) true (u.word a) hupsl (w := t.psl) (by rw [hcalled.psl, he.psl])
  rw [← hstatus] at hmask hspa hs hmbz hreturned
  generalize hw : t.long (t.r Reg.fp + 4) = w at hmask hspa hs hmbz hreturned
  have htop : returnTop (t.r Reg.fp) w = u.sp - 4 := by rw [hcalled.fp, returnTop_frameBase hmask hspa]
  have hmem : canAccess (returnSize w) (t.r Reg.fp + 4) t := by
    rw [frameSize_eq_returnSize hmask, canAccess_add, ← hcalled.fp] at hframe
    exact (canAccess_congr hcfg _ _).2 hframe.2
  obtain ⟨v, hv, hret⟩ := retUndoesTheFrame t w hfetch hw.symm hmbz hmem fun _ => by
    rw [htop]
    exact (canAccess_congr hcfg _ _).2 hcount
  refine ⟨v, hv, fun r hr => returned_regs hcalled hret hmask hr, ?_, ?_, ?_, hret.rest⟩
  · rw [hret.sp, htop, hn, if_pos hs, BitVec.sub_add_cancel]
  · rw [hret.pc, hcalled.fp, hcalled.savedPc]
  · rw [hret.psl, hreturned, he.psl]

end Sys2Proof.Proofs

/-!
PROOF. The images that raise the reserved operand fault in CALLS, CALLG, RET and LDPCTX (45_procedure_call.md R236,
R237, R240, 46_privileged.md R254, 60_exceptions.md R307).
-/

namespace Sys2Proof.Proofs

open Sys2Proof Sys2Proof.Machine

/-- A call to an entry mask with bit 12 or 13 set stops before anything is pushed (R236). -/
theorem enterCall_reserved {calls : Bool} {counts : List Word} {ap : State → Word} {a : Word} {u : State}
    (hmask : canAccess 2 a u) (hmbz : (u.word a).extractLsb' 12 2 ≠ 0) :
    enterCall calls counts ap a u = .error (.fault .reservedOperand) := by
  have hentry : entryMask a u = .error (.fault .reservedOperand) := by
    rw [entryMask, bind_of_ok (memRead_word hmask), if_pos (by simpa using hmbz)]
  exact bind_of_error hentry _

/-- The value of a field is that of the longword shifted and masked. -/
theorem toNat_extract (w : Word) {lo len : Nat} (h : len ≤ 32) :
    (w.extractLsb' lo len).toNat = ((w >>> lo) &&& BitVec.ofNat 32 (2 ^ len - 1)).toNat := by
  rw [← setWidth_extract, BitVec.toNat_setWidth_of_le h]

/-- LDPCTX's checks on the fields of the block are R254's on its longwords. -/
theorem pcbRejects_eq_true_iff (t80 t84 t88 t92 : Word) :
    pcbRejects t80 t84 t88 t92 = true ↔ ¬ pcbAccepts t80 t84 t88 t92 := by
  have hregion (w : Word) : w.extractLsb' 30 2 = 2 ↔ w >>> 30 = 2 := by
    rw [← setWidth_extract_top, ← BitVec.toNat_inj, ← BitVec.toNat_inj, BitVec.toNat_setWidth_of_le (by decide)]
    rfl
  have hlow (w : Word) : w.extractLsb' 0 2 = 0 ↔ w &&& 3 = 0 := by
    rw [← BitVec.toNat_inj, ← BitVec.toNat_inj, toNat_extract _ (by decide), BitVec.ushiftRight_zero]
    rfl
  have hlength (w : Word) : (w.extractLsb' 0 22).toNat = (w &&& 0x3FFFFF).toNat := by
    rw [toNat_extract _ (by decide), BitVec.ushiftRight_zero]
    rfl
  have hlevel (w : Word) : (w.extractLsb' 24 3).toNat = ((w >>> 24) &&& 7).toNat := toNat_extract w (by decide)
  simp only [pcbRejects, pcbAccepts, Bool.or_eq_true, bne_iff_ne, decide_eq_true_eq, hlength, hlevel, hlow, hregion,
    ne_eq, ← Nat.not_le, ← not_and_or, and_assoc]

/-- An instruction stops where its opcode byte can be fetched and its body, begun after that byte, stops. -/
theorem exec_stop {i : Instr} {s : State} {body : State → Except Stop State} {e : Stop}
    (hexec : exec i s = runInstr s body) (hfetch : canFetch 1 s) (h : body (s.setPc (s.pc + 1)) = .error e) :
    exec i s = conclude s (.error e) := by
  rw [hexec, runInstr_of_fetch hfetch, h]

/-- LDPCTX in kernel mode on the interrupt stack faults on a block that its checks turn down (R254). -/
theorem exec_ldpctx_reserved {s : State} (hfetch : canFetch 1 s) (hkernel : pslCUR s.psl = 0)
    (his : pslIS s.psl = true) (hmem : canAccess 16 (s.pcbb + 80) s)
    (hrejects : pcbRejects (s.long (s.pcbb + 80)) (s.long (s.pcbb + 84)) (s.long (s.pcbb + 88))
      (s.long (s.pcbb + 92)) = true) : exec .ldpctx s = raiseFault .reservedOperand s := by
  have hread (k : Nat) (hk : k + 4 ≤ 16) :
      pcbRead (BitVec.ofNat 32 (80 + k)) (s.setPc (s.pc + 1)) = .ok (s.long (s.pcbb.plus (80 + k))) := by
    have hlong : canAccess 4 (s.pcbb.plus (80 + k)) s := fun i hi => by
      rw [plus_plus, Nat.add_assoc, ← plus_plus]
      exact hmem (k + i) (by omega)
    exact memRead_long_setPc hlong _
  refine exec_stop (e := .fault .reservedOperand) rfl hfetch ?_
  refine (kernelOnly_bind (s := s.setPc (s.pc + 1)) hkernel _).trans ((if_neg (by simp [his])).trans ?_)
  refine (bind_of_ok (hread 0 (by decide)) _).trans ((bind_of_ok (hread 4 (by decide)) _).trans ?_)
  refine (bind_of_ok (hread 8 (by decide)) _).trans ((bind_of_ok (hread 12 (by decide)) _).trans ?_)
  exact if_pos hrejects

/-- LDPCTX off the interrupt stack is refused (R254). -/
theorem exec_ldpctx_off_interrupt_stack {s : State} (hfetch : canFetch 1 s) (hkernel : pslCUR s.psl = 0)
    (his : pslIS s.psl = false) : exec .ldpctx s = .refused .ldpctxOffInterruptStack := by
  refine exec_stop (e := .refuse .ldpctxOffInterruptStack) rfl hfetch ?_
  exact (kernelOnly_bind (s := s.setPc (s.pc + 1)) hkernel _).trans (if_pos (by simp [his]))

/-- Settles O41: each check comes before all else that its instruction does with the image. -/
theorem reservedImagesFault : Obligations.ReservedImagesFault := by
  refine ⟨fun numarg dst s u n a h hmask hmbz => ?calls, fun arglist dst s u al a h hmask hmbz => ?callg,
    fun s hfetch hstatus hmbz => ?ret, fun s hfetch hkernel => ⟨fun his hmem hrejects => ?ldpctx, fun his => ?off⟩⟩
  case calls =>
    rw [exec_calls h, enterCall_reserved (((evaluated_operandsRA h).canAccess_iff _ _).2 hmask) hmbz]
    rfl
  case callg =>
    rw [exec_callg h, enterCall_reserved (((evaluated_operandsAA h).canAccess_iff _ _).2 hmask) hmbz]
    rfl
  case ret =>
    rw [exec_ret hfetch hstatus, if_pos (by simpa using hmbz)]
    rfl
  case ldpctx =>
    exact exec_ldpctx_reserved hfetch hkernel his hmem ((pcbRejects_eq_true_iff _ _ _ _).2 hrejects)
  case off => exact exec_ldpctx_off_interrupt_stack hfetch hkernel his

end Sys2Proof.Proofs

/-!
PROOF. The mode check of the privileged instructions, HALT, and the noninterference of a step outside kernel mode
(46_privileged.md R250, R262, 60_exceptions.md R304).

Each of the five privileged instructions begins with `kernelOnly`, so one law of such a body serves them all. That
the other instructions write nothing privileged is the relation `Confined`, which holds of every body but REI's.
-/

namespace Sys2Proof.Proofs

open Sys2Proof Sys2Proof.Machine

/-! ## The mode check (R250) -/

section ModeCheck

variable {i : Instr} {s : State} {body : State → Except Stop State}

/-- Outside kernel mode an instruction that begins with the mode check faults there. -/
theorem exec_kernelOnly_user (hexec : exec i s = runInstr s fun t => kernelOnly t >>= fun _ => body t)
    (hfetch : canFetch 1 s) (hcur : pslCUR s.psl ≠ 0) : exec i s = raiseFault .privilegedInstruction s :=
  exec_stop (e := .fault .privilegedInstruction) hexec hfetch (bind_of_error (if_neg hcur) _)

/-- In kernel mode an instruction that begins with the mode check ends as the rest of its body does. -/
theorem exec_kernelOnly_kernel (hexec : exec i s = runInstr s fun t => kernelOnly t >>= fun _ => body t)
    (hfetch : canFetch 1 s) (hcur : pslCUR s.psl = 0) : exec i s = conclude s (body (s.setPc (s.pc + 1))) := by
  rw [hexec, runInstr_of_fetch hfetch, kernelOnly_bind (by exact hcur)]

end ModeCheck

/-- Settles O36: the five bodies begin with the mode check, before any operand. -/
theorem privilegedOutsideKernelFaults : Obligations.PrivilegedOutsideKernelFaults := by
  intro s hfetch hcur
  exact ⟨exec_kernelOnly_user rfl hfetch hcur, exec_kernelOnly_user rfl hfetch hcur,
    exec_kernelOnly_user rfl hfetch hcur, fun _ _ => exec_kernelOnly_user rfl hfetch hcur,
    fun _ _ => exec_kernelOnly_user rfl hfetch hcur⟩

/-- Settles O37: past the opcode byte and the mode check HALT only sets `halted`. -/
theorem haltStopsTheProcessor : Obligations.HaltStopsTheProcessor :=
  fun _ hfetch hcur =>
    exec_kernelOnly_kernel (body := fun t => .ok { t with halted := true }) rfl hfetch hcur

/-! ## A step outside kernel mode -/

/-- Where exceptions are not delivered, an instruction other than REI that comes to a next state is confined. -/
theorem confined_of_exec {i : Instr} {s t : State} (hrei : i ≠ .rei) (hd : s.cfg.deliver = false)
    (h : exec i s = .next t) : Confined s t := by
  obtain ⟨body, hexec, hbody⟩ := confinedInstr_of_ne_rei hrei
  have hconfines : Confines s id (fetch 1 s >>= body) := .bind .fetch fun u _ => hbody u
  rw [hexec] at h
  exact hconfines.ok t (ok_of_conclude_next hd hconfines h)

/-- Where exceptions are not delivered, no interrupt is entered: the boundary only asks the oracle (R311). -/
theorem offerInterrupt_of_not_deliver {s t : State} (hd : s.cfg.deliver = false)
    (h : offerInterrupt s = .next t) : ∃ more, t = { s with irqs := more } := by
  rw [offerInterrupt] at h
  split at h
  next => cases h; exact ⟨s.irqs, rfl⟩
  next =>
    split at h
    next => cases h; exact ⟨s.irqs, rfl⟩
    next rest _ => cases h; exact ⟨rest, rfl⟩
    next q rest _ =>
      dsimp only at h
      split at h
      next => cases h; exact ⟨rest, rfl⟩
      next => rw [if_neg (by simp [hd])] at h; cases h

/-- A step that runs an instruction reaches the boundary in the state in which the instruction has ended. -/
theorem atBoundary_next {o : Outcome} {t : State} (h : atBoundary o = .next t) :
    ∃ u, o = .next u ∧ offerInterrupt u = .next t := by
  cases o with
  | next u => exact ⟨u, rfl, h⟩
  | fault f => cases h
  | refused r => cases h

/-- PSLs that agree above the low byte agree under a mask that leaves the low byte out. -/
theorem SameUpper.and {v w mask : Word} (h : SameUpper v w) (hmask : ∀ i < 8, mask.getLsbD i = false) :
    v &&& mask = w &&& mask := by
  apply word_ext
  intro i _
  by_cases hi : 8 ≤ i
  · simp only [BitVec.getLsbD_and, h i hi]
  · simp only [BitVec.getLsbD_and, hmask i (Nat.lt_of_not_le hi), Bool.and_false]

/-- Settles O60: the instruction is confined, so outside kernel mode it writes nothing privileged, and the
boundary takes only an answer off the oracle's list. -/
theorem userStepsKeepSystemState : Obligations.UserStepsKeepSystemState := by
  intro s t i rest hr hdecode hrei hd hcur hstep
  rw [step_of_decode hr hdecode] at hstep
  obtain ⟨u, hexec, hoffer⟩ := atBoundary_next hstep
  have hconfined := confined_of_exec hrei hd hexec
  have huser := hconfined.user hcur
  obtain ⟨more, rfl⟩ := offerInterrupt_of_not_deliver (by rw [hconfined.cfg, hd]) hoffer
  exact ⟨huser.psl.and (by decide), more, by rw [huser.rest]⟩

end Sys2Proof.Proofs

/-!
PROOF. REI (46_privileged.md R252, R316), and that it undoes the entry of an exception (60_exceptions.md R314).

Where both images can be popped, REI is a check of the PSL image and then one update of the state, `returned`. The
statements say the checks in R252's own words, so each check is shown to be that condition. That REI undoes an entry
follows from what the two have done, `Entered` and `ReturnedFromException`: the entry saves the stack pointer in the
slot that the old PSL makes live, and REI takes it from there.
-/

namespace Sys2Proof.Proofs

open Sys2Proof Sys2Proof.Machine

/-! ## The checks of the PSL image (R252) -/

/-- REI's checks on the fields of the image let through what meets R252's conditions. -/
theorem reiRejects_eq_false_iff (old new : Word) : reiRejects old new = false ↔ reiAccepts old new := by
  have hpos (l : BitVec 5) : 0 < l ↔ l ≠ 0 := BitVec.pos_iff_ne_zero l
  have his : (pslIS new && !pslIS old) = false ∧ (pslIS new && pslCUR new != 0) = false ∧
      (pslIS new && pslIPL new == 0) = false ↔
      (pslIS new = true → pslIS old = true ∧ pslCUR new = 0 ∧ pslIPL new ≠ 0) := by
    cases pslIS new <;> simp
  simp only [reiRejects, reiAccepts, Bool.or_eq_false_iff, and_assoc, ← his, decide_eq_false_iff_not,
    BitVec.not_lt, BitVec.le_def, Bool.and_eq_false_imp, decide_eq_true_eq, hpos, bne_eq_false_iff_eq, pslMbz]

/-- The AST check that REI makes of an image after the others. -/
def astPending (new : Word) (s : State) : Bool :=
  !pslIS new && decide (s.astlvl.toNat ≤ (pslCUR new).toNat)

/-- An image has a meaning where it passes REI's last two checks (R29, R252). -/
theorem reiModelled_iff (new : Word) (s : State) :
    reiModelled new s ↔ pslUnmodelled new = false ∧ astPending new s = false := by
  simp only [reiModelled, pslUnmodelled, astPending, Bool.or_eq_false_iff, and_assoc, Bool.and_eq_false_imp,
    Bool.not_eq_true', decide_eq_false_iff_not, Nat.not_le]

/-! ## REI where both images can be popped -/

/-- Two pops in a row, where memory exists for both. -/
theorem pop32_pair {s : State} (h : canAccess 8 s.sp s) :
    pop32 s = .ok (s.long s.sp, s.setR Reg.sp (s.sp + 4)) ∧
      pop32 (s.setR Reg.sp (s.sp + 4)) = .ok (s.long (s.sp + 4), s.setR Reg.sp (s.sp + 8)) := by
  obtain ⟨hfirst, hsecond⟩ := (canAccess_add (j := 4) (k := 4)).1 h
  have hpop := pop32_at (s := s.setR Reg.sp (s.sp + 4)) (sp_setSp _ _) hsecond
  rw [long_setR, setR_setR_same, BitVec.add_assoc] at hpop
  exact ⟨pop32_at rfl hfirst, hpop⟩

/-- The bank once REI has saved the stack pointer that it popped the images from. -/
def bankAfterPops (s : State) : SpBank := s.spbank.put (s.sp + 8) (bankOf s.psl)

/-- The state that REI makes of the images it has popped: the stack switched to that of the mode returned to, the
PSL and the program counter loaded, the record of stored bytes emptied. -/
def returned (new pc : Word) (s : State) : State :=
  { (s.setR Reg.sp ((bankAfterPops s).get (bankOf new))).setPc pc with
    psl := new, spbank := bankAfterPops s, written := [] }

/-- The switch of the stack from the state in which the images have been popped is that of `returned`. -/
theorem returned_eq (new pc : Word) (s : State) : returned new pc s =
    { (((s.setR Reg.sp (s.sp + 8)).switchStack (bankOf s.psl) (bankOf new)).setPsl new).setPc pc with
      written := [] } := by
  have hswitch : (s.setR Reg.sp (s.sp + 8)).switchStack (bankOf s.psl) (bankOf new) =
      { s.setR Reg.sp ((bankAfterPops s).get (bankOf new)) with spbank := bankAfterPops s } := by
    rw [State.switchStack, sp_setSp]
    exact setR_setR_same (s.setBanked (bankOf s.psl) (s.sp + 8)) _ _ _
  rw [hswitch]
  rfl

/-- REI with the images popped: the checks in their order, then the return. -/
def returnTo (new pc : Word) (s : State) : Except Stop State :=
  if reiRejects s.psl new then .error (.fault .reservedOperand)
  else if pslUnmodelled new then .error (.refuse .unmodelledPslBit)
  else if astPending new s then .error (.refuse .astDeliveryNotModelled)
  else .ok (returned new pc s)

/-- REI pops both images before it checks the second. -/
theorem returnFromException_eq {s : State} (hstack : canAccess 8 s.sp s) :
    returnFromException s = returnTo (s.long (s.sp + 4)) (s.long s.sp) s := by
  obtain ⟨hfirst, hsecond⟩ := pop32_pair hstack
  rw [returnFromException, bind_of_ok hfirst]
  dsimp only
  rw [bind_of_ok hsecond, returnTo, returned_eq]
  rfl

/-- The program counter is loaded whatever it was. -/
theorem returned_setPc (new pc : Word) (s : State) (x : Word) :
    returned new pc (s.setPc x) = returned new pc s := by
  simp only [returned, bankAfterPops, sp_setPc, spbank_setR, psl_setR]
  rw [State.setPc, setR_comm s (by decide), State.setPc, setR_setR_same]

/-- The images are those of the state in which REI began, and the fetch of the opcode byte leaves no trace. -/
theorem exec_rei {s : State} (hfetch : canFetch 1 s) (hstack : canAccess 8 s.sp s) :
    exec .rei s = conclude s (returnTo (s.long (s.sp + 4)) (s.long s.sp) s) := by
  refine (runInstr_of_fetch hfetch _).trans (congrArg (conclude s) ?_)
  rw [returnFromException_eq (by rw [sp_setPc]; exact hstack), sp_setPc, long_setR, long_setR, returnTo,
    returned_setPc]
  rfl

/-- What the return has done. -/
theorem returnedFromException_returned (s : State) (new pc : Word) :
    ReturnedFromException s (returned new pc s) new pc where
  psl := rfl
  pc := r_setR_same ..
  bank := rfl
  sp := (sp_setPc ..).trans (sp_setSp ..)
  written := rfl
  regs _ hsp hpc := (r_setR_other _ _ hpc.symm).trans (r_setR_other _ _ hsp.symm)
  rest := rfl

/-- Settles O38: an image that meets R252's conditions and has a meaning passes each check in turn. -/
theorem reiReturns : Obligations.ReiReturns := by
  intro s hfetch hstack haccepts hmodelled
  obtain ⟨hbits, hast⟩ := (reiModelled_iff _ _).1 hmodelled
  refine ⟨_, ?_, returnedFromException_returned s _ _⟩
  rw [exec_rei hfetch hstack, returnTo, if_neg (Bool.eq_false_iff.1 ((reiRejects_eq_false_iff _ _).2 haccepts)),
    if_neg (Bool.eq_false_iff.1 hbits), if_neg (Bool.eq_false_iff.1 hast)]
  rfl

/-- Settles O39: the reserved operand check comes first, then that of the unmodelled bits, then that of a pending
AST. -/
theorem reiChecksTheImage : Obligations.ReiChecksTheImage := by
  intro s hfetch hstack
  rw [exec_rei hfetch hstack, returnTo]
  refine ⟨fun hreserved => ?_, fun haccepts hmodelled => ?_⟩
  · rw [if_pos (Bool.ne_false_iff.1 (mt (reiRejects_eq_false_iff _ _).1 hreserved))]
    rfl
  · rw [if_neg (Bool.eq_false_iff.1 ((reiRejects_eq_false_iff _ _).2 haccepts))]
    split
    next => exact .inl rfl
    next hbits =>
      have hast : astPending (s.long (s.sp + 4)) s = true :=
        Bool.ne_false_iff.1 fun h => hmodelled ((reiModelled_iff _ _).2 ⟨Bool.eq_false_iff.2 hbits, h⟩)
      rw [if_pos hast]
      exact .inr rfl

/-! ## An entry undone (R252, R314) -/

/-- What an exception's entry that has come to a next state has done, and that memory exists for its pushes. -/
theorem entered_of_takeEntry {off savedPc : Word} {params : List Word} {s t : State} (hl : params.length ≤ 1)
    (h : takeEntry .exception off savedPc params s = .next t) :
    ∃ vec, canAccess (entrySize params) t.sp t ∧
      Entered s t vec savedPc params (pslCUR s.psl) (if vec.getLsbD 0 then 31 else pslIPL s.psl) := by
  have henter := takeEntry_next_iff.1 h
  obtain ⟨hvec, hcode, -⟩ := enter_ok (by omega) henter
  rw [enter_of_vector hvec hcode] at henter
  obtain ⟨u, hu, hnext⟩ := bind_ok_iff.1 henter
  obtain rfl := Except.ok.inj hnext
  have hpushed := pushParams_ok (by simp only [List.length_append, List.length_cons, List.length_nil]; omega) hu
  have hentered := entered_of_pushedAll (prv := pslCUR s.psl) rfl hpushed
  have hcfg : (u.setPc (s.long (s.scbb + off) &&& 0xFFFFFFFC)).cfg = s.cfg := by rw [hentered.rest]
  refine ⟨_, ?_, hentered⟩
  rw [hentered.sp, canAccess_congr hcfg]
  exact (entry_pushes_iff (kind := .exception) (savedPc := savedPc) _ hl).1 ⟨u, hu⟩

theorem spBank_get_put_same (b : SpBank) (v : Word) (x : Slot) : (b.put v x).get x = v := by
  cases x <;> rfl

/-- A slot given what it holds. -/
theorem spBank_put_get (b : SpBank) (x : Slot) : b.put (b.get x) x = b := by
  cases x <;> rfl

section Entry

variable {s t : State} {vec savedPc : Word} {params : List Word} {prv : BitVec 2} {ipl : BitVec 5}

/-- An entry makes the stack live that its vector picks (R35, R314). -/
theorem bankOf_of_entered (h : Entered s t vec savedPc params prv ipl) :
    bankOf t.psl = if pslIS s.psl || vec.getLsbD 0 then .i else .k := by
  rw [bankOf, h.is, h.cur]
  rfl

/-- The stack pointer of the mode entered from, once the one that the entry pushed from is back in its slot: on
the interrupt stack the two are one, else it stands where the entry saved it. -/
theorem get_bank_of_entered (h : Entered s t vec savedPc params prv ipl) :
    (t.spbank.put (entryTop vec s) (bankOf t.psl)).get (bankOf s.psl) = s.sp := by
  rw [bankOf_of_entered h, h.bank, entryTop]
  by_cases his : pslIS s.psl = true
  · have hslot : bankOf s.psl = .i := by rw [bankOf, if_pos his]
    simp only [his, if_true, Bool.true_or, hslot, spBank_get_put_same]
  · rw [Bool.not_eq_true] at his
    simp only [his, Bool.false_or, Bool.false_eq_true, if_false, spBank_put_get, spBank_get_put_same]

/-- REI accepts the PSL that an exception's entry has saved, where it is one that REI could have made. -/
theorem reiAccepts_of_entered
    (h : Entered s t vec savedPc params prv (if vec.getLsbD 0 then 31 else pslIPL s.psl))
    (hlegal : pslLegal s.psl = true) (his : pslIS s.psl = true → pslIPL s.psl ≠ 0) :
    reiAccepts t.psl s.psl := by
  simp only [pslLegal, Bool.and_eq_true, Bool.or_eq_true, beq_iff_eq, Bool.not_eq_true', decide_eq_true_eq] at hlegal
  obtain ⟨⟨⟨hmbz, hkernelIS⟩, hkernelIPL⟩, hprv⟩ := hlegal
  have hcur (hIS : pslIS s.psl = true) : pslCUR s.psl = 0 := hkernelIS.resolve_left (by simp [hIS])
  have hlevel : (pslIPL s.psl).toNat ≤ (pslIPL t.psl).toNat := by
    rw [h.ipl]
    split
    next => exact Nat.le_of_lt_succ (pslIPL s.psl).isLt
    next => exact le_rfl
  refine ⟨by simp [h.cur], fun hIS => ⟨by simp [h.is, hIS], hcur hIS, his hIS⟩, hkernelIPL.resolve_left, hprv,
    hlevel, hmbz⟩

end Entry

/-- Settles O53: the entry has pushed the images that REI pops, and REI accepts them. -/
theorem reiUndoesEntry : Obligations.ReiUndoesEntry := by
  intro off savedPc s t hentry hfetch hlegal his hmodelled
  obtain ⟨vec, hstack, hentered⟩ := entered_of_takeEntry (params := []) (by decide) hentry
  have hpc : t.long t.sp = savedPc := by simpa using hentered.savedPc
  have hpsl : t.long (t.sp + 4) = s.psl := by simpa using hentered.savedPsl
  have hast : t.astlvl = s.astlvl := by rw [hentered.rest]
  have htop : t.sp + 8 = entryTop vec s := by
    rw [hentered.sp]
    exact BitVec.sub_add_cancel _ _
  obtain ⟨v, hexec, hreturned⟩ := reiReturns t hfetch hstack
    (by rw [hpsl]; exact reiAccepts_of_entered hentered hlegal his) (by rw [hpsl, reiModelled, hast]; exact hmodelled)
  rw [hpsl, hpc] at hreturned
  refine ⟨v, hexec, hreturned.pc, hreturned.psl, fun n hn => ?_, hreturned.written, fun x => ?_⟩
  · by_cases hsp : n = Reg.sp
    · rw [hsp]
      exact hreturned.sp.trans (by rw [hreturned.bank, htop, get_bank_of_entered hentered])
    · rw [hreturned.regs n hsp hn, hentered.regs n hsp hn]
  · rw [hreturned.rest]
    rfl

end Sys2Proof.Proofs

/-!
PROOF. The process context instructions LDPCTX and SVPCTX (46_privileged.md R253, R254, R256).

LDPCTX reads a block that lies whole in memory, so nothing stops it before its pushes: the state from which it pushes
is written down once, `contextTaken`, and the two pushes are one run, the second image read between them. SVPCTX pops
two images and then stores twenty longwords one after the other, so the block it writes is one run of stored bytes.
-/

namespace Sys2Proof.Proofs

open Sys2Proof Sys2Proof.Machine

/-! ## Reading the block (R253) -/

/-- A longword reads the same where memory does. -/
theorem long_of_mem {s t : State} (h : t.mem = s.mem) (x : Word) : t.long x = s.long x :=
  long_congr fun _ _ => by rw [State.byteAt, State.byteAt, h]

/-- A longword of a block that exists can be read. -/
theorem canAccess_long {n k : Nat} {a : Word} {s : State} (h : canAccess n a s) (hk : k + 4 ≤ n) :
    canAccess 4 (a.plus k) s := fun i hi => by
  rw [plus_plus]
  exact h (k + i) (by omega)

/-- A longword of the block, read in a state with the same memory. -/
theorem pcbRead_ok {n k : Nat} {s t : State} (h : canAccess n s.pcbb s) (hk : k + 4 ≤ n) (hmem : t.mem = s.mem)
    (hcfg : t.cfg = s.cfg) (hpcbb : t.pcbb = s.pcbb) :
    pcbRead (BitVec.ofNat 32 k) t = .ok (s.long (s.pcbb.plus k)) := by
  rw [pcbRead, hpcbb, memRead_long ((canAccess_congr hcfg _ _).2 (canAccess_long h hk)), long_of_mem hmem]

/-- The registers are loaded where the block exists. -/
theorem pcbLoadRegs_completes {es : List (Reg × Word)} {s : State}
    (h : ∀ e ∈ es, canAccess 4 (s.pcbb + e.2) s) : ∃ t, pcbLoadRegs es s = .ok t := by
  induction es generalizing s with
  | nil => exact ⟨s, rfl⟩
  | cons e es ih =>
    obtain ⟨t, ht⟩ := ih (s := s.setR e.1 (s.long (s.pcbb + e.2))) fun e' he' => h e' (List.mem_cons_of_mem e he')
    exact ⟨t, (bind_of_ok (memRead_long (h e List.mem_cons_self)) _).trans ht⟩

/-- Where the block holds a register (R253). -/
theorem mem_pcbRegs : ∀ i : Reg, i < Reg.sp → (i, 16 + BitVec.ofNat 32 (4 * i.val)) ∈ pcbRegs := by decide

/-- The block holds R0 to R11, AP and FP within its first 72 bytes. -/
theorem pcbRegs_place : ∀ e ∈ pcbRegs, e.1 < Reg.sp ∧ e.2.toNat + 4 ≤ 72 := by
  simp only [pcbRegs, List.forall_mem_cons, List.not_mem_nil, false_implies, implies_true, and_true]
  decide

/-- The registers are loaded from the block. -/
theorem pcbLoadRegs_pcbRegs {s : State} (h : canAccess 96 s.pcbb s) :
    ∃ t, pcbLoadRegs pcbRegs s = .ok t ∧
      (∀ i : Reg, i < Reg.sp → t.r i = s.long (s.pcbb + 16 + BitVec.ofNat 32 (4 * i.val))) ∧
      (∀ i : Reg, Reg.sp ≤ i → t.r i = s.r i) ∧ ∃ regs, t = { s with reg := regs } := by
  obtain ⟨t, ht⟩ := pcbLoadRegs_completes (es := pcbRegs) (s := s) fun e he => by
    have := canAccess_long h (k := e.2.toNat) (by have := (pcbRegs_place e he).2; omega)
    rwa [Word.plus, BitVec.ofNat_toNat, BitVec.setWidth_eq] at this
  obtain ⟨hloaded, hkept, hrest⟩ := pcbLoadRegs_ok pcbRegs_apart.2 ht
  refine ⟨t, ht, fun i hi => ?_, fun i hi => hkept i fun hmem => ?_, t.reg, hrest⟩
  · rw [hloaded _ (mem_pcbRegs i hi), BitVec.add_assoc]
  · obtain ⟨e, he, rfl⟩ := List.mem_map.1 hmem
    exact absurd (pcbRegs_place e he).1 (not_lt.2 hi)

/-! ## What LDPCTX makes of the block (R254) -/

/-- The context of the block at PCBB in `s`, its registers among `regs`, taken off the interrupt stack: the state from
which LDPCTX pushes. -/
def contextTaken (regs : Vector Word 16) (s : State) : State :=
  { s with
    reg := regs.set Reg.sp (s.long s.pcbb)
    spbank := { k := s.long s.pcbb, e := s.long (s.pcbb + 4), s := s.long (s.pcbb + 8),
                u := s.long (s.pcbb + 12), i := regs[Reg.sp] }
    p0br := s.long (s.pcbb + 80)
    p0lr := s.long (s.pcbb + 84) &&& 0x3FFFFF
    astlvl := ((s.long (s.pcbb + 84) >>> 24) &&& 7).setWidth 3
    p1br := s.long (s.pcbb + 88)
    p1lr := s.long (s.pcbb + 92) &&& 0x3FFFFF
    psl := s.psl &&& 0xFBFFFFFF }

/-- LDPCTX's pushes: the PSL image, then the PC image, read after the first push. -/
def pushImages (s : State) : Except Stop State := do
  let psl ← pcbRead 76 s
  let s ← push32 psl s
  let pc ← pcbRead 72 s
  push32 pc s

/-- IS cleared, as a mask. -/
theorem pslWithIS_false (w : Word) : pslWithIS false w = w &&& 0xFBFFFFFF := by
  apply word_ext
  intro i hi
  simp only [pslWithIS, getLsbD_setBit]
  interval_cases i <;> simp

/-- The 22 bits of a length register, as a mask. -/
theorem lengthField_eq (w : Word) : (w.extractLsb' 0 22).setWidth 32 = w &&& 0x3FFFFF := by
  rw [setWidth_extract, BitVec.ushiftRight_zero]
  rfl

/-- The three bits of ASTLVL, as a shift and a mask. -/
theorem astlvlField_eq (w : Word) : w.extractLsb' 24 3 = ((w >>> 24) &&& 7).setWidth 3 := by
  have h : (w >>> 24) &&& 7 = (w.extractLsb' 24 3).setWidth 32 := (setWidth_extract w 24 3).symm
  rw [h, BitVec.setWidth_setWidth_of_le _ (by decide), BitVec.setWidth_eq]

/-- The four stack pointers of the block loaded. -/
def stackPointersTaken (s : State) : State :=
  (((s.setBanked .k (s.long s.pcbb)).setBanked .e (s.long (s.pcbb + 4))).setBanked .s
    (s.long (s.pcbb + 8))).setBanked .u (s.long (s.pcbb + 12))

/-- LDPCTX in kernel mode on the interrupt stack, with a block that passes its checks, comes to its pushes. -/
theorem exec_ldpctx {s : State} (hfetch : canFetch 1 s) (hkernel : pslCUR s.psl = 0) (his : pslIS s.psl = true)
    (hmem : canAccess 96 s.pcbb s)
    (haccepts : pcbAccepts (s.long (s.pcbb + 80)) (s.long (s.pcbb + 84)) (s.long (s.pcbb + 88))
      (s.long (s.pcbb + 92))) :
    ∃ regs : Vector Word 16,
      (∀ i : Reg, i < Reg.sp → regs[i] = s.long (s.pcbb + 16 + BitVec.ofNat 32 (4 * i.val))) ∧
      regs[Reg.sp] = s.sp ∧ regs[Reg.pc] = s.pc + 1 ∧
      exec .ldpctx s = conclude s (pushImages (contextTaken regs s)) := by
  have hread (k : Nat) (hk : k + 4 ≤ 96) :
      pcbRead (BitVec.ofNat 32 k) (s.setPc (s.pc + 1)) = .ok (s.long (s.pcbb.plus k)) :=
    pcbRead_ok hmem hk rfl rfl rfl
  have hread0 : pcbRead 0 (s.setPc (s.pc + 1)) = .ok (s.long s.pcbb) :=
    (hread 0 (by decide)).trans (by rw [plus_zero])
  obtain ⟨t, ht, hloaded, hkept, regs, hregs⟩ :=
    pcbLoadRegs_pcbRegs (s := stackPointersTaken (s.setPc (s.pc + 1))) hmem
  subst hregs
  refine ⟨regs, hloaded, (hkept Reg.sp le_rfl).trans (sp_setPc ..),
    (hkept Reg.pc (by decide)).trans (r_setR_same ..),
    (exec_kernelOnly_kernel rfl hfetch hkernel).trans (congrArg (conclude s) ?_)⟩
  refine (if_neg (by simp [his])).trans ?_
  refine (bind_of_ok (hread 80 (by decide)) _).trans ((bind_of_ok (hread 84 (by decide)) _).trans ?_)
  refine (bind_of_ok (hread 88 (by decide)) _).trans ((bind_of_ok (hread 92 (by decide)) _).trans ?_)
  refine (if_neg ?_).trans ?_
  · rw [pcbRejects_eq_true_iff, not_not]
    exact haccepts
  refine (bind_of_ok hread0 _).trans ((bind_of_ok (hread 4 (by decide)) _).trans ?_)
  refine (bind_of_ok (hread 8 (by decide)) _).trans ((bind_of_ok (hread 12 (by decide)) _).trans ?_)
  refine (bind_of_ok ht _).trans ?_
  simp only [contextTaken, ← pslWithIS_false, ← lengthField_eq, ← astlvlField_eq]
  rfl

/-! ## The pushes of LDPCTX -/

/-- Storing bytes and writing a register can be done in either order. -/
theorem storeBytes_setR (s : State) (n : Reg) (x a : Word) (vs : List Byte) :
    (s.setR n x).storeBytes a vs = (s.storeBytes a vs).setR n x := by
  induction vs generalizing s a with
  | nil => rfl
  | cons v vs ih => exact ih (s.storeByte a v) _

/-- The memory after a store is that before it with the bytes loaded. -/
theorem mem_storeBytes (s : State) (a : Word) (vs : List Byte) :
    (s.storeBytes a vs).mem = memLoad s.mem a vs := by
  induction vs generalizing s a with
  | nil => rfl
  | cons v vs ih => exact ih (s.storeByte a v) _

theorem pcbb_storeBytes (s : State) (a : Word) (vs : List Byte) : (s.storeBytes a vs).pcbb = s.pcbb := by
  rw [storeBytes_rest]

/-- The PC image of the block at PCBB, found after `psl` has been pushed (R254). -/
def pcImageAfterPush (psl : Word) (s : State) : Word :=
  (s.storeBytes (s.sp - 4) (leBytes 4 psl.toNat)).long (s.pcbb + 72)

/-- The pushes of LDPCTX are one run, the PC image below the PSL image. -/
theorem pushImages_pushedAll {s : State} (hmem : canAccess 96 s.pcbb s) (hstack : canAccess 8 (s.sp - 8) s) :
    ∃ t, pushImages s = .ok t ∧
      PushedAll [pcImageAfterPush (s.long (s.pcbb + 76)) s, s.long (s.pcbb + 76)] s t := by
  generalize hpsl : s.long (s.pcbb + 76) = psl
  obtain ⟨t, ht⟩ := (pushParams_completes_iff (vs := [pcImageAfterPush psl s, psl]) (by simp)).2 hstack
  refine ⟨t, ?_, pushParams_ok (by simp) ht⟩
  obtain ⟨u, hu, hpc⟩ := bind_ok_iff.1 ht
  replace hu : push32 psl s = .ok u := hu
  have hread : pcbRead 72 u = .ok (pcImageAfterPush psl s) := by
    obtain ⟨-, rfl⟩ := push32_ok_iff.1 hu
    rw [storeBytes_setR]
    have hblock : canAccess 96 (s.storeBytes (s.sp - 4) (leBytes 4 psl.toNat)).pcbb
        (s.storeBytes (s.sp - 4) (leBytes 4 psl.toNat)) := by
      rw [pcbb_storeBytes]
      exact (canAccess_congr (cfg_storeBytes ..) _ _).2 hmem
    rw [pcImageAfterPush, ← pcbb_storeBytes s (s.sp - 4) (leBytes 4 psl.toNat)]
    exact pcbRead_ok (k := 72) hblock (by decide) rfl rfl rfl
  refine (bind_of_ok (pcbRead_ok (s := s) (k := 76) hmem (by decide) rfl rfl rfl) _).trans ?_
  rw [show s.long (s.pcbb.plus 76) = psl from hpsl, bind_of_ok hu, bind_of_ok hread, hpc]

/-! ## What LDPCTX has done -/

section ContextTaken

variable (regs : Vector Word 16) (s : State)

theorem r_contextTaken (n : Reg) :
    (contextTaken regs s).r n = if Reg.sp = n then s.long s.pcbb else regs[n] :=
  r_setR { s with reg := regs } Reg.sp n (s.long s.pcbb)

theorem sp_contextTaken : (contextTaken regs s).sp = s.long s.pcbb := by rw [State.sp, r_contextTaken, if_pos rfl]

theorem long_contextTaken (x : Word) : (contextTaken regs s).long x = s.long x := long_of_mem rfl x

end ContextTaken

/-- Settles O40: nothing stops LDPCTX before its pushes, and these are one run. -/
theorem ldpctxLoadsTheContext : Obligations.LdpctxLoadsTheContext := by
  intro s hfetch hkernel his hmem haccepts hstack
  obtain ⟨regs, hloaded, hsp, hpc, hexec⟩ := exec_ldpctx hfetch hkernel his hmem haccepts
  have hvsp := sp_contextTaken regs s
  obtain ⟨t, ht, hpushed⟩ := pushImages_pushedAll (s := contextTaken regs s) hmem (by rw [hvsp]; exact hstack)
  have htsp : t.sp = s.long s.pcbb - 8 := by rw [hpushed.sp, hvsp]; rfl
  have hregs {n : Reg} (hn : n ≠ Reg.sp) : t.r n = regs[n] := by
    rw [hpushed.regs n hn, r_contextTaken, if_neg hn.symm]
  have hlow {n : Reg} (hn : n < Reg.sp) : t.r n = s.long (s.pcbb + 16 + BitVec.ofNat 32 (4 * n.val)) :=
    (hregs hn.ne).trans (hloaded n hn)
  refine ⟨t, by rw [hexec, ht]; rfl, ?_⟩
  constructor
  case bank => rw [hpushed.rest, ← hsp]; rfl
  case low => exact fun i hi => hlow (hi.trans (by decide))
  case ap => rw [hlow (by decide), BitVec.add_assoc]; rfl
  case fp => rw [hlow (by decide), BitVec.add_assoc]; rfl
  case pc => exact (hregs (by decide)).trans hpc
  case p0br | p0lr | astlvl | p1br | p1lr | psl => rw [hpushed.rest]; rfl
  case sp => exact htsp
  case pslImage =>
    have h := hpushed.value 1 _ rfl
    have hplace : (s.long s.pcbb - 8).plus (4 * 1) = s.long s.pcbb - 4 := by
      rw [Word.plus]
      bv_omega
    rw [htsp, hplace, long_contextTaken] at h
    exact h
  case pcImage =>
    have h := hpushed.value 0 _ rfl
    rw [htsp, plus_zero, pcImageAfterPush, hvsp, long_contextTaken] at h
    exact h.trans (long_of_mem (by rw [mem_storeBytes, mem_storeBytes]; rfl) _)
  case bytes =>
    intro x hx
    rw [← htsp] at hx
    exact hpushed.bytes x fun i hi he => hx (List.mem_map.2 ⟨i, List.mem_range.2 hi, he.symm⟩)
  case recorded =>
    rw [← htsp]
    exact hpushed.recorded.of_eq rfl rfl
  case rest => rw [hpushed.rest]; rfl

end Sys2Proof.Proofs

/-!
PROOF. SVPCTX (46_privileged.md R253, R256).

SVPCTX pops two images, takes the interrupt stack, and stores twenty longwords into the process control block, each
right above the one before. So what it has stored so far is always one run of bytes from PCBB up, `blockStored`, each
store makes that run a longword longer, and what lies in the block follows from the laws of a run.
-/

namespace Sys2Proof.Proofs

open Sys2Proof Sys2Proof.Machine

/-! ## Longwords stored in the block -/

/-- The bytes of longwords in ascending address order (R53). -/
def longBytes (vs : List Word) : List Byte := vs.flatMap fun v => leBytes 4 v.toNat

theorem longBytes_append (vs ws : List Word) : longBytes (vs ++ ws) = longBytes vs ++ longBytes ws :=
  List.flatMap_append

theorem longBytes_single (v : Word) : longBytes [v] = leBytes 4 v.toNat := List.flatMap_singleton ..

@[simp] theorem length_longBytes (vs : List Word) : (longBytes vs).length = 4 * vs.length := by
  simp [longBytes, List.length_flatMap, Nat.mul_comm]

/-- A run of stores in two parts. -/
theorem storeBytes_append (s : State) (a : Word) (bs cs : List Byte) :
    s.storeBytes a (bs ++ cs) = (s.storeBytes a bs).storeBytes (a.plus bs.length) cs := by
  induction bs generalizing s a with
  | nil => rw [List.length_nil, plus_zero]; rfl
  | cons b bs ih =>
    rw [List.length_cons, Nat.add_comm, ← plus_plus]
    exact ih (s.storeByte a b) (a.plus 1)

/-- The state with longwords stored from PCBB up. -/
def blockStored (vs : List Word) (s : State) : State := s.storeBytes s.pcbb (longBytes vs)

section BlockStored

variable (vs : List Word) (s : State)

theorem blockStored_rest :
    blockStored vs s = { s with mem := (blockStored vs s).mem, written := (blockStored vs s).written } :=
  storeBytes_rest ..

theorem r_blockStored (n : Reg) : (blockStored vs s).r n = s.r n := r_storeBytes ..

theorem banked_blockStored (x : Slot) : (blockStored vs s).banked x = s.banked x := by
  rw [blockStored_rest]
  rfl

/-- A longword stored right above those already stored. -/
theorem blockStored_snoc (v : Word) : blockStored (vs ++ [v]) s =
    (blockStored vs s).storeBytes (s.pcbb.plus (4 * vs.length)) (leBytes 4 v.toNat) := by
  rw [blockStored, longBytes_append, storeBytes_append, length_longBytes, longBytes_single]
  rfl

variable {vs s}

/-- The next longword is stored where the block exists. -/
theorem pcbWrite_blockStored {n : Nat} (hmem : canAccess n s.pcbb s) (h : 4 * vs.length + 4 ≤ n) (v : Word) :
    pcbWrite (BitVec.ofNat 32 (4 * vs.length)) v (blockStored vs s) = .ok (blockStored (vs ++ [v]) s) := by
  refine memWrite_ok_iff.2 ?_
  rw [show (blockStored vs s).pcbb = s.pcbb from pcbb_storeBytes .., blockStored_snoc]
  exact ⟨(canAccess_congr (cfg_storeBytes ..) _ _).2 (canAccess_long hmem h), rfl⟩

/-- The next banked stack pointer is stored where the block exists. -/
theorem pcbWrite_banked {n : Nat} (hmem : canAccess n s.pcbb s) (h : 4 * vs.length + 4 ≤ n) (x : Slot) :
    pcbWrite (BitVec.ofNat 32 (4 * vs.length)) ((blockStored vs s).banked x) (blockStored vs s) =
      .ok (blockStored (vs ++ [s.banked x]) s) := by
  rw [banked_blockStored, pcbWrite_blockStored hmem h]

/-- Registers with consecutive places in the block, from the offset `off` up. -/
def placesFrom (off : Word) : List Reg → List (Reg × Word)
  | [] => []
  | n :: ns => (n, off) :: placesFrom (off + 4) ns

/-- The registers of the block, in its order (R253). -/
def contextRegs : List Reg := [0, 1, 2, 3, 4, 5, 6, 7, 8, 9, 10, 11, 12, 13]

theorem pcbRegs_eq : pcbRegs = placesFrom 16 contextRegs := rfl

/-- The next registers are stored where the block exists. -/
theorem pcbStoreRegs_blockStored {n : Nat} (hmem : canAccess n s.pcbb s) {ns : List Reg}
    (h : 4 * (vs.length + ns.length) ≤ n) :
    pcbStoreRegs (placesFrom (BitVec.ofNat 32 (4 * vs.length)) ns) (blockStored vs s) =
      .ok (blockStored (vs ++ ns.map s.r) s) := by
  induction ns generalizing vs with
  | nil => simp [placesFrom, pcbStoreRegs]
  | cons m ns ih =>
    rw [List.length_cons] at h
    have hlen : BitVec.ofNat 32 (4 * vs.length) + 4 = BitVec.ofNat 32 (4 * (vs ++ [s.r m]).length) := by
      rw [List.length_append, List.length_singleton, Nat.mul_add, BitVec.ofNat_add]
      rfl
    have hstore := pcbWrite_blockStored (vs := vs) hmem (by omega) (s.r m)
    rw [placesFrom, pcbStoreRegs, r_blockStored, bind_of_ok hstore, hlen, ih (by simp; omega), List.append_assoc]
    rfl

/-- A longword stored in the block reads back. -/
theorem long_blockStored (hl : 4 * vs.length ≤ 2 ^ 32) {j : Nat} {v : Word} (h : vs[j]? = some v) :
    (blockStored vs s).long (s.pcbb.plus (4 * j)) = v := by
  induction vs using List.reverseRecOn with
  | nil => simp at h
  | append_singleton vs w ih =>
    rw [List.length_append, List.length_singleton] at hl
    rw [blockStored_snoc]
    rcases lt_trichotomy j vs.length with hj | rfl | hj
    · rw [List.getElem?_append_left hj] at h
      rw [← ih (by omega) h]
      refine long_congr fun i hi => byteAt_storeBytes_other _ _ _ _ fun k hk he => ?_
      rw [length_leBytes] at hk
      rw [plus_plus, plus_plus] at he
      have := plus_inj _ (by omega) (by omega) he
      omega
    · obtain rfl : w = v := by simpa using h
      exact long_storeBytes ..
    · rw [List.getElem?_eq_none (by simp; omega)] at h
      cases h

end BlockStored

/-! ## The interrupt stack taken (R256) -/

/-- IS set, as a mask. -/
theorem pslWithIS_true (w : Word) : pslWithIS true w = w ||| 0x04000000 := by
  apply word_ext
  intro i hi
  simp only [pslWithIS, getLsbD_setBit]
  interval_cases i <;> simp

/-- IPL raised from 0 to 1, as a mask. -/
theorem pslWithIPL_one {w : Word} (h : pslIPL w = 0) : pslWithIPL 1 w = w ||| 0x00010000 := by
  have hzero (i : Nat) (hi : i < 5) : w.getLsbD (16 + i) = false := by
    have hbit := congrArg (BitVec.getLsbD · i) h
    simpa [pslIPL, hi] using hbit
  apply word_ext
  intro i hi
  rw [pslWithIPL, getLsbD_setField, BitVec.getLsbD_or]
  split
  next hfield =>
    obtain ⟨hlo, hhi⟩ := hfield
    have hbit := hzero (i - 16) (by omega)
    rw [Nat.add_sub_cancel' hlo] at hbit
    rw [hbit]
    interval_cases i <;> simp
  next hfield => interval_cases i <;> simp at hfield ⊢

/-- IPL raised from 0 to 1 and IS set, as a mask. -/
theorem pslWithIS_withIPL {w : Word} (h : pslIPL w = 0) :
    pslWithIS true (pslWithIPL 1 w) = w ||| 0x04010000 := by
  rw [pslWithIS_true, pslWithIPL_one h, BitVec.or_assoc]
  rfl

/-- The state in which SVPCTX begins to store: both images popped, the interrupt stack taken. -/
def saveStart (s : State) : State := toInterruptStack ((s.setPc (s.pc + 1)).setR Reg.sp (s.sp + 8))

section SaveStart

variable (s : State)

theorem saveStart_rest : saveStart s = { s with
    reg := (saveStart s).reg, psl := (saveStart s).psl, spbank := (saveStart s).spbank } := by
  rw [saveStart, toInterruptStack]
  split <;> rfl

theorem psl_saveStart : (saveStart s).psl = if pslIS s.psl then s.psl
    else if pslIPL s.psl = 0 then s.psl ||| 0x04010000 else s.psl ||| 0x04000000 := by
  rw [saveStart, toInterruptStack, psl_setR, psl_setR]
  split
  next => rfl
  next =>
    split
    next h => exact pslWithIS_withIPL h
    next => exact pslWithIS_true s.psl

theorem sp_saveStart : (saveStart s).sp = if pslIS s.psl then s.sp + 8 else s.spbank.i := by
  rw [saveStart, toInterruptStack, psl_setR, psl_setR]
  split
  next => exact sp_setSp ..
  next => exact sp_setSp ..

theorem spbank_saveStart : (saveStart s).spbank =
    if pslIS s.psl then s.spbank else { s.spbank with k := s.sp + 8 } := by
  rw [saveStart, toInterruptStack, psl_setR, psl_setR]
  split
  next => rfl
  next => exact congrArg (s.spbank.put · .k) (sp_setSp (s.setPc (s.pc + 1)) (s.sp + 8))

/-- The stack pointers of the other modes are not touched. -/
theorem banked_saveStart {x : Slot} (h : x ≠ .k) : (saveStart s).banked x = s.banked x := by
  rw [State.banked, spbank_saveStart]
  split
  next => rfl
  next => exact banked_setBanked_other s (s.sp + 8) h.symm

theorem r_saveStart {n : Reg} (hn : n ≠ Reg.sp) : (saveStart s).r n = (s.setPc (s.pc + 1)).r n := by
  rw [saveStart, toInterruptStack]
  split
  next => exact r_setR_other _ _ hn.symm
  next => exact (r_setR_other _ _ hn.symm).trans (r_setR_other _ _ hn.symm)

end SaveStart

/-! ## The stores of SVPCTX -/

/-- The longwords of the block below the images: the banked stack pointers and the registers (R253). -/
def bankAndRegs (s : State) : List Word :=
  [s.banked .k, s.banked .e, s.banked .s, s.banked .u] ++ contextRegs.map s.r

theorem length_bankAndRegs (s : State) : (bankAndRegs s).length = 18 := by simp [bankAndRegs, contextRegs]

/-- The longwords of the block that SVPCTX stores with the images `pc` and `psl`, in its order (R253). -/
def contextLongs (pc psl : Word) (s : State) : List Word := bankAndRegs s ++ [pc] ++ [psl]

theorem length_contextLongs (pc psl : Word) (s : State) : (contextLongs pc psl s).length = 20 := by
  simp [contextLongs, length_bankAndRegs]

/-- SVPCTX on the interrupt stack with the images `pc` and `psl`: the context is stored in the block. -/
def saveContext (pc psl : Word) (s : State) : Except Stop State := do
  let s ← pcbWrite 0 (s.banked .k) s
  let s ← pcbWrite 4 (s.banked .e) s
  let s ← pcbWrite 8 (s.banked .s) s
  let s ← pcbWrite 12 (s.banked .u) s
  let s ← pcbStoreRegs pcbRegs s
  let s ← pcbWrite 72 pc s
  pcbWrite 76 psl s

/-- The stores complete where the block exists. -/
theorem saveContext_ok {s : State} (hmem : canAccess 80 s.pcbb s) (pc psl : Word) :
    saveContext pc psl s = .ok (blockStored (contextLongs pc psl s) s) := by
  have hk := pcbWrite_banked (vs := []) hmem (by decide) .k
  have he := pcbWrite_banked (vs := [s.banked .k]) hmem (by simp) .e
  have hs := pcbWrite_banked (vs := [s.banked .k, s.banked .e]) hmem (by simp) .s
  have hu := pcbWrite_banked (vs := [s.banked .k, s.banked .e, s.banked .s]) hmem (by simp) .u
  have hregs : pcbStoreRegs pcbRegs (blockStored [s.banked .k, s.banked .e, s.banked .s, s.banked .u] s) =
      .ok (blockStored (bankAndRegs s) s) := by
    rw [pcbRegs_eq]
    exact pcbStoreRegs_blockStored (vs := [s.banked .k, s.banked .e, s.banked .s, s.banked .u]) hmem
      (by simp [contextRegs])
  have hpc := pcbWrite_blockStored (vs := bankAndRegs s) hmem (by rw [length_bankAndRegs]; decide) pc
  have hpsl := pcbWrite_blockStored (vs := bankAndRegs s ++ [pc]) hmem (by simp [length_bankAndRegs]) psl
  rw [length_bankAndRegs] at hpc
  rw [List.length_append, length_bankAndRegs, List.length_singleton] at hpsl
  refine (bind_of_ok hk _).trans ((bind_of_ok he _).trans ((bind_of_ok hs _).trans ((bind_of_ok hu _).trans ?_)))
  exact (bind_of_ok hregs _).trans ((bind_of_ok hpc _).trans hpsl)

/-- SVPCTX in kernel mode, where memory exists for the images and the block, completes with its stores. -/
theorem exec_svpctx {s : State} (hfetch : canFetch 1 s) (hkernel : pslCUR s.psl = 0) (hstack : canAccess 8 s.sp s)
    (hmem : canAccess 80 s.pcbb s) : exec .svpctx s = .next
      (blockStored (contextLongs (s.long s.sp) (s.long (s.sp + 4)) (saveStart s)) (saveStart s)) := by
  have hblock : canAccess 80 (saveStart s).pcbb (saveStart s) := by
    rw [saveStart_rest]
    exact hmem
  obtain ⟨hfirst, hsecond⟩ := pop32_pair (s := s.setPc (s.pc + 1)) (by rw [sp_setPc]; exact hstack)
  rw [sp_setPc, long_setR] at hfirst hsecond
  refine (exec_kernelOnly_kernel rfl hfetch hkernel).trans (congrArg (conclude s) (a₂ := .ok _) ?_)
  exact (bind_of_ok hfirst _).trans ((bind_of_ok hsecond _).trans (saveContext_ok hblock _ _))

/-! ## What SVPCTX has done -/

theorem getElem?_contextRegs : ∀ i : Reg, i < Reg.sp → contextRegs[i.val]? = some i := by decide

/-- The registers stand above the four stack pointers. -/
theorem getElem?_bankAndRegs (s : State) {i : Reg} (hi : i < Reg.sp) :
    (bankAndRegs s)[4 + i.val]? = some (s.r i) := by
  rw [bankAndRegs, List.getElem?_append_right (Nat.le_add_right 4 _), List.getElem?_map]
  exact congrArg (Option.map s.r) ((congrArg _ (Nat.add_sub_cancel_left ..)).trans (getElem?_contextRegs i hi))

/-- A longword of the context that is stored below the images. -/
theorem getElem?_contextLongs {s : State} {j : Nat} {v : Word} (pc psl : Word) (h : (bankAndRegs s)[j]? = some v) :
    (contextLongs pc psl s)[j]? = some v := by
  have hj : j < (bankAndRegs s).length := (List.getElem?_eq_some_iff.1 h).1
  rw [contextLongs, List.append_assoc, List.getElem?_append_left hj, h]

/-- The images stand at the end. -/
theorem getElem?_contextLongs_images (pc psl : Word) (s : State) :
    (contextLongs pc psl s)[18]? = some pc ∧ (contextLongs pc psl s)[19]? = some psl := by
  have hlength := length_bankAndRegs s
  rw [contextLongs]
  exact ⟨by simp [hlength], by simp [hlength]⟩

/-- Settles O42: the block is one run of stores, and each longword of it reads back. -/
theorem svpctxSavesTheContext : Obligations.SvpctxSavesTheContext := by
  intro s hfetch hkernel hstack hmem
  refine ⟨_, exec_svpctx hfetch hkernel hstack hmem, ?_⟩
  have hbelow {j : Nat} {v : Word} := getElem?_contextLongs (s := saveStart s) (j := j) (v := v) (s.long s.sp)
    (s.long (s.sp + 4))
  obtain ⟨hpcImage, hpslImage⟩ := getElem?_contextLongs_images (s.long s.sp) (s.long (s.sp + 4)) (saveStart s)
  have hlength := length_contextLongs (s.long s.sp) (s.long (s.sp + 4)) (saveStart s)
  generalize contextLongs (s.long s.sp) (s.long (s.sp + 4)) (saveStart s) = vs at *
  have hpcbb : (saveStart s).pcbb = s.pcbb := by rw [saveStart_rest]
  have hsize : (longBytes vs).length = 80 := by rw [length_longBytes, hlength]
  have hlong {j : Nat} {v : Word} (h : vs[j]? = some v) :
      (blockStored vs (saveStart s)).long (s.pcbb.plus (4 * j)) = v := by
    rw [← hpcbb]
    exact long_blockStored (by omega) h
  have hr (n : Reg) : (blockStored vs (saveStart s)).r n = (saveStart s).r n := r_blockStored ..
  have hspbank : (blockStored vs (saveStart s)).spbank = (saveStart s).spbank := by rw [blockStored_rest]
  constructor
  case pc => rw [State.pc, hr, r_saveStart s (by decide), r_setR_same]
  case regs =>
    intro n hn
    rw [hr, r_saveStart s hn.ne, r_setR_above _ _ (hn.trans (by decide))]
  case sp => exact (hr _).trans (sp_saveStart s)
  case bank => rw [hspbank, spbank_saveStart]
  case psl => exact (psl_storeBytes ..).trans (psl_saveStart s)
  case ksp =>
    rw [hspbank, ← plus_zero s.pcbb]
    exact hlong (j := 0) (hbelow rfl)
  case esp => exact (hlong (j := 1) (hbelow rfl)).trans (banked_saveStart s (by decide))
  case ssp => exact (hlong (j := 2) (hbelow rfl)).trans (banked_saveStart s (by decide))
  case usp => exact (hlong (j := 3) (hbelow rfl)).trans (banked_saveStart s (by decide))
  case low =>
    intro i hi
    have hplace : s.pcbb + 16 + BitVec.ofNat 32 (4 * i.val) = s.pcbb.plus (4 * (4 + i.val)) := by
      rw [Nat.mul_add]
      exact plus_plus s.pcbb 16 _
    rw [hplace, hlong (hbelow (getElem?_bankAndRegs _ hi)), r_saveStart s hi.ne,
      r_setR_above _ _ (hi.trans (by decide))]
  case pcImage => exact hlong (j := 18) hpcImage
  case pslImage => exact hlong (j := 19) hpslImage
  case bytes =>
    intro x hx
    have hother : (blockStored vs (saveStart s)).byteAt x = (saveStart s).byteAt x :=
      byteAt_storeBytes_other _ _ _ _ fun i hi he => hx <| by
        rw [hsize] at hi
        exact List.mem_map.2 ⟨i, List.mem_range.2 hi, by rw [he, hpcbb]⟩
    rw [hother, saveStart_rest]
    rfl
  case recorded =>
    have h := recorded_storeBytes (saveStart s) (saveStart s).pcbb (longBytes vs)
    rw [hsize] at h
    rw [← hpcbb]
    exact h.of_eq (by rw [saveStart_rest]) (by rw [saveStart_rest])
  case rest => rw [blockStored_rest, saveStart_rest]

end Sys2Proof.Proofs

/-!
PROOF. The string instructions (47_string.md R270 to R277).

Each body evaluates its operands, goes over the strings, and ends by writing result registers and condition codes
(R271). MOVC3 and MOVC5 have one end, `moveString`: the bytes are all read before any is written, and the copied
and the filled part of MOVC5 are one run of bytes. CMPC3, LOCC and SKPC write no memory: their loops are
characterized by the place where they stop, which the statements name by its index.
-/

namespace Sys2Proof.Proofs

open Sys2Proof Sys2Proof.Machine

/-! ## The operands of the string instructions -/

/-- The opcode and operands of access types r, a and a. -/
theorem operandsRAA_ok {len src dst : Spec} {s u : State} {n : BitVec 16} {a d : Word}
    (h : operandsRAA len src dst s = .ok (n, a, d, u)) :
    ∃ s1 s2 s3, fetch 1 s = .ok s1 ∧ evalRead .w len s1 = .ok (n, s2) ∧
      evalAddress .b src s2 = .ok (a, s3) ∧ evalAddress .b dst s3 = .ok (d, u) := by
  obtain ⟨⟨n', s2⟩, h1, h⟩ := bind_ok_iff.1 h
  obtain ⟨⟨a', s3⟩, hsrc, h⟩ := bind_ok_iff.1 h
  obtain ⟨⟨d', u'⟩, hdst, h⟩ := bind_ok_iff.1 h
  obtain ⟨s1, hopcode, hlen⟩ := operandsR_ok h1
  cases h
  exact ⟨s1, s2, s3, hopcode, hlen, hsrc, hdst⟩

theorem evaluated_operandsRAA {len src dst : Spec} {s u : State} {n : BitVec 16} {a d : Word}
    (h : operandsRAA len src dst s = .ok (n, a, d, u)) : Evaluated s u (stepped [len, src, dst]) := by
  obtain ⟨s1, s2, s3, hopcode, hlen, hsrc, hdst⟩ := operandsRAA_ok h
  have he := (((evaluated_fetch hopcode).trans (evalRead_ok hlen)).trans (evalAddress_ok hsrc)).trans
    (evalAddress_ok hdst)
  simpa [stepped] using he

/-- The opcode and operands of access types r, r and a. -/
theorem operandsRRA_ok {ch len addr : Spec} {s u : State} {c : Byte} {n : BitVec 16} {p : Word}
    (h : operandsRRA ch len addr s = .ok (c, n, p, u)) :
    ∃ s1 s2 s3, fetch 1 s = .ok s1 ∧ evalRead .b ch s1 = .ok (c, s2) ∧
      evalRead .w len s2 = .ok (n, s3) ∧ evalAddress .b addr s3 = .ok (p, u) := by
  obtain ⟨⟨c', n', s3⟩, h1, h⟩ := bind_ok_iff.1 h
  obtain ⟨⟨p', u'⟩, haddr, h⟩ := bind_ok_iff.1 h
  obtain ⟨s1, s2, hopcode, hch, hlen⟩ := operandsRR_ok h1
  cases h
  exact ⟨s1, s2, s3, hopcode, hch, hlen, haddr⟩

theorem evaluated_operandsRRA {ch len addr : Spec} {s u : State} {c : Byte} {n : BitVec 16} {p : Word}
    (h : operandsRRA ch len addr s = .ok (c, n, p, u)) : Evaluated s u (stepped [ch, len, addr]) := by
  obtain ⟨s1, s2, s3, hopcode, hch, hlen, haddr⟩ := operandsRRA_ok h
  have he := (((evaluated_fetch hopcode).trans (evalRead_ok hch)).trans (evalRead_ok hlen)).trans
    (evalAddress_ok haddr)
  simpa [stepped] using he

section Movc5Operands

variable {srclen src fill dstlen dst : Spec} {s u : State} {sl dl : BitVec 16} {a d : Word} {f : Byte}

/-- The opcode and the five operands of MOVC5. -/
theorem operandsMovc5_ok (h : operandsMovc5 srclen src fill dstlen dst s = .ok (sl, a, f, dl, d, u)) :
    ∃ s1 s2 s3 s4 s5, fetch 1 s = .ok s1 ∧ evalRead .w srclen s1 = .ok (sl, s2) ∧
      evalAddress .b src s2 = .ok (a, s3) ∧ evalRead .b fill s3 = .ok (f, s4) ∧
      evalRead .w dstlen s4 = .ok (dl, s5) ∧ evalAddress .b dst s5 = .ok (d, u) := by
  obtain ⟨⟨sl', s2⟩, h1, h⟩ := bind_ok_iff.1 h
  obtain ⟨⟨a', s3⟩, hsrc, h⟩ := bind_ok_iff.1 h
  obtain ⟨⟨f', s4⟩, hfill, h⟩ := bind_ok_iff.1 h
  obtain ⟨⟨dl', s5⟩, hdstlen, h⟩ := bind_ok_iff.1 h
  obtain ⟨⟨d', u'⟩, hdst, h⟩ := bind_ok_iff.1 h
  obtain ⟨s1, hopcode, hsrclen⟩ := operandsR_ok h1
  cases h
  exact ⟨s1, s2, s3, s4, s5, hopcode, hsrclen, hsrc, hfill, hdstlen, hdst⟩

theorem evaluated_operandsMovc5 (h : operandsMovc5 srclen src fill dstlen dst s = .ok (sl, a, f, dl, d, u)) :
    Evaluated s u (stepped [srclen, src, fill, dstlen, dst]) := by
  obtain ⟨s1, s2, s3, s4, s5, hopcode, hsrclen, hsrc, hfill, hdstlen, hdst⟩ := operandsMovc5_ok h
  have he := (((((evaluated_fetch hopcode).trans (evalRead_ok hsrclen)).trans (evalAddress_ok hsrc)).trans
    (evalRead_ok hfill)).trans (evalRead_ok hdstlen)).trans (evalAddress_ok hdst)
  simpa [stepped] using he

end Movc5Operands

/-! ## The condition codes of equality -/

/-- The condition codes that MOVC3 sets, and CMPC3 where the strings are equal (R272, R274). -/
abbrev equalCodes : Flags := { n := false, z := true, v := false, c := false }

theorem cmpFlags_self {n : Nat} (a : BitVec n) : cmpFlags a a = equalCodes := by
  simp [cmpFlags]

/-! ## The result registers (R271) -/

/-- Registers written one after the other. -/
def setResults : List (Reg × Word) → State → State
  | [], s => s
  | e :: out, s => setResults out (s.setR e.1 e.2)

theorem setResults_rest (out : List (Reg × Word)) (s : State) :
    setResults out s = { s with reg := (setResults out s).reg } := by
  induction out generalizing s with
  | nil => rfl
  | cons e out ih => exact ih (s.setR e.1 e.2)

/-- The registers that are no results are kept. -/
theorem r_setResults_other {out : List (Reg × Word)} {n : Reg} (s : State) (h : n ∉ out.map Prod.fst) :
    (setResults out s).r n = s.r n := by
  induction out generalizing s with
  | nil => rfl
  | cons e out ih =>
    rw [List.map_cons, List.mem_cons, not_or] at h
    obtain ⟨hne, htail⟩ := h
    exact (ih _ htail).trans (r_setR_other s e.2 (Ne.symm hne))

/-- A result reads back where no register is written twice. -/
theorem r_setResults_mem {out : List (Reg × Word)} (s : State) (hd : (out.map Prod.fst).Nodup) :
    ∀ e ∈ out, (setResults out s).r e.1 = e.2 := by
  induction out generalizing s with
  | nil => exact fun e he => nomatch he
  | cons e out ih =>
    obtain ⟨hnot, hd⟩ := List.nodup_cons.1 hd
    refine List.forall_mem_cons.2 ⟨?_, ih _ hd⟩
    exact (r_setResults_other _ hnot).trans (r_setR_same s e.1 e.2)

/-! ## The moves (R272, R273) -/

/-- The results of a move in R0 to R5. -/
def moveResults (r0 r1 r3 : Word) : List (Reg × Word) := [(0, r0), (1, r1), (2, 0), (3, r3), (4, 0), (5, 0)]

theorem setMoveRegs_eq (r0 r1 r3 : Word) (s : State) :
    s.setMoveRegs r0 r1 r3 = setResults (moveResults r0 r1 r3) s := rfl

theorem moveResults_regs (r0 r1 r3 : Word) : (moveResults r0 r1 r3).map Prod.fst = [0, 1, 2, 3, 4, 5] := rfl

theorem not_mem_moveResults {n : Reg} (hn : 5 < n) (r0 r1 r3 : Word) :
    n ∉ (moveResults r0 r1 r3).map Prod.fst := by
  rw [moveResults_regs]
  revert n
  decide

/-- A string written in two parts. -/
theorem writeString_append (d : Word) (bs cs : List Byte) (s : State) :
    writeString d (bs ++ cs) s = writeString d bs s >>= writeString (d.plus bs.length) cs := by
  induction bs generalizing d s with
  | nil => rw [List.length_nil, plus_zero]; rfl
  | cons b bs ih =>
    simp only [List.cons_append, writeString, ih, bind_assoc, plus_plus, List.length_cons, Nat.add_comm 1]

/-- The end of a move: `out` written from `d` upward, then the result registers and the condition codes. -/
def moveString (d : Word) (out : List Byte) (r0 r1 : Word) (f : Flags) (u : State) : Except Stop State := do
  let t ← writeString d out u
  .ok ((t.setMoveRegs r0 r1 (d.plus out.length)).setFlags f)

/-- A move ends with its bytes in memory where memory exists for them. -/
theorem moveString_moved {s u : State} {sps : List Spec} {d : Word} {out : List Byte} (r0 r1 : Word) (f : Flags)
    (he : Evaluated s u (stepped sps)) (hl : out.length ≤ 2 ^ 32) (hmem : canAccess out.length d s) :
    ∃ t, moveString d out r0 r1 f u = .ok t ∧ MovedCharacters s u t sps d out r0 r1 f := by
  have hwrite : writeString d out u = .ok (u.storeBytes d out) :=
    writeString_ok_iff.2 ⟨(he.canAccess_iff _ _).2 hmem, rfl⟩
  refine ⟨_, bind_of_ok hwrite _, ?_⟩
  rw [setMoveRegs_eq]
  have hresult := r_setResults_mem (out := moveResults r0 r1 (d.plus out.length)) (u.storeBytes d out)
    (by rw [moveResults_regs]; decide)
  have hkept (n : Reg) (hn : 5 < n) :
      (setResults (moveResults r0 r1 (d.plus out.length)) (u.storeBytes d out)).r n = u.r n :=
    (r_setResults_other _ (not_mem_moveResults hn _ _ _)).trans (r_storeBytes ..)
  have hrest := setResults_rest (moveResults r0 r1 (d.plus out.length)) (u.storeBytes d out)
  generalize setResults (moveResults r0 r1 (d.plus out.length)) (u.storeBytes d out) = t at *
  simp only [moveResults, List.forall_mem_cons] at hresult
  obtain ⟨h0, h1, h2, h3, h4, h5, -⟩ := hresult
  have hbyte (x : Word) : t.byteAt x = (u.storeBytes d out).byteAt x := by rw [hrest]; rfl
  have hpsl : t.psl = s.psl := by rw [hrest, psl_storeBytes, he.psl]
  constructor
  case moved =>
    rw [bytesAt_setFlags, bytesAt_congr fun i _ => hbyte (d.plus i), bytesAt_storeBytes u d out hl]
  case r0 => exact h0
  case r1 => exact h1
  case r2 => exact h2
  case r3 => exact h3
  case r4 => exact h4
  case r5 => exact h5
  case evaluated => exact hkept
  case regs => exact fun n hn hpc hsp => (hkept n hn).trans (he.regs n hpc hsp)
  case bytes =>
    intro x hx
    rw [byteAt_setFlags, hbyte, byteAt_storeBytes_other, he.byteAt]
    intro i hi hxi
    exact hx (List.mem_map.2 ⟨i, List.mem_range.2 hi, hxi.symm⟩)
  case recorded =>
    have hr := (recorded_storeBytes u d out).of_eq he.written.symm he.cfg.symm
    have hwritten : t.written = (u.storeBytes d out).written := by rw [hrest]
    exact ⟨fun x => by rw [written_setFlags, hwritten]; exact hr.mem x,
      fun h => hwritten.trans (hr.kept h)⟩
  case flags => exact pslFlags_withFlags f t.psl
  case psl => rw [pslKept, psl_setFlags, withFlags_and_mask, hpsl]
  case rest => rw [State.setFlags, State.setPsl, hrest, storeBytes_rest, he.rest]

/-- MOVC3 reads the whole source, then ends as a move (R272). -/
theorem exec_movc3 {len src dst : Spec} {s u t : State} {n : BitVec 16} {a d : Word}
    (h : operandsRAA len src dst s = .ok (n, a, d, u)) (hsource : canAccess n.toNat a u)
    (ht : moveString d (u.bytesAt a n.toNat) 0 (a.plus n.toNat) equalCodes u = .ok t) :
    exec (.movc3 len src dst) s = .next t := by
  obtain ⟨s1, s2, s3, hopcode, hlen, hsrc, hdst⟩ := operandsRAA_ok h
  have hread := readString_ok_iff.2 ⟨hsource, rfl⟩
  rw [moveString, length_bytesAt] at ht
  refine exec_next rfl hopcode ((bind_of_ok hlen _).trans ((bind_of_ok hsrc _).trans ((bind_of_ok hdst _).trans ?_)))
  exact (bind_of_ok hread _).trans ht

/-- Settles O46: the source is read in the state that the operands have reached, whose memory is that from before
the instruction. -/
theorem movc3CopiesTheString : Obligations.Movc3CopiesTheString := by
  intro len src dst s u n a d h hsource hdest
  have he := evaluated_operandsRAA h
  have hn := n.isLt
  obtain ⟨t, ht, hmoved⟩ := moveString_moved (out := s.bytesAt a n.toNat) 0 (a.plus n.toNat) equalCodes he
    (by rw [length_bytesAt]; omega) (by rwa [length_bytesAt])
  rw [← he.bytesAt] at ht
  exact ⟨t, exec_movc3 h ((he.canAccess_iff _ _).2 hsource) ht, hmoved⟩

/-- What MOVC5 writes: the shorter length of the source and the fill bytes (R273). -/
def paddedString (a : Word) (f : Byte) (sl dl : BitVec 16) (s : State) : List Byte :=
  s.bytesAt a (min sl.toNat dl.toNat) ++ List.replicate (dl.toNat - min sl.toNat dl.toNat) f

theorem length_paddedString (a : Word) (f : Byte) (sl dl : BitVec 16) (s : State) :
    (paddedString a f sl dl s).length = dl.toNat := by
  rw [paddedString, List.length_append, length_bytesAt, List.length_replicate,
    Nat.add_sub_cancel' (Nat.min_le_right ..)]

/-- MOVC5 reads the part of the source that it moves, then ends as a move of both parts (R273). -/
theorem exec_movc5 {srclen src fill dstlen dst : Spec} {s u t : State} {sl dl : BitVec 16} {a d : Word} {f : Byte}
    (h : operandsMovc5 srclen src fill dstlen dst s = .ok (sl, a, f, dl, d, u))
    (hsource : canAccess (min sl.toNat dl.toNat) a u)
    (ht : moveString d (paddedString a f sl dl u) (BitVec.ofNat 32 (sl.toNat - min sl.toNat dl.toNat))
      (a.plus (min sl.toNat dl.toNat)) (lengthFlags sl dl) u = .ok t) :
    exec (.movc5 srclen src fill dstlen dst) s = .next t := by
  obtain ⟨s1, s2, s3, s4, s5, hopcode, hsrclen, hsrc, hfill, hdstlen, hdst⟩ := operandsMovc5_ok h
  have hread := readString_ok_iff.2 ⟨hsource, rfl⟩
  rw [moveString, length_paddedString, paddedString, writeString_append, length_bytesAt, bind_assoc] at ht
  refine exec_next rfl hopcode ((bind_of_ok hsrclen _).trans ((bind_of_ok hsrc _).trans ((bind_of_ok hfill _).trans
    ((bind_of_ok hdstlen _).trans ((bind_of_ok hdst _).trans ?_)))))
  exact (bind_of_ok hread _).trans ht

/-- Settles O47: the copy and the fill are one run of bytes, as long as the destination. -/
theorem movc5CopiesAndFills : Obligations.Movc5CopiesAndFills := by
  intro srclen src fill dstlen dst s u sl dl a d f h hsource hdest
  have he := evaluated_operandsMovc5 h
  have hdl := dl.isLt
  obtain ⟨t, ht, hmoved⟩ := moveString_moved (out := paddedString a f sl dl s)
    (BitVec.ofNat 32 (sl.toNat - min sl.toNat dl.toNat)) (a.plus (min sl.toNat dl.toNat)) (lengthFlags sl dl) he
    (by rw [length_paddedString]; omega) (by rwa [length_paddedString])
  have hsame : paddedString a f sl dl u = paddedString a f sl dl s := by
    rw [paddedString, paddedString, he.bytesAt]
  rw [← hsame] at ht
  rw [lengthFlags, cmpFlags_eq] at hmoved
  exact ⟨t, exec_movc5 h ((he.canAccess_iff _ _).2 hsource) ht, hmoved⟩

/-! ## The end of a search (R271) -/

/-- The result registers and the condition codes set, after the specifiers have been evaluated. -/
theorem searched_setResults {s u : State} {sps : List Spec} {out : List (Reg × Word)}
    (he : Evaluated s u (stepped sps)) (hd : (out.map Prod.fst).Nodup) (f : Flags) :
    Searched s u ((setResults out u).setFlags f) sps out f where
  results := r_setResults_mem u hd
  evaluated _ hn := r_setResults_other u hn
  regs n hn hpc hsp := (r_setResults_other u hn).trans (he.regs n hpc hsp)
  flags := pslFlags_withFlags f _
  psl := by rw [pslKept, psl_setFlags, withFlags_and_mask, setResults_rest, he.psl]
  rest := by rw [State.setFlags, State.setPsl, setResults_rest, he.rest]

/-- The places of a string after its first byte. -/
theorem plus_one_plus (p : Word) (i : Nat) : (p.plus 1).plus i = p.plus (i + 1) := by
  rw [plus_plus, Nat.add_comm]

/-- Of the bytes up to the place `j + 1` of a string, the first exists and those after it do. -/
theorem canAccess_step {k j : Nat} {p : Word} {s : State} (h : canAccess (min (k + 1) (j + 1)) p s) :
    memRead 8 p s = .ok (s.byteAt p) ∧ canAccess (min k j) (p.plus 1) s := by
  rw [Nat.add_min_add_right, Nat.add_comm, canAccess_add] at h
  obtain ⟨hfirst, hlater⟩ := h
  exact ⟨memRead_byte (by simpa using hfirst 0 Nat.one_pos), hlater⟩

/-! ## The comparison (R274) -/

/-- A comparison stops at the first pair that differs, or at the end with the condition codes of equal bytes. -/
theorem compareStrings_first {p q : Word} {k j : Nat} {s : State} (hj : j ≤ k)
    (heq : ∀ i < j, s.byteAt (p.plus i) = s.byteAt (q.plus i))
    (hne : j < k → s.byteAt (p.plus j) ≠ s.byteAt (q.plus j))
    (hp : canAccess (min k (j + 1)) p s) (hq : canAccess (min k (j + 1)) q s) :
    compareStrings p q equalCodes k s =
      .ok { left := k - j, p := p.plus j, q := q.plus j
            flags := if j = k then equalCodes else compareCodes (s.byteAt (p.plus j)) (s.byteAt (q.plus j)) } := by
  induction k generalizing j p q with
  | zero =>
    obtain rfl : j = 0 := Nat.le_zero.1 hj
    simp [compareStrings]
  | succ k ih =>
    obtain ⟨hreadP, hp⟩ := canAccess_step hp
    obtain ⟨hreadQ, hq⟩ := canAccess_step hq
    rw [compareStrings, bind_of_ok hreadP, bind_of_ok hreadQ]
    cases j with
    | zero =>
      have hdiffer : s.byteAt p ≠ s.byteAt q := by simpa using hne (Nat.succ_pos k)
      simp [hdiffer, cmpFlags_eq]
    | succ j =>
      have hfirst : s.byteAt p = s.byteAt q := by simpa using heq 0 (Nat.succ_pos j)
      have hrest := ih (Nat.le_of_succ_le_succ hj)
        (fun i hi => by simpa only [plus_one_plus] using heq (i + 1) (Nat.succ_lt_succ hi))
        (fun hlt => by simpa only [plus_one_plus] using hne (Nat.succ_lt_succ hlt)) hp hq
      rw [if_neg (by simp [hfirst]), hfirst, cmpFlags_self, hrest]
      simp only [plus_one_plus, Nat.add_sub_add_right, Nat.add_right_cancel_iff]

/-- Settles O48: the loop stops at the place `j`, and the results are the rest of the length and the two
addresses. -/
theorem cmpc3FindsTheDifference : Obligations.Cmpc3FindsTheDifference := by
  intro len src1 src2 s u n p q j h hj heq hne hp hq
  have he := evaluated_operandsRAA h
  obtain ⟨s1, s2, s3, hopcode, hlen, hsrc1, hsrc2⟩ := operandsRAA_ok h
  have hcompare := compareStrings_first (s := u) hj (by simpa only [he.byteAt] using heq)
    (by simpa only [he.byteAt] using hne) ((he.canAccess_iff _ _).2 hp) ((he.canAccess_iff _ _).2 hq)
  simp only [he.byteAt] at hcompare
  refine ⟨_, exec_next rfl hopcode ((bind_of_ok hlen _).trans ((bind_of_ok hsrc1 _).trans
    ((bind_of_ok hsrc2 _).trans (bind_of_ok hcompare _)))), ?_⟩
  exact searched_setResults (out := [(0, _), (1, _), (2, _), (3, _)]) he (by simp) _

/-! ## The scans (R275, R276) -/

/-- A scan stops at the first byte that it does not skip, or at the end. -/
theorem scanString_first {skip : Byte → Bool} {p : Word} {k j : Nat} {s : State} (hj : j ≤ k)
    (hskip : ∀ i < j, skip (s.byteAt (p.plus i)) = true)
    (hstop : j < k → skip (s.byteAt (p.plus j)) = false) (hp : canAccess (min k (j + 1)) p s) :
    scanString skip p k s = .ok (k - j, p.plus j) := by
  induction k generalizing j p with
  | zero =>
    obtain rfl : j = 0 := Nat.le_zero.1 hj
    simp [scanString]
  | succ k ih =>
    obtain ⟨hread, hp⟩ := canAccess_step hp
    rw [scanString, bind_of_ok hread]
    cases j with
    | zero =>
      have hfirst : skip (s.byteAt p) = false := by simpa using hstop (Nat.succ_pos k)
      simp [hfirst]
    | succ j =>
      have hfirst : skip (s.byteAt p) = true := by simpa using hskip 0 (Nat.succ_pos j)
      have hrest := ih (Nat.le_of_succ_le_succ hj)
        (fun i hi => by simpa only [plus_one_plus] using hskip (i + 1) (Nat.succ_lt_succ hi))
        (fun hlt => by simpa only [plus_one_plus] using hstop (Nat.succ_lt_succ hlt)) hp
      rw [if_pos hfirst, hrest, plus_one_plus, Nat.add_sub_add_right]

/-- An instruction whose body is `scan` completes: it skips the bytes that do not meet `stop`. -/
theorem completesScan_of_scan {mk : Spec → Spec → Spec → Instr} {skip : Byte → Byte → Bool}
    {stop : Byte → Byte → Prop}
    (hexec : ∀ ch len addr s, exec (mk ch len addr) s = runInstr s (scan skip ch len addr))
    (hskip : ∀ c b, skip c b = true ↔ ¬ stop c b) : CompletesScan mk stop := by
  intro ch len addr s u c n p j h hj hbefore hat hp
  have he := evaluated_operandsRRA h
  obtain ⟨s1, s2, s3, hopcode, hch, hlen, haddr⟩ := operandsRRA_ok h
  have hscan : scanString (skip c) p n.toNat u = .ok (n.toNat - j, p.plus j) := by
    refine scanString_first hj (fun i hi => ?_) (fun hlt => ?_) ((he.canAccess_iff _ _).2 hp)
    · rw [he.byteAt, hskip]
      exact hbefore i hi
    · rw [he.byteAt, ← Bool.not_eq_true, hskip, not_not]
      exact hat hlt
  have hend : (n.toNat - j == 0) = decide (j = n.toNat) := by
    rw [beq_eq_decide]
    exact decide_eq_decide.2 (by omega)
  refine ⟨_, exec_next (hexec ch len addr s) hopcode ((bind_of_ok hch _).trans ((bind_of_ok hlen _).trans
    ((bind_of_ok haddr _).trans (bind_of_ok hscan _)))), ?_⟩
  rw [← hend]
  exact searched_setResults (out := [(0, _), (1, _)]) he (by simp) _

/-- Settles O49: LOCC skips the bytes that differ from the character, SKPC those that equal it. -/
theorem scansFindTheCharacter : Obligations.ScansFindTheCharacter :=
  ⟨completesScan_of_scan (fun _ _ _ _ => rfl) fun _ _ => bne_iff_ne,
    completesScan_of_scan (fun _ _ _ _ => rfl) fun _ _ => by rw [beq_iff_eq, not_not]⟩

end Sys2Proof.Proofs

/-!
PROOF. The shifts and the rotate (48_shift_rotate.md R285 to R288), and the vectors of the exceptions
(60_exceptions.md R301, R302, R306).

ASHL and ASHQ are the arithmetic form with the shift law, which the arithmetic instructions have settled. ROTL
ends like a move, with the rotated value.
-/

namespace Sys2Proof.Proofs

open Sys2Proof Sys2Proof.Machine

/-! ## Shifts -/

/-- The rotate law: the library's rotate is the two shifts of R288, also where the count is a multiple of 32. -/
theorem rotLaw_eq (c : BitVec 8) (x : BitVec 32) : rotLaw c x = rotateResult c x := by
  have hlt : (c.toInt % 32).toNat < 32 := by omega
  have hrotate : rotLaw c x =
      x <<< (c.toInt % 32).toNat ||| x >>> (32 - (c.toInt % 32).toNat) := by
    rw [rotLaw, BitVec.rotateLeft_def, Nat.mod_eq_of_lt hlt]
  rw [hrotate, rotateResult]
  split
  next hzero => rw [hzero, BitVec.shiftLeft_zero, BitVec.ushiftRight_eq_zero (Nat.le_refl 32), BitVec.or_zero]
  next => rfl

/-- ROTL completes: its end is that of a move, with the rotated value (R288). -/
theorem completesRRW_rotl :
    CompletesRRW .rotl .b .l rotateResult fun c x => keepsCarry (rotateResult c x) := by
  intro cnt src dst s u c x o h hw _
  obtain ⟨he, ho⟩ := evaluated_operandsRRW h
  obtain ⟨t, ht, hwrote⟩ := writeThenFlags_wrote (z := .l) (rotLaw c x) (moveFlags (rotLaw c x)) he ho hw
  obtain ⟨s3, hsources, hdst⟩ := operandsRRW_ok h
  obtain ⟨s1, s2, hopcode, hcnt, hsrc⟩ := operandsRR_ok hsources
  rw [rotLaw_eq, moveFlags_eq] at hwrote
  refine ⟨t, exec_next rfl hopcode ?_, hwrote⟩
  exact (bind_of_ok hcnt _).trans ((bind_of_ok hsrc _).trans ((bind_of_ok hdst _).trans ht))

/-- Settles O50: the bodies of ASHL and ASHQ are `shift` at their sizes, which runs the shift law. -/
theorem shiftAndRotateInstructions : Obligations.ShiftAndRotateInstructions :=
  ⟨(computesRRW_of_shift fun _ _ _ _ => rfl).completes ashLaw_eq,
    (computesRRW_of_shift fun _ _ _ _ => rfl).completes ashLaw_eq, completesRRW_rotl⟩

/-! ## Exceptions -/

/-- A delivered trap enters through 0x34 with its type code (R306). -/
theorem raiseTrap_of_deliver {s : State} (h : s.cfg.deliver = true) (k : ArithTrap) :
    raiseTrap k s = takeEntry .exception 0x34 s.pc [trapCode k] s :=
  if_pos h

/-- A trap that is not delivered ends the run in the completed state (R301). -/
theorem raiseTrap_of_not_deliver {s : State} (h : s.cfg.deliver = false) (k : ArithTrap) :
    raiseTrap k s = .fault (.arithmeticTrap k s) :=
  if_neg (Bool.eq_false_iff.1 h)

/-- Settles O51: the two sides of the test of `deliver`, for each fault and for the traps. -/
theorem exceptionsEnterThroughTheirVectors : Obligations.ExceptionsEnterThroughTheirVectors := by
  intro s
  refine ⟨fun hdeliver => ⟨if_pos hdeliver, if_pos hdeliver, if_pos hdeliver,
    raiseTrap_of_deliver hdeliver _, raiseTrap_of_deliver hdeliver _⟩, fun hdeliver => ?_⟩
  have hnot : ¬ s.cfg.deliver = true := Bool.eq_false_iff.1 hdeliver
  exact ⟨if_neg hnot, if_neg hnot, if_neg hnot, raiseTrap_of_not_deliver hdeliver _,
    raiseTrap_of_not_deliver hdeliver _⟩

end Sys2Proof.Proofs
